-- ==== Sys2Proof/Word.lean ====
section
/-! DEFINITION. The two word types of a trunk frame: a byte, and the 16-bit word that 10.5 of the manual
divides an item into (R180, R181). Everything that a frame does not carry as bits is a `Nat` in this model. -/

namespace Sys2Proof

/-- One byte of a trunk frame (R180). -/
abbrev Byte := BitVec 8

/-- Two bytes of a trunk frame, most significant byte first (R180). -/
abbrev Word := BitVec 16

end Sys2Proof
end

