-- ==== Sys2Proof/Syntax.lean ====
section
/-! DEFINITION. What the part is given: lines, frames and their items, and the commands, one constructor of
`Instr` for each row of spec/opcode_table.json. -/

namespace Sys2Proof

/-- The five trunk lines: field lines 0 to 3 and the control line (chapter 9). -/
inductive Line where
  | f0 | f1 | f2 | f3 | control
  deriving DecidableEq, Repr

/-- A four-byte item of a frame (10.5, frame and item). -/
structure Item where
  b0 : Byte
  b1 : Byte
  b2 : Byte
  b3 : Byte
  deriving DecidableEq, Repr

/-- A trunk frame of the layout of 10.5. `ctl` is byte 4 (kind, priority, override mark and the spare bit 0)
as it is carried, so that a forwarded frame is unchanged (R157). -/
structure Frame where
  dst : Word
  src : Word
  ctl : Byte
  tag : Byte
  items : List Item
  crc : Word
  deriving DecidableEq, Repr

/-- What a reply to a management order needs of the order's frame: its source address and its tag (R173). -/
structure Mgmt where
  source : Word
  tag : Byte
  deriving DecidableEq, Repr

/-- The commands: one constructor for each row of spec/opcode_table.json. The management orders carry the
words and bytes of their argument items as the layouts of 10.5 name them; R182's decoding of them belongs to
their meaning. -/
inductive Instr where
  /-- POWER_ON (R171), with the strap value 0..15. -/
  | powerOn (strap : BitVec 4)
  /-- FRAME_RECEIVED (R155): the bytes a receiver delimited on a line. -/
  | frameReceived (line : Line) (bytes : List Byte)
  /-- FRAME_TRANSMIT_END (R166): the transmitter of a line ends a frame. -/
  | frameTransmitEnd (line : Line)
  /-- AGING_EXPIRY (R147). -/
  | agingExpiry
  /-- FRESHNESS_EXPIRY (R27) of a sensor index. -/
  | freshnessExpiry (sensor : Nat)
  /-- TRAVEL_TIMER_EXPIRY (R117) of a valve id. -/
  | travelTimerExpiry (valve : Nat)
  /-- QUERY_TIMER_EXPIRY (R112) of a valve id. -/
  | queryTimerExpiry (valve : Nat)
  /-- POLL_EXPIRY (R114) of a valve id. -/
  | pollExpiry (valve : Nat)
  /-- DWELL_END (R116) of a valve id. -/
  | dwellEnd (valve : Nat)
  /-- VERIFY_WINDOW_EXPIRY (R137) of an incident record number. -/
  | verifyWindowExpiry (record : Nat)
  /-- TIME_WRAP (R185). -/
  | timeWrap
  /-- AREA_SEARCH_EXAMINE (R73). -/
  | areaSearchExamine
  /-- SUPPLY_WALK_REACH (R78). -/
  | supplyWalkReach
  /-- PLAN_COMPLETE (R85). -/
  | planComplete
  /-- LOAD_SEGMENT, order code 1 (R2). -/
  | loadSegment (m : Mgmt) (segment zone : Word) (source prot : Byte) (static ref : Word)
  /-- LOAD_VALVE, order code 2 (R8). -/
  | loadValve (m : Mgmt) (valve segA segB : Word) (kind normal : Byte) (station : Word)
      (channel overridePermitted material vclass operability : Byte) (velocity diameter : Word)
  /-- LOAD_MATERIAL_CLASS, order code 3 (R4). -/
  | loadMaterialClass (m : Mgmt) (cls speed rating : Word)
  /-- LOAD_VALVE_CLASS, order code 4 (R5): eleven curve words and eight profile bytes. -/
  | loadValveClass (m : Mgmt) (cls profileCount : Word) (curve : List Word) (profile : List Byte)
      (t10 allowance dwell poll : Word)
  /-- LOAD_SENSOR, order code 5 (R23); `place` is SEGMENT or INLET_ZONE by the kind. -/
  | loadSensor (m : Mgmt) (sensor station : Word) (channel kind : Byte) (place bandLow bandHigh : Word)
      (persist : Byte) (drop window : Word)
  /-- LOAD_ZONE, order code 6 (R30). -/
  | loadZone (m : Mgmt) (zone : Word) (threshold slots : Byte) (margin : Word) (saturation urgency : Byte)
      (window drained : Word)
  /-- LOAD_STATION, order code 7 (R150). -/
  | loadStation (m : Mgmt) (address : Word) (secure blocked : Byte) (line : Word)
  /-- CLEAR_SEGMENT, order code 17 (R3). -/
  | clearSegment (m : Mgmt) (segment : Word)
  /-- CLEAR_VALVE, order code 18 (R9). -/
  | clearValve (m : Mgmt) (valve : Word)
  /-- CLEAR_MATERIAL_CLASS, order code 19 (R4). -/
  | clearMaterialClass (m : Mgmt) (cls : Word)
  /-- CLEAR_VALVE_CLASS, order code 20 (R5). -/
  | clearValveClass (m : Mgmt) (cls : Word)
  /-- CLEAR_SENSOR, order code 21 (R25). -/
  | clearSensor (m : Mgmt) (sensor : Word)
  /-- CLEAR_ZONE, order code 22 (R30). -/
  | clearZone (m : Mgmt) (zone : Word)
  /-- CLEAR_STATION, order code 23 (R151). -/
  | clearStation (m : Mgmt) (address : Word)
  /-- READ_ENTRY, order code 32 (R21, R42, R154). -/
  | readEntry (m : Mgmt) (table id : Word)
  /-- SET_MODE, order code 40 (R177). -/
  | setMode (m : Mgmt) (mode : Word)
  /-- ZONE_MODE, order code 41 (R38). -/
  | zoneMode (m : Mgmt) (zone mode : Word)
  /-- SUSPEND_ALL, order code 42 (R39). -/
  | suspendAll (m : Mgmt)
  /-- RESUME_ALL, order code 43 (R39). -/
  | resumeAll (m : Mgmt)
  /-- CLEAR_LATCH, order code 44 (R40). -/
  | clearLatch (m : Mgmt) (zone : Word)
  /-- SET_MAPS, order code 45 (R176): eight class map bytes and four urgency map bytes. -/
  | setMaps (m : Mgmt) (classMap urgencyMap : List Byte) (noticePriority : Byte)
  /-- SET_NOTICE_ADDRESS, order code 46 (R176). -/
  | setNoticeAddress (m : Mgmt) (address : Word)
  /-- SET_STATION_MODE, order code 47 (R152). -/
  | setStationMode (m : Mgmt) (mode interval : Word)
  /-- SET_TRACE_POLICY, order code 48 (R184). -/
  | setTracePolicy (m : Mgmt) (policy : Word)
  /-- DECLARE, order code 64 (R49). -/
  | declare (m : Mgmt) (segment urgency : Word)
  /-- CONFIRM, order code 65 (R52). -/
  | confirm (m : Mgmt) (number : Word)
  /-- CANCEL, order code 66 (R61). -/
  | cancel (m : Mgmt) (number : Word)
  /-- RESTORE, order code 67 (R62). -/
  | restore (m : Mgmt) (number : Word)
  /-- RESUME, order code 68 (R58). -/
  | resume (m : Mgmt) (number : Word)
  /-- WIDEN, order code 69 (R60): the valve count and the words of the id items. -/
  | widen (m : Mgmt) (number count : Word) (ids : List Word)
  /-- CREW_REPORT, order code 70 (R15). -/
  | crewReport (m : Mgmt) (valve result : Word)
  /-- VALVE_STATE, order code 71 (R11). -/
  | valveState (m : Mgmt) (valve operability : Word)
  /-- READ_TRACE, order code 80 (R186). -/
  | readTrace (m : Mgmt) (wanted : Word)
  /-- READ_STATUS, order code 81 (R178). -/
  | readStatus (m : Mgmt)
  /-- READ_INCIDENT, order code 82 (R67). -/
  | readIncident (m : Mgmt) (number : Word)
  /-- CLEAR_COUNTERS, order code 83 (R187). -/
  | clearCounters (m : Mgmt)
  /-- RESTART, order code 96 (R179). -/
  | restart (m : Mgmt)
  /-- BAD_ORDER (R172): a management frame of no order. -/
  | badOrder (m : Mgmt)
  deriving DecidableEq, Repr

end Sys2Proof
end

