-- ==== Sys2Proof/Decode.lean ====
section
/-! DEFINITION. Bytes to frames and frames to commands: the CRC-16 and the frame layout of 10.5, the
management orders of the order layout (R172, R182), and `decodeTableWord`. -/

namespace Sys2Proof

/-- Two bytes as a word, most significant byte first (R180). -/
def wordOf (hi lo : Byte) : Word := hi ++ lo

/-- The more significant byte of a word. -/
def Word.hi (w : Word) : Byte := w.extractLsb' 8 8

/-- The less significant byte of a word. -/
def Word.lo (w : Word) : Byte := w.extractLsb' 0 8

/-- Word A of an item: bytes 0 and 1 (R181). -/
def Item.wordA (i : Item) : Word := wordOf i.b0 i.b1

/-- Word B of an item: bytes 2 and 3 (R181). -/
def Item.wordB (i : Item) : Word := wordOf i.b2 i.b3

/-- The item with the two words (R181). -/
def Item.ofWords (a b : Word) : Item := ⟨Word.hi a, Word.lo a, Word.hi b, Word.lo b⟩

/-- Channel of a REPORT or ORDER item: bits 7 to 3 of byte 0. -/
def Item.channel (i : Item) : Nat := (i.b0 >>> 3).toNat

/-- Quality SUSPECT: bit 2 of byte 0 is 1. -/
def Item.suspectQuality (i : Item) : Bool := i.b0.getLsbD 2

/-- Quantity or action code of a REPORT or ORDER item: byte 1. -/
def Item.code (i : Item) : Nat := i.b1.toNat

/-- Value of a REPORT or ORDER item: bytes 2 and 3. -/
def Item.value (i : Item) : Nat := i.wordB.toNat

def Item.bytes (i : Item) : List Byte := [i.b0, i.b1, i.b2, i.b3]

/-- The four frame kinds (10.5, frame and item). -/
inductive FrameKind where
  | report | order | manage | notice
  deriving DecidableEq, Repr

/-- The code of a kind, carried in bits 7 to 5 of byte 4. -/
def FrameKind.code : FrameKind → Nat
  | .report => 1
  | .order => 2
  | .manage => 3
  | .notice => 4

def FrameKind.ofCode (n : Nat) : Option FrameKind :=
  if n = 1 then some .report else if n = 2 then some .order else if n = 3 then some .manage
  else if n = 4 then some .notice else none

/-- The kind of a frame, if its code is one of the four (third check of R155). -/
def Frame.kind (f : Frame) : Option FrameKind := FrameKind.ofCode (f.ctl >>> 5).toNat

/-- The priority field: bits 4 to 2 of byte 4. -/
def Frame.priority (f : Frame) : Nat := (f.ctl >>> 2).toNat % 8

/-- The override mark: bit 1 of byte 4. -/
def Frame.override (f : Frame) : Bool := f.ctl.getLsbD 1

/-- Byte 4 of a frame the part forms: override mark 0 and bit 0 zero (R113, R173, R174, R180). -/
def controlByte (k : FrameKind) (priority : Nat) : Byte := BitVec.ofNat 8 (k.code * 32 + priority % 8 * 4)

/-- The bytes the CRC covers: from the destination to the last byte of the last item (R180). -/
def Frame.body (f : Frame) : List Byte :=
  [Word.hi f.dst, Word.lo f.dst, Word.hi f.src, Word.lo f.src, f.ctl, f.tag, BitVec.ofNat 8 f.items.length] ++
    f.items.flatMap Item.bytes

/-- The frame as it stands on a line, CRC high byte first (R180). -/
def Frame.bytes (f : Frame) : List Byte := f.body ++ [Word.hi f.crc, Word.lo f.crc]

/-- One bit of the CRC register: the polynomial is x¹⁶ + x¹² + x⁵ + 1 (R180). -/
def crcBit (c : Word) : Word := if c.msb then (c <<< 1) ^^^ 0x1021#16 else c <<< 1

/-- One byte, most significant bit first (R180). -/
def crcByte (c : Word) (b : Byte) : Word :=
  crcBit (crcBit (crcBit (crcBit (crcBit (crcBit (crcBit (crcBit (c ^^^ (b ++ 0#8)))))))))

/-- The CRC-16 of R180: the register starts at 65,535 and is not inverted at the end. -/
def crc16 (bs : List Byte) : Word := bs.foldl crcByte 65535#16

/-- The frame with the CRC of its body. -/
def Frame.sealed (f : Frame) : Frame := { f with crc := crc16 f.body }

/-- `n` items from the front of a byte string, and the rest. -/
def takeItems : Nat → List Byte → Option (List Item × List Byte)
  | 0, bs => some ([], bs)
  | n + 1, b0 :: b1 :: b2 :: b3 :: bs => (takeItems n bs).map fun p => (⟨b0, b1, b2, b3⟩ :: p.1, p.2)
  | _ + 1, _ => none

/-- The frame a byte string lays out, when its length is the one its item count gives and the count is at most
16 (second check of R155). -/
def layFrame : List Byte → Option Frame
  | d1 :: d0 :: s1 :: s0 :: ctl :: tag :: n :: rest =>
    if n.toNat ≤ 16 then
      match takeItems n.toNat rest with
      | some (items, [c1, c0]) => some ⟨wordOf d1 d0, wordOf s1 s0, ctl, tag, items, wordOf c1 c0⟩
      | _ => none
    else none
  | _ => none

/-- The three checks of R155: the CRC agrees, the length is right, the kind is one of the four. The first
failing check decides in the manual; all three have the same effect. -/
def readFrame (bs : List Byte) : Option (Frame × FrameKind) :=
  match layFrame bs with
  | some f =>
    if f.crc = crc16 f.body then
      match f.kind with
      | some k => some (f, k)
      | none => none
    else none
  | none => none

/-- An order of no argument item. -/
def orderOfNone (m : Mgmt) (code : Nat) : Option Instr :=
  if code = 42 then some (.suspendAll m)
  else if code = 43 then some (.resumeAll m)
  else if code = 81 then some (.readStatus m)
  else if code = 83 then some (.clearCounters m)
  else if code = 96 then some (.restart m)
  else none

/-- An order of one argument item. -/
def orderOfOne (m : Mgmt) (code : Nat) (a : Item) : Option Instr :=
  if code = 17 then some (.clearSegment m a.wordA)
  else if code = 18 then some (.clearValve m a.wordA)
  else if code = 19 then some (.clearMaterialClass m a.wordA)
  else if code = 20 then some (.clearValveClass m a.wordA)
  else if code = 21 then some (.clearSensor m a.wordA)
  else if code = 22 then some (.clearZone m a.wordA)
  else if code = 23 then some (.clearStation m a.wordA)
  else if code = 32 then some (.readEntry m a.wordA a.wordB)
  else if code = 40 then some (.setMode m a.wordA)
  else if code = 41 then some (.zoneMode m a.wordA a.wordB)
  else if code = 44 then some (.clearLatch m a.wordA)
  else if code = 46 then some (.setNoticeAddress m a.wordA)
  else if code = 47 then some (.setStationMode m a.wordA a.wordB)
  else if code = 48 then some (.setTracePolicy m a.wordA)
  else if code = 64 then some (.declare m a.wordA a.wordB)
  else if code = 65 then some (.confirm m a.wordA)
  else if code = 66 then some (.cancel m a.wordA)
  else if code = 67 then some (.restore m a.wordA)
  else if code = 68 then some (.resume m a.wordA)
  else if code = 70 then some (.crewReport m a.wordA a.wordB)
  else if code = 71 then some (.valveState m a.wordA a.wordB)
  else if code = 80 then some (.readTrace m a.wordA)
  else if code = 82 then some (.readIncident m a.wordA)
  else none

/-- The two words of each item, in order. -/
def wordsOf (items : List Item) : List Word := items.flatMap fun i => [i.wordA, i.wordB]

/-- An order of two or more argument items, by the counts and layouts of 10.5. -/
def orderOfMany (m : Mgmt) (code : Nat) (args : List Item) : Option Instr :=
  if code = 1 then
    match args with
    | [a, b, c] => some (.loadSegment m a.wordA a.wordB b.b0 b.b1 b.wordB c.wordA)
    | _ => none
  else if code = 2 then
    match args with
    | [a, b, c, d, e] =>
      some (.loadValve m a.wordA a.wordB b.wordA b.b2 b.b3 c.wordA c.b2 c.b3 d.b0 d.b1 d.b2 e.wordA e.wordB)
    | _ => none
  else if code = 3 then
    match args with
    | [a, b] => some (.loadMaterialClass m a.wordA a.wordB b.wordA)
    | _ => none
  else if code = 4 then
    match args with
    | [a, c1, c2, c3, c4, c5, c6, p1, p2, t, d] =>
      some (.loadValveClass m a.wordA a.wordB ((wordsOf [c1, c2, c3, c4, c5, c6]).take 11) (p1.bytes ++ p2.bytes)
        t.wordA t.wordB d.wordA d.wordB)
    | _ => none
  else if code = 5 then
    match args with
    | [a, b, c, d, e] => some (.loadSensor m a.wordA a.wordB b.b0 b.b1 b.wordB c.wordA c.wordB d.b0 d.wordB e.wordA)
    | _ => none
  else if code = 6 then
    match args with
    | [a, b, c] => some (.loadZone m a.wordA a.b2 a.b3 b.wordA b.b2 b.b3 c.wordA c.wordB)
    | _ => none
  else if code = 7 then
    match args with
    | [a, b] => some (.loadStation m a.wordA a.b2 a.b3 b.wordA)
    | _ => none
  else if code = 45 then
    match args with
    | [a, b, c, d] => some (.setMaps m (a.bytes ++ b.bytes) c.bytes d.b0)
    | _ => none
  else if code = 69 then
    match args with
    | a :: ids => if 1 ≤ ids.length ∧ ids.length ≤ 4 then some (.widen m a.wordA a.wordB (wordsOf ids)) else none
    | _ => none
  else none

/-- The order of a code with its argument items; none when the code or the count is not one of the layout. -/
def orderOfArgs (m : Mgmt) (code : Nat) (args : List Item) : Option Instr :=
  match args with
  | [] => orderOfNone m code
  | [a] => orderOfOne m code a
  | _ => orderOfMany m code args

/-- The command a management frame's items stand for: the order, or BAD_ORDER when there is no item, the code
is unknown, or the argument count is not the number of further items and the layout's count (R172). -/
def orderOf (m : Mgmt) : List Item → Instr
  | [] => .badOrder m
  | h :: args =>
    if h.wordB.toNat = args.length then (orderOfArgs m h.wordA.toNat args).getD (.badOrder m) else .badOrder m

/-- The command of a management frame (R172). -/
def Frame.order (f : Frame) : Instr := orderOf ⟨f.src, f.tag⟩ f.items

/-! ## Orders to items -/

/-- An item of one word, word B 0. -/
def oneWord (a : Word) : Item := Item.ofWords a 0#16

/-- Words, two per item; after an odd count word B is 0. -/
def wordItems : List Word → List Item
  | [] => []
  | [a] => [oneWord a]
  | a :: b :: l => Item.ofWords a b :: wordItems l

/-- Bytes, four per item; a last group of fewer is filled with 0. -/
def byteItems : List Byte → List Item
  | [] => []
  | [a] => [⟨a, 0#8, 0#8, 0#8⟩]
  | [a, b] => [⟨a, b, 0#8, 0#8⟩]
  | [a, b, c] => [⟨a, b, c, 0#8⟩]
  | a :: b :: c :: d :: l => ⟨a, b, c, d⟩ :: byteItems l

/-- The items of a management frame of an order code and its argument items: the first carries the code and the argument
count. -/
def orderFrameItems (code : Word) (args : List Item) : List Item :=
  Item.ofWords code (BitVec.ofNat 16 args.length) :: args

/-- An order of a code with its argument items, to be sent as the order of a source and a tag. -/
def orderItems (m : Mgmt) (code : Word) (args : List Item) : Option (Mgmt × List Item) :=
  some (m, orderFrameItems code args)

/-- The items of the management frame that carries an order, by the order layout of 10.5; none for a command that no
management frame carries, and for BAD_ORDER, which stands for every frame of no layout. -/
def Instr.order : Instr → Option (Mgmt × List Item)
  | .powerOn _ => none
  | .frameReceived _ _ => none
  | .frameTransmitEnd _ => none
  | .agingExpiry => none
  | .freshnessExpiry _ => none
  | .travelTimerExpiry _ => none
  | .queryTimerExpiry _ => none
  | .pollExpiry _ => none
  | .dwellEnd _ => none
  | .verifyWindowExpiry _ => none
  | .timeWrap => none
  | .areaSearchExamine => none
  | .supplyWalkReach => none
  | .planComplete => none
  | .loadSegment m segment zone source prot static ref =>
    orderItems m 1#16 [Item.ofWords segment zone, Item.ofWords (wordOf source prot) static, oneWord ref]
  | .loadValve m valve segA segB kind normal station channel permitted material vclass operability velocity diameter =>
    orderItems m 2#16
      [Item.ofWords valve segA, Item.ofWords segB (wordOf kind normal), Item.ofWords station (wordOf channel permitted),
       Item.ofWords (wordOf material vclass) (wordOf operability 0#8), Item.ofWords velocity diameter]
  | .loadMaterialClass m cls speed rating => orderItems m 3#16 [Item.ofWords cls speed, oneWord rating]
  | .loadValveClass m cls count curve profile t10 allowance dwell poll =>
    orderItems m 4#16
      (Item.ofWords cls count :: wordItems curve ++ byteItems profile ++
        [Item.ofWords t10 allowance, Item.ofWords dwell poll])
  | .loadSensor m sensor station channel kind place low high persist drop window =>
    orderItems m 5#16
      [Item.ofWords sensor station, Item.ofWords (wordOf channel kind) place, Item.ofWords low high,
       Item.ofWords (wordOf persist 0#8) drop, oneWord window]
  | .loadZone m zone threshold slots margin saturation urgency window drained =>
    orderItems m 6#16
      [Item.ofWords zone (wordOf threshold slots), Item.ofWords margin (wordOf saturation urgency),
       Item.ofWords window drained]
  | .loadStation m address secure blocked line =>
    orderItems m 7#16 [Item.ofWords address (wordOf secure blocked), oneWord line]
  | .clearSegment m segment => orderItems m 17#16 [oneWord segment]
  | .clearValve m valve => orderItems m 18#16 [oneWord valve]
  | .clearMaterialClass m cls => orderItems m 19#16 [oneWord cls]
  | .clearValveClass m cls => orderItems m 20#16 [oneWord cls]
  | .clearSensor m sensor => orderItems m 21#16 [oneWord sensor]
  | .clearZone m zone => orderItems m 22#16 [oneWord zone]
  | .clearStation m address => orderItems m 23#16 [oneWord address]
  | .readEntry m table id => orderItems m 32#16 [Item.ofWords table id]
  | .setMode m mode => orderItems m 40#16 [oneWord mode]
  | .zoneMode m zone mode => orderItems m 41#16 [Item.ofWords zone mode]
  | .suspendAll m => orderItems m 42#16 []
  | .resumeAll m => orderItems m 43#16 []
  | .clearLatch m zone => orderItems m 44#16 [oneWord zone]
  | .setMaps m classMap urgencyMap noticePriority =>
    orderItems m 45#16 (byteItems classMap ++ byteItems urgencyMap ++ [oneWord (wordOf noticePriority 0#8)])
  | .setNoticeAddress m address => orderItems m 46#16 [oneWord address]
  | .setStationMode m mode interval => orderItems m 47#16 [Item.ofWords mode interval]
  | .setTracePolicy m policy => orderItems m 48#16 [oneWord policy]
  | .declare m segment urgency => orderItems m 64#16 [Item.ofWords segment urgency]
  | .confirm m number => orderItems m 65#16 [oneWord number]
  | .cancel m number => orderItems m 66#16 [oneWord number]
  | .restore m number => orderItems m 67#16 [oneWord number]
  | .resume m number => orderItems m 68#16 [oneWord number]
  | .widen m number count ids => orderItems m 69#16 (Item.ofWords number count :: wordItems ids)
  | .crewReport m valve result => orderItems m 70#16 [Item.ofWords valve result]
  | .valveState m valve operability => orderItems m 71#16 [Item.ofWords valve operability]
  | .readTrace m wanted => orderItems m 80#16 [oneWord wanted]
  | .readStatus m => orderItems m 81#16 []
  | .readIncident m number => orderItems m 82#16 [oneWord number]
  | .clearCounters m => orderItems m 83#16 []
  | .restart m => orderItems m 96#16 []
  | .badOrder _ => none

/-! ## The opcode table -/

/-- The command that a word of the opcode table spells. The table gives its rows no bits (every row's `fields`
is empty), so no word spells a command. -/
def decodeTableWord (_nbits _w : Nat) : Option Instr := none

end Sys2Proof
end

