-- ==== Sys2Proof/Config.lean ====
section
/-! DEFINITION. What is fixed for the machine: the capacities of its stores, and the values that the manual
leaves open. A value that the manual leaves open is an `opaque` constant with no body, so that nothing can be
proved of it (log entries 17 and 18). -/

namespace Sys2Proof

/-- The trace FIFO holds at most 256 entries (R184). -/
abbrev Config.traceDepth : Nat := 256

/-- An output queue holds at most 16 frames (R166). -/
abbrev Config.queueDepth : Nat := 16

/-- The pending notice list holds at most 8 entries (R171). -/
abbrev Config.pendingDepth : Nat := 8

/-- Data items in one part of a reply (R173). -/
abbrev Config.partItems : Nat := 15

/-- The highest count of a saturating counter (R187). -/
abbrev Config.counterTop : Nat := 65535

/-- The part's time wraps in trace stamps at this many tenths (R183, R185). -/
abbrev Config.wrapPeriod : Nat := 16777216

/-- FREE VALUE (log entry 17): a word of a reply whose content the manual does not state, such as the value
word of a sensor with no LAST_VALUE. The argument is fresh at each use. DESIGN CHOICE: safe, nothing is fixed. -/
opaque Config.unstated : Nat → Word

/-- FREE VALUE (log entry 18): the priority of a poll QUERY formed by a run that serves no incident; the rule
of R113 takes the highest URGENCY among the incidents served and there is none. -/
opaque Config.orphanPriority : Nat → BitVec 3

end Sys2Proof
end

