-- ==== Sys2Proof/Machine/State.lean ====
section
/-! DEFINITION. Everything the part holds, as plain data, block by block as the Introduction of the manual
divides it, the state after power-on, and the outcomes that are no next state. -/

namespace Sys2Proof.Machine

/-- A record set kept by number: pairs of a number and its record, numbers strictly rising. A number that is
not listed has no record: a free record (or, for the zones, the power-on record). -/
abbrev Table (α : Type) := List (Nat × α)

/-! ## Trunk Interface (chapter 9) -/

/-- The four classes of output queue; class 3 is served first (R165). -/
inductive Cls where
  | c0 | c1 | c2 | c3
  deriving DecidableEq, Repr

/-- One thing for each class. -/
structure PerClass (α : Type) where
  c0 : α
  c1 : α
  c2 : α
  c3 : α
  deriving DecidableEq, Repr

/-- One thing for each line. -/
structure PerLine (α : Type) where
  f0 : α
  f1 : α
  f2 : α
  f3 : α
  control : α
  deriving DecidableEq, Repr

/-- A frame in an output queue or in transmission; `restart` marks the reply to a RESTART order (R179). -/
structure OutFrame where
  frame : Frame
  restart : Bool
  deriving DecidableEq, Repr

/-- One line: its four queues of at most 16 frames, the frame in transmission, and its three counters (R155,
R166, R167). -/
structure LineState where
  queues : PerClass (List OutFrame)
  sending : Option OutFrame
  received : Nat
  crcDrops : Nat
  queueDrops : Nat
  deriving DecidableEq, Repr

/-- The Trunk Interface: lines, class map (8), urgency map (4), notice priority (R165, R166). -/
structure Trunk where
  lines : PerLine LineState
  classMap : List Cls
  urgencyMap : List Nat
  noticePriority : Nat
  deriving DecidableEq, Repr

/-! ## Station Table (chapter 8) -/

inductive StationKind where
  | configured | learned
  deriving DecidableEq, Repr

inductive Age where
  | touched | untouched | silent
  deriving DecidableEq, Repr

/-- An in-use station entry (R141). `pinLine` is the line of the last load that said SECURE YES. -/
structure Station where
  kind : StationKind
  address : Nat
  line : Option Line
  secure : Bool
  pinLine : Option Line
  blocked : Bool
  age : Age
  heard : Option Nat
  deriving DecidableEq, Repr

inductive StationMode where
  | learn | rejectUnknown
  deriving DecidableEq, Repr

/-- The Station Table: 512 entries, the station mode, the aging interval in seconds and the expiry of the
aging timer in tenths (R141). -/
structure Stations where
  entries : Table Station
  mode : StationMode
  interval : Nat
  agingDue : Nat
  deriving DecidableEq, Repr

/-! ## Network Table (chapter 1) -/

/-- A loaded segment record (R1). -/
structure Segment where
  zone : Nat
  source : Bool
  prot : Bool
  static : Nat
  ref : Option Nat
  valves : List Nat
  deriving DecidableEq, Repr

/-- A loaded material class (R4). -/
structure Material where
  speed : Nat
  rating : Nat
  deriving DecidableEq, Repr

/-- A loaded valve class (R5): eleven coefficients, 2 to 8 breakpoints, four times in seconds. -/
structure ValveClass where
  curve : List Nat
  profile : List Nat
  t10 : Nat
  allowance : Nat
  dwell : Nat
  poll : Nat
  deriving DecidableEq, Repr

inductive ValveKind where
  | actuated | manual
  deriving DecidableEq, Repr

inductive Normal where
  | opened | closed
  deriving DecidableEq, Repr

/-- The five values of OPERABILITY (section 1.4). -/
inductive Operability where
  | operable | seized | passing | local | outOfService
  deriving DecidableEq, Repr

/-- A loaded valve record: loaded fields (R6), of which `initial` is OPERABILITY as the load wrote it, and running
fields (R7). `opening` is `none` for UNKNOWN. A MANUAL valve carries no station and no channel; both are held as 0. -/
structure Valve where
  segA : Nat
  segB : Option Nat
  kind : ValveKind
  station : Nat
  channel : Nat
  material : Nat
  vclass : Nat
  velocity : Nat
  diameter : Nat
  normal : Normal
  overridePermitted : Bool
  initial : Operability
  opening : Option Nat
  positionTime : Option Nat
  operability : Operability
  holdCount : Nat
  moveTag : Option Nat
  deriving DecidableEq, Repr

/-- What a pair of the channel index maps to (R13). -/
inductive ChanTarget where
  | valve (id : Nat)
  | sensor (id : Nat)
  deriving DecidableEq, Repr

/-- The Network Table. The channel index is kept by `address * 32 + channel` (R13). -/
structure Network where
  segments : Table Segment
  valves : Table Valve
  materials : Table Material
  vclasses : Table ValveClass
  channels : Table ChanTarget
  deriving DecidableEq, Repr

/-! ## Sensor Watch (chapter 2) -/

inductive SensorKind where
  | pressure | flow
  deriving DecidableEq, Repr

inductive Freshness where
  | never | fresh | stale
  deriving DecidableEq, Repr

/-- COUNT_SIDE: the side a countdown runs for. -/
inductive CountSide where
  | none | low | high
  deriving DecidableEq, Repr

/-- EXCURSION: the persisted excursion. -/
inductive Excursion where
  | inBand | low | high
  deriving DecidableEq, Repr

/-- A loaded sensor record (R22). `place` is SEGMENT of a PRESSURE sensor and INLET_ZONE of a FLOW sensor;
`freshDue` is the expiry of the freshness timer while it runs. -/
structure Sensor where
  station : Nat
  channel : Nat
  kind : SensorKind
  place : Nat
  bandLow : Nat
  bandHigh : Nat
  persist : Nat
  drop : Nat
  window : Nat
  lastValue : Option Nat
  lastTime : Option Nat
  status : Freshness
  countdown : Nat
  side : CountSide
  excursion : Excursion
  freshDue : Option Nat
  deriving DecidableEq, Repr

inductive Cause where
  | coincidence | sharpDrop
  deriving DecidableEq, Repr

/-- A suspect (R35). -/
structure Suspect where
  candidate : Nat
  cause : Cause
  sensor : Nat
  raised : Nat
  deriving DecidableEq, Repr

inductive ZoneMode where
  | auto | confirm | inhibit
  deriving DecidableEq, Repr

inductive Saturation where
  | clamp | refer
  deriving DecidableEq, Repr

/-- A zone record (R29). -/
structure Zone where
  mode : ZoneMode
  suspended : Bool
  counter : Nat
  threshold : Nat
  latch : Option Suspect
  slots : Nat
  margin : Nat
  saturation : Saturation
  urgency : Nat
  verifyWindow : Nat
  drained : Nat
  deriving DecidableEq, Repr

/-- The power-on value of every zone record (R29). -/
def Zone.powerOn : Zone :=
  { mode := .confirm, suspended := false, counter := 0, threshold := 4, latch := none, slots := 2, margin := 150,
    saturation := .refer, urgency := 0, verifyWindow := 300, drained := 50 }

/-- The Sensor Watch. A zone that is not listed holds `Zone.powerOn`. -/
structure Watch where
  sensors : Table Sensor
  zones : Table Zone
  deriving DecidableEq, Repr

/-! ## Incident Table (chapter 3) -/

inductive Origin where
  | detected | declared
  deriving DecidableEq, Repr

inductive IncState where
  | planWait | planning | confirmWait | closing | verifying | isolated | notTight | held | restoring
  deriving DecidableEq, Repr

inductive HeldReason where
  | planTooLarge | sourceInArea | unstable | surgeLimit | override | breach
  deriving DecidableEq, Repr

inductive Verdict where
  | tight | inflowOnly | unverified
  deriving DecidableEq, Repr

/-- The outcome of a freed record (R64). -/
inductive IncOutcome where
  | restored | restoredPartial | cancelled
  deriving DecidableEq, Repr

inductive Role where
  | boundary | interior | abandoned
  deriving DecidableEq, Repr

inductive Action where
  | close | none
  deriving DecidableEq, Repr

structure BoundaryEntry where
  valve : Nat
  action : Action
  deriving DecidableEq, Repr

/-- An entry of a touched list (R44); `prior` is `none` for UNKNOWN. -/
structure TouchedEntry where
  valve : Nat
  prior : Option Nat
  role : Role
  deriving DecidableEq, Repr

/-- An in-use incident record (R43). -/
structure Incident where
  number : Nat
  origin : Origin
  burst : Nat
  zone : Nat
  urgency : Nat
  state : IncState
  heldReason : Option HeldReason
  repeats : Nat
  restarts : Nat
  area : List Nat
  boundary : List BoundaryEntry
  touched : List TouchedEntry
  collateral : Nat
  prot : List Nat
  verdict : Option Verdict
  opened : Nat
  restoreBegun : Bool
  short : Bool
  deriving DecidableEq, Repr

/-- The Incident Table: eight records and the number counter NEXT (R43, R45). The field `short` of a record is
PARTIAL. -/
structure Incidents where
  records : Table Incident
  next : Nat
  deriving DecidableEq, Repr

/-! ## Isolation Planner (chapter 4) -/

/-- An entry of the planner queue (R69). -/
structure PlanEntry where
  record : Nat
  number : Nat
  deriving DecidableEq, Repr

inductive Phase where
  | areaSearch | supplyWalk
  deriving DecidableEq, Repr

/-- What a disturbance or a trace entry is about. -/
inductive Subject where
  | segment (id : Nat)
  | valve (id : Nat)
  | sensor (id : Nat)
  | zone (id : Nat)
  | station (address : Nat)
  deriving DecidableEq, Repr

/-- The four results of a plan (R85). -/
inductive PlanResult where
  | commit (collateral : Nat) (prot : List Nat)
  | sourceInArea
  | planTooLarge
  | disturbed (subject : Subject)
  deriving DecidableEq, Repr

/-- The workspace of the plan in flight (R68, R72, R78). `taken` is the segment last taken and `todo` the valves of its
list still to be met; `walk` holds the pairs of a reached segment and a valve of its list still to be reached;
`result` is present once the plan has ended (R84). -/
structure Workspace where
  record : Nat
  number : Nat
  phase : Phase
  area : List Nat
  frontier : List Nat
  taken : Nat
  todo : List Nat
  examined : List Nat
  boundary : List BoundaryEntry
  reached : List Nat
  walk : List (Nat × Nat)
  result : Option PlanResult
  deriving DecidableEq, Repr

/-- The Isolation Planner: IDLE when `plan` is absent (R68). -/
structure Planner where
  queue : List PlanEntry
  plan : Option Workspace
  deriving DecidableEq, Repr

/-! ## Closure Sequencer (chapter 6) -/

inductive Run where
  | closing | restoring
  deriving DecidableEq, Repr

inductive StepPhase where
  | querying | pending | travelling | dwelling | halted
  deriving DecidableEq, Repr

/-- A waiting entry (R108), with the zone whose list it stands in. The order of a list is a function of the
entries and the incidents, and is computed where a list is read. -/
structure WaitEntry where
  zone : Nat
  valve : Nat
  record : Nat
  run : Run
  deriving DecidableEq, Repr

/-- A step context (R110), with the zone of its slot (R107), the span of its step (R105) and its timers, each
the part's time at which it expires while it runs (R105, R112, R114, R116). -/
structure StepCtx where
  zone : Nat
  run : Run
  serves : List Nat
  grantOpening : Option Nat
  reached : Option Nat
  phase : StepPhase
  target : Option Nat
  span : Nat
  dropAfterStep : Bool
  travelDue : Option Nat
  queryDue : Option Nat
  pollDue : Option Nat
  pollStart : Nat
  dwellDue : Option Nat
  deriving DecidableEq, Repr

inductive CrewDir where
  | close | opened
  deriving DecidableEq, Repr

/-- A crew request (R122, R126): a close request, or a restore request whatever its direction (R123). -/
structure CrewReq where
  valve : Nat
  record : Nat
  restore : Bool
  dir : CrewDir
  deriving DecidableEq, Repr

/-- The orders the sequencer forms: a MOVE, a first QUERY (R112), a poll QUERY (R114). -/
inductive OrderKind where
  | move | query | poll
  deriving DecidableEq, Repr

/-- An order frame that waits with the sequencer for the lines whose queue was full (R113, R168). -/
structure SeqFrame where
  valve : Nat
  kind : OrderKind
  frame : Frame
  lines : List Line
  deriving DecidableEq, Repr

/-- The Closure Sequencer. `frames` stands in the order the frames began to wait; a zone's slots are held by
the contexts of that zone (R107). -/
structure Sequencer where
  contexts : Table StepCtx
  waiting : List WaitEntry
  crew : List CrewReq
  frames : List SeqFrame
  tag : Nat
  deriving DecidableEq, Repr

/-! ## Verification Unit (chapter 7) -/

/-- A verification context (R131), kept by its incident's record number. -/
structure VerifyCtx where
  number : Nat
  start : Nat
  length : Nat
  due : Nat
  deriving DecidableEq, Repr

/-! ## Management Unit (chapter 10) -/

inductive PartMode where
  | transparent | active
  deriving DecidableEq, Repr

/-- An entry of the pending notice list (R171, R173): the notice code, and the frames of it that are not yet
queued. `restart` marks the reply to a RESTART order. -/
structure PendEntry where
  code : Nat
  frames : List Frame
  restart : Bool
  deriving DecidableEq, Repr

/-- The Management Unit (R171). `handed` holds the orders of management frames handed over and not yet taken
(R163, R172; log entry 5); `restartDue` is set while a command runs that discarded a RESTART's reply (log entry
8); `fresh` is the model's own counter behind the free values (log entry 17). -/
structure Management where
  mode : PartMode
  ownAddress : Nat
  noticeAddress : Nat
  notices : List PendEntry
  handed : List Instr
  restartDue : Bool
  fresh : Nat
  deriving DecidableEq, Repr

/-! ## Trace Recorder and counters (chapter 11) -/

inductive TraceCode where
  | operability | suspect | absorbed | latched | latchLost | latchCleared | opened | state | ended
  | planDisturbed | planVoid | surgeClamped | surgeLimit | stepFailed | leftPartial | verifyStart | verifyEnd
  | stationHeard | stationSilent | stationLearned | stationFreed | stationBlocked | lineChange
  | orderHeld | override | noticeLost | mode | timeWrap | restarted
  deriving DecidableEq, Repr

inductive Loss where
  | none | lostAfter | lostBefore
  deriving DecidableEq, Repr

/-- A trace entry (R183). -/
structure TraceEntry where
  stamp : Nat
  code : TraceCode
  incident : Option Nat
  subject : Option Subject
  value : Option Nat
  loss : Loss
  deriving DecidableEq, Repr

inductive TracePolicy where
  | stop | overwrite
  deriving DecidableEq, Repr

/-- The Trace Recorder: the FIFO, the policy, the wrap count, and the time of the next wrap (R184, R185). -/
structure Recorder where
  fifo : List TraceEntry
  policy : TracePolicy
  wraps : Nat
  wrapDue : Nat
  deriving DecidableEq, Repr

/-- The counters of R187 that are not a line's. -/
structure Counters where
  secureDrops : Nat
  blockedDrops : Nat
  learnFailures : Nat
  unknownRejects : Nat
  latchDiscards : Nat
  staleEchoes : Nat
  noticesLost : Nat
  deriving DecidableEq, Repr

/-! ## The part and the machine -/

/-- The part: its time in tenths of a second from power-on, and its blocks. -/
structure Part where
  now : Nat
  trunk : Trunk
  stations : Stations
  net : Network
  watch : Watch
  inc : Incidents
  plan : Planner
  seq : Sequencer
  ver : Table VerifyCtx
  mgmt : Management
  trace : Recorder
  counters : Counters
  deriving DecidableEq, Repr

/-- The machine: the part, and the commands that wait to be taken, first in, first out. -/
structure State where
  part : Part
  pending : List Instr
  deriving DecidableEq, Repr

/-- A line with empty queues, an idle transmitter and counters of 0. -/
def LineState.idle : LineState :=
  { queues := ⟨[], [], [], []⟩, sending := none, received := 0, crcDrops := 0, queueDrops := 0 }

/-- The part at power-on with a strap value (R1, R4, R5, R7, R13, R22, R29, R43, R45, R68, R107, R113, R130, R131,
R141, R165, R166, R170, R171, R185, R187). The own address is 65,280 plus the strap value, and the aging timer
expires 300 s after power-on. -/
def Part.powerOn (strap : Nat) : Part :=
  { now := 0
    trunk :=
      { lines := ⟨.idle, .idle, .idle, .idle, .idle⟩
        classMap := [.c0, .c0, .c1, .c1, .c2, .c2, .c3, .c3]
        urgencyMap := [4, 5, 6, 7]
        noticePriority := 6 }
    stations := { entries := [], mode := .learn, interval := 300, agingDue := 3000 }
    net := { segments := [], valves := [], materials := [], vclasses := [], channels := [] }
    watch := { sensors := [], zones := [] }
    inc := { records := [], next := 1 }
    plan := { queue := [], plan := none }
    seq := { contexts := [], waiting := [], crew := [], frames := [], tag := 1 }
    ver := []
    mgmt :=
      { mode := .transparent, ownAddress := 65280 + strap, noticeAddress := 65535, notices := [], handed := [],
        restartDue := false, fresh := 0 }
    trace := { fifo := [], policy := .stop, wraps := 0, wrapDue := Config.wrapPeriod }
    counters :=
      { secureDrops := 0, blockedDrops := 0, learnFailures := 0, unknownRejects := 0, latchDiscards := 0,
        staleEchoes := 0, noticesLost := 0 } }

/-- The machine right after power-on, no command waiting. DESIGN CHOICE (log entry 1, unsafe): the straps read
0; the command POWER_ON gives any other strap value. -/
def State.reset : State := { part := Part.powerOn 0, pending := [] }

/-- The manual names no event that stops the part, so no command ends in a fault: there is no constructor. -/
inductive Fault where
  deriving DecidableEq, Repr

/-- Why a command is refused a meaning. -/
inductive Refusal where
  /-- Raised by the dispatcher alone, for a command with no meaning yet. Safe: the model stops. No arm of this
  model raises it. -/
  | notModelled (mnemonic : String)
  deriving DecidableEq, Repr

end Sys2Proof.Machine
end

