-- ==== Sys2Proof/Machine/Ops.lean ====
section
/-! DEFINITION. The named operations over the part's stores: record sets, lines and queues, the trace FIFO,
counters, frames the part forms, replies and notices. Every meaning writes the state through these. -/

namespace Sys2Proof.Machine

/-! ## Record sets -/

/-- The record of a number. -/
def Table.look {α : Type} : Table α → Nat → Option α
  | [], _ => none
  | (i, a) :: t, k => if i = k then some a else Table.look t k

/-- Write the record of a number, keeping the numbers rising. -/
def Table.put {α : Type} : Table α → Nat → α → Table α
  | [], k, a => [(k, a)]
  | (i, b) :: t, k, a =>
    if k < i then (k, a) :: (i, b) :: t else if k = i then (k, a) :: t else (i, b) :: Table.put t k a

/-- Free the record of a number. -/
def Table.remove {α : Type} : Table α → Nat → Table α
  | [], _ => []
  | (i, b) :: t, k => if i = k then Table.remove t k else (i, b) :: Table.remove t k

/-- Change the record of a number where there is one. -/
def Table.adjust {α : Type} (t : Table α) (k : Nat) (f : α → α) : Table α :=
  t.map fun e => if e.1 = k then (e.1, f e.2) else e

/-- Change every record. -/
def Table.mapAll {α : Type} (f : α → α) (t : Table α) : Table α := t.map fun e => (e.1, f e.2)

/-- The canonical form: numbers strictly rising. -/
def Table.wf {α : Type} : Table α → Bool
  | [] => true
  | (i, _) :: t => t.all (fun e => decide (i < e.1)) && Table.wf t

/-- The numbers in use, rising. -/
def Table.keys {α : Type} (t : Table α) : List Nat := t.map Prod.fst

/-- The lowest of the first `n` numbers with no record. -/
def Table.firstFree {α : Type} (t : Table α) (n : Nat) : Option Nat :=
  (List.range n).find? fun k => (Table.look t k).isNone

/-- Put an element into a list ordered by `before`, behind the elements it does not stand before. -/
def insertBy {α : Type} (before : α → α → Bool) (a : α) : List α → List α
  | [] => [a]
  | b :: l => if before a b then a :: b :: l else b :: insertBy before a l

/-- The list in the order of `before`, equals in their first order. -/
def sortBy {α : Type} (before : α → α → Bool) (l : List α) : List α :=
  l.foldl (fun acc a => insertBy before a acc) []

/-! ## Lines and classes -/

def PerClass.get {α : Type} (q : PerClass α) : Cls → α
  | .c0 => q.c0
  | .c1 => q.c1
  | .c2 => q.c2
  | .c3 => q.c3

def PerClass.set {α : Type} (q : PerClass α) (c : Cls) (a : α) : PerClass α :=
  match c with
  | .c0 => { q with c0 := a }
  | .c1 => { q with c1 := a }
  | .c2 => { q with c2 := a }
  | .c3 => { q with c3 := a }

def PerLine.get {α : Type} (q : PerLine α) : Line → α
  | .f0 => q.f0
  | .f1 => q.f1
  | .f2 => q.f2
  | .f3 => q.f3
  | .control => q.control

def PerLine.set {α : Type} (q : PerLine α) (l : Line) (a : α) : PerLine α :=
  match l with
  | .f0 => { q with f0 := a }
  | .f1 => { q with f1 := a }
  | .f2 => { q with f2 := a }
  | .f3 => { q with f3 := a }
  | .control => { q with control := a }

def PerLine.map {α β : Type} (g : α → β) (q : PerLine α) : PerLine β :=
  ⟨g q.f0, g q.f1, g q.f2, g q.f3, g q.control⟩

/-- The four field lines. -/
def fieldLines : List Line := [.f0, .f1, .f2, .f3]

/-- A line number 0..3 as a field line. -/
def fieldLineOf (n : Nat) : Option Line :=
  if n = 0 then some .f0 else if n = 1 then some .f1 else if n = 2 then some .f2 else if n = 3 then some .f3 else none

/-- The number of a field line; the control line counts as 4, behind them. -/
def lineNum : Line → Nat
  | .f0 => 0
  | .f1 => 1
  | .f2 => 2
  | .f3 => 3
  | .control => 4

def classOfNum (n : Nat) : Option Cls :=
  if n = 0 then some .c0 else if n = 1 then some .c1 else if n = 2 then some .c2 else if n = 3 then some .c3 else none

/-- A counter raised by 1; it stays at 65,535 once it has reached it (R187). -/
def raise (n : Nat) : Nat := if n < Config.counterTop then n + 1 else n

/-! ## Reading the part -/

def Part.segment? (p : Part) (i : Nat) : Option Segment := Table.look p.net.segments i
def Part.valve? (p : Part) (i : Nat) : Option Valve := Table.look p.net.valves i
def Part.material? (p : Part) (i : Nat) : Option Material := Table.look p.net.materials i
def Part.vclass? (p : Part) (i : Nat) : Option ValveClass := Table.look p.net.vclasses i
def Part.sensor? (p : Part) (i : Nat) : Option Sensor := Table.look p.watch.sensors i
def Part.incident? (p : Part) (r : Nat) : Option Incident := Table.look p.inc.records r
def Part.context? (p : Part) (v : Nat) : Option StepCtx := Table.look p.seq.contexts v
def Part.line (p : Part) (l : Line) : LineState := p.trunk.lines.get l

/-- A zone record; every zone has one (R29). -/
def Part.zone (p : Part) (z : Nat) : Zone := (Table.look p.watch.zones z).getD Zone.powerOn

/-- The part is ACTIVE. -/
def Part.isActive (p : Part) : Bool := p.mgmt.mode = .active

/-- The key of a (station address, channel) pair in the channel index (R13). -/
def chanKey (address channel : Nat) : Nat := address * 32 + channel

/-- The channel index (R13). -/
def Part.channel? (p : Part) (address channel : Nat) : Option ChanTarget :=
  Table.look p.net.channels (chanKey address channel)

/-- The station entry of an address, with its entry number; the table finds it by its address (R142). -/
def Part.station? (p : Part) (address : Nat) : Option (Nat × Station) :=
  p.stations.entries.find? fun e => e.2.address = address

/-! ## Writing the part -/

def Part.putSegment (i : Nat) (x : Segment) (p : Part) : Part :=
  { p with net := { p.net with segments := Table.put p.net.segments i x } }
def Part.removeSegment (i : Nat) (p : Part) : Part :=
  { p with net := { p.net with segments := Table.remove p.net.segments i } }
def Part.putValve (i : Nat) (x : Valve) (p : Part) : Part :=
  { p with net := { p.net with valves := Table.put p.net.valves i x } }
def Part.removeValve (i : Nat) (p : Part) : Part :=
  { p with net := { p.net with valves := Table.remove p.net.valves i } }
def Part.adjustValve (i : Nat) (f : Valve → Valve) (p : Part) : Part :=
  { p with net := { p.net with valves := Table.adjust p.net.valves i f } }
def Part.putMaterial (i : Nat) (x : Material) (p : Part) : Part :=
  { p with net := { p.net with materials := Table.put p.net.materials i x } }
def Part.removeMaterial (i : Nat) (p : Part) : Part :=
  { p with net := { p.net with materials := Table.remove p.net.materials i } }
def Part.putVClass (i : Nat) (x : ValveClass) (p : Part) : Part :=
  { p with net := { p.net with vclasses := Table.put p.net.vclasses i x } }
def Part.removeVClass (i : Nat) (p : Part) : Part :=
  { p with net := { p.net with vclasses := Table.remove p.net.vclasses i } }
def Part.putChannel (address channel : Nat) (x : ChanTarget) (p : Part) : Part :=
  { p with net := { p.net with channels := Table.put p.net.channels (chanKey address channel) x } }
def Part.removeChannel (address channel : Nat) (p : Part) : Part :=
  { p with net := { p.net with channels := Table.remove p.net.channels (chanKey address channel) } }
def Part.putSensor (i : Nat) (x : Sensor) (p : Part) : Part :=
  { p with watch := { p.watch with sensors := Table.put p.watch.sensors i x } }
def Part.removeSensor (i : Nat) (p : Part) : Part :=
  { p with watch := { p.watch with sensors := Table.remove p.watch.sensors i } }

/-- Write a zone record; a zone at the power-on record is not listed. -/
def Part.putZone (z : Nat) (x : Zone) (p : Part) : Part :=
  { p with
    watch :=
      { p.watch with zones := if x = Zone.powerOn then Table.remove p.watch.zones z else Table.put p.watch.zones z x } }

def Part.putStation (n : Nat) (x : Station) (p : Part) : Part :=
  { p with stations := { p.stations with entries := Table.put p.stations.entries n x } }
def Part.removeStation (n : Nat) (p : Part) : Part :=
  { p with stations := { p.stations with entries := Table.remove p.stations.entries n } }
def Part.putContext (v : Nat) (x : StepCtx) (p : Part) : Part :=
  { p with seq := { p.seq with contexts := Table.put p.seq.contexts v x } }
def Part.adjustContext (v : Nat) (f : StepCtx → StepCtx) (p : Part) : Part :=
  { p with seq := { p.seq with contexts := Table.adjust p.seq.contexts v f } }
def Part.setWaiting (w : List WaitEntry) (p : Part) : Part := { p with seq := { p.seq with waiting := w } }
def Part.setCrew (c : List CrewReq) (p : Part) : Part := { p with seq := { p.seq with crew := c } }
def Part.setSeqFrames (f : List SeqFrame) (p : Part) : Part := { p with seq := { p.seq with frames := f } }
def Part.setLine (l : Line) (x : LineState) (p : Part) : Part :=
  { p with trunk := { p.trunk with lines := p.trunk.lines.set l x } }
def Part.setNotices (n : List PendEntry) (p : Part) : Part := { p with mgmt := { p.mgmt with notices := n } }
def Part.setPlan (w : Option Workspace) (p : Part) : Part := { p with plan := { p.plan with plan := w } }
def Part.setPlanQueue (q : List PlanEntry) (p : Part) : Part := { p with plan := { p.plan with queue := q } }
def Part.putVerify (r : Nat) (x : VerifyCtx) (p : Part) : Part := { p with ver := Table.put p.ver r x }
def Part.removeVerify (r : Nat) (p : Part) : Part := { p with ver := Table.remove p.ver r }

/-- The part's time moves up to `t` where it has not reached it (log entry 3). -/
def Part.advanceTo (t : Nat) (p : Part) : Part := { p with now := if p.now < t then t else p.now }

/-! ## The trace FIFO (R183, R184) -/

def TraceCode.num : TraceCode → Nat
  | .operability => 1
  | .suspect => 2
  | .absorbed => 3
  | .latched => 4
  | .latchLost => 5
  | .latchCleared => 6
  | .opened => 7
  | .state => 8
  | .ended => 9
  | .planDisturbed => 10
  | .planVoid => 11
  | .surgeClamped => 12
  | .surgeLimit => 13
  | .stepFailed => 14
  | .leftPartial => 15
  | .verifyStart => 16
  | .verifyEnd => 17
  | .stationHeard => 18
  | .stationSilent => 19
  | .stationLearned => 20
  | .stationFreed => 21
  | .stationBlocked => 22
  | .lineChange => 23
  | .orderHeld => 24
  | .override => 25
  | .noticeLost => 26
  | .mode => 27
  | .timeWrap => 28
  | .restarted => 29

/-- Mark the newest kept entry (STOP, R184). -/
def markNewest : List TraceEntry → List TraceEntry
  | [] => []
  | [e] => [{ e with loss := .lostAfter }]
  | e :: f :: l => e :: markNewest (f :: l)

/-- Mark the entry that has become oldest (OVERWRITE, R184). -/
def markOldest : List TraceEntry → List TraceEntry
  | [] => []
  | e :: l => { e with loss := .lostBefore } :: l

/-- An entry formed joins the FIFO, or a full FIFO is decided by the policy (R184). -/
def Recorder.join (e : TraceEntry) (r : Recorder) : Recorder :=
  if r.fifo.length < Config.traceDepth then { r with fifo := r.fifo ++ [e] }
  else
    match r.policy with
    | .stop => { r with fifo := markNewest r.fifo }
    | .overwrite => { r with fifo := markOldest r.fifo.tail ++ [e] }

/-- Record an entry with the part's time as its stamp (R183). -/
def Part.record (code : TraceCode) (incident : Option Nat) (subject : Option Subject) (value : Option Nat)
    (p : Part) : Part :=
  { p with
    trace :=
      p.trace.join
        { stamp := p.now % Config.wrapPeriod, code := code, incident := incident, subject := subject, value := value,
          loss := .none } }

/-! ## Output queues (section 9.4) -/

/-- The class a frame takes now: the class map's entry for its priority (R165). -/
def Part.classOf (p : Part) (f : Frame) : Cls := p.trunk.classMap.getD f.priority .c0

/-- The priority the urgency map gives an URGENCY (R165). -/
def Part.priorityOf (p : Part) (urgency : Nat) : Nat := p.trunk.urgencyMap.getD urgency 0

/-- A queue has a free place (R166). -/
def Part.hasPlace (p : Part) (l : Line) (c : Cls) : Bool :=
  decide (((p.line l).queues.get c).length < Config.queueDepth)

/-- A frame joins the end of a queue. -/
def Part.append (l : Line) (c : Cls) (f : OutFrame) (p : Part) : Part :=
  let x := p.line l
  p.setLine l { x with queues := x.queues.set c (x.queues.get c ++ [f]) }

/-- The travel timeout of R105, in seconds: T10 for each tenth of the span, rounded up, plus ALLOWANCE. -/
def travelTimeout (c : ValveClass) (span : Nat) : Nat := c.t10 * ((span + 9) / 10) + c.allowance

/-- What an order's being queued starts: the travel and poll timers of a MOVE (R105, R113, R114), the query timer
of a first QUERY (R112); a poll QUERY starts nothing. -/
def Part.orderQueued (v : Nat) (k : OrderKind) (p : Part) : Part :=
  match p.valve? v with
  | none => p
  | some x =>
    match p.vclass? x.vclass with
    | none => p
    | some c =>
      match k with
      | .move =>
        p.adjustContext v fun ctx =>
          { ctx with
            phase := .travelling
            travelDue := some (p.now + 10 * travelTimeout c ctx.span)
            pollDue := if c.poll = 0 then none else some (p.now + 10 * c.poll)
            pollStart := p.now }
      | .query =>
        p.adjustContext v fun ctx => { ctx with phase := .querying, queryDue := some (p.now + 10 * c.allowance) }
      | .poll => p

/-- A pending entry whose waiting frame has the class now (R175). -/
def Part.waitsFor (p : Part) (c : Cls) (e : PendEntry) : Bool :=
  match e.frames with
  | [] => false
  | f :: _ => p.classOf f = c

/-- The oldest pending entry that waits, between the entries before it and those after it (R168). -/
def findNotice (waits : PendEntry → Bool) : List PendEntry → Option (List PendEntry × PendEntry × List PendEntry)
  | [] => none
  | e :: l => if waits e then some ([], e, l) else (findNotice waits l).map fun r => (e :: r.1, r.2)

/-- The later parts of a pending reply are offered, one when the one before has been queued: a part joins the control
line's queue of its class while that has a place and no other pending entry waits for it. The part of the machine and the
frames that are left (R173, R175). -/
def Part.queueParts (others : List PendEntry) (restart : Bool) : List Frame → Part → Part × List Frame
  | [], p => (p, [])
  | f :: fs, p =>
    let c := p.classOf f
    if p.hasPlace .control c && !others.any (p.waitsFor c) then
      Part.queueParts others restart fs (p.append .control c ⟨f, restart⟩)
    else (p, f :: fs)

/-- The oldest order that waits for a line and class, and the list after that line's copy has left it; an order
no line of which is left to wait for has been queued (R113, R168). -/
def takeOrder (classOf : Frame → Cls) (l : Line) (c : Cls) : List SeqFrame → Option (SeqFrame × List SeqFrame)
  | [] => none
  | e :: t =>
    if l ∈ e.lines ∧ classOf e.frame = c then
      let e' := { e with lines := e.lines.filter (fun k => k ≠ l) }
      some (e', if e'.lines.isEmpty then t else e' :: t)
    else (takeOrder classOf l c t).map fun r => (r.1, e :: r.2)

/-- A place freed on a line's queue is offered to the frames that wait for it: on the control line to the pending
list, where a reply then offers its next part and an entry leaves with its last frame, on a field line to the sequencer's
frames while the part is ACTIVE (R168, R173, R175). -/
def Part.offerPlace (l : Line) (c : Cls) (p : Part) : Part :=
  if l = .control then
    match findNotice (p.waitsFor c) p.mgmt.notices with
    | none => p
    | some (a, e, b) =>
      match e.frames with
      | [] => p
      | f :: fs =>
        let q := (p.append .control c ⟨f, e.restart⟩).queueParts (a ++ b) e.restart fs
        q.1.setNotices (a ++ (if q.2.isEmpty then b else { e with frames := q.2 } :: b))
  else if p.isActive then
    match takeOrder p.classOf l c p.seq.frames with
    | none => p
    | some (e, rest) =>
      let q := (p.setSeqFrames rest).append l c ⟨e.frame, false⟩
      if e.lines.isEmpty then q.orderQueued e.valve e.kind else q
  else p

/-- The highest class whose queue holds a frame, with its head and the rest (R166). -/
def headOf (q : PerClass (List OutFrame)) : Option (Cls × OutFrame × List OutFrame) :=
  match q.c3, q.c2, q.c1, q.c0 with
  | f :: r, _, _, _ => some (.c3, f, r)
  | [], f :: r, _, _ => some (.c2, f, r)
  | [], [], f :: r, _ => some (.c1, f, r)
  | [], [], [], f :: r => some (.c0, f, r)
  | [], [], [], [] => none

/-- An idle transmitter takes the head of the highest queue that holds a frame; the place it frees is offered
(R166, R168). -/
def Part.pump (l : Line) (p : Part) : Part :=
  let x := p.line l
  match x.sending with
  | some _ => p
  | none =>
    match headOf x.queues with
    | none => p
    | some (c, f, rest) =>
      (p.setLine l { x with queues := x.queues.set c rest, sending := some f }).offerPlace l c

/-- A frame joins a queue and the transmitter takes one if it is idle. -/
def Part.enqueue (l : Line) (c : Cls) (f : OutFrame) (p : Part) : Part := (p.append l c f).pump l

/-- A passing frame, or the copy of one, at a line: it joins the queue of its class, or is dropped and counted
when that is full (R167). -/
def Part.passFrame (l : Line) (f : Frame) (p : Part) : Part :=
  if p.hasPlace l (p.classOf f) then p.enqueue l (p.classOf f) ⟨f, false⟩
  else
    let x := p.line l
    p.setLine l { x with queueDrops := raise x.queueDrops }

/-! ## Frames the part forms, replies and notices (section 10.2) -/

/-- A word of a natural number (a value above 65,535 is carried modulo 65,536; no field of the part is). -/
def w16 (n : Nat) : Word := BitVec.ofNat 16 n

/-- A word of two byte values. -/
def w8 (hi lo : Nat) : Word := wordOf (BitVec.ofNat 8 hi) (BitVec.ofNat 8 lo)

def flagNum (b : Bool) : Nat := if b then 1 else 0

/-- An item of two word values (R181). -/
def item (a b : Word) : Item := Item.ofWords a b

/-- Words two per item; word B is 0 after an odd count. -/
def pairUp : List Word → List Item
  | [] => []
  | [a] => [item a 0#16]
  | a :: b :: l => item a b :: pairUp l

/-- The three low bytes of a time modulo 16,777,216, under byte 0 (R181). -/
def timeItem (t : Nat) : Item :=
  ⟨1#8, BitVec.ofNat 8 (t / 65536), BitVec.ofNat 8 (t / 256), BitVec.ofNat 8 t⟩

/-- A NOTICE frame: the part's own address as source, the notice priority, override mark 0 (R173, R174). -/
def Part.noticeFrame (dst : Word) (tag : Byte) (items : List Item) (p : Part) : Frame :=
  Frame.sealed
    { dst := dst, src := w16 p.mgmt.ownAddress, ctl := controlByte .notice p.trunk.noticePriority, tag := tag,
      items := items, crc := 0#16 }

/-- The data items cut into parts of 15; no data is one part (R173). Each further part needs an item, so the
length bounds the parts. -/
def cutParts : Nat → List Item → List (List Item)
  | 0, l => [l]
  | n + 1, l =>
    if l.length ≤ Config.partItems then [l] else l.take Config.partItems :: cutParts n (l.drop Config.partItems)

/-- Header item of a NOTICE frame: code, result, part number, number of parts (10.5). -/
def headerItem (code result part parts : Nat) : Item :=
  ⟨BitVec.ofNat 8 code, BitVec.ofNat 8 result, BitVec.ofNat 8 part, BitVec.ofNat 8 parts⟩

/-- The frames of a reply or notice, one for each part, numbered from 1. -/
def Part.partFrames (dst : Word) (tag : Byte) (code result total : Nat) (p : Part) :
    Nat → List (List Item) → List Frame
  | _, [] => []
  | n, d :: ds => p.noticeFrame dst tag (headerItem code result n total :: d) ::
      Part.partFrames dst tag code result total p (n + 1) ds

/-- The oldest entry of a full pending list is discarded, counted and traced; the discarded reply of a RESTART
starts the RESTART (R175, R179; log entry 8). -/
def Part.discardOldest (p : Part) : Part :=
  match p.mgmt.notices with
  | [] => p
  | e :: l =>
    ({ p with
        mgmt := { p.mgmt with notices := l, restartDue := p.mgmt.restartDue || e.restart }
        counters := { p.counters with noticesLost := raise p.counters.noticesLost } }).record
      .noticeLost none none (some e.code)

/-- An entry joins the end of the pending list; a ninth pushes out the oldest (R175). -/
def Part.joinPending (e : PendEntry) (p : Part) : Part :=
  let q := if p.mgmt.notices.length < Config.pendingDepth then p else p.discardOldest
  q.setNotices (q.mgmt.notices ++ [e])

/-- A reply or notice is offered to the control line's queue of its class, frame by frame; it joins at once when
the queue has a place and no pending entry of that class waits, and otherwise what is left of it joins the
pending list (R175). -/
def Part.postFrames (code : Nat) (restart : Bool) : List Frame → Part → Part
  | [], p => p
  | f :: fs, p =>
    let c := p.classOf f
    if p.hasPlace .control c && !p.mgmt.notices.any (p.waitsFor c) then
      Part.postFrames code restart fs (p.enqueue .control c ⟨f, restart⟩)
    else p.joinPending { code := code, frames := f :: fs, restart := restart }

/-- The notice codes of 10.5. -/
inductive NoticeCode where
  | incidentOpened | planCommitted | confirmRequired | planChanged | crewRequired | held | isolated | notTight
  | ended | orderHeld | tableFull
  deriving DecidableEq, Repr

def NoticeCode.num : NoticeCode → Nat
  | .incidentOpened => 1
  | .planCommitted => 2
  | .confirmRequired => 3
  | .planChanged => 4
  | .crewRequired => 5
  | .held => 6
  | .isolated => 7
  | .notTight => 8
  | .ended => 9
  | .orderHeld => 10
  | .tableFull => 11

/-- An unsolicited notice, addressed to the notice address, tag 0, part 1 of 1, result code 0 (R174). -/
def Part.notice (code : NoticeCode) (items : List Item) (p : Part) : Part :=
  Part.postFrames code.num false
    [p.noticeFrame (w16 p.mgmt.noticeAddress) 0#8 (headerItem code.num 0 1 1 :: items)] p

/-- The result codes of 10.5. -/
inductive Result where
  | ok | okClamped | badOrder | badArgument | noSuch | inUse | referenced | busy | wrongState | tableFull | listFull
  | duplicate | absorbed
  deriving DecidableEq, Repr

def Result.num : Result → Nat
  | .ok => 0
  | .okClamped => 1
  | .badOrder => 2
  | .badArgument => 3
  | .noSuch => 4
  | .inUse => 5
  | .referenced => 6
  | .busy => 7
  | .wrongState => 8
  | .tableFull => 9
  | .listFull => 10
  | .duplicate => 11
  | .absorbed => 12

/-- What an order's rule answers: its result code and its data items (R173). -/
structure Answer where
  result : Result
  data : List Item
  deriving DecidableEq, Repr

/-- An answer of a result code alone. -/
def Answer.bare (r : Result) : Answer := ⟨r, []⟩

/-- The reply to a management frame: addressed to its source, with its tag, in as many parts as its data items
need (R173). -/
def Part.reply (m : Mgmt) (a : Answer) (restart : Bool) (p : Part) : Part :=
  let parts := cutParts a.data.length a.data
  Part.postFrames 0 restart (Part.partFrames m.source m.tag 0 a.result.num parts.length p 1 parts) p

end Sys2Proof.Machine
end

