-- ==== Sys2Proof/Machine/Operands.lean ====
section
/-! DEFINITION. The operand forms of the management orders: how an argument field is read before the owning rule
examines it (R182), the codes of 10.5 in both directions, and the clamps that the load rules name. -/

namespace Sys2Proof.Machine

/-- A flag byte: 0 is NO and 1 is YES (R182). -/
def flagOf (b : Byte) : Option Bool := if b = 0#8 then some false else if b = 1#8 then some true else none

/-- An optional id or address: 65,535 is absent (R182). -/
def optionalId (w : Word) : Option Nat := if w = 65535#16 then none else some w.toNat

/-- An optional id as it is carried. -/
def optionalWord (n : Option Nat) : Word :=
  match n with
  | some k => w16 k
  | none => 65535#16

/-- An optional line as it is carried. -/
def lineWord (l : Option Line) : Word := optionalWord (l.map lineNum)

/-! ## Codes of two-valued fields -/

def valveKindOf (b : Byte) : Option ValveKind :=
  if b = 0#8 then some .actuated else if b = 1#8 then some .manual else none
def ValveKind.num : ValveKind → Nat
  | .actuated => 0
  | .manual => 1

def normalOf (b : Byte) : Option Normal := if b = 0#8 then some .opened else if b = 1#8 then some .closed else none
def Normal.num : Normal → Nat
  | .opened => 0
  | .closed => 1

def sensorKindOf (b : Byte) : Option SensorKind :=
  if b = 0#8 then some .pressure else if b = 1#8 then some .flow else none
def SensorKind.num : SensorKind → Nat
  | .pressure => 0
  | .flow => 1

def saturationOf (b : Byte) : Option Saturation :=
  if b = 0#8 then some .clamp else if b = 1#8 then some .refer else none
def Saturation.num : Saturation → Nat
  | .clamp => 0
  | .refer => 1

def partModeOf (w : Word) : Option PartMode :=
  if w = 0#16 then some .transparent else if w = 1#16 then some .active else none
def PartMode.num : PartMode → Nat
  | .transparent => 0
  | .active => 1

def stationModeOf (w : Word) : Option StationMode :=
  if w = 0#16 then some .learn else if w = 1#16 then some .rejectUnknown else none
def StationMode.num : StationMode → Nat
  | .learn => 0
  | .rejectUnknown => 1

def tracePolicyOf (w : Word) : Option TracePolicy :=
  if w = 0#16 then some .stop else if w = 1#16 then some .overwrite else none

def Phase.num : Phase → Nat
  | .areaSearch => 0
  | .supplyWalk => 1
def Origin.num : Origin → Nat
  | .detected => 0
  | .declared => 1
def CrewDir.num : CrewDir → Nat
  | .close => 0
  | .opened => 1
def Cause.num : Cause → Nat
  | .coincidence => 0
  | .sharpDrop => 1

/-! ## Codes of other fields -/

/-- The initial OPERABILITY of a valve load; LOCAL is outside its set (R8). -/
def loadOperabilityOf (b : Byte) : Option Operability :=
  if b = 0#8 then some .operable else if b = 1#8 then some .seized else if b = 2#8 then some .passing
  else if b = 4#8 then some .outOfService else none

/-- The state of a VALVE_STATE order: 0, 1 or 4 (R11). -/
def stateOperabilityOf (w : Word) : Option Operability :=
  if w = 0#16 then some .operable else if w = 1#16 then some .seized else if w = 4#16 then some .outOfService else none

def Operability.num : Operability → Nat
  | .operable => 0
  | .seized => 1
  | .passing => 2
  | .local => 3
  | .outOfService => 4

def zoneModeOf (w : Word) : Option ZoneMode :=
  if w = 0#16 then some .auto else if w = 1#16 then some .confirm else if w = 2#16 then some .inhibit else none
def ZoneMode.num : ZoneMode → Nat
  | .auto => 0
  | .confirm => 1
  | .inhibit => 2

/-- The result of a CREW_REPORT (R15). -/
inductive CrewResult where
  | closed | opened | seized
  deriving DecidableEq, Repr

def crewResultOf (w : Word) : Option CrewResult :=
  if w = 0#16 then some .closed else if w = 1#16 then some .opened else if w = 2#16 then some .seized else none

def IncState.num : IncState → Nat
  | .planWait => 1
  | .planning => 2
  | .confirmWait => 3
  | .closing => 4
  | .verifying => 5
  | .isolated => 6
  | .notTight => 7
  | .held => 8
  | .restoring => 9

def HeldReason.num : HeldReason → Nat
  | .planTooLarge => 1
  | .sourceInArea => 2
  | .unstable => 3
  | .surgeLimit => 4
  | .override => 5
  | .breach => 6

def Verdict.num : Verdict → Nat
  | .tight => 1
  | .inflowOnly => 2
  | .unverified => 3

def IncOutcome.num : IncOutcome → Nat
  | .restored => 1
  | .restoredPartial => 2
  | .cancelled => 3

def Role.num : Role → Nat
  | .boundary => 0
  | .interior => 1
  | .abandoned => 2

def Freshness.num : Freshness → Nat
  | .never => 0
  | .fresh => 1
  | .stale => 2

def CountSide.num : CountSide → Nat
  | .none => 0
  | .low => 1
  | .high => 2

def Excursion.num : Excursion → Nat
  | .inBand => 0
  | .low => 1
  | .high => 2

def StationKind.num : StationKind → Nat
  | .configured => 1
  | .learned => 2

def Age.num : Age → Nat
  | .touched => 0
  | .untouched => 1
  | .silent => 2

/-- The failures of a step, coded as STEP_FAILED carries them (R118, R183). -/
inductive Failure where
  | seized | local | unreachable
  deriving DecidableEq, Repr

def Failure.num : Failure → Nat
  | .seized => 0
  | .local => 1
  | .unreachable => 2

/-- Subject kind and id as READ_TRACE carries them (R183). -/
def subjectKind : Option Subject → Nat
  | none => 0
  | some (.segment _) => 1
  | some (.valve _) => 2
  | some (.sensor _) => 3
  | some (.zone _) => 4
  | some (.station _) => 5

def subjectId : Option Subject → Nat
  | none => 0
  | some (.segment i) => i
  | some (.valve i) => i
  | some (.sensor i) => i
  | some (.zone i) => i
  | some (.station a) => a

def Loss.num : Loss → Nat
  | .none => 0
  | .lostAfter => 1
  | .lostBefore => 2

/-! ## Clamps -/

/-- A value held to a range: the nearer end where it lies outside. -/
def clampTo (lo hi n : Nat) : Nat := if n < lo then lo else if hi < n then hi else n

/-- A poll interval as R5 writes it: 0 is off, 1..4 is 5, above 120 is 120. -/
def clampPoll (n : Nat) : Nat := if n = 0 then 0 else clampTo 5 120 n

/-- The result of a taken load: OK_CLAMPED when a value was changed. -/
def loaded (clamped : Bool) : Result := if clamped then .okClamped else .ok

end Sys2Proof.Machine
end

