-- ==== Sys2Proof/Machine/Flags.lean ====
section
/-! DEFINITION. The derived statuses: what the manual says a block derives at each use and does not store. -/

namespace Sys2Proof.Machine

/-! ## Stations and valves -/

/-- A station is heard: it has an entry that is TOUCHED or UNTOUCHED and not BLOCKED (R117). -/
def Part.heard (p : Part) (address : Nat) : Bool :=
  match p.station? address with
  | some (_, e) => e.age ≠ .silent && !e.blocked
  | none => false

/-- A valve counts as closed (R16). -/
def Valve.countsAsClosed (x : Valve) : Bool :=
  match x.opening with
  | some o => o = 0
  | none => x.normal = .closed

/-- A valve is usable (R17). -/
def Part.usable (p : Part) (x : Valve) : Bool :=
  x.operability = .operable && (x.kind = .manual || p.heard x.station)

/-- A valve stands shut for planning (R71). -/
def Valve.standsShut (x : Valve) : Bool :=
  x.countsAsClosed && (x.operability = .operable || x.operability = .seized)

/-- The valve hosts on the station: a loaded ACTUATED valve whose STATION is the address (R20, R149). -/
def Valve.hostedBy (x : Valve) (address : Nat) : Bool := x.kind = .actuated && x.station = address

/-- The station hosts at least one loaded ACTUATED valve (R149). -/
def Part.hosts (p : Part) (address : Nat) : Bool := p.net.valves.any fun e => e.2.hostedBy address

/-- The zone of a segment. -/
def Part.zoneOf (p : Part) (segment : Nat) : Nat :=
  match p.segment? segment with
  | some g => g.zone
  | none => 0

/-- The zone of a valve: the ZONE of its SEGMENT_A (R6). -/
def Part.zoneOfValve (p : Part) (x : Valve) : Nat := p.zoneOf x.segA

/-- The valve names the segment. -/
def Valve.names (x : Valve) (segment : Nat) : Bool := x.segA = segment || x.segB = some segment

/-- Both of the valve's segments stand in a list of segments. -/
def Valve.bothIn (x : Valve) (area : List Nat) : Bool :=
  match x.segB with
  | some b => area.contains x.segA && area.contains b
  | none => false

/-- The far segment of a valve met from a segment; none for a terminal valve (R74, R78). -/
def Valve.far (x : Valve) (segment : Nat) : Option Nat :=
  match x.segB with
  | none => none
  | some b => if x.segA = segment then some b else some x.segA

/-- The opening a touched valve is returned to: PRIOR, or by NORMAL where PRIOR is UNKNOWN (R44, R93). -/
def finalTarget (prior : Option Nat) (x : Valve) : Nat :=
  match prior with
  | some o => o
  | none => if x.normal = .closed then 0 else 100

/-! ## Incidents -/

/-- The record's boundary has the valve with action CLOSE. -/
def Incident.closes (i : Incident) (v : Nat) : Bool := i.boundary.any fun b => b.valve = v && b.action = .close

/-- The record's boundary has the valve with action NONE. -/
def Incident.relies (i : Incident) (v : Nat) : Bool := i.boundary.any fun b => b.valve = v && b.action = .none

/-- The record's boundary has the valve. -/
def Incident.bounds (i : Incident) (v : Nat) : Bool := i.boundary.any fun b => b.valve = v

/-- The record's touched list has the valve. -/
def Incident.touches (i : Incident) (v : Nat) : Bool := i.touched.any fun t => t.valve = v

/-- The record's counted lists hold the valve: touched, or on the boundary with action CLOSE (R46). -/
def Incident.holds (i : Incident) (v : Nat) : Bool := i.touches v || i.closes v

/-- The valves in the record's counted lists, each once. -/
def Incident.counted (i : Incident) : List Nat :=
  (i.touched.map TouchedEntry.valve ++
    (i.boundary.filter fun b => b.action = .close).map BoundaryEntry.valve).eraseDups

/-- A segment is in use by an incident: it stands in an area (R18). -/
def Part.segmentInUse (p : Part) (g : Nat) : Bool := p.inc.records.any fun e => e.2.area.contains g

/-- A valve is in use by an incident: it stands on a boundary or a touched list (R18). -/
def Part.valveInUse (p : Part) (v : Nat) : Bool := p.inc.records.any fun e => e.2.bounds v || e.2.touches v

/-- The record and incident of a number. -/
def Part.byNumber (p : Part) (number : Nat) : Option (Nat × Incident) :=
  p.inc.records.find? fun e => e.2.number = number

/-- The state of a record, if it is in use. -/
def Part.stateOf (p : Part) (r : Nat) : Option IncState := (p.incident? r).map Incident.state

/-- The incident number of a record, if it is in use. -/
def Part.numberOf (p : Part) (r : Nat) : Option Nat := (p.incident? r).map Incident.number

/-! ## Sensors and zones -/

/-- The zone of a sensor: the ZONE of its SEGMENT, or its INLET_ZONE (R22). -/
def Part.zoneOfSensor (p : Part) (x : Sensor) : Option Nat :=
  match x.kind with
  | .pressure => (p.segment? x.place).map Segment.zone
  | .flow => some x.place

/-- A PRESSURE sensor of the zone that is FRESH and at EXCURSION LOW (R31, R33). -/
def Part.lowSensor (p : Part) (z : Nat) (x : Sensor) : Bool :=
  x.kind = .pressure && x.status = .fresh && x.excursion = .low && p.zoneOfSensor x = some z

/-- The zone is LOW_PRESSURE (R31). -/
def Part.lowPressure (p : Part) (z : Nat) : Bool := p.watch.sensors.any fun e => p.lowSensor z e.2

/-- The inlet meters of a zone, by index rising (R22, R42). -/
def Part.inletMeters (p : Part) (z : Nat) : List (Nat × Sensor) :=
  p.watch.sensors.filter fun e => e.2.kind = .flow && e.2.place = z

/-- The area pressure sensors of an incident (R135). -/
def Part.areaSensors (p : Part) (i : Incident) : List (Nat × Sensor) :=
  p.watch.sensors.filter fun e => e.2.kind = .pressure && e.2.status = .fresh && i.area.contains e.2.place

/-- A sensor's last value stands at or below a threshold. -/
def Sensor.atOrBelow (x : Sensor) (n : Nat) : Bool :=
  match x.lastValue with
  | some v => v ≤ n
  | none => false

/-- A zone latches its suspects (R36). -/
def Part.latches (p : Part) (z : Nat) : Bool :=
  (p.zone z).mode = .inhibit || (p.zone z).suspended || !p.isActive

/-! ## Slots -/

/-- The number of slots of a zone that valves hold (R107). -/
def Part.slotsHeld (p : Part) (z : Nat) : Nat := (p.seq.contexts.filter fun e => e.2.zone = z).length

/-- The number of waiting entries of a zone (R107). -/
def Part.waitingIn (p : Part) (z : Nat) : Nat := (p.seq.waiting.filter fun w => w.zone = z).length

/-- A step context of the valve serves the record. -/
def Part.servedBy (p : Part) (v r : Nat) : Bool :=
  match p.context? v with
  | some c => c.serves.contains r
  | none => false

end Sys2Proof.Machine
end

