-- ==== Sys2Proof/Machine/IncidentOps.lean ====
section
/-! DEFINITION. The Incident Table's shared operations (chapter 3), with the planner's queue and grant (section
4.1), the routing of suspects (section 2.5) and the verification contexts (chapter 7) that its transitions need. -/

namespace Sys2Proof.Machine

/-! ## Hold counts (section 3.2) -/

def Part.addHold (v : Nat) (p : Part) : Part := p.adjustValve v fun x => { x with holdCount := x.holdCount + 1 }
def Part.dropHold (v : Nat) (p : Part) : Part := p.adjustValve v fun x => { x with holdCount := x.holdCount - 1 }

/-- The counted valves of a record change from one list to another: one more hold for each valve that joins, one
less for each that leaves (R46, R47). -/
def Part.rehold (old new : List Nat) (p : Part) : Part :=
  (old.filter fun v => !new.contains v).foldl (fun q v => q.dropHold v)
    ((new.filter fun v => !old.contains v).foldl (fun q v => q.addHold v) p)

/-- The counted valves of a record; none of a free one. -/
def Part.countedBy (p : Part) (r : Nat) : List Nat :=
  match p.incident? r with
  | some i => i.counted
  | none => []

/-- Write an incident record, keeping every HOLD_COUNT to the law of R46. -/
def Part.putIncident (r : Nat) (i : Incident) (p : Part) : Part :=
  ({ p with inc := { p.inc with records := Table.put p.inc.records r i } }).rehold (p.countedBy r) i.counted

/-- Free an incident record, keeping every HOLD_COUNT to the law of R46. -/
def Part.removeIncident (r : Nat) (p : Part) : Part :=
  ({ p with inc := { p.inc with records := Table.remove p.inc.records r } }).rehold (p.countedBy r) []

/-! ## State changes -/

/-- A record in a new state: HELD_REASON stands only in HELD and VERDICT only in ISOLATED (R43, R55, R58). -/
def Incident.enter (st : IncState) (i : Incident) : Incident :=
  { i with
    state := st
    heldReason := if st = .held then i.heldReason else none
    verdict := if st = .isolated then i.verdict else none }

/-- Move a record to a state, with what else the event writes. A change of STATE records a STATE entry (section
3.4), and an incident that is not VERIFYING has no verification context (R131, R138). -/
def Part.moveIncident (r : Nat) (st : IncState) (f : Incident → Incident) (p : Part) : Part :=
  match p.incident? r with
  | none => p
  | some i =>
    let q := p.putIncident r (f (i.enter st))
    let q := if st = .verifying then q else q.removeVerify r
    if i.state = st then q else q.record .state (some i.number) none (some st.num)

/-! ## The planner queue (section 4.1) -/

/-- The URGENCY of a waiting entry's incident. -/
def Part.urgencyOf (p : Part) (r : Nat) : Nat :=
  match p.incident? r with
  | some i => i.urgency
  | none => 0

/-- The entry the planner would grant: the highest URGENCY, the earliest joined among equals (R70). -/
def Part.bestEntry (p : Part) : Option PlanEntry :=
  p.plan.queue.foldl
    (fun best e =>
      match best with
      | none => some e
      | some b => if p.urgencyOf b.record < p.urgencyOf e.record then some e else best)
    none

/-- The workspace of a plan at its grant; a SOURCE burst segment ends it at once (R72). -/
def Workspace.start (r number burst : Nat) (source : Bool) : Workspace :=
  { record := r, number := number, phase := .areaSearch, area := [burst], frontier := [burst], taken := burst, todo := [],
    examined := [], boundary := [], reached := [], walk := [], result := if source then some .sourceInArea else none }

/-- The segment is a SOURCE segment. -/
def Part.isSource (p : Part) (g : Nat) : Bool :=
  match p.segment? g with
  | some x => x.source
  | none => false

/-- An IDLE planner with a waiting entry grants (R70). -/
def Part.grantPlan (p : Part) : Part :=
  match p.plan.plan, p.bestEntry with
  | none, some e =>
    match p.incident? e.record with
    | some i =>
      ((p.setPlanQueue (p.plan.queue.filter fun x => x ≠ e)).moveIncident e.record .planning id).setPlan
        (some (Workspace.start e.record e.number i.burst (p.isSource i.burst)))
    | none => p.setPlanQueue (p.plan.queue.filter fun x => x ≠ e)
  | _, _ => p

/-- An incident joins the end of the planner queue, and an IDLE planner grants at once (R69, R70). -/
def Part.enterPlanner (r : Nat) (p : Part) : Part :=
  match p.incident? r with
  | some i => (p.setPlanQueue (p.plan.queue ++ [⟨r, i.number⟩])).grantPlan
  | none => p

/-- An incident is withdrawn from the planner queue (R69). -/
def Part.withdraw (r : Nat) (p : Part) : Part := p.setPlanQueue (p.plan.queue.filter fun e => e.record ≠ r)

/-- An incident goes to PLAN_WAIT and is entered in the planner queue (R50). -/
def Part.toPlanWait (r : Nat) (f : Incident → Incident) (p : Part) : Part :=
  (p.moveIncident r .planWait f).enterPlanner r

/-! ## Notices of an incident -/

/-- Subject id and kind of a PLAN_CHANGED notice (10.5): 1 segment, 2 valve. -/
def subjectItems (number : Nat) : Subject → List Item
  | .segment g => [item (w16 number) (w16 g), item 1#16 0#16]
  | .valve v => [item (w16 number) (w16 v), item 2#16 0#16]
  | _ => []

/-- An incident returns to PLAN_WAIT with a PLAN_CHANGED notice naming the subject (R53, R54). -/
def Part.planChanged (r : Nat) (subject : Subject) (p : Part) : Part :=
  match p.incident? r with
  | some i => (p.toPlanWait r id).notice .planChanged (subjectItems i.number subject)
  | none => p

/-- An incident enters HELD, or stays in it with the new reason, and a HELD notice is sent (R56). -/
def Part.hold (r : Nat) (reason : HeldReason) (valve : Option Nat) (p : Part) : Part :=
  match p.incident? r with
  | some i =>
    ((p.withdraw r).moveIncident r .held fun x => { x with heldReason := some reason }).notice .held
      [item (w16 i.number) (w16 reason.num), item (optionalWord valve) 0#16]
  | none => p

/-! ## Verification contexts (section 7.2, 7.3) -/

/-- A boundary entry is satisfied (R132). -/
def Part.satisfied (p : Part) (r : Nat) (i : Incident) (b : BoundaryEntry) : Bool :=
  match p.valve? b.valve with
  | none => false
  | some x =>
    match b.action, x.kind with
    | .none, _ => x.countsAsClosed
    | .close, .manual => x.opening = some 0
    | .close, .actuated =>
      i.touches b.valve && !p.servedBy b.valve r && (x.opening = some 0 || x.opening = some 1 || x.opening = some 2)

/-- An incident goes to VERIFYING and its context is created with the zone's VERIFY_WINDOW (R133, R134). -/
def Part.enterVerifying (r : Nat) (p : Part) : Part :=
  match p.incident? r with
  | some i =>
    let q := p.moveIncident r .verifying id
    let n := (q.zone i.zone).verifyWindow
    (q.putVerify r { number := i.number, start := q.now, length := n, due := q.now + 10 * n }).record .verifyStart
      (some i.number) none (some n)
  | none => p

/-- An incident in CLOSING is tested against the start conditions (R132, R133). -/
def Part.testVerify (r : Nat) (p : Part) : Part :=
  match p.incident? r with
  | some i =>
    if i.state = .closing && i.boundary.all (p.satisfied r i) then p.enterVerifying r else p
  | none => p

/-- A verdict is recorded and reported; the incident goes to ISOLATED (R55, R136, R137). -/
def Part.giveVerdict (r : Nat) (v : Verdict) (sensor : Option Nat) (p : Part) : Part :=
  match p.incident? r with
  | some i =>
    (((p.record .verifyEnd (some i.number) (sensor.map Subject.sensor) (some v.num)).removeVerify r).moveIncident r
      .isolated fun x => { x with verdict := some v }).notice .isolated [item (w16 i.number) (w16 v.num)]
  | none => p

/-- A window ends without a verdict; the incident goes to NOT_TIGHT (R55, R137). -/
def Part.giveNotTight (r : Nat) (p : Part) : Part :=
  match p.incident? r with
  | some i =>
    (((p.record .verifyEnd (some i.number) none (some 4)).removeVerify r).moveIncident r .notTight id).notice .notTight
      [item (w16 i.number) 0#16]
  | none => p

/-! ## Opening (section 3.3) -/

/-- The next incident number, from 255 to 1 (R45). -/
def succNumber (n : Nat) : Nat := if n < 255 then n + 1 else 1

/-- The first number from a candidate on that is not in use; eight candidates always hold one (R45). -/
def freeNumber (used : List Nat) : Nat → Nat → Nat
  | 0, c => c
  | n + 1, c => if used.contains c then freeNumber used n (succNumber c) else c

/-- The number the next incident takes (R45). -/
def Part.nextNumber (p : Part) : Nat := freeNumber (p.inc.records.map fun e => e.2.number) 8 p.inc.next

/-- The lowest-numbered free incident record. -/
def Part.freeRecord (p : Part) : Option Nat := Table.firstFree p.inc.records 8

/-- The record of an incident at its opening (R48). -/
def Part.newIncident (p : Part) (origin : Origin) (burst urgency : Nat) : Incident :=
  { number := p.nextNumber, origin := origin, burst := burst, zone := p.zoneOf burst, urgency := urgency,
    state := .planWait, heldReason := none, repeats := 0, restarts := 0, area := [burst], boundary := [], touched := [],
    collateral := 0, prot := [], verdict := none, opened := p.now, restoreBegun := false, short := false }

/-- An incident takes a free record, and NEXT goes past its NUMBER (R45, R48). -/
def Part.addIncident (r : Nat) (i : Incident) (p : Part) : Part :=
  ({ p with inc := { p.inc with next := succNumber i.number } }).putIncident r i

/-- An incident opens in the lowest-numbered free record (R48). -/
def Part.openIncident (origin : Origin) (burst urgency : Nat) (p : Part) : Part :=
  match p.freeRecord with
  | none => p
  | some r =>
    let i := p.newIncident origin burst urgency
    (((p.addIncident r i).enterPlanner r).record .opened (some i.number) (some (.segment burst)) none).notice
      .incidentOpened [item (w16 i.number) (w16 burst), item (w8 origin.num i.zone) (w8 urgency 0)]

/-! ## Routing a suspect (section 2.5) -/

/-- An incident absorbs a suspect or a declaration (R35, R49). -/
def Part.absorb (r g value : Nat) (p : Part) : Part :=
  match p.incident? r with
  | some i =>
    (p.putIncident r { i with repeats := if i.repeats < 255 then i.repeats + 1 else i.repeats }).record .absorbed
      (some i.number) (some (.segment g)) (some value)
  | none => p

/-- The lowest-numbered in-use record whose area holds the segment. -/
def Part.areaOwner (p : Part) (g : Nat) : Option Nat :=
  (p.inc.records.find? fun e => e.2.area.contains g).map Prod.fst

/-- A suspect is put into a zone's empty latch, or discarded and counted when the latch is full (R36, R37). -/
def Part.latchSuspect (z : Nat) (x : Suspect) (p : Part) : Part :=
  match (p.zone z).latch with
  | none =>
    (p.putZone z { p.zone z with latch := some x }).record .latched none (some (.zone z)) (some x.candidate)
  | some _ =>
    ({ p with counters := { p.counters with latchDiscards := raise p.counters.latchDiscards } }).record .latchLost none
      (some (.zone z)) (some x.candidate)

/-- A suspect is routed at its raise or at its release from the latch of a zone (R35, R36, R37). -/
def Part.routeSuspect (latchOf : Option Nat) (x : Suspect) (p : Part) : Part :=
  match p.segment? x.candidate with
  | none => p.record .latchLost none (latchOf.map Subject.zone) (some x.candidate)
  | some g =>
    match p.areaOwner x.candidate with
    | some r => p.absorb r x.candidate x.cause.num
    | none =>
      if p.latches g.zone then p.latchSuspect g.zone x
      else if p.freeRecord.isNone then
        (p.latchSuspect g.zone x).notice .tableFull [item (w16 g.zone) (w16 x.candidate)]
      else p.openIncident .detected x.candidate (p.zone g.zone).urgency

/-- A latched suspect is taken out of its latch and routed afresh (R38, R39, R41). -/
def Part.releaseLatch (z : Nat) (p : Part) : Part :=
  match (p.zone z).latch with
  | some x => (p.putZone z { p.zone z with latch := none }).routeSuspect (some z) x
  | none => p

/-- Free records are offered to the latched zones in ascending order while the part is ACTIVE (R41). -/
def Part.offerRecords (p : Part) : Part :=
  if p.isActive then
    (List.range 64).foldl
      (fun q z =>
        if q.freeRecord.isSome && (q.zone z).mode ≠ .inhibit && !(q.zone z).suspended then q.releaseLatch z else q) p
  else p

/-! ## Ending contexts, touched entries and records -/

/-- A step context ends: its timers stop with it, its waiting frames are discarded, MOVE_TAG becomes absent and
its slot is free (R111). The grants that the slot gives are the caller's. -/
def Part.endContext (v : Nat) (p : Part) : Part :=
  ({ p with
      seq := { p.seq with
        contexts := Table.remove p.seq.contexts v
        frames := p.seq.frames.filter fun f => f.valve ≠ v } }).adjustValve v fun x => { x with moveTag := none }

/-- An incident leaves the SERVES of a valve's context; an empty one ends, at once or after its step (R111). -/
def Part.leaveServes (r v : Nat) (p : Part) : Part :=
  match p.context? v with
  | none => p
  | some c =>
    if c.serves.contains r then
      let left := c.serves.filter fun k => k ≠ r
      if left.isEmpty then
        if c.phase = .travelling then p.putContext v { c with serves := [], dropAfterStep := true } else p.endContext v
      else p.putContext v { c with serves := left }
    else p

/-- An incident leaves the SERVES of every context. -/
def Part.leaveAll (r : Nat) (p : Part) : Part :=
  p.seq.contexts.keys.foldl (fun q v => q.leaveServes r v) p

/-- A record is freed with an outcome (R64). -/
def Part.freeIncident (r : Nat) (outcome : IncOutcome) (p : Part) : Part :=
  match p.incident? r with
  | none => p
  | some i =>
    let q := ((p.removeIncident r).withdraw r).removeVerify r
    let q := (q.setWaiting (q.seq.waiting.filter fun w => w.record ≠ r)).leaveAll r
    let q := q.setCrew (q.seq.crew.filter fun c => c.record ≠ r)
    ((q.record .ended (some i.number) none (some outcome.num)).notice .ended
      [item (w16 i.number) (w16 i.burst), item (w16 outcome.num) (w16 i.repeats)]).offerRecords

/-- The outcome of a completed restoration (R62, R63). -/
def restoredOutcome (short : Bool) : IncOutcome := if short then .restoredPartial else .restored

/-- A touched entry ends, by release or return or (`short`) as LEFT_PARTIAL; the record is freed when its last
entry leaves while it is RESTORING (R63). -/
def Part.endTouched (r v : Nat) (short : Bool) (p : Part) : Part :=
  match p.incident? r with
  | none => p
  | some i =>
    if i.touches v then
      let j := { i with touched := i.touched.filter (fun t => t.valve ≠ v), short := i.short || short }
      let q := p.putIncident r j
      if j.touched.isEmpty && j.state = .restoring then q.freeIncident r (restoredOutcome j.short) else q
    else p

/-- The part may still join an entry for the valve to the record's touched list: it is there, or there is room for
it among 64 (R44). -/
def Incident.canTouch (i : Incident) (v : Nat) : Bool := i.touches v || decide (i.touched.length < 64)

/-- An entry joins a touched list with ROLE BOUNDARY, unless the valve is on it (R44). -/
def Part.touch (r v : Nat) (prior : Option Nat) (p : Part) : Part :=
  match p.incident? r with
  | none => p
  | some i =>
    if i.touches v then p
    else p.putIncident r { i with touched := i.touched ++ [{ valve := v, prior := prior, role := .boundary }] }

end Sys2Proof.Machine
end

