-- ==== Sys2Proof/Machine/Disturbance.lean ====
section
/-! DEFINITION. Disturbances (sections 1.8, 4.4): how the Isolation Planner and the Incident Table act on one,
and the writes of the Network Table that announce one. The disturbances of an event are announced when its writes
and the sequencer's handling of it are done (log entry 11). -/

namespace Sys2Proof.Machine

/-- A disturbance: its subject, and which of the causes WRITE, OPERABILITY, CLOSED_STATUS and STATION it carries
(R19). -/
structure Disturb where
  subject : Subject
  write : Bool
  oper : Bool
  closed : Bool
  station : Bool
  deriving DecidableEq, Repr

def Disturb.ofWrite (x : Subject) : Disturb := ⟨x, true, false, false, false⟩
def Disturb.ofOper (v : Nat) : Disturb := ⟨.valve v, false, true, false, false⟩
def Disturb.ofClosed (v : Nat) : Disturb := ⟨.valve v, false, false, true, false⟩
def Disturb.ofStation (v : Nat) : Disturb := ⟨.valve v, false, false, false, true⟩

/-- A disturbance meets the test of the plan in flight (R82, R83). -/
def Workspace.marks (w : Workspace) (x : Subject) : Bool :=
  match w.phase with
  | .supplyWalk => true
  | .areaSearch =>
    match x with
    | .valve v => w.examined.contains v
    | .segment g => w.area.contains g
    | _ => false

/-- The planner tests a disturbance: a plan that has not ended and meets the test ends DISTURBED (R81, R84). -/
def Part.markPlan (x : Subject) (p : Part) : Part :=
  match p.plan.plan with
  | none => p
  | some w =>
    match w.result with
    | some _ => p
    | none => if w.marks x then p.setPlan (some { w with result := some (.disturbed x) }) else p

/-- A disturbance touches the plan of an incident in CONFIRM_WAIT (R53). -/
def Part.touchesPlan (p : Part) (i : Incident) (x : Subject) : Bool :=
  match x with
  | .segment g => i.area.contains g
  | .valve v =>
    i.bounds v || i.touches v ||
      (match p.valve? v with
        | some y => i.area.any fun g => y.names g
        | none => false)
  | _ => false

/-- OPERABILITY or STATION of a CLOSE valve that is not at 0 and no longer usable (second case of R54). -/
def Part.losesValve (p : Part) (i : Incident) (d : Disturb) : Bool :=
  match d.subject with
  | .valve v =>
    (d.oper || d.station) && i.closes v &&
      (match p.valve? v with
        | some x => x.opening ≠ some 0 && !p.usable x
        | none => false)
  | _ => false

/-- CLOSED_STATUS of a NONE valve that is now at 1 or 2 (third case of R54). -/
def Part.leaksValve (p : Part) (i : Incident) (d : Disturb) : Bool :=
  match d.subject with
  | .valve v =>
    d.closed && i.relies v &&
      (match p.valve? v with
        | some x => x.opening = some 1 || x.opening = some 2
        | none => false)
  | _ => false

/-- A disturbance returns an incident to PLAN_WAIT (R53, R54). -/
def Part.unsettles (p : Part) (i : Incident) (d : Disturb) : Bool :=
  match i.state with
  | .confirmWait => p.touchesPlan i d.subject
  | .closing => p.losesValve i d || p.leaksValve i d
  | .verifying => p.leaksValve i d
  | _ => false

/-- The Incident Table tests a disturbance against one record. -/
def Part.testIncident (d : Disturb) (p : Part) (r : Nat) : Part :=
  match p.incident? r with
  | some i => if p.unsettles i d then p.planChanged r d.subject else p
  | none => p

/-- The numbers of the eight incident records, rising. -/
def incidentRecords : List Nat := List.range 8

/-- A disturbance is announced: to the planner, and to the records in ascending order (R19, R81; log entry 11). -/
def Part.announce (d : Disturb) (p : Part) : Part := incidentRecords.foldl (Part.testIncident d) (p.markPlan d.subject)

/-- Disturbances are announced one after another. -/
def Part.announceAll (ds : List Disturb) (p : Part) : Part := ds.foldl (fun q d => q.announce d) p

/-! ## Operability (section 1.4) -/

/-- The Network Table writes an OPERABILITY, with its trace entry when the value changes (R10). -/
def Part.writeOper (v : Nat) (o : Operability) (p : Part) : Part :=
  match p.valve? v with
  | none => p
  | some x =>
    if x.operability = o then p
    else (p.putValve v { x with operability := o }).record .operability none (some (.valve v)) (some o.num)

/-- The OPERABILITY of a valve, if it is loaded. -/
def Part.operOf (p : Part) (v : Nat) : Option Operability := (p.valve? v).map Valve.operability

/-- The disturbances of a change of OPERABILITY from what it was (R10): one when it differs, none otherwise. -/
def Part.operChange (before p : Part) (v : Nat) : List Disturb :=
  if before.operOf v = p.operOf v then [] else [.ofOper v]

/-- OPERABILITY is written and its disturbance announced (R10), with nothing else in the event. -/
def Part.setOper (v : Nat) (o : Operability) (p : Part) : Part :=
  let q := p.writeOper v o
  q.announceAll (p.operChange q v)

/-! ## Closed status and stations -/

/-- The counts-as-closed status of a valve; a free valve has none. -/
def Part.closedOf (p : Part) (v : Nat) : Option Bool := (p.valve? v).map Valve.countsAsClosed

/-- The disturbances of a change of the counts-as-closed status (R14, R15, R16). -/
def Part.closedChange (before p : Part) (v : Nat) : List Disturb :=
  if before.closedOf v = p.closedOf v then [] else [.ofClosed v]

/-- The valves a station hosts whose usability differs from what it was, ascending (R20). -/
def Part.usableChanges (before p : Part) (address : Nat) : List Nat :=
  Table.keys (p.net.valves.filter fun e => e.2.hostedBy address && before.usable e.2 ≠ p.usable e.2)

/-- The Station Table's notice of a change: a STATION disturbance for each valve concerned (R20). -/
def Part.stationNotice (p before : Part) (address : Nat) : Part :=
  p.announceAll ((before.usableChanges p address).map Disturb.ofStation)

/-- A trace entry of the Station Table, recorded when the address is the STATION of a loaded ACTUATED valve
(R149). -/
def Part.stationTrace (code : TraceCode) (address : Nat) (value : Option Nat) (p : Part) : Part :=
  if p.hosts address then p.record code none (some (.station address)) value else p

/-- The lines of a destination (R153). -/
def Part.linesTo (p : Part) (address : Nat) : List Line :=
  if address = 65535 then fieldLines
  else
    match p.station? address with
    | none => fieldLines
    | some (_, e) =>
      if e.blocked && p.isActive then []
      else
        match e.line with
        | some l => [l]
        | none => fieldLines

end Sys2Proof.Machine
end

