-- ==== Sys2Proof/Machine/Surge.lean ====
section
/-! DEFINITION. The Surge Calculator (chapter 5): exact integer arithmetic on its inputs, with no state. -/

namespace Sys2Proof.Machine

/-- The exact coefficient at an opening, times 10 (R94): the stated coefficient at the tenth at or below, plus the
part of the next tenth's rise. -/
def ValveClass.tenfold (c : ValveClass) (x : Nat) : Nat :=
  if x = 100 then c.curve.getD 10 0 * 10
  else
    let a := c.curve.getD (x / 10) 0
    let b := c.curve.getD (x / 10 + 1) 0
    a * 10 + (b - a) * (x % 10)

/-- The upward coefficient (R94). -/
def ValveClass.up (c : ValveClass) (x : Nat) : Nat := (c.tenfold x + 9) / 10

/-- The downward coefficient (R94). -/
def ValveClass.down (c : ValveClass) (x : Nat) : Nat := c.tenfold x / 10

/-- Δc of a step, rounded against the valve: the higher opening up, the lower opening down (R95). -/
def ValveClass.change (c : ValveClass) (o t : Nat) : Nat := if t < o then c.up o - c.down t else c.up t - c.down o

/-- Δp before the bound of 4,095 (R96). -/
def rawRise (wave velocity dc : Nat) : Nat := (wave * velocity * dc + 999999) / 1000000

/-- Δp (R96). -/
def predictedRise (wave velocity dc : Nat) : Nat := min (rawRise wave velocity dc) 4095

/-- A step is saturated (R96). -/
def saturated (wave velocity dc : Nat) : Bool := decide (4095 < rawRise wave velocity dc)

/-- The pressure of a side (R97). -/
def Part.sidePressure (p : Part) (segment : Nat) : Nat :=
  match p.segment? segment with
  | none => 0
  | some g =>
    match g.ref.bind p.sensor? with
    | some s => if s.kind = .pressure ∧ s.status = .fresh then s.lastValue.getD g.static else g.static
    | none => g.static

/-- The static pressure P of a valve (R97). -/
def Part.staticPressure (p : Part) (x : Valve) : Nat :=
  match x.segB with
  | some b => max (p.sidePressure x.segA) (p.sidePressure b)
  | none => p.sidePressure x.segA

/-- The budget B: RATING less P less MARGIN, within 0..4,095 (R98). -/
def surgeBudget (rating pressure margin : Nat) : Nat := min (rating - pressure - margin) 4095

/-- What a calculation reads (R92): the current opening, the final target, the class, and the rise and budget of
the valve. -/
structure SurgeInput where
  opening : Nat
  final : Nat
  cls : ValveClass
  wave : Nat
  velocity : Nat
  budget : Nat
  saturation : Saturation
  deriving DecidableEq, Repr

/-- The direction of travel is closing (R93). -/
def SurgeInput.closing (i : SurgeInput) : Bool := decide (i.final < i.opening)

/-- The candidate target a span away from the current opening (R101). -/
def SurgeInput.target (i : SurgeInput) (span : Nat) : Nat :=
  if i.closing then i.opening - span else i.opening + span

/-- Δc of a span. -/
def SurgeInput.dc (i : SurgeInput) (span : Nat) : Nat := i.cls.change i.opening (i.target span)

/-- Δp of a span. -/
def SurgeInput.rise (i : SurgeInput) (span : Nat) : Nat := predictedRise i.wave i.velocity (i.dc span)

/-- A step of a span fits (R98). -/
def SurgeInput.fits (i : SurgeInput) (span : Nat) : Bool :=
  !saturated i.wave i.velocity (i.dc span) && decide (i.rise span ≤ i.budget)

/-- The aimed target: the next breakpoint in the direction of travel, bounded by the final target (R99, R100). -/
def SurgeInput.aim (i : SurgeInput) : Nat :=
  if i.closing then
    match i.cls.profile.find? fun b => decide (b < i.opening) with
    | some b => max b i.final
    | none => i.final
  else
    match i.cls.profile.reverse.find? fun b => decide (i.opening < b ∧ b < i.final) with
    | some b => b
    | none => i.final

/-- The span of the aimed step. -/
def SurgeInput.aimSpan (i : SurgeInput) : Nat := if i.closing then i.opening - i.aim else i.aim - i.opening

/-- Halve the span, rounded down, while the step does not fit and the span is above 1 (R101). The fuel is the span
itself. -/
def halve (fits : Nat → Bool) : Nat → Nat → Nat
  | 0, span => span
  | n + 1, span => if fits span then span else if span ≤ 1 then span else halve fits n (span / 2)

/-- The span a calculation comes to: the first that fits, or 1. -/
def SurgeInput.span (i : SurgeInput) : Nat := halve i.fits i.aimSpan i.aimSpan

/-- The result of a calculation (R92). -/
inductive Calc where
  | final
  | step (target span : Nat)
  | clamped (target rise : Nat)
  | limit (rise : Nat)
  deriving DecidableEq, Repr

/-- The calculation (R93, R101, R102, R103, R104). -/
def SurgeInput.calc (i : SurgeInput) : Calc :=
  if i.opening = i.final then .final
  else if i.fits i.span then .step (i.target i.span) i.span
  else
    match i.saturation with
    | .clamp => .clamped (i.target i.span) (i.rise i.span)
    | .refer => .limit (i.rise i.span)

/-- The inputs of a valve's calculation as they stand (R92); a class that is not loaded, which the load and clear
rules exclude (R4, R5), gives none. -/
def Part.surgeInput (p : Part) (x : Valve) (opening final : Nat) : Option SurgeInput :=
  match p.vclass? x.vclass, p.material? x.material with
  | some c, some m =>
    let z := p.zone (p.zoneOfValve x)
    some
      { opening := opening, final := final, cls := c, wave := m.speed, velocity := x.velocity,
        budget := surgeBudget m.rating (p.staticPressure x) z.margin, saturation := z.saturation }
  | _, _ => none

end Sys2Proof.Machine
end

