-- ==== Sys2Proof/Machine/Sequencer.lean ====
section
/-! DEFINITION. The Closure Sequencer's steps (sections 6.1 to 6.4): orders, calculation points, failures, grants,
and how positions, echoes and expiries act on a step. A function here that releases a slot takes the grants that
the release gives as a continuation `grants` (log entry 12). -/

namespace Sys2Proof.Machine

/-! ## Orders (R113) -/

/-- The highest URGENCY among the incidents of a run. -/
def Part.topUrgency (p : Part) (serves : List Nat) : Nat := (serves.map p.urgencyOf).foldl max 0

/-- The priority of an order of a run: by the urgency map, or FREE where the run serves no incident (R113; log
entry 18). -/
def Part.orderPriority (p : Part) (c : StepCtx) : Nat :=
  if c.serves.isEmpty then (Config.orphanPriority p.mgmt.fresh).toNat else p.priorityOf (p.topUrgency c.serves)

/-- The counter behind the free values goes on by one (log entry 17). -/
def Part.freshen (p : Part) : Part := { p with mgmt := { p.mgmt with fresh := p.mgmt.fresh + 1 } }

/-- The counter goes on where the priority was free. -/
def Part.freshenOrder (c : StepCtx) (p : Part) : Part := if c.serves.isEmpty then p.freshen else p

/-- An ORDER frame of the part: destination the valve's STATION, source the own address, one item on the valve's
CHANNEL (R113). -/
def Part.orderFrame (p : Part) (x : Valve) (c : StepCtx) (tag code value : Nat) : Frame :=
  Frame.sealed
    { dst := w16 x.station, src := w16 p.mgmt.ownAddress, ctl := controlByte .order (p.orderPriority c),
      tag := BitVec.ofNat 8 tag, items := [⟨BitVec.ofNat 8 (x.channel * 8), BitVec.ofNat 8 code, Word.hi (w16 value),
        Word.lo (w16 value)⟩], crc := 0#16 }

/-- A formed order is offered to its lines: those with a place take a copy, and it waits for the others (R113,
R168). -/
def Part.offerOrder (v : Nat) (kind : OrderKind) (f : Frame) (lines : List Line) (p : Part) : Part :=
  let c := p.classOf f
  let full := lines.filter fun l => !p.hasPlace l c
  let q := (lines.filter fun l => p.hasPlace l c).foldl (fun q l => q.enqueue l c ⟨f, false⟩) p
  if full.isEmpty then q.orderQueued v kind
  else q.setSeqFrames (q.seq.frames ++ [{ valve := v, kind := kind, frame := f, lines := full }])

/-- An order goes to the lines of the valve's station; a station of no line fails the step (R113, R153). -/
def Part.sendOrder (fail : Part → Part) (v : Nat) (x : Valve) (kind : OrderKind) (f : Frame) (p : Part) : Part :=
  match p.linesTo x.station with
  | [] => fail p
  | ls => p.offerOrder v kind f ls

/-- The next tag, from 255 to 1 (R113). -/
def succTag (n : Nat) : Nat := if n < 255 then n + 1 else 1

/-! ## Ends and failures (R111, R118) -/

/-- The number of the first incident a run serves. -/
def Part.firstServed (p : Part) (c : StepCtx) : Option Nat := c.serves.head?.bind p.numberOf

/-- A step fails: a trace entry, the context ends and its slot is free, the grants of the slot, and the report: each
served incident in CLOSING returns to PLAN_WAIT, or the touched entry ends as LEFT_PARTIAL (R118). DESIGN CHOICE (log
entry 46): the incidents are told in the order in which the run came to serve them. -/
def Part.failStep (grants : Part → Part) (v : Nat) (why : Failure) (p : Part) : Part :=
  match p.context? v with
  | none => p
  | some c =>
    let q := grants ((p.record .stepFailed (p.firstServed c) (some (.valve v)) (some why.num)).endContext v)
    match c.run with
    | .closing =>
      c.serves.foldl (fun q r => if q.stateOf r = some .closing then q.planChanged r (.valve v) else q) q
    | .restoring =>
      (c.serves.foldl (fun q r => q.endTouched r v true) q).record .leftPartial (p.firstServed c) (some (.valve v)) none

/-- A run ends at its final target: the context ends, and a CLOSING run is reported to the Verification Unit, a
RESTORING run ends its touched entry by return (R106, R116). -/
def Part.finishRun (grants : Part → Part) (v : Nat) (p : Part) : Part :=
  match p.context? v with
  | none => p
  | some c =>
    let q := grants (p.endContext v)
    match c.run with
    | .closing => c.serves.foldl (fun q r => q.testVerify r) q
    | .restoring => c.serves.foldl (fun q r => q.endTouched r v false) q

/-- A run meets the surge limit under REFER: the context ends; a CLOSING run's incidents in CLOSING are held with
reason SURGE_LIMIT, a RESTORING run's touched entry ends as LEFT_PARTIAL (R103, R104, R57; log entry 13). -/
def Part.limitRun (grants : Part → Part) (v rise : Nat) (p : Part) : Part :=
  match p.context? v with
  | none => p
  | some c =>
    let q := grants ((p.record .surgeLimit (p.firstServed c) (some (.valve v)) (some rise)).endContext v)
    match c.run with
    | .closing =>
      c.serves.foldl (fun q r => if q.stateOf r = some .closing then q.hold r .surgeLimit (some v) else q) q
    | .restoring => c.serves.foldl (fun q r => q.endTouched r v true) q

/-! ## Calculation points (R111) -/

/-- Some incident a run serves is in a state. -/
def Part.servesIn (p : Part) (c : StepCtx) (st : IncState) : Bool := c.serves.any fun r => p.stateOf r = some st

/-- What the test of a run at a calculation point finds (R111). -/
inductive RunTest where
  | proceed | halt | finish
  deriving DecidableEq, Repr

/-- The state in which a run may proceed. -/
def Run.goal : Run → IncState
  | .closing => .closing
  | .restoring => .restoring

/-- Some served incident stands where the run waits for it (R111). -/
def Part.waitsServed (p : Part) (c : StepCtx) : Bool :=
  match c.run with
  | .closing => p.servesIn c .planWait || p.servesIn c .planning || p.servesIn c .confirmWait
  | .restoring => p.servesIn c .restoring

/-- The test of a run (R111). -/
def Part.runTest (p : Part) (c : StepCtx) : RunTest :=
  if p.isActive && p.servesIn c c.run.goal then .proceed
  else if !p.isActive || p.waitsServed c then .halt
  else .finish

/-- The final target of a run: 0, or the one R44 gives the touched entry (R93). -/
def Part.runTarget (p : Part) (v : Nat) (x : Valve) (c : StepCtx) : Nat :=
  match c.run with
  | .closing => 0
  | .restoring =>
    match (c.serves.head?.bind p.incident?).bind fun i => i.touched.find? fun t => t.valve = v with
    | some t => finalTarget t.prior x
    | none => finalTarget none x

/-- The hold test of a RESTORING run whose incident is RESTORING (R127; log entry 30). -/
def Part.heldElsewhere (p : Part) (x : Valve) (c : StepCtx) : Bool :=
  c.run = .restoring && p.servesIn c .restoring && decide (1 < x.holdCount)

/-- A MOVE is formed: a tag is taken, MOVE_TAG and TARGET are written, PHASE is PENDING until it is queued (R113). -/
def Part.formMove (grants : Part → Part) (v : Nat) (x : Valve) (c : StepCtx) (target span : Nat) (p : Part) : Part :=
  let tag := p.seq.tag
  let f := p.orderFrame x c tag 17 target
  let q := p.freshenOrder c
  let q := { q with seq := { q.seq with tag := succTag tag } }
  let q := q.adjustValve v fun y => { y with moveTag := some tag }
  let q := q.putContext v { c with phase := .pending, target := some target, span := span, dwellDue := none }
  q.sendOrder (fun q => q.failStep grants v .unreachable) v x .move f

/-- A first QUERY is formed; it is PENDING until it is queued (R112, R113; log entry 14). -/
def Part.formQuery (grants : Part → Part) (v : Nat) (x : Valve) (c : StepCtx) (p : Part) : Part :=
  let f := p.orderFrame x c 0 19 0
  ((p.freshenOrder c).putContext v { c with phase := .pending }).sendOrder
    (fun q => q.failStep grants v .unreachable) v x .query f

/-- The Surge Calculator is asked and its result acted on (R92, R102, R103, R104, R106). -/
def Part.nextStep (grants : Part → Part) (v : Nat) (x : Valve) (c : StepCtx) (opening : Nat) (p : Part) : Part :=
  match p.surgeInput x opening (p.runTarget v x c) with
  | none => p
  | some i =>
    match i.calc with
    | .final => p.finishRun grants v
    | .step target span => p.formMove grants v x c target span
    | .clamped target rise =>
      (p.record .surgeClamped (p.firstServed c) (some (.valve v)) (some rise)).formMove grants v x c target 1
    | .limit rise => p.limitRun grants v rise

/-- The calculation point of a valve's run (R111, R127). The current opening is REACHED where present, else OPENING
(R93). -/
def Part.calcPoint (grants : Part → Part) (v : Nat) (p : Part) : Part :=
  match p.context? v, p.valve? v with
  | some c, some x =>
    if p.heldElsewhere x c then c.serves.foldl (fun q r => q.endTouched r v false) (grants (p.endContext v))
    else
      match p.runTest c with
      | .halt => p.putContext v { c with phase := .halted, dwellDue := none }
      | .finish => grants (p.endContext v)
      | .proceed =>
        match c.reached, x.opening with
        | some o, _ => p.nextStep grants v x c o
        | none, some o => p.nextStep grants v x c o
        | none, none => p.formQuery grants v x c
  | _, _ => p

/-- A granted valve begins its first step: by a QUERY where its OPENING is UNKNOWN (R112). -/
def Part.startStep (grants : Part → Part) (v : Nat) (p : Part) : Part :=
  match p.context? v, p.valve? v with
  | some c, some x => if x.opening = none then p.formQuery grants v x c else p.calcPoint grants v
  | _, _ => p

/-! ## Waiting lists and grants (R107, R108, R109) -/

/-- The place of a waiting entry within its incident: the place in closure order, or in dispatch order, which takes
the touched list from its end (R108, R126). -/
def Part.waitPlace (p : Part) (w : WaitEntry) : Nat :=
  match p.incident? w.record with
  | none => 0
  | some i =>
    match w.run with
    | .closing => i.boundary.findIdx fun b => b.valve = w.valve
    | .restoring => i.touched.reverse.findIdx fun t => t.valve = w.valve

/-- OPENED of a record's incident. -/
def Part.openedOf (p : Part) (r : Nat) : Nat :=
  match p.incident? r with
  | some i => i.opened
  | none => 0

/-- The order of a waiting list (R108). -/
def Part.waitsBefore (p : Part) (a b : WaitEntry) : Bool :=
  if p.urgencyOf a.record ≠ p.urgencyOf b.record then decide (p.urgencyOf b.record < p.urgencyOf a.record)
  else if p.openedOf a.record ≠ p.openedOf b.record then decide (p.openedOf a.record < p.openedOf b.record)
  else if a.record ≠ b.record then decide (a.record < b.record)
  else decide (p.waitPlace a < p.waitPlace b)

/-- A zone's waiting list in its order (R108). -/
def Part.zoneList (p : Part) (z : Nat) : List WaitEntry :=
  sortBy p.waitsBefore (p.seq.waiting.filter fun w => w.zone = z)

/-- An entry is eligible (R109). -/
def Part.eligible (p : Part) (w : WaitEntry) : Bool :=
  p.isActive && (p.context? w.valve).isNone && p.stateOf w.record = some w.run.goal

/-- A zone has a free slot (R107). -/
def Part.freeSlot (p : Part) (z : Nat) : Bool := decide (p.slotsHeld z < (p.zone z).slots)

/-- The entry the first zone with a free slot and an eligible entry grants (R109). DESIGN CHOICE (log entry 25): of several
zones that may grant, the lowest-numbered grants first. -/
def Part.nextGrant (p : Part) : Option WaitEntry :=
  if p.seq.waiting.isEmpty then none
  else (List.range 64).findSome? fun z => if p.freeSlot z then (p.zoneList z).find? p.eligible else none

/-- An entry leaves the waiting lists. -/
def Part.dropWaiting (w : WaitEntry) (p : Part) : Part := p.setWaiting (p.seq.waiting.filter fun x => x ≠ w)

/-- A new context (R109, R110). -/
def StepCtx.fresh (zone : Nat) (run : Run) (serves : List Nat) (opening : Option Nat) : StepCtx :=
  { zone := zone, run := run, serves := serves, grantOpening := opening, reached := none, phase := .halted,
    target := none, span := 0, dropAfterStep := false, travelDue := none, queryDue := none, pollDue := none,
    pollStart := 0, dwellDue := none }

/-- A CLOSING grant to one incident: the valve joins its touched list; where the list is full, the incident is held with
reason PLAN_TOO_LARGE and is left out (R109, R44). -/
def Part.grantTo (v : Nat) (opening : Option Nat) (w : WaitEntry) (a : Part × List Nat) : Part × List Nat :=
  match a.1.incident? w.record with
  | none => a
  | some i =>
    if i.canTouch v then (a.1.touch w.record v opening, a.2 ++ [w.record])
    else (a.1.hold w.record .planTooLarge none, a.2)

/-- The eligible CLOSING entries of a valve in a zone's list, in its order (R109). -/
def Part.grantsOf (p : Part) (z v : Nat) : List WaitEntry :=
  (p.zoneList z).filter fun e => e.valve = v && e.run = .closing && p.eligible e

/-- A CLOSING grant: every eligible CLOSING entry of the valve is taken out of the list, and the valve is granted to each
of their incidents that its touched list does not leave out (R109). DEDUCED (log entry 53): the entry of an incident left
out stays out of the list. -/
def Part.grantClosing (grants : Part → Part) (w : WaitEntry) (x : Valve) (p : Part) : Part :=
  let all := p.grantsOf w.zone w.valve
  let q := p.setWaiting (p.seq.waiting.filter fun e => !all.contains e)
  let a := all.foldl (fun a e => Part.grantTo w.valve x.opening e a) (q, [])
  if a.2.isEmpty then a.1
  else (a.1.putContext w.valve (.fresh w.zone .closing a.2 x.opening)).startStep grants w.valve

/-- A RESTORING grant, after its hold test (R109, R127). -/
def Part.grantRestoring (grants : Part → Part) (w : WaitEntry) (x : Valve) (p : Part) : Part :=
  let q := p.dropWaiting w
  if 1 < x.holdCount then q.endTouched w.record w.valve false
  else (q.putContext w.valve (.fresh w.zone .restoring [w.record] x.opening)).startStep grants w.valve

/-- A zone grants an entry (R109). -/
def Part.grant (grants : Part → Part) (w : WaitEntry) (p : Part) : Part :=
  match p.valve? w.valve with
  | none => p.dropWaiting w
  | some x =>
    match w.run with
    | .closing => p.grantClosing grants w x
    | .restoring => p.grantRestoring grants w x

/-- The first HALTED context that its test no longer halts (R111). -/
def Part.nextHalted (p : Part) : Option Nat :=
  (p.seq.contexts.find? fun e => e.2.phase = .halted && p.runTest e.2 ≠ .halt).map Prod.fst

/-- The part takes up what stands ready: HALTED contexts that no longer halt, then grants, until nothing is left
(R109, R111). Each round takes a HALTED context out of that phase or an entry out of a waiting list, and the fuel counts
them. -/
def Part.settle : Nat → Part → Part
  | 0, p => p
  | n + 1, p =>
    match p.nextHalted with
    | some v => Part.settle n (p.calcPoint (Part.settle n) v)
    | none =>
      match p.nextGrant with
      | some w => Part.settle n (p.grant (Part.settle n) w)
      | none => p

/-- `settle` with fuel enough. -/
def Part.settled (p : Part) : Part := p.settle (p.seq.waiting.length + p.seq.contexts.length + 9)

/-! ## Positions, echoes and expiries (R112, R114 to R117) -/

/-- The first answered position is written as PRIOR into a touched entry whose PRIOR is UNKNOWN (R44, R112). -/
def TouchedEntry.learn (v o : Nat) (t : TouchedEntry) : TouchedEntry :=
  if t.valve = v ∧ t.prior = none then { t with prior := some o } else t

/-- The answer of a first QUERY reaches the touched lists of the incidents the run serves (R112). -/
def Part.learnPrior (v o : Nat) (serves : List Nat) (p : Part) : Part :=
  serves.foldl
    (fun q r =>
      match q.incident? r with
      | some i => q.putIncident r { i with touched := i.touched.map (TouchedEntry.learn v o) }
      | none => q) p

/-- The answer of a first QUERY: its timer stops, UNKNOWN PRIORs and GRANT_OPENING are written (R112, R121; log
entry 21), and the calculation point follows. -/
def Part.queryAnswered (grants : Part → Part) (v o : Nat) (c : StepCtx) (p : Part) : Part :=
  ((p.learnPrior v o c.serves).putContext v
    { c with queryDue := none, grantOpening := some (c.grantOpening.getD o) }).calcPoint grants v

/-- An opening lies within 2 of a target (R116). -/
def within2 (o t : Nat) : Bool := decide (o ≤ t + 2 ∧ t ≤ o + 2)

/-- A step is reached (R116). -/
def Part.stepReached (grants : Part → Part) (v : Nat) (x : Valve) (c : StepCtx) (t : Nat) (p : Part) : Part :=
  let q := p.adjustValve v fun y => { y with moveTag := none }
  let d := { c with travelDue := none, pollDue := none, reached := some t, target := none }
  if c.dropAfterStep then grants ((q.putContext v d).endContext v)
  else if t = p.runTarget v x c then (q.putContext v d).finishRun grants v
  else
    match p.vclass? x.vclass with
    | some k => q.putContext v { d with phase := .dwelling, dwellDue := some (p.now + 10 * k.dwell) }
    | none => q.putContext v d

/-- The sequencer takes an applied position of a valve (R112, R116). -/
def Part.takePosition (grants : Part → Part) (v o : Nat) (p : Part) : Part :=
  match p.context? v, p.valve? v with
  | some c, some x =>
    match c.phase, c.target with
    | .querying, _ => p.queryAnswered grants v o c
    | .travelling, some t => if within2 o t then p.stepReached grants v x c t else p
    | _, _ => p
  | _, _ => p

/-- A failure that also changes OPERABILITY: the write and its trace entry, the failure, and then the disturbance
(R10, R115, R117; log entry 11). -/
def Part.failWith (v : Nat) (o : Operability) (why : Failure) (p : Part) : Part :=
  let w := p.writeOper v o
  (w.failStep Part.settled v why).announceAll (p.operChange w v)

/-- The sequencer takes an echo of a tag and a status 0, 1 or 2 (R115). -/
def Part.takeEcho (v tag status : Nat) (p : Part) : Part :=
  match p.valve? v with
  | none => p
  | some x =>
    if x.moveTag = some tag then
      if status = 1 then p.failWith v .local .local
      else if status = 2 then p.failWith v .seized .seized
      else p
    else { p with counters := { p.counters with staleEchoes := raise p.counters.staleEchoes } }

/-- The travel timer of a valve expires (R117). -/
def Part.travelExpired (v : Nat) (p : Part) : Part :=
  match p.valve? v with
  | none => p
  | some x => if p.heard x.station then p.failWith v .seized .seized else p.failStep Part.settled v .unreachable

/-- A poll QUERY is due: no position in the interval just ended, the part is ACTIVE, and none waits already (R114,
R129). -/
def Part.pollNeeded (p : Part) (v : Nat) (x : Valve) (c : StepCtx) : Bool :=
  p.isActive && (match x.positionTime with
    | none => true
    | some t => decide (t < c.pollStart)) && !p.seq.frames.any fun f => f.valve = v && f.kind = .poll

/-- A poll QUERY is formed; with no line to take it the step fails (R113, R114, R153; log entry 16). -/
def Part.formPoll (v : Nat) (x : Valve) (c : StepCtx) (p : Part) : Part :=
  let f := p.orderFrame x c 0 19 0
  (p.freshenOrder c).sendOrder (fun q => q.failStep Part.settled v .unreachable) v x .poll f

/-- The poll timer of a TRAVELLING valve expires: a QUERY where one is due, and the next interval starts with the POLL
of the class as it stands (R114). -/
def Part.pollExpired (v : Nat) (p : Part) : Part :=
  match p.context? v, p.valve? v with
  | some c, some x =>
    let n := ((p.vclass? x.vclass).map ValveClass.poll).getD 0
    let q := p.adjustContext v fun d =>
      { d with pollDue := if n = 0 then none else some (p.now + 10 * n), pollStart := p.now }
    if p.pollNeeded v x c then q.formPoll v x c else q
  | _, _ => p

end Sys2Proof.Machine
end

