-- ==== Sys2Proof/Machine/Closure.lean ====
section
/-! DEFINITION. The Closure Sequencer's work for whole incidents: the adjustment and hand-over of a boundary
(R119 to R122), crew reports (R123), breach (R124), override (R125) and restoration (R126 to R128), and the entries to
CLOSING and VERIFYING that begin them. Slots released inside these are granted when they are done (log entry 12). -/

namespace Sys2Proof.Machine

/-! ## Crew requests (R122, R126) -/

/-- A CREW_REQUIRED notice (10.5). -/
def Part.crewNotice (number v : Nat) (dir : CrewDir) (p : Part) : Part :=
  p.notice .crewRequired [item (w16 number) (w16 v), item (w16 dir.num) 0#16]

/-- A crew request is kept and its notice asked for. -/
def Part.askCrew (q : CrewReq) (number : Nat) (p : Part) : Part :=
  (p.setCrew (p.seq.crew ++ [q])).crewNotice number q.valve q.dir

/-- A request of the pair of valve and record stands. -/
def Part.hasCrew (p : Part) (v r : Nat) (restore : Bool) : Bool :=
  p.seq.crew.any fun c => c.valve = v && c.record = r && c.restore = restore

/-- A request is ended or withdrawn. -/
def Part.dropCrew (q : CrewReq) (p : Part) : Part := p.setCrew (p.seq.crew.filter fun c => c ≠ q)

/-! ## Adjustment at a commit (R119) -/

/-- The record leaves the contexts whose valves are not CLOSE on its boundary, and so do its waiting entries and
close requests (R119). -/
def Part.adjustBoundary (r : Nat) (p : Part) : Part :=
  match p.incident? r with
  | none => p
  | some i =>
    let vs := Table.keys (p.seq.contexts.filter fun e => e.2.run = .closing && !i.closes e.1)
    let q := vs.foldl (fun q v => q.leaveServes r v) p
    let q := q.setWaiting (q.seq.waiting.filter fun w =>
      !(w.record = r && w.run = .closing && !i.closes w.valve))
    q.setCrew (q.seq.crew.filter fun c => !(c.record = r && !c.restore && !i.closes c.valve))

/-! ## Hand-over (R120, R121, R122) -/

/-- A second incident joins a CLOSING run (R121). -/
def Part.joinRun (r v : Nat) (i : Incident) (c : StepCtx) (p : Part) : Part :=
  if i.canTouch v then
    let q := (p.touch r v c.grantOpening).putContext v { c with serves := c.serves ++ [r], dropAfterStep := false }
    let q := q.setWaiting (q.seq.waiting.filter fun w => !(w.valve = v && w.record = r && w.run = .closing))
    if c.phase = .halted then q.calcPoint id v else q
  else p.hold r .planTooLarge none

/-- A close request is raised for a manual valve (R122). -/
def Part.askClose (r v : Nat) (i : Incident) (x : Valve) (p : Part) : Part :=
  if i.canTouch v then
    (p.touch r v (some (if x.opening = some 0 then 0 else 100))).askCrew
      { valve := v, record := r, restore := false, dir := .close } i.number
  else p.hold r .planTooLarge none

/-- An entry joins a waiting list, at most one for a pair of valve and incident (R108). -/
def Part.addWaiting (z v r : Nat) (run : Run) (p : Part) : Part :=
  if p.seq.waiting.any fun w => w.valve = v && w.record = r && w.run = run then p
  else p.setWaiting (p.seq.waiting ++ [{ zone := z, valve := v, record := r, run := run }])

/-- One CLOSE entry of the boundary is handed over, by the first case of R120 that applies, whether or not an entry before
it has taken the incident out of CLOSING (log entry 23). -/
def Part.handEntry (r v : Nat) (p : Part) : Part :=
  match p.incident? r, p.valve? v with
  | some i, some x =>
    match x.kind with
    | .manual => if p.hasCrew v r false || x.opening = some 0 then p else p.askClose r v i x
    | .actuated =>
      match p.context? v with
      | some c =>
        if c.serves.contains r then (if c.phase = .halted then p.calcPoint id v else p)
        else if c.run = .closing then p.joinRun r v i c
        else p.addWaiting (p.zoneOfValve x) v r .closing
      | none => p.addWaiting (p.zoneOfValve x) v r .closing
  | _, _ => p

/-- The CLOSE valves of a boundary, in closure order. -/
def Incident.closeList (i : Incident) : List Nat := (i.boundary.filter fun b => b.action = .close).map BoundaryEntry.valve

/-- An incident in CLOSING is handed over: its CLOSE entries in closure order, then the grants, then the test of the
Verification Unit (R120, R133). -/
def Part.handOver (r : Nat) (p : Part) : Part :=
  match p.incident? r with
  | some i => ((i.closeList.foldl (fun q v => q.handEntry r v) p).settled).testVerify r
  | none => p

/-! ## Crew reports (R123) -/

/-- The final target of a restore request. -/
def Part.requestTarget (p : Part) (q : CrewReq) : Nat :=
  match (p.incident? q.record).bind fun i => i.touched.find? fun t => t.valve = q.valve, p.valve? q.valve with
  | some t, some x => finalTarget t.prior x
  | _, _ => if q.dir = .close then 0 else 100

/-- A close request is satisfied: its incident is reported to the Verification Unit. -/
def Part.closeDone (p : Part) (q : CrewReq) : Part :=
  if p.seq.crew.contains q && !q.restore then (p.dropCrew q).testVerify q.record else p

/-- A restore request with the final target is satisfied: its touched entry ends by return. -/
def Part.restoreDone (target : Nat) (p : Part) (q : CrewReq) : Part :=
  if p.seq.crew.contains q && q.restore && p.requestTarget q = target then
    (p.dropCrew q).endTouched q.record q.valve false
  else p

/-- A request of a seized valve ends: a close request as a failure of its incident, a restore request as
LEFT_PARTIAL (R123, R118, R63). -/
def Part.crewSeized (p : Part) (q : CrewReq) : Part :=
  if p.seq.crew.contains q then
    let s := p.dropCrew q
    if q.restore then s.endTouched q.record q.valve true
    else
      let s := s.record .stepFailed (s.numberOf q.record) (some (.valve q.valve)) (some Failure.seized.num)
      if s.stateOf q.record = some .closing then s.planChanged q.record (.valve q.valve) else s
  else p

/-- A crew report is matched against the valve's requests (R123). DESIGN CHOICE (log entry 49): the requests it ends are
taken in the order they were raised, a CLOSED report taking the close requests before the restore requests. -/
def Part.matchCrew (v : Nat) (res : CrewResult) (p : Part) : Part :=
  let reqs := p.seq.crew.filter fun c => c.valve = v
  match res with
  | .closed => reqs.foldl (Part.restoreDone 0) (reqs.foldl Part.closeDone p)
  | .opened => reqs.foldl (Part.restoreDone 100) p
  | .seized => reqs.foldl Part.crewSeized p

/-! ## Breach (R124) -/

/-- Before a report the valve stood closed: its OPENING was 0, 1 or 2, or it counted as closed. -/
def Valve.stoodClosed (x : Valve) : Bool :=
  x.countsAsClosed ||
    match x.opening with
    | some o => decide (o ≤ 2)
    | none => false

/-- The breach test of one incident (R124, R57). -/
def Part.breached (p : Part) (r v : Nat) (i : Incident) : Bool :=
  (i.state = .closing || i.state = .verifying || i.state = .isolated) &&
    (i.relies v || (i.closes v && !p.servedBy v r))

/-- A report is tested for breach against every record (R124). DESIGN CHOICE (log entry 45): the records are taken in
ascending number. -/
def Part.testBreach (v : Nat) (before : Valve) (opening : Nat) (p : Part) : Part :=
  if before.stoodClosed && decide (2 < opening) then
    incidentRecords.foldl
      (fun q r =>
        match q.incident? r with
        | some i => if q.breached r v i then q.hold r .breach (some v) else q
        | none => q) p
  else p

/-! ## Override (R125, R162) -/

/-- The incidents with the valve in their counted lists are held with reason OVERRIDE (R57). DESIGN CHOICE (log entry 45): the
records are taken in ascending number. -/
def Part.holdOverridden (v : Nat) (p : Part) : Part :=
  incidentRecords.foldl
    (fun q r =>
      match q.incident? r with
      | some i => if i.holds v then q.hold r .override (some v) else q
      | none => q) p

/-- A held valve is given over to the control room (R125, R162). -/
def Part.overrideValve (tag v : Nat) (p : Part) : Part :=
  let q := (p.writeOper v .local).endContext v
  let q := q.setWaiting (q.seq.waiting.filter fun w => w.valve ≠ v)
  let q := q.setCrew (q.seq.crew.filter fun c => c.valve ≠ v)
  (q.holdOverridden v).record .override none (some (.valve v)) (some tag)

/-- The override of a frame's held valves, in order; the OPERABILITY disturbances follow (log entry 11). -/
def Part.overrideAll (tag : Nat) (vs : List Nat) (p : Part) : Part :=
  let q := vs.foldl (fun q v => q.overrideValve tag v) p
  q.announceAll (vs.flatMap fun v => p.operChange q v)

/-! ## Restoration (R126, R127, R128) -/

/-- A CLOSING context of a record entering RESTORING: it leaves a shared one and reverses its own (R126). -/
def Part.reverseContext (r : Nat) (p : Part) (v : Nat) : Part :=
  match p.context? v with
  | none => p
  | some c =>
    if c.run = .closing && c.serves.contains r then
      if c.serves = [r] then
        let q := p.putContext v { c with run := .restoring }
        if c.phase = .halted && q.isActive then q.calcPoint id v else q
      else p.putContext v { c with serves := c.serves.filter fun k => k ≠ r }
    else p

/-- The direction of a restore request (R126). -/
def restoreDir (target : Nat) : CrewDir := if target = 0 then .close else .opened

/-- A waiting entry of the valve stands for the record's restoration. -/
def Part.hasReturn (p : Part) (v r : Nat) : Bool :=
  p.seq.waiting.any fun w => w.valve = v && w.record = r && w.run = .restoring

/-- One touched entry is dispatched, by the first case of R126 that applies; a valve with a RESTORING waiting entry of an
earlier dispatch is left to that (R128). -/
def Part.dispatchEntry (r number v : Nat) (p : Part) : Part :=
  match p.incident? r, p.valve? v with
  | some i, some x =>
    match i.touched.find? fun t => t.valve = v with
    | none => p
    | some t =>
      if i.number ≠ number || i.state ≠ .restoring || p.servedBy v r || p.hasReturn v r then p
      else if 1 < x.holdCount then p.endTouched r v false
      else if x.opening = some (finalTarget t.prior x) then p.endTouched r v false
      else
        match x.kind with
        | .actuated => p.addWaiting (p.zoneOfValve x) v r .restoring
        | .manual =>
          if p.hasCrew v r true then p
          else p.askCrew { valve := v, record := r, restore := true, dir := restoreDir (finalTarget t.prior x) } number
  | _, _ => p

/-- An incident entered RESTORING: its CLOSING entries and close requests leave, its contexts reverse, and its touched
list is dispatched from the last entry to the first, then the zones grant (R108, R126). -/
def Part.dispatchRestore (r : Nat) (p : Part) : Part :=
  match p.incident? r with
  | none => p
  | some i =>
    let q := p.setWaiting (p.seq.waiting.filter fun w => !(w.record = r && w.run = .closing))
    let q := (Table.keys q.seq.contexts).foldl (Part.reverseContext r) q
    let q := q.setCrew (q.seq.crew.filter fun c => !(c.record = r && !c.restore))
    ((i.touched.reverse.map TouchedEntry.valve).foldl (fun q v => q.dispatchEntry r i.number v) q).settled

end Sys2Proof.Machine
end

