-- ==== Sys2Proof/Machine/Sensing.lean ====
section
/-! DEFINITION. Samples at the Sensor Watch (sections 2.2, 2.4, 2.5), the Verification Unit's tests of them (sections
7.4, 7.5), and positions and echoes as a report brings them (section 1.6). -/

namespace Sys2Proof.Machine

/-! ## Excursion (R28) -/

/-- A sample on a side of the band. -/
def Sensor.countOn (x : Sensor) (side : CountSide) (e : Excursion) : Sensor :=
  let n := if x.side = .none ∨ x.side = side then x.countdown - 1 else x.persist - 1
  if n = 0 then { x with countdown := x.persist, side := side, excursion := e }
  else { x with countdown := n, side := side }

/-- A GOOD sample moves the excursion state (R28). -/
def Sensor.excurse (x : Sensor) (v : Nat) : Sensor :=
  if v < x.bandLow then x.countOn .low .low
  else if x.bandHigh < v then x.countOn .high .high
  else { x with countdown := x.persist, side := .none, excursion := .inBand }

/-- The sample is written: value, time, FRESH, and the freshness timer started anew (step 3 of R26). -/
def Sensor.sampled (x : Sensor) (v now : Nat) : Sensor :=
  { x.excurse v with
    lastValue := some v, lastTime := some now, status := .fresh, freshDue := some (now + 10 * x.window) }

/-- The sharp-drop test against the values before the sample (R34). -/
def Sensor.dropsSharply (x : Sensor) (v : Nat) : Bool :=
  x.kind = .pressure && x.drop ≠ 0 && x.status = .fresh &&
    match x.lastValue with
    | some l => decide (v + x.drop ≤ l)
    | none => false

/-! ## Coincidence (R32, R33) -/

/-- The deficit of a sensor: BAND_LOW less LAST_VALUE (R33). -/
def Sensor.deficit (x : Sensor) : Int := (x.bandLow : Int) - (x.lastValue.getD 0 : Int)

/-- A sensor gives the candidate before another: the larger deficit, then the lower SEGMENT (R33). -/
def Sensor.givesBefore (a b : Sensor) : Bool :=
  decide (b.deficit < a.deficit) || (a.deficit = b.deficit && decide (a.place < b.place))

/-- The sensors of a zone that no other gives before; several only where they share segment and deficit. -/
def Part.candidates (p : Part) (z : Nat) : List (Nat × Sensor) :=
  let low := p.watch.sensors.filter fun e => p.lowSensor z e.2
  low.filter fun e => !low.any fun f => f.2.givesBefore e.2

/-- The sensor recorded in a coincidence suspect. Among sensors of one segment and one deficit the manual does not
say which: a FREE choice (R33; log entry 31). -/
def Part.candidateSensor (p : Part) (z : Nat) : Option (Nat × Sensor) :=
  match p.candidates z with
  | [] => none
  | [e] => some e
  | l => l[(Config.unstated p.mgmt.fresh).toNat % l.length]?

/-- A suspect is raised: its SUSPECT trace entry precedes its routing (R35). -/
def Part.traceSuspect (x : Suspect) (p : Part) : Part :=
  p.record .suspect none (some (.segment x.candidate)) (some x.cause.num)

/-- The coincidence counter of a zone after a flow sample, and the suspect it raises (R32, R33). -/
def Part.countFlow (z : Nat) (x : Sensor) (v : Nat) (p : Part) : Part × Option Suspect :=
  let c := p.zone z
  if v < x.bandLow then (p, none)
  else if x.bandHigh < v then
    if p.lowPressure z then
      if c.counter + 1 < c.threshold then (p.putZone z { c with counter := c.counter + 1 }, none)
      else
        let q := p.putZone z { c with counter := 0 }
        match p.candidateSensor z with
        | some (k, y) =>
          let s : Suspect := { candidate := y.place, cause := .coincidence, sensor := k, raised := p.now }
          let q := if (p.candidates z).length ≤ 1 then q else q.freshen
          (q.traceSuspect s, some s)
        | none => (q, none)
    else (p, none)
  else (p.putZone z { c with counter := 0 }, none)

/-! ## The Verification Unit's tests (R136, R137) -/

/-- Every area pressure sensor stands at or below the DRAINED threshold of the incident's zone. -/
def Part.drained (p : Part) (i : Incident) : Bool :=
  (p.areaSensors i).all fun e => e.2.atOrBelow (p.zone i.zone).drained

/-- A GOOD PRESSURE sample is tested against one record's context (R136). -/
def Part.earlyTest (k : Nat) (x : Sensor) (p : Part) (r : Nat) : Part :=
  match p.incident? r, Table.look p.ver r with
  | some i, some _ =>
    if i.state = .verifying && i.area.contains x.place && p.drained i then p.giveVerdict r .tight (some k) else p
  | _, _ => p

/-- The sample is tested against every context, in ascending record number (R136). -/
def Part.verifySample (k : Nat) (x : Sensor) (p : Part) : Part := incidentRecords.foldl (Part.earlyTest k x) p

/-- What the expiry of the window gives: a verdict, or NOT_TIGHT (`none`) (R137). -/
def Part.windowVerdict (p : Part) (i : Incident) : Option Verdict :=
  if (p.areaSensors i).isEmpty then
    let ms := p.inletMeters i.zone
    if !ms.isEmpty && ms.all fun e => e.2.status = .fresh && e.2.excursion = .inBand then some .inflowOnly
    else if ms.all fun e => e.2.status ≠ .fresh then some .unverified
    else none
  else if p.drained i then some .tight
  else none

/-- The window of a record expires; a record that is no longer VERIFYING is not changed (R55, R137). -/
def Part.windowExpired (r : Nat) (p : Part) : Part :=
  match p.incident? r with
  | none => p
  | some i =>
    if i.state = .verifying then
      match p.windowVerdict i with
      | some v => p.giveVerdict r v none
      | none => p.giveNotTight r
    else p

/-! ## Samples (R26) -/

/-- A PRESSURE sample is applied: sharp drop, writes, verification, routing (R26). -/
def Part.samplePressure (k : Nat) (x : Sensor) (v : Nat) (p : Part) : Part :=
  let s : Suspect := { candidate := x.place, cause := .sharpDrop, sensor := k, raised := p.now }
  let q := if x.dropsSharply v then p.traceSuspect s else p
  let y := x.sampled v p.now
  let q := (q.putSensor k y).verifySample k y
  if x.dropsSharply v then q.routeSuspect none s else q

/-- A FLOW sample is applied: writes, coincidence, routing (R26). -/
def Part.sampleFlow (k : Nat) (x : Sensor) (v : Nat) (p : Part) : Part :=
  let a := (p.putSensor k (x.sampled v p.now)).countFlow x.place x v
  match a.2 with
  | some s => a.1.routeSuspect none s
  | none => a.1

/-- A freshness timer expires (R27). -/
def Sensor.stale (x : Sensor) : Sensor :=
  { x with status := .stale, countdown := x.persist, side := .none, freshDue := none }

/-! ## Items of a passed REPORT (R14, R115, R158) -/

/-- A GOOD POSITION item is applied to its valve: the writes, the sequencer's tests for arrival and breach, and the
CLOSED_STATUS disturbance (R14). -/
def Part.applyPosition (v : Nat) (x : Valve) (value : Nat) (p : Part) : Part :=
  let o := min value 100
  let q := p.putValve v { x with opening := some o, positionTime := some p.now }
  let ds := p.closedChange q v
  (((q.takePosition Part.settled v o).testBreach v x o).announceAll ds).settled

/-- One item of a passed REPORT is offered to the sensor or valve its pair maps to, by its quantity (R158, R26, R181).
An item that is not used changes nothing. -/
def Part.offerItem (source : Nat) (i : Item) (p : Part) : Part :=
  match p.channel? source i.channel with
  | none => p
  | some (.sensor k) =>
    match p.sensor? k with
    | none => p
    | some x =>
      if i.suspectQuality then p
      else if i.code = 1 ∧ x.kind = .pressure then (p.samplePressure k x (min i.value 4095)).settled
      else if i.code = 2 ∧ x.kind = .flow then (p.sampleFlow k x i.value).settled
      else p
  | some (.valve v) =>
    match p.valve? v with
    | none => p
    | some x =>
      if i.suspectQuality then p
      else if i.code = 3 then p.applyPosition v x i.value
      else if i.code = 4 ∧ i.b3.toNat ≤ 2 then (p.takeEcho v i.b2.toNat i.b3.toNat).settled
      else p

/-- The items of a passed REPORT, in item order (R158). -/
def Part.offerItems (source : Nat) (items : List Item) (p : Part) : Part :=
  items.foldl (fun q i => q.offerItem source i) p

end Sys2Proof.Machine
end

