-- ==== Sys2Proof/Machine/Commands.lean ====
section
/-! DEFINITION. What the commands share: the effect of a RESTART (R179), the end of a command, and the taking of a
management order (R172, R173). -/

namespace Sys2Proof.Machine

/-! ## RESTART (R179) -/

/-- A valve after a RESTART (R7). -/
def Valve.restarted (x : Valve) : Valve :=
  { x with opening := none, positionTime := none, holdCount := 0, moveTag := none }

/-- The running fields a first load gives a sensor (R22). -/
def Sensor.unheard (x : Sensor) : Sensor :=
  { x with
    lastValue := none, lastTime := none, status := .never, countdown := x.persist, side := .none,
    excursion := .inBand, freshDue := none }

/-- A zone after a RESTART (R29). -/
def Zone.restarted (z : Zone) : Zone := { z with counter := 0, latch := none, suspended := false }

/-- The zone records after a RESTART; one at the power-on record is not listed. -/
def restartZones (t : Table Zone) : Table Zone :=
  (Table.mapAll Zone.restarted t).filter fun e => e.2 ≠ Zone.powerOn

/-- The station entries after a RESTART: CONFIGURED ones UNTOUCHED, LEARNED ones freed (R141). -/
def restartStations (t : Table Station) : Table Station :=
  Table.mapAll (fun e => { e with age := .untouched }) (t.filter fun e => e.2.kind = .configured)

/-- A line after a RESTART: its queues are emptied; a frame in transmission is sent to its end (R170). -/
def LineState.restarted (l : LineState) : LineState := { l with queues := ⟨[], [], [], []⟩ }

/-- The RESTART takes effect (R7, R22, R29, R45, R66, R90, R130, R131, R141, R170, R171, R179, R185). -/
def Part.restart (p : Part) : Part :=
  ({ p with
      trunk := { p.trunk with lines := p.trunk.lines.map LineState.restarted }
      stations :=
        { p.stations with
          entries := restartStations p.stations.entries, agingDue := p.now + 10 * p.stations.interval }
      net := { p.net with valves := Table.mapAll Valve.restarted p.net.valves }
      watch :=
        { sensors := Table.mapAll Sensor.unheard p.watch.sensors, zones := restartZones p.watch.zones }
      inc := { p.inc with records := [] }
      plan := { queue := [], plan := none }
      seq := { p.seq with contexts := [], waiting := [], crew := [], frames := [] }
      ver := []
      mgmt := { p.mgmt with mode := .transparent, notices := [], restartDue := false }
      trace := { p.trace with fifo := [] } }).record .restarted none none none

/-- A RESTART whose reply a command discarded takes effect at the end of that command (R175, R179; log entry 8). -/
def Part.concluded (p : Part) : Part := if p.mgmt.restartDue then p.restart else p

/-! ## Taking a command -/

/-- A command that is no management order: its effect, then what stands ready, then a RESTART that has become due. -/
def Part.run (f : Part → Part) (p : Part) : Part := ((f p).settled).concluded

/-- The order at the head of those handed over is taken (R172; log entry 5). -/
def Part.dropHanded (i : Instr) (p : Part) : Part :=
  if p.mgmt.handed.head? = some i then { p with mgmt := { p.mgmt with handed := p.mgmt.handed.tail } } else p

/-- A management order is taken: its effects are complete before its reply is formed (R172, R173). -/
def Part.takeOrder (i : Instr) (m : Mgmt) (body : Part → Part × Answer) (restart : Bool) (p : Part) : Part :=
  let a := body (p.dropHanded i)
  ((a.1.settled).reply m a.2 restart).concluded

/-- The state with its part changed. -/
def State.onPart (f : Part → Part) (s : State) : State := { s with part := f s.part }


/-- A refused order's answer changes nothing (R172). -/
def refuse (r : Result) (p : Part) : Part × Answer := (p, .bare r)

/-- The first refusal of a sequence of tests, in order, or none when every test passes. -/
def firstRefusal : List (Bool × Result) → Option Result
  | [] => none
  | (b, r) :: l => if b then some r else firstRefusal l

/-- An order examined by a sequence of tests and, when none applies, taken. -/
def examine (tests : List (Bool × Result)) (take : Part → Part × Answer) (p : Part) : Part × Answer :=
  match firstRefusal tests with
  | some r => refuse r p
  | none => take p

end Sys2Proof.Machine
end

