-- ==== Sys2Proof/Machine/StationOrders.lean ====
section
/-! DEFINITION. The station orders (section 8.4): LOAD, CLEAR and SET_STATION_MODE. -/

namespace Sys2Proof.Machine

/-- An address that never names an entry: 0, 65,535 and the part's own (R142). -/
def Part.unnamable (p : Part) (address : Nat) : Bool :=
  address = 0 || address = 65535 || address = p.mgmt.ownAddress

/-- A FREE entry number, the lowest (R142). -/
def Part.freeEntry (p : Part) : Option Nat := Table.firstFree p.stations.entries 512

/-- An entry is freed: the notice, then the STATION_FREED trace entry (R20, R149). -/
def Part.freeStation (n address : Nat) (p : Part) : Part :=
  ((p.removeStation n).stationNotice p address).stationTrace .stationFreed address none

/-- The LEARNED entry with the earliest HEARD_TIME, the lowest-numbered among equals (R150). -/
def Part.oldestLearned (p : Part) : Option (Nat × Station) :=
  p.stations.entries.foldl
    (fun best e =>
      if e.2.kind = .learned then
        match best with
        | none => some e
        | some b => if e.2.heard.getD 0 < b.2.heard.getD 0 then some e else best
      else best)
    none

/-- The new CONFIGURED entry of a load (R150). -/
def stationOfLoad (address : Nat) (secure blocked : Bool) (line : Option Line) : Station :=
  { kind := .configured, address := address, line := line, secure := secure,
    pinLine := if secure then line else none, blocked := blocked, age := .untouched, heard := none }

/-- A load of an address already held (R150). -/
def Station.reload (e : Station) (secure blocked : Bool) (line : Option Line) : Station :=
  { e with
    kind := .configured
    secure := secure
    pinLine := if secure then line else e.pinLine
    blocked := blocked
    line := if line.isSome then line else e.line }

/-- A load of a new address into an entry: its creation is notified (R150, R20). -/
def Part.createStation (n : Nat) (e : Station) (p : Part) : Part := (p.putStation n e).stationNotice p e.address

/-- A load of a held address: a change of BLOCKED is notified and traced (R150, R149). -/
def Part.reloadStation (n : Nat) (old new : Station) (p : Part) : Part :=
  let q := p.putStation n new
  if old.blocked = new.blocked then q
  else (q.stationNotice p new.address).stationTrace .stationBlocked new.address (some (flagNum new.blocked))

/-- The reply of a taken station load carries the entry number (10.5). -/
def stationLoaded (n : Nat) : Answer := ⟨.ok, [item (w16 n) 0#16]⟩

/-- The line field of a station load: absent, a field line, or above 3 (`none`) (R150, R182). -/
def stationLineOf (w : Word) : Option (Option Line) :=
  match optionalId w with
  | none => some none
  | some n => (fieldLineOf n).map some

/-- LOAD of a station (R150). -/
def Part.loadStation (address : Word) (secure blocked : Byte) (line : Word) (p : Part) : Part × Answer :=
  let a := address.toNat
  match flagOf secure, flagOf blocked, stationLineOf line with
  | some sec, some blk, some ln =>
    if p.unnamable a || (sec && ln.isNone) then refuse .badArgument p
    else
      match p.station? a with
      | some (n, e) => (p.reloadStation n e (e.reload sec blk ln), stationLoaded n)
      | none =>
        match p.freeEntry with
        | some n => (p.createStation n (stationOfLoad a sec blk ln), stationLoaded n)
        | none =>
          match p.oldestLearned with
          | some (n, e) => ((p.freeStation n e.address).createStation n (stationOfLoad a sec blk ln), stationLoaded n)
          | none => refuse .tableFull p
  | _, _, _ => refuse .badArgument p

/-- CLEAR of a station (R151). -/
def Part.clearStation (address : Word) (p : Part) : Part × Answer :=
  let a := address.toNat
  if p.unnamable a then refuse .badArgument p
  else
    match p.station? a with
    | none => refuse .noSuch p
    | some (n, _) => (p.freeStation n a, .bare .ok)

/-- SET_STATION_MODE (R152). -/
def Part.setStationMode (mode interval : Word) (p : Part) : Part × Answer :=
  match stationModeOf mode with
  | none => refuse .badArgument p
  | some m =>
    let n := clampTo 10 3600 interval.toNat
    ({ p with stations := { p.stations with mode := m, interval := n, agingDue := p.now + 10 * n } },
      .bare (loaded (n ≠ interval.toNat)))

/-! ## The commands -/

/-- LOAD_STATION (R150). -/
def execLoadStation (m : Mgmt) (address : Word) (secure blocked : Byte) (line : Word) (s : State) :
    Host.Outcome State Fault Refusal :=
  .next (s.onPart (Part.takeOrder (.loadStation m address secure blocked line) m
    (Part.loadStation address secure blocked line) false))

/-- CLEAR_STATION (R151). -/
def execClearStation (m : Mgmt) (address : Word) (s : State) : Host.Outcome State Fault Refusal :=
  .next (s.onPart (Part.takeOrder (.clearStation m address) m (Part.clearStation address) false))

/-- SET_STATION_MODE (R152). -/
def execSetStationMode (m : Mgmt) (mode interval : Word) (s : State) : Host.Outcome State Fault Refusal :=
  .next (s.onPart (Part.takeOrder (.setStationMode m mode interval) m (Part.setStationMode mode interval) false))

end Sys2Proof.Machine
end

