-- ==== Sys2Proof/Machine/Trunk.lean ====
section
/-! DEFINITION. Power-on (R171), the frames a line brings (R155 to R163, R169) with the Station Table's examination of
them (R142 to R146), and the end of a transmission (R166). -/

namespace Sys2Proof.Machine

/-! ## Line counters -/

/-- A delimited frame is counted (R155). -/
def Part.countFrame (l : Line) (p : Part) : Part :=
  let x := p.line l
  p.setLine l { x with received := raise x.received }

/-- A frame dropped for its CRC, length, kind or destination is counted (R155, R156). -/
def Part.dropFrame (l : Line) (p : Part) : Part :=
  let x := p.line l
  p.setLine l { x with crcDrops := raise x.crcDrops }

/-! ## Station Table examination (R142 to R146) -/

/-- What the examination decides of a frame: it is passed with its items offered, passed with no item offered
(TRANSPARENT), or dropped. -/
inductive Passing where
  | offered | silent | dropped
  deriving DecidableEq, Repr

/-- An entry is touched: the writes, then the notice and trace of a station heard again, then that of a changed line
(R144). -/
def Part.touchStation (n : Nat) (e : Station) (l : Line) (p : Part) : Part :=
  let q := p.putStation n { e with age := .touched, heard := some p.now, line := some l }
  let q := if e.age = .silent then
      (q.stationNotice p e.address).stationTrace .stationHeard e.address (some (lineNum l)) else q
  if e.line.isSome ∧ e.line ≠ some l then q.stationTrace .lineChange e.address (some (lineNum l)) else q

/-- An unknown source is learned (R145). -/
def Part.learnStation (n address : Nat) (l : Line) (p : Part) : Part :=
  let e : Station :=
    { kind := .learned, address := address, line := some l, secure := false, pinLine := none, blocked := false,
      age := .touched, heard := some p.now }
  ((p.putStation n e).stationNotice p address).stationTrace .stationLearned address (some (lineNum l))

/-- A frame that the station checks drop in ACTIVE mode, with its counter; in TRANSPARENT mode it is passed, its items
are not offered and nothing is counted (R146). -/
def Part.stationDrop (f : Counters → Counters) (p : Part) : Part × Passing :=
  if p.isActive then ({ p with counters := f p.counters }, .dropped) else (p, .silent)

def Counters.secureDrop (c : Counters) : Counters := { c with secureDrops := raise c.secureDrops }
def Counters.blockedDrop (c : Counters) : Counters := { c with blockedDrops := raise c.blockedDrops }
def Counters.unknownReject (c : Counters) : Counters := { c with unknownRejects := raise c.unknownRejects }
def Counters.learnFailure (c : Counters) : Counters := { c with learnFailures := raise c.learnFailures }

/-- The Station Table examines a field frame by its source and its line (R142, R143, R145, R146). -/
def Part.examineSource (l : Line) (source : Nat) (p : Part) : Part × Passing :=
  if p.unnamable source then ({ p with counters := p.counters.unknownReject }, .dropped)
  else
    match p.station? source with
    | some (n, e) =>
      if e.blocked then p.stationDrop Counters.blockedDrop
      else if e.secure ∧ e.pinLine ≠ some l then p.stationDrop Counters.secureDrop
      else (p.touchStation n e l, .offered)
    | none =>
      match p.stations.mode with
      | .rejectUnknown => p.stationDrop Counters.unknownReject
      | .learn =>
        match p.freeEntry with
        | some n => (p.learnStation n source l, .offered)
        | none => ({ p with counters := p.counters.learnFailure }, .offered)

/-- A frame from a field line: examined, queued upward unchanged, and the items of a REPORT offered (R156, R157).
DESIGN CHOICE (log entry 42): the frame is queued, or dropped at a full queue, before its items are offered. -/
def Part.fieldFrame (l : Line) (f : Frame) (k : FrameKind) (p : Part) : Part :=
  if k = .manage ∧ f.dst.toNat = p.mgmt.ownAddress then p.dropFrame l
  else
    let a := p.examineSource l f.src.toNat
    match a.2 with
    | .dropped => a.1
    | .silent => a.1.passFrame .control f
    | .offered =>
      let q := a.1.passFrame .control f
      if k = .report then q.offerItems f.src.toNat f.items else q

/-! ## Downstream (R159 to R162, R169) -/

/-- Some line has a place for a frame. -/
def Part.anyPlace (p : Part) (f : Frame) : Bool := (p.linesTo f.dst.toNat).any fun l => p.hasPlace l (p.classOf f)

/-- A passing frame is routed downstream: a copy to each line answered, or dropped and counted when its station is
BLOCKED (R159, R153). -/
def Part.routeDown (f : Frame) (p : Part) : Part :=
  match p.linesTo f.dst.toNat with
  | [] => { p with counters := p.counters.blockedDrop }
  | ls => ls.foldl (fun q l => q.passFrame l f) p

/-- An item of an action: MOVE, STOP or QUERY (R160). -/
def isActionItem (i : Item) : Bool := i.code = 17 || i.code = 18 || i.code = 19

/-- The valves an ORDER's item addresses (R160). -/
def Part.addressed (p : Part) (dst : Nat) (i : Item) : List Nat :=
  if !isActionItem i then []
  else if dst = 65535 then
    Table.keys (p.net.valves.filter fun e => e.2.kind = .actuated && e.2.channel = i.channel)
  else
    match p.channel? dst i.channel with
    | some (.valve v) => if (p.valve? v).isSome then [v] else []
    | _ => []

/-- A valve is held: its HOLD_COUNT is above 0 (R160). -/
def Part.isHeld (p : Part) (v : Nat) : Bool :=
  match p.valve? v with
  | some x => decide (0 < x.holdCount)
  | none => false

/-- The held valves of an ORDER, each once, in the order of R160. -/
def Part.heldValves (p : Part) (f : Frame) : List Nat :=
  (f.items.flatMap (p.addressed f.dst.toNat)).eraseDups.filter p.isHeld

/-- The valve permits an override. -/
def Part.permits (p : Part) (v : Nat) : Bool :=
  match p.valve? v with
  | some x => x.overridePermitted
  | none => false

/-- The number of the incident in the lowest-numbered record whose counted lists hold the valve (R161). -/
def Part.firstHolder (p : Part) (v : Nat) : Nat :=
  match p.inc.records.find? fun e => e.2.holds v with
  | some e => e.2.number
  | none => 0

/-- An ORDER_HELD notice and trace entry (R161, R169). -/
def Part.orderHeld (f : Frame) (v : Nat) (forwarded : Bool) (p : Part) : Part :=
  let n := p.firstHolder v
  (p.notice .orderHeld
    [item f.dst (w8 f.tag.toNat (flagNum forwarded)), item (w16 v) (w16 n)]).record .orderHeld (some n) (some (.valve v))
    (some f.tag.toNat)

/-- An ORDER from the control line to another station is checked against the hold counts (R160, R161, R162, R169). -/
def Part.controlOrder (f : Frame) (p : Part) : Part :=
  match p.heldValves f with
  | [] => p.routeDown f
  | v :: vs =>
    if f.override && (v :: vs).all p.permits then
      if p.anyPlace f then (p.routeDown f).overrideAll f.tag.toNat (v :: vs) else p.routeDown f
    else if p.isActive then p.orderHeld f v false
    else if p.anyPlace f then (p.routeDown f).orderHeld f v true
    else p.routeDown f

/-- A frame from the control line (R156, R163). -/
def Part.controlFrame (f : Frame) (k : FrameKind) (p : Part) : Part :=
  if f.dst.toNat = p.mgmt.ownAddress then
    if k = .manage then { p with mgmt := { p.mgmt with handed := p.mgmt.handed ++ [f.order] } }
    else p.dropFrame .control
  else if k = .order then p.controlOrder f
  else p.routeDown f

/-- A delimited frame: counted, checked and disposed of (R155, R156). -/
def Part.receive (l : Line) (bytes : List Byte) (p : Part) : Part :=
  let q := p.countFrame l
  match readFrame bytes with
  | none => q.dropFrame l
  | some (f, k) => if l = .control then q.controlFrame f k else q.fieldFrame l f k

/-! ## The end of a transmission (R166, R179) -/

/-- A transmitter ends its frame; the reply of a RESTART starts it; the next frame is taken (R166, R170, R179). An idle
transmitter ends nothing (log entry 6). -/
def Part.transmitEnd (l : Line) (p : Part) : Part :=
  let x := p.line l
  match x.sending with
  | none => p
  | some f =>
    let q := p.setLine l { x with sending := none }
    (if f.restart then q.restart else q).pump l

/-! ## The commands -/

/-- POWER_ON (R171): every block takes its power-on state, with the own address of the strap value. -/
def execPowerOn (strap : BitVec 4) (s : State) : Host.Outcome State Fault Refusal :=
  .next (s.onPart fun _ => Part.powerOn strap.toNat)

/-- FRAME_RECEIVED (R155). -/
def execFrameReceived (line : Line) (bytes : List Byte) (s : State) : Host.Outcome State Fault Refusal :=
  .next (s.onPart (Part.run (Part.receive line bytes)))

/-- FRAME_TRANSMIT_END (R166). -/
def execFrameTransmitEnd (line : Line) (s : State) : Host.Outcome State Fault Refusal :=
  .next (s.onPart (Part.run (Part.transmitEnd line)))

end Sys2Proof.Machine
end

