-- ==== Sys2Proof/Machine/Timers.lean ====
section
/-! DEFINITION. The expiries of timers (R27, R105, R112, R114, R116, R131, R147, R185). An expiry given as a command
moves the part's time up to the expiry of the timer (log entry 3); of a timer that does not run it does nothing (log
entry 4). -/

namespace Sys2Proof.Machine

/-! ## Aging (R147) -/

/-- One entry at an aging expiry (R147). -/
def Part.ageEntry (p : Part) (n : Nat) : Part :=
  match Table.look p.stations.entries n with
  | none => p
  | some e =>
    match e.age, e.kind with
    | .touched, _ => p.putStation n { e with age := .untouched }
    | .untouched, .configured =>
      ((p.putStation n { e with age := .silent }).stationNotice p e.address).stationTrace .stationSilent e.address none
    | .untouched, .learned => p.freeStation n e.address
    | .silent, _ => p

/-- The aging timer expires: every in-use entry in ascending number, and the timer starts again (R147). -/
def Part.ageStations (p : Part) : Part :=
  let q := (Table.keys p.stations.entries).foldl Part.ageEntry p
  { q with stations := { q.stations with agingDue := p.now + 10 * q.stations.interval } }

/-! ## One expiry each, at the time it is due -/

/-- The aging timer's expiry. -/
def Part.agingExpiry (p : Part) : Part := (p.advanceTo p.stations.agingDue).ageStations

/-- A sensor's freshness timer expires (R27). -/
def Part.freshnessExpiry (k : Nat) (p : Part) : Part :=
  match p.sensor? k with
  | none => p
  | some x =>
    match x.freshDue with
    | some d => (p.advanceTo d).putSensor k x.stale
    | none => p

/-- A valve's travel timer expires (R117). -/
def Part.travelExpiry (v : Nat) (p : Part) : Part :=
  match (p.context? v).bind StepCtx.travelDue with
  | some d => (p.advanceTo d).travelExpired v
  | none => p

/-- A valve's query timer expires: UNREACHABLE (R112). -/
def Part.queryExpiry (v : Nat) (p : Part) : Part :=
  match (p.context? v).bind StepCtx.queryDue with
  | some d => (p.advanceTo d).failStep Part.settled v .unreachable
  | none => p

/-- A valve's poll timer expires (R114). -/
def Part.pollExpiry (v : Nat) (p : Part) : Part :=
  match (p.context? v).bind StepCtx.pollDue with
  | some d => (p.advanceTo d).pollExpired v
  | none => p

/-- A valve's dwell ends: its calculation point is taken (R111, R116). -/
def Part.dwellExpiry (v : Nat) (p : Part) : Part :=
  match (p.context? v).bind StepCtx.dwellDue with
  | some d => ((p.advanceTo d).adjustContext v fun c => { c with dwellDue := none }).calcPoint Part.settled v
  | none => p

/-- A record's verification window expires (R137). -/
def Part.verifyExpiry (r : Nat) (p : Part) : Part :=
  match Table.look p.ver r with
  | some c => (p.advanceTo c.due).windowExpired r
  | none => p

/-- The part's time reaches a multiple of 16,777,216 tenths: the wrap count rises, and a TIME_WRAP entry is recorded
(R185). -/
def Part.wrapTime (p : Part) : Part :=
  let q := p.advanceTo p.trace.wrapDue
  let n := (q.trace.wraps + 1) % 65536
  { q with
    trace :=
      { q.trace with wraps := n, wrapDue := q.trace.wrapDue + Config.wrapPeriod }.join
        { stamp := 0, code := .timeWrap, incident := none, subject := none, value := some n, loss := .none } }

/-! ## The commands -/

/-- AGING_EXPIRY (R147). -/
def execAgingExpiry (s : State) : Host.Outcome State Fault Refusal := .next (s.onPart (Part.run Part.agingExpiry))

/-- FRESHNESS_EXPIRY (R27). -/
def execFreshnessExpiry (sensor : Nat) (s : State) : Host.Outcome State Fault Refusal :=
  .next (s.onPart (Part.run (Part.freshnessExpiry sensor)))

/-- TRAVEL_TIMER_EXPIRY (R117). -/
def execTravelTimerExpiry (valve : Nat) (s : State) : Host.Outcome State Fault Refusal :=
  .next (s.onPart (Part.run (Part.travelExpiry valve)))

/-- QUERY_TIMER_EXPIRY (R112). -/
def execQueryTimerExpiry (valve : Nat) (s : State) : Host.Outcome State Fault Refusal :=
  .next (s.onPart (Part.run (Part.queryExpiry valve)))

/-- POLL_EXPIRY (R114). -/
def execPollExpiry (valve : Nat) (s : State) : Host.Outcome State Fault Refusal :=
  .next (s.onPart (Part.run (Part.pollExpiry valve)))

/-- DWELL_END (R116). -/
def execDwellEnd (valve : Nat) (s : State) : Host.Outcome State Fault Refusal :=
  .next (s.onPart (Part.run (Part.dwellExpiry valve)))

/-- VERIFY_WINDOW_EXPIRY (R137). -/
def execVerifyWindowExpiry (record : Nat) (s : State) : Host.Outcome State Fault Refusal :=
  .next (s.onPart (Part.run (Part.verifyExpiry record)))

/-- TIME_WRAP (R185). -/
def execTimeWrap (s : State) : Host.Outcome State Fault Refusal := .next (s.onPart (Part.run Part.wrapTime))

end Sys2Proof.Machine
end

