-- ==== Sys2Proof/Machine/Clock.lean ====
section
/-! DEFINITION. What the part does with no command waiting: it takes up a handed-over order, or lets a tenth of a second
pass and takes the timers that have become due (log entry 2). -/

namespace Sys2Proof.Machine

/-- A timer that is due now, if it runs. -/
def Part.dueNow (p : Part) (t : Option Nat) : Bool :=
  match t with
  | some d => decide (d ≤ p.now)
  | none => false

/-- An expiry is taken as its command takes it when its timer is due. -/
def Part.whenDue (t : Option Nat) (f : Part → Part) (p : Part) : Part := if p.dueNow t then p.run f else p

/-- The timers of a valve's step context. -/
def Part.tickContext (p : Part) (v : Nat) : Part :=
  let q := p.whenDue ((p.context? v).bind StepCtx.travelDue) (Part.travelExpiry v)
  let q := q.whenDue ((q.context? v).bind StepCtx.queryDue) (Part.queryExpiry v)
  let q := q.whenDue ((q.context? v).bind StepCtx.pollDue) (Part.pollExpiry v)
  q.whenDue ((q.context? v).bind StepCtx.dwellDue) (Part.dwellExpiry v)

/-- A sensor's freshness timer. -/
def Part.tickSensor (p : Part) (k : Nat) : Part :=
  p.whenDue ((p.sensor? k).bind Sensor.freshDue) (Part.freshnessExpiry k)

/-- A record's verification window. -/
def Part.tickVerify (p : Part) (r : Nat) : Part :=
  p.whenDue ((Table.look p.ver r).map VerifyCtx.due) (Part.verifyExpiry r)

/-- A tenth of a second passes, and the timers that are due expire in a fixed order (log entry 2). -/
def Part.tick (p : Part) : Part :=
  let q := { p with now := p.now + 1 }
  let q := q.whenDue (some q.trace.wrapDue) Part.wrapTime
  let q := q.whenDue (some q.stations.agingDue) Part.agingExpiry
  let q := (Table.keys q.watch.sensors).foldl Part.tickSensor q
  let q := (Table.keys q.seq.contexts).foldl Part.tickContext q
  (Table.keys q.ver).foldl Part.tickVerify q

/-- The machine with no command waiting: the oldest handed-over order comes to wait, or a tenth of a second passes
(R163, R172; log entries 2 and 5). -/
def State.idle (s : State) : State :=
  match s.part.mgmt.handed with
  | i :: _ => { s with pending := [i] }
  | [] => s.onPart Part.tick

end Sys2Proof.Machine
end

