-- ==== Sys2Proof/Machine/PlannerSteps.lean ====
section
/-! DEFINITION. The Isolation Planner's steps (sections 4.2, 4.3, 4.5) and the commit of a plan (R50). One command
examines one valve, one reaches one valve of a reached segment, one completes the plan (log entry 6). -/

namespace Sys2Proof.Machine

/-! ## The area search (R72 to R77) -/

/-- A segment's VALVE_LIST as it stands. -/
def Part.valvesOf (p : Part) (g : Nat) : List Nat := ((p.segment? g).map Segment.valves).getD []

/-- The frontier segments are taken one after another until one has a valve that is not yet examined: that segment,
its valves from that one on, and the rest of the frontier (R72). -/
def Part.takeSegment (p : Part) (examined : List Nat) : List Nat → Option (Nat × List Nat × List Nat)
  | [] => none
  | g :: rest =>
    match (p.valvesOf g).dropWhile fun v => examined.contains v with
    | [] => Part.takeSegment p examined rest
    | vs => some (g, vs, rest)

/-- The next valve to examine, with the segment it is met from, the valves after it and the frontier left (R72). -/
def Part.nextValve (p : Part) (w : Workspace) : Option (Nat × List Nat × List Nat) :=
  match w.todo.dropWhile fun v => w.examined.contains v with
  | [] => p.takeSegment w.examined w.frontier
  | vs => some (w.taken, vs, w.frontier)

/-- A valve is crossed from a segment (R74, R75). -/
def Part.cross (p : Part) (far : Nat) (w : Workspace) : Workspace :=
  if p.isSource far then { w with result := some .sourceInArea }
  else if w.area.contains far then w
  else if w.area.length < 64 then { w with area := w.area ++ [far], frontier := w.frontier ++ [far] }
  else { w with result := some .planTooLarge }

/-- An entry joins the boundary (R73, R75). -/
def Workspace.bound (v : Nat) (a : Action) (w : Workspace) : Workspace :=
  if w.boundary.length < 48 then { w with boundary := w.boundary ++ [{ valve := v, action := a }] }
  else { w with result := some .planTooLarge }

/-- OPERABILITY that the search crosses whatever the opening: PASSING, LOCAL, OUT_OF_SERVICE (second test of R73). -/
def Operability.crossed : Operability → Bool
  | .passing | .local | .outOfService => true
  | .operable | .seized => false

/-- A valve met from a segment is classified by the first test it meets (R73). -/
def Part.classify (p : Part) (v : Nat) (x : Valve) (from' : Nat) (w : Workspace) : Workspace :=
  match x.far from' with
  | none => w
  | some far =>
    if x.operability.crossed then p.cross far w
    else if x.standsShut then w.bound v .none
    else if p.usable x then w.bound v .close
    else p.cross far w

/-- A boundary entry stands before another in closure order, by the DIAMETERs as they stand (R77). -/
def Part.closesBefore (p : Part) (a b : BoundaryEntry) : Bool :=
  let da := ((p.valve? a.valve).map Valve.diameter).getD 0
  let db := ((p.valve? b.valve).map Valve.diameter).getD 0
  match a.action, b.action with
  | .close, .none => true
  | .none, .close => false
  | .none, .none => decide (a.valve < b.valve)
  | .close, .close => decide (db < da) || (da = db && decide (a.valve < b.valve))

/-- The valve of an entry has both segments in the area (R76). -/
def Part.interior (p : Part) (area : List Nat) (v : Nat) : Bool :=
  match p.valve? v with
  | some x => x.bothIn area
  | none => false

/-- The pairs of a segment and each valve of its list (R78). -/
def Part.pairsOf (p : Part) (g : Nat) : List (Nat × Nat) := (p.valvesOf g).map fun v => (g, v)

/-- The loaded SOURCE segments, ascending (R78). -/
def Part.sources (p : Part) : List Nat := Table.keys (p.net.segments.filter fun e => e.2.source)

/-- The search ends: the boundary is pruned and put into closure order, and the supply walk begins at the SOURCE
segments (R76, R77, R78). -/
def Part.endSearch (p : Part) (w : Workspace) : Workspace :=
  { w with
    phase := .supplyWalk
    frontier := []
    todo := []
    boundary := sortBy p.closesBefore (w.boundary.filter fun b => !p.interior w.area b.valve)
    reached := p.sources
    walk := p.sources.flatMap p.pairsOf }

/-- The search ends when no valve is left to examine (R72). -/
def Part.endedSearch (p : Part) (w : Workspace) : Workspace :=
  if w.result.isNone && (p.nextValve w).isNone then p.endSearch w else w

/-- The next valve of the area search is examined and classified (R72, R73). DESIGN CHOICE (log entry 47): a search that has
had no valve to examine from its grant on, the burst segment's list being empty, ends here too, not at its grant. -/
def Part.examineWork (p : Part) (w : Workspace) : Workspace :=
  match p.nextValve w with
  | some (g, v :: rest, front) =>
    let w := { w with taken := g, todo := rest, frontier := front, examined := w.examined ++ [v] }
    p.endedSearch (match p.valve? v with
      | some x => p.classify v x g w
      | none => w)
  | _ => p.endSearch w

/-- AREA_SEARCH_EXAMINE: of a plan in that phase that has not ended. -/
def Part.areaExamine (p : Part) : Part :=
  match p.plan.plan with
  | some w => if w.phase = .areaSearch ∧ w.result = none then p.setPlan (some (p.examineWork w)) else p
  | none => p

/-! ## The supply walk (R78, R79) -/

/-- A valve stands on the boundary or touched list of another in-use record (R78). -/
def Part.reliedElsewhere (p : Part) (record v : Nat) : Bool :=
  p.inc.records.any fun e => e.1 ≠ record && (e.2.bounds v || e.2.touches v)

/-- The walk crosses a valve (R78). -/
def Part.passes (p : Part) (w : Workspace) (v : Nat) (x : Valve) : Bool :=
  !x.standsShut && !(w.boundary.any fun b => b.valve = v && b.action = .close) && !p.reliedElsewhere w.record v

/-- One valve of a reached segment is reached (R78). DESIGN CHOICE (log entry 48): the segments are taken in the order they
were reached, the SOURCE segments first by ascending id, and the valves of each in list order. -/
def Part.reachWork (p : Part) (g v : Nat) (w : Workspace) : Workspace :=
  match p.valve? v with
  | none => w
  | some x =>
    match x.far g with
    | none => w
    | some far =>
      if p.passes w v x && !w.reached.contains far then
        { w with reached := w.reached ++ [far], walk := w.walk ++ p.pairsOf far }
      else w

/-- A loaded segment is collateral (R79). -/
def Part.isCollateral (p : Part) (w : Workspace) (g : Nat) : Bool :=
  !w.area.contains g && !w.reached.contains g &&
    !p.inc.records.any fun e => e.1 ≠ w.record && e.2.area.contains g

/-- The result of a walk that has ended (R79). -/
def Part.walkResult (p : Part) (w : Workspace) : PlanResult :=
  .commit (p.net.segments.filter fun e => p.isCollateral w e.1).length
    ((Table.keys (p.net.segments.filter fun e =>
      e.2.prot && (w.area.contains e.1 || p.isCollateral w e.1))).take 8)

/-- A walk with nothing left to reach has ended (R78, R79). -/
def Part.endedWalk (p : Part) (w : Workspace) : Workspace :=
  if w.walk.isEmpty then { w with result := some (p.walkResult w) } else w

/-- SUPPLY_WALK_REACH: of a plan in that phase that has not ended. -/
def Part.walkReach (p : Part) : Part :=
  match p.plan.plan with
  | some w =>
    if w.phase = .supplyWalk ∧ w.result = none then
      match w.walk with
      | [] => p.setPlan (some (p.endedWalk w))
      | (g, v) :: rest => p.setPlan (some (p.endedWalk (p.reachWork g v { w with walk := rest })))
    else p
  | none => p

/-! ## Commit (R50, R86) -/

/-- PRIOR of a shared valve: that of the touched entry of the lowest-numbered other record that holds it (R50). -/
def Part.sharedPrior (p : Part) (r v : Nat) : Option TouchedEntry :=
  (p.inc.records.find? fun e => e.1 ≠ r && e.2.touches v).bind fun e => e.2.touched.find? fun t => t.valve = v

/-- The touched entries a commit joins (step 2 of R50). -/
def Part.sharedJoins (p : Part) (r : Nat) (i : Incident) (boundary : List BoundaryEntry) : List TouchedEntry :=
  boundary.filterMap fun b =>
    if b.action = .none && !i.touches b.valve then
      (p.sharedPrior r b.valve).map fun t => { valve := b.valve, prior := t.prior, role := .boundary }
    else none

/-- The ROLE of a touched entry after a commit (R44). -/
def Part.roleOf (p : Part) (area : List Nat) (boundary : List BoundaryEntry) (v : Nat) : Role :=
  if boundary.any fun b => b.valve = v then .boundary else if p.interior area v then .interior else .abandoned

/-- The state a commit chooses (R50). -/
def Part.committedState (p : Part) (i : Incident) : IncState :=
  if !i.prot.isEmpty || (p.zone i.zone).mode = .confirm then .confirmWait
  else if i.boundary.any fun b => b.action = .close then .closing
  else .verifying

/-- The PLAN_COMMITTED notice (10.5). -/
def committedItems (i : Incident) : List Item :=
  [item (w16 i.number) (w16 i.area.length),
   item (w16 i.closeList.length) (w16 (i.boundary.length - i.closeList.length)),
   item (w16 i.collateral) (w16 i.prot.length)] ++ pairUp (i.prot.map w16)

/-- The cause of a CONFIRM_REQUIRED notice: 0 PROTECTED, 1 ZONE_MODE (R50, 10.5). -/
def confirmCause (i : Incident) : Nat := if i.prot.isEmpty then 1 else 0

/-- The committed incident goes to the chosen state, with its notices, the adjustment of the sequencer's lists, and the
hand-over (R50, R119, R120, R133). -/
def Part.enterCommitted (r : Nat) (i : Incident) (p : Part) : Part :=
  let st := p.committedState i
  let q := (p.moveIncident r st id).notice .planCommitted (committedItems i)
  match st with
  | .confirmWait =>
    (q.notice .confirmRequired [item (w16 i.number) (w16 (confirmCause i))]).adjustBoundary r
  | .closing => (q.adjustBoundary r).handOver r
  | _ => (q.adjustBoundary r).enterVerifying r

/-- A commit is installed, or held with reason PLAN_TOO_LARGE where the shared joins would take the touched list past
64 entries (R50). -/
def Part.installPlan (w : Workspace) (i : Incident) (collateral : Nat) (prot : List Nat) (p : Part) : Part :=
  let joins := p.sharedJoins w.record i w.boundary
  if 64 < i.touched.length + joins.length then p.hold w.record .planTooLarge none
  else
    let j :=
      { i with
        area := w.area, boundary := w.boundary, collateral := collateral, prot := prot, restarts := 0,
        touched := (i.touched ++ joins).map fun t => { t with role := p.roleOf w.area w.boundary t.valve } }
    (p.putIncident w.record j).enterCommitted w.record j

/-! ## Completion (R85, R88) -/

/-- A DISTURBED result (R85, R51). -/
def Part.planDisturbed (r : Nat) (i : Incident) (x : Subject) (p : Part) : Part :=
  let n := i.restarts + 1
  let q := (p.putIncident r { i with restarts := n }).record .planDisturbed (some i.number) (some x) (some n)
  if n < 4 then q.toPlanWait r id else q.hold r .unstable none

/-- The Incident Table takes a result: it is applied when the record is in use, holds the NUMBER and is in PLANNING, and
otherwise discarded with a PLAN_VOID entry (R50, R85, R88). -/
def Part.takeResult (w : Workspace) (res : PlanResult) (p : Part) : Part :=
  match p.incident? w.record with
  | some i =>
    if i.number = w.number ∧ i.state = .planning then
      match res with
      | .commit c prot => p.installPlan w i c prot
      | .sourceInArea => p.hold w.record .sourceInArea none
      | .planTooLarge => p.hold w.record .planTooLarge none
      | .disturbed x => p.planDisturbed w.record i x
    else p.record .planVoid (some w.number) none none
  | none => p.record .planVoid (some w.number) none none

/-- The result of a plan that has ended; a walk with nothing left to reach has ended too (R79, R84). -/
def Part.endedResult (p : Part) (w : Workspace) : Option PlanResult :=
  match w.result with
  | some r => some r
  | none => if w.phase = .supplyWalk ∧ w.walk = [] then some (p.walkResult w) else none

/-- PLAN_COMPLETE: the planner is IDLE, the result is taken, and the planner grants again (R85). A plan that has not
ended does not complete (log entry 6). -/
def Part.completePlan (p : Part) : Part :=
  match p.plan.plan with
  | none => p
  | some w =>
    match p.endedResult w with
    | none => p
    | some res => ((p.setPlan none).takeResult w res).grantPlan

/-! ## The commands -/

/-- AREA_SEARCH_EXAMINE (R73). -/
def execAreaSearchExamine (s : State) : Host.Outcome State Fault Refusal := .next (s.onPart (Part.run Part.areaExamine))

/-- SUPPLY_WALK_REACH (R78). -/
def execSupplyWalkReach (s : State) : Host.Outcome State Fault Refusal := .next (s.onPart (Part.run Part.walkReach))

/-- PLAN_COMPLETE (R85). -/
def execPlanComplete (s : State) : Host.Outcome State Fault Refusal := .next (s.onPart (Part.run Part.completePlan))

end Sys2Proof.Machine
end

