-- ==== Sys2Proof/Machine/IncidentOrders.lean ====
section
/-! DEFINITION. The operator's orders on incidents (R49, R52, R58 to R62). -/

namespace Sys2Proof.Machine

/-- An order naming an incident by its NUMBER, past the tests of R59. -/
def Part.onIncident (number : Nat) (take : Nat → Incident → Part → Part × Answer) (p : Part) : Part × Answer :=
  if number = 0 ∨ 255 < number then refuse .badArgument p
  else
    match p.byNumber number with
    | none => refuse .noSuch p
    | some (r, i) => take r i p

/-- The reply item that carries an incident number (10.5). -/
def numberData (n : Nat) : List Item := [item (w16 n) 0#16]

/-- DECLARE (R49). -/
def Part.declare (segment urgency : Word) (p : Part) : Part × Answer :=
  let g := segment.toNat
  let u := min urgency.toNat 3
  if 2047 < g then refuse .badArgument p
  else if (p.segment? g).isNone then refuse .noSuch p
  else if p.inc.records.any fun e => e.2.burst = g then refuse .duplicate p
  else
    match p.areaOwner g with
    | some r => (p.absorb r g 2, ⟨.absorbed, numberData ((p.numberOf r).getD 0)⟩)
    | none =>
      if p.freeRecord.isNone then refuse .tableFull p
      else
        (p.openIncident .declared g u,
          ⟨loaded (decide (3 < urgency.toNat)), numberData p.nextNumber⟩)

/-- CONFIRM (R52). -/
def Part.confirm (r : Nat) (i : Incident) (p : Part) : Part × Answer :=
  if i.state = .confirmWait then
    (if i.boundary.any fun b => b.action = .close then (p.moveIncident r .closing id).handOver r
      else p.enterVerifying r, .bare .ok)
  else refuse .wrongState p

/-- The states in which a CANCEL may be taken (R61). -/
def IncState.cancellable : IncState → Bool
  | .planWait | .planning | .confirmWait | .held => true
  | .closing | .verifying | .isolated | .notTight | .restoring => false

/-- CANCEL (R61). -/
def Part.cancel (r : Nat) (i : Incident) (p : Part) : Part × Answer :=
  if i.state.cancellable && i.touched.isEmpty then (p.freeIncident r .cancelled, .bare .ok) else refuse .wrongState p

/-- The record as it enters RESTORING: its boundary emptied (R62). -/
def Incident.giveUp (i : Incident) : Incident := { i with boundary := [], restoreBegun := true }

/-- RESTORE (R62). -/
def Part.restore (r : Nat) (i : Incident) (p : Part) : Part × Answer :=
  if i.state = .restoring then refuse .wrongState p
  else if i.touched.isEmpty then (p.freeIncident r (restoredOutcome i.short), .bare .ok)
  else (((p.withdraw r).moveIncident r .restoring Incident.giveUp).dispatchRestore r, .bare .ok)

/-- RESUME (R58). -/
def Part.resume (r : Nat) (i : Incident) (p : Part) : Part × Answer :=
  if i.state = .held && !i.restoreBegun then (p.toPlanWait r fun x => { x with restarts := 0 }, .bare .ok)
  else refuse .wrongState p

/-- The argument items of a WIDEN do not fit its count (R182). -/
def widenMalformed (count : Nat) (ids : List Word) : Bool :=
  count = 0 || decide (8 < count) || ids.length ≠ 2 * ((count + 1) / 2)

/-- The valves a WIDEN names. -/
def widenValves (count : Nat) (ids : List Word) : List Nat := (ids.take count).map BitVec.toNat

/-- A WIDEN's valves are written PASSING in order, and their disturbances follow; the incident goes to PLAN_WAIT (R60). -/
def Part.widened (r : Nat) (vs : List Nat) (p : Part) : Part :=
  let q := vs.foldl (fun q v => q.writeOper v .passing) p
  (q.announceAll (vs.flatMap fun v => p.operChange q v)).toPlanWait r id

/-- WIDEN past the tests of R182 and R59 (R60). -/
def Part.widen (vs : List Nat) (r : Nat) (i : Incident) (p : Part) : Part × Answer :=
  examine
    [((vs.any fun v => decide (4095 < v)) || !decide vs.Nodup, .badArgument),
     (i.state ≠ .notTight && i.state ≠ .isolated, .wrongState),
     (vs.any fun v => !i.bounds v, .noSuch)]
    (fun p => (p.widened r vs, .bare .ok)) p

/-- A WIDEN order (R60, R182). -/
def Part.widenOrder (number count : Word) (ids : List Word) (p : Part) : Part × Answer :=
  if widenMalformed count.toNat ids then refuse .badArgument p
  else p.onIncident number.toNat (Part.widen (widenValves count.toNat ids))

/-! ## The commands -/

/-- DECLARE (R49). -/
def execDeclare (m : Mgmt) (segment urgency : Word) (s : State) : Host.Outcome State Fault Refusal :=
  .next (s.onPart (Part.takeOrder (.declare m segment urgency) m (Part.declare segment urgency) false))

/-- CONFIRM (R52). -/
def execConfirm (m : Mgmt) (number : Word) (s : State) : Host.Outcome State Fault Refusal :=
  .next (s.onPart (Part.takeOrder (.confirm m number) m (Part.onIncident number.toNat Part.confirm) false))

/-- CANCEL (R61). -/
def execCancel (m : Mgmt) (number : Word) (s : State) : Host.Outcome State Fault Refusal :=
  .next (s.onPart (Part.takeOrder (.cancel m number) m (Part.onIncident number.toNat Part.cancel) false))

/-- RESTORE (R62). -/
def execRestore (m : Mgmt) (number : Word) (s : State) : Host.Outcome State Fault Refusal :=
  .next (s.onPart (Part.takeOrder (.restore m number) m (Part.onIncident number.toNat Part.restore) false))

/-- RESUME (R58). -/
def execResume (m : Mgmt) (number : Word) (s : State) : Host.Outcome State Fault Refusal :=
  .next (s.onPart (Part.takeOrder (.resume m number) m (Part.onIncident number.toNat Part.resume) false))

/-- WIDEN (R60). -/
def execWiden (m : Mgmt) (number count : Word) (ids : List Word) (s : State) : Host.Outcome State Fault Refusal :=
  .next (s.onPart (Part.takeOrder (.widen m number count ids) m (Part.widenOrder number count ids) false))

end Sys2Proof.Machine
end

