-- ==== Sys2Proof/Machine/ManagementOrders.lean ====
section
/-! DEFINITION. The orders of the Management Unit and the Trace Recorder that set modes and settings, CLEAR_COUNTERS,
RESTART and BAD_ORDER (R172, R176, R177, R179, R184, R187). -/

namespace Sys2Proof.Machine

/-! ## SET_MODE (R177, R129) -/

/-- A HALTED context that its test no longer halts takes its calculation point (R111, R129). -/
def Part.testHalted (p : Part) (v : Nat) : Part :=
  match p.context? v with
  | some c => if c.phase = .halted ∧ p.runTest c ≠ .halt then p.calcPoint id v else p
  | none => p

/-- A waiting order as it waits now: other orders may have drawn places that it then took (R168). -/
def Part.waitingNow (p : Part) (e : SeqFrame) : Option SeqFrame :=
  p.seq.frames.find? fun f => f.valve = e.valve && f.kind = e.kind && f.frame = e.frame

/-- A waiting order is offered again to the lines it waits for (R129, R168). -/
def Part.requeue (p : Part) (o : SeqFrame) : Part :=
  match p.waitingNow o with
  | none => p
  | some e =>
    let c := p.classOf e.frame
    let rest := e.lines.filter fun l => !p.hasPlace l c
    let others := if rest.isEmpty then p.seq.frames.filter fun f => f ≠ e
      else p.seq.frames.map fun f => if f = e then { e with lines := rest } else f
    let q := (e.lines.filter fun l => p.hasPlace l c).foldl (fun q l => q.enqueue l c ⟨e.frame, false⟩)
      (p.setSeqFrames others)
    if rest.isEmpty then q.orderQueued e.valve e.kind else q

/-- The work that a change to ACTIVE allows: the offering, the HALTED contexts, the waiting orders; the grants follow
(R177). -/
def Part.takeUp (p : Part) : Part :=
  let q := p.offerRecords
  let q := (Table.keys q.seq.contexts).foldl Part.testHalted q
  q.seq.frames.foldl Part.requeue q

/-- The part mode is written, with its trace entry (R177). -/
def Part.writeMode (m : PartMode) (p : Part) : Part :=
  ({ p with mgmt := { p.mgmt with mode := m } }).record .mode none none (some m.num)

/-- SET_MODE (R177). -/
def Part.setMode (mode : Word) (p : Part) : Part × Answer :=
  match partModeOf mode with
  | none => refuse .badArgument p
  | some m =>
    if p.mgmt.mode = m then (p, .bare .ok)
    else
      match m with
      | .transparent => (p.writeMode .transparent, .bare .ok)
      | .active =>
        if p.net.segments.isEmpty then refuse .wrongState p else ((p.writeMode .active).takeUp, .bare .ok)

/-! ## Settings (R176, R184) -/

/-- The class map of a SET_MAPS order: eight classes of 0..3. -/
def classMapOf (bs : List Byte) : Option (List Cls) :=
  if bs.length = 8 then bs.mapM fun b => classOfNum b.toNat else none

/-- The urgency map of a SET_MAPS order: four priorities of 0..7. -/
def urgencyMapOf (bs : List Byte) : Option (List Nat) :=
  if bs.length = 4 ∧ bs.all (fun b => decide (b.toNat ≤ 7)) then some (bs.map BitVec.toNat) else none

/-- SET_MAPS (R176). -/
def Part.setMaps (classMap urgencyMap : List Byte) (noticePriority : Byte) (p : Part) : Part × Answer :=
  match classMapOf classMap, urgencyMapOf urgencyMap with
  | some c, some u =>
    if 7 < noticePriority.toNat then refuse .badArgument p
    else
      ({ p with trunk := { p.trunk with classMap := c, urgencyMap := u, noticePriority := noticePriority.toNat } },
        .bare .ok)
  | _, _ => refuse .badArgument p

/-- SET_NOTICE_ADDRESS (R176). -/
def Part.setNoticeAddress (address : Word) (p : Part) : Part × Answer :=
  if address.toNat = 0 ∨ address.toNat = p.mgmt.ownAddress then refuse .badArgument p
  else ({ p with mgmt := { p.mgmt with noticeAddress := address.toNat } }, .bare .ok)

/-- SET_TRACE_POLICY (R184). -/
def Part.setTracePolicy (policy : Word) (p : Part) : Part × Answer :=
  match tracePolicyOf policy with
  | some x => ({ p with trace := { p.trace with policy := x } }, .bare .ok)
  | none => refuse .badArgument p

/-! ## Counters, RESTART, BAD_ORDER -/

/-- A line with its three counters at 0 (R187). -/
def LineState.uncounted (l : LineState) : LineState := { l with received := 0, crcDrops := 0, queueDrops := 0 }

/-- Every counter at 0. -/
def Counters.zero : Counters :=
  { secureDrops := 0, blockedDrops := 0, learnFailures := 0, unknownRejects := 0, latchDiscards := 0, staleEchoes := 0,
    noticesLost := 0 }

/-- CLEAR_COUNTERS (R187). -/
def Part.clearCounters (p : Part) : Part × Answer :=
  ({ p with trunk := { p.trunk with lines := p.trunk.lines.map LineState.uncounted }, counters := Counters.zero },
    .bare .ok)

/-! ## The commands -/

/-- SET_MODE (R177). -/
def execSetMode (m : Mgmt) (mode : Word) (s : State) : Host.Outcome State Fault Refusal :=
  .next (s.onPart (Part.takeOrder (.setMode m mode) m (Part.setMode mode) false))

/-- SET_MAPS (R176). -/
def execSetMaps (m : Mgmt) (classMap urgencyMap : List Byte) (noticePriority : Byte) (s : State) :
    Host.Outcome State Fault Refusal :=
  .next (s.onPart (Part.takeOrder (.setMaps m classMap urgencyMap noticePriority) m
    (Part.setMaps classMap urgencyMap noticePriority) false))

/-- SET_NOTICE_ADDRESS (R176). -/
def execSetNoticeAddress (m : Mgmt) (address : Word) (s : State) : Host.Outcome State Fault Refusal :=
  .next (s.onPart (Part.takeOrder (.setNoticeAddress m address) m (Part.setNoticeAddress address) false))

/-- SET_TRACE_POLICY (R184). -/
def execSetTracePolicy (m : Mgmt) (policy : Word) (s : State) : Host.Outcome State Fault Refusal :=
  .next (s.onPart (Part.takeOrder (.setTracePolicy m policy) m (Part.setTracePolicy policy) false))

/-- CLEAR_COUNTERS (R187). -/
def execClearCounters (m : Mgmt) (s : State) : Host.Outcome State Fault Refusal :=
  .next (s.onPart (Part.takeOrder (.clearCounters m) m Part.clearCounters false))

/-- RESTART (R179): answered OK; the reply carries the mark that starts it. -/
def execRestart (m : Mgmt) (s : State) : Host.Outcome State Fault Refusal :=
  .next (s.onPart (Part.takeOrder (.restart m) m (fun p => (p, .bare .ok)) true))

/-- BAD_ORDER (R172): refused. -/
def execBadOrder (m : Mgmt) (s : State) : Host.Outcome State Fault Refusal :=
  .next (s.onPart (Part.takeOrder (.badOrder m) m (refuse .badOrder) false))

end Sys2Proof.Machine
end

