-- ==== Sys2Proof/Machine/NetworkOrders.lean ====
section
/-! DEFINITION. The orders on segments, valves, material classes and valve classes (sections 1.1 to 1.7), and
VALVE_STATE and CREW_REPORT (R11, R15). -/

namespace Sys2Proof.Machine

/-! ## Segments (R2, R3, R18) -/

/-- Some valve whose SEGMENT_A is the segment is held (last paragraph of R18). -/
def Part.holdsValveOf (p : Part) (g : Nat) : Bool :=
  p.net.valves.any fun e => e.2.segA = g && decide (0 < e.2.holdCount)

/-- The refusals of R18 for a LOAD of a segment with a zone. DESIGN CHOICE (log entry 43): where R18 gives both, IN_USE is
examined before REFERENCED. DEDUCED (log entry 51): the first LOAD of a free segment changes no ZONE. -/
def Part.segmentLoadUse (p : Part) (g zone : Nat) : List (Bool × Result) :=
  let moves :=
    match p.segment? g with
    | some x => x.zone ≠ zone
    | none => false
  [(p.isActive && p.segmentInUse g, .inUse),
   (!p.isActive && p.segmentInUse g && moves, .referenced),
   (moves && p.holdsValveOf g, .referenced)]

/-- LOAD of a segment (R2). -/
def Part.loadSegment (segment zone : Word) (source prot : Byte) (static ref : Word) (p : Part) : Part × Answer :=
  let g := segment.toNat
  let ref' := optionalId ref
  match flagOf source, flagOf prot with
  | some so, some pr =>
    examine
      ([(decide (2047 < g) || decide (63 < zone.toNat) || decide (511 < ref'.getD 0), Result.badArgument)] ++
        p.segmentLoadUse g zone.toNat)
      (fun p =>
        let valves := ((p.segment? g).map Segment.valves).getD []
        let q := p.putSegment g
          { zone := zone.toNat, source := so, prot := pr, static := min static.toNat 4095, ref := ref', valves := valves }
        (q.announce (.ofWrite (.segment g)), .bare (loaded (decide (4095 < static.toNat))))) p
  | _, _ => refuse .badArgument p

/-- A sensor is attached to the segment (R3). -/
def Part.hasSensorOn (p : Part) (g : Nat) : Bool :=
  p.watch.sensors.any fun e => e.2.kind = .pressure && e.2.place = g

/-- CLEAR of a segment (R3). -/
def Part.clearSegment (segment : Word) (p : Part) : Part × Answer :=
  let g := segment.toNat
  match p.segment? g with
  | none => refuse (if 2047 < g then .badArgument else .noSuch) p
  | some x =>
    examine
      [(decide (2047 < g), .badArgument),
       (p.segmentInUse g, if p.isActive then .inUse else .referenced),
       (!x.valves.isEmpty || p.hasSensorOn g, .referenced)]
      (fun p => ((p.removeSegment g).announce (.ofWrite (.segment g)), .bare .ok)) p

/-! ## Classes (R4, R5) -/

/-- LOAD of a material class (R4). -/
def Part.loadMaterial (cls speed rating : Word) (p : Part) : Part × Answer :=
  if 7 < cls.toNat then refuse .badArgument p
  else
    let s := clampTo 200 1500 speed.toNat
    let r := clampTo 600 2500 rating.toNat
    (p.putMaterial cls.toNat { speed := s, rating := r },
      .bare (loaded (s ≠ speed.toNat || r ≠ rating.toNat)))

/-- CLEAR of a material class (R4). -/
def Part.clearMaterial (cls : Word) (p : Part) : Part × Answer :=
  examine
    [(decide (7 < cls.toNat), .badArgument), ((p.material? cls.toNat).isNone, .noSuch),
     (p.net.valves.any fun e => e.2.material = cls.toNat, .referenced)]
    (fun p => (p.removeMaterial cls.toNat, .bare .ok)) p

/-- Neighbours of a list keep a relation. -/
def chained (rel : Nat → Nat → Bool) : List Nat → Bool
  | a :: b :: l => rel a b && chained rel (b :: l)
  | _ => true

/-- The conditions of CURVE: eleven values, C0 = 0, C100 = 1,000, non-decreasing (R5). -/
def curveOk (c : List Nat) : Bool :=
  c.length = 11 && c.head? = some 0 && c.getLast? = some 1000 && chained (fun a b => decide (a ≤ b)) c

/-- The conditions of PROFILE: 2 to 8 values of 0..100, strictly decreasing, the last 0 (R5). -/
def profileOk (c : List Nat) : Bool :=
  decide (2 ≤ c.length ∧ c.length ≤ 8) && c.all (fun a => decide (a ≤ 100)) &&
    chained (fun a b => decide (b < a)) c && c.getLast? = some 0

/-- LOAD of a valve class (R5). -/
def Part.loadVClass (cls count : Word) (curve : List Word) (profile : List Byte) (t10 allowance dwell poll : Word)
    (p : Part) : Part × Answer :=
  let c := curve.map BitVec.toNat
  let b := (profile.take count.toNat).map BitVec.toNat
  if decide (15 < cls.toNat) || !curveOk c || decide (8 < count.toNat) || !profileOk b then refuse .badArgument p
  else
    let x : ValveClass :=
      { curve := c, profile := b, t10 := clampTo 1 120 t10.toNat, allowance := clampTo 5 300 allowance.toNat,
        dwell := clampTo 1 600 dwell.toNat, poll := clampPoll poll.toNat }
    (p.putVClass cls.toNat x,
      .bare (loaded (x.t10 ≠ t10.toNat || x.allowance ≠ allowance.toNat || x.dwell ≠ dwell.toNat ||
        x.poll ≠ poll.toNat)))

/-- CLEAR of a valve class (R5). -/
def Part.clearVClass (cls : Word) (p : Part) : Part × Answer :=
  examine
    [(decide (15 < cls.toNat), .badArgument), ((p.vclass? cls.toNat).isNone, .noSuch),
     (p.net.valves.any fun e => e.2.vclass = cls.toNat, .referenced)]
    (fun p => (p.removeVClass cls.toNat, .bare .ok)) p

/-! ## Valves (R8, R9, R12, R13, R18) -/

/-- The segments a valve names, SEGMENT_A first. -/
def Valve.segments (x : Valve) : List Nat := x.segA :: x.segB.toList

/-- A segment's VALVE_LIST loses a valve (R12). -/
def Part.unlist (v : Nat) (p : Part) (g : Nat) : Part :=
  match p.segment? g with
  | some x => p.putSegment g { x with valves := x.valves.filter fun k => k ≠ v }
  | none => p

/-- A segment's VALVE_LIST gains a valve at its end (R12). -/
def Part.enlist (v : Nat) (p : Part) (g : Nat) : Part :=
  match p.segment? g with
  | some x => p.putSegment g { x with valves := x.valves ++ [v] }
  | none => p

/-- The pair of an ACTUATED valve leaves the channel index (R13). -/
def Part.unindex (x : Valve) (p : Part) : Part :=
  match x.kind with
  | .actuated => p.removeChannel x.station x.channel
  | .manual => p

/-- The pair of an ACTUATED valve joins the channel index (R13). -/
def Part.index (v : Nat) (x : Valve) (p : Part) : Part :=
  match x.kind with
  | .actuated => p.putChannel x.station x.channel (.valve v)
  | .manual => p

/-- The segments a load of a valve takes it off, and those it puts it on, in order (R12, R19). -/
def listLosses (old : Option Valve) (new : Valve) : List Nat :=
  ((old.map Valve.segments).getD []).filter fun g => !new.segments.contains g
def listGains (old : Option Valve) (new : Valve) : List Nat :=
  new.segments.filter fun g => !((old.map Valve.segments).getD []).contains g

/-- The refusal of R18 for a LOAD of a valve. DEDUCED (log entry 51): the first LOAD of a free valve changes neither
SEGMENT_A, SEGMENT_B nor KIND; the lists it would join count all the same. -/
def Part.valveLoadUse (p : Part) (v : Nat) (old : Option Valve) (new : Valve) : List (Bool × Result) :=
  let lists := (listLosses old new ++ listGains old new).any p.segmentInUse
  let structural :=
    match old with
    | some o => o.segA ≠ new.segA || o.segB ≠ new.segB || o.kind ≠ new.kind
    | none => false
  [(p.isActive && (p.valveInUse v || lists), .inUse),
   (!p.isActive && ((p.valveInUse v && structural) || lists), .referenced)]

/-- The pair of the load is taken by a sensor or a different valve (test 4 of R8). -/
def Part.pairTaken (p : Part) (v : Nat) (new : Valve) : Bool :=
  new.kind = .actuated &&
    match p.channel? new.station new.channel with
    | none => false
    | some t => t ≠ .valve v

/-- A segment's list holds 8 valves (test 5 of R8). -/
def Part.listFull (p : Part) (g : Nat) : Bool :=
  match p.segment? g with
  | some x => decide (8 ≤ x.valves.length)
  | none => false

/-- A load of a valve is written: lists, index and record, with the trace entry of a change of OPERABILITY (R8, R10,
R12, R13). DESIGN CHOICE (log entry 44): the first LOAD of a free valve, which had no OPERABILITY, changes none. -/
def Part.writeValve (v : Nat) (old : Option Valve) (new : Valve) (p : Part) : Part :=
  let q := (listLosses old new).foldl (Part.unlist v) p
  let q := (listGains old new).foldl (Part.enlist v) q
  let q := (match old with
    | some o => q.unindex o
    | none => q).index v new
  match old with
  | some o => (q.putValve v { new with operability := o.operability }).writeOper v new.operability
  | none => q.putValve v new

/-- The disturbances of a taken load of a valve: the valve with its causes, then the segments whose lists lost it, then
those whose lists gained it (R8, R19). DESIGN CHOICE (log entry 44): the first LOAD of a free valve carries WRITE alone. -/
def loadDisturbs (before after : Part) (v : Nat) (old : Option Valve) (new : Valve) : List Disturb :=
  { subject := .valve v, write := true,
    oper := old.isSome && before.operOf v ≠ after.operOf v,
    closed := old.isSome && before.closedOf v ≠ after.closedOf v, station := false } ::
    (listLosses old new ++ listGains old new).map fun g => .ofWrite (.segment g)

/-- The running fields of a load: a first load's, or those of the record it replaces (R7). -/
def Valve.keepRunning (old : Option Valve) (new : Valve) : Valve :=
  match old with
  | some o =>
    { new with opening := o.opening, positionTime := o.positionTime, holdCount := o.holdCount, moveTag := o.moveTag }
  | none => new

/-- The enumerated fields of a valve load (R8). -/
structure ValveCodes where
  kind : ValveKind
  normal : Normal
  permitted : Bool
  operability : Operability
  deriving DecidableEq, Repr

/-- The enumerated fields of a valve load as they are coded; none where one lies outside its set. -/
def valveCodes (kind normal permitted operability : Byte) : Option ValveCodes :=
  match valveKindOf kind, normalOf normal, flagOf permitted, loadOperabilityOf operability with
  | some k, some n, some o, some w => some ⟨k, n, o, w⟩
  | _, _, _, _ => none

/-- Test 1 of R8 but for the enumerated fields. -/
def valveArgsBad (v segA : Nat) (segB : Option Nat) (kind : ValveKind) (station channel material vclass : Nat) : Bool :=
  decide (4095 < v) || decide (2047 < segA) ||
    (match segB with
      | some b => decide (2047 < b) || b = segA
      | none => false) ||
    decide (7 < material) || decide (15 < vclass) ||
    (kind = .actuated && (station = 0 || station = 65535 || decide (31 < channel)))

/-- Test 2 of R8. -/
def Part.valveRefsFree (p : Part) (x : Valve) : Bool :=
  (x.segments.any fun g => (p.segment? g).isNone) || (p.material? x.material).isNone || (p.vclass? x.vclass).isNone

/-- A taken LOAD of a valve: the writes, then the disturbances (R8). -/
def Part.takeValve (v : Nat) (old : Option Valve) (new : Valve) (result : Result) (p : Part) : Part × Answer :=
  let q := p.writeValve v old new
  (q.announceAll (loadDisturbs p q v old new), .bare result)

/-- LOAD of a valve (R8). -/
def Part.loadValve (valve segA segB : Word) (kind normal : Byte) (station : Word)
    (channel permitted material vclass operability : Byte) (velocity diameter : Word) (p : Part) : Part × Answer :=
  let v := valve.toNat
  match valveCodes kind normal permitted operability with
  | none => refuse .badArgument p
  | some k =>
    if valveArgsBad v segA.toNat (optionalId segB) k.kind station.toNat channel.toNat material.toNat vclass.toNat then
      refuse .badArgument p
    else
      let old := p.valve? v
      let new := Valve.keepRunning old
        { segA := segA.toNat, segB := optionalId segB, kind := k.kind,
          station := if k.kind = .actuated then station.toNat else 0,
          channel := if k.kind = .actuated then channel.toNat else 0,
          material := material.toNat, vclass := vclass.toNat, velocity := min velocity.toNat 3000,
          diameter := clampTo 50 1600 diameter.toNat, normal := k.normal, overridePermitted := k.permitted, initial := k.operability,
          opening := none, positionTime := none, operability := k.operability, holdCount := 0, moveTag := none }
      examine
        ([(p.valveRefsFree new, Result.noSuch)] ++ p.valveLoadUse v old new ++
          [(p.pairTaken v new, .duplicate), ((listGains old new).any p.listFull, .listFull)])
        (Part.takeValve v old new
          (loaded (new.velocity ≠ velocity.toNat || new.diameter ≠ diameter.toNat))) p

/-- The third test of R9: the valve or one of its segments is in use by an incident, or the valve has a HOLD_COUNT above 0
or a MOVE_TAG. DEDUCED (log entry 50): R9 says that this test keeps the last two from being cleared, which R18 does not say
of a valve whose last step outlives its place on every incident's lists. -/
def Part.clearKept (p : Part) (v : Nat) (x : Valve) : Bool :=
  p.valveInUse v || x.segments.any p.segmentInUse || decide (0 < x.holdCount) || x.moveTag.isSome

/-- CLEAR of a valve (R9). -/
def Part.clearValve (valve : Word) (p : Part) : Part × Answer :=
  let v := valve.toNat
  match p.valve? v with
  | none => refuse (if 4095 < v then .badArgument else .noSuch) p
  | some x =>
    examine
      [(decide (4095 < v), .badArgument),
       (p.clearKept v x, if p.isActive then .inUse else .referenced)]
      (fun p =>
        let q := ((x.segments.foldl (Part.unlist v) p).unindex x).removeValve v
        (q.announceAll (.ofWrite (.valve v) :: x.segments.map fun g => .ofWrite (.segment g)), .bare .ok)) p

/-- VALVE_STATE (R11). -/
def Part.valveState (valve operability : Word) (p : Part) : Part × Answer :=
  let v := valve.toNat
  match stateOperabilityOf operability with
  | none => refuse .badArgument p
  | some o =>
    if 4095 < v then refuse .badArgument p
    else
      match p.valve? v with
      | none => refuse .noSuch p
      | some x => if x.moveTag.isSome then refuse .busy p else (p.setOper v o, .bare .ok)

/-- CREW_REPORT of a taken result: the writes, the sequencer's match and breach test, and the disturbances (R15, R123,
R124). -/
def Part.crewReported (v : Nat) (x : Valve) (res : CrewResult) (p : Part) : Part :=
  match res with
  | .closed =>
    let q := p.putValve v { x with opening := some 0, positionTime := some p.now }
    let ds := p.closedChange q v
    (q.matchCrew v .closed).announceAll ds
  | .opened =>
    let q := p.putValve v { x with opening := some 100, positionTime := some p.now }
    let ds := p.closedChange q v
    ((q.matchCrew v .opened).testBreach v x 100).announceAll ds
  | .seized =>
    let q := p.writeOper v .seized
    (q.matchCrew v .seized).announceAll (p.operChange q v)

/-- CREW_REPORT (R15). -/
def Part.crewReport (valve result : Word) (p : Part) : Part × Answer :=
  let v := valve.toNat
  match crewResultOf result with
  | none => refuse .badArgument p
  | some res =>
    if 4095 < v then refuse .badArgument p
    else
      match p.valve? v with
      | none => refuse .noSuch p
      | some x =>
        if x.kind = .actuated then refuse .badArgument p else (p.crewReported v x res, .bare .ok)

/-! ## The commands -/

/-- LOAD_SEGMENT (R2). -/
def execLoadSegment (m : Mgmt) (segment zone : Word) (source prot : Byte) (static ref : Word) (s : State) :
    Host.Outcome State Fault Refusal :=
  .next (s.onPart (Part.takeOrder (.loadSegment m segment zone source prot static ref) m
    (Part.loadSegment segment zone source prot static ref) false))

/-- LOAD_VALVE (R8). -/
def execLoadValve (m : Mgmt) (valve segA segB : Word) (kind normal : Byte) (station : Word)
    (channel permitted material vclass operability : Byte) (velocity diameter : Word) (s : State) :
    Host.Outcome State Fault Refusal :=
  .next (s.onPart (Part.takeOrder
    (.loadValve m valve segA segB kind normal station channel permitted material vclass operability velocity diameter) m
    (Part.loadValve valve segA segB kind normal station channel permitted material vclass operability velocity diameter)
    false))

/-- LOAD_MATERIAL_CLASS (R4). -/
def execLoadMaterialClass (m : Mgmt) (cls speed rating : Word) (s : State) : Host.Outcome State Fault Refusal :=
  .next (s.onPart (Part.takeOrder (.loadMaterialClass m cls speed rating) m (Part.loadMaterial cls speed rating) false))

/-- LOAD_VALVE_CLASS (R5). -/
def execLoadValveClass (m : Mgmt) (cls count : Word) (curve : List Word) (profile : List Byte)
    (t10 allowance dwell poll : Word) (s : State) : Host.Outcome State Fault Refusal :=
  .next (s.onPart (Part.takeOrder (.loadValveClass m cls count curve profile t10 allowance dwell poll) m
    (Part.loadVClass cls count curve profile t10 allowance dwell poll) false))

/-- CLEAR_SEGMENT (R3). -/
def execClearSegment (m : Mgmt) (segment : Word) (s : State) : Host.Outcome State Fault Refusal :=
  .next (s.onPart (Part.takeOrder (.clearSegment m segment) m (Part.clearSegment segment) false))

/-- CLEAR_VALVE (R9). -/
def execClearValve (m : Mgmt) (valve : Word) (s : State) : Host.Outcome State Fault Refusal :=
  .next (s.onPart (Part.takeOrder (.clearValve m valve) m (Part.clearValve valve) false))

/-- CLEAR_MATERIAL_CLASS (R4). -/
def execClearMaterialClass (m : Mgmt) (cls : Word) (s : State) : Host.Outcome State Fault Refusal :=
  .next (s.onPart (Part.takeOrder (.clearMaterialClass m cls) m (Part.clearMaterial cls) false))

/-- CLEAR_VALVE_CLASS (R5). -/
def execClearValveClass (m : Mgmt) (cls : Word) (s : State) : Host.Outcome State Fault Refusal :=
  .next (s.onPart (Part.takeOrder (.clearValveClass m cls) m (Part.clearVClass cls) false))

/-- CREW_REPORT (R15). -/
def execCrewReport (m : Mgmt) (valve result : Word) (s : State) : Host.Outcome State Fault Refusal :=
  .next (s.onPart (Part.takeOrder (.crewReport m valve result) m (Part.crewReport valve result) false))

/-- VALVE_STATE (R11). -/
def execValveState (m : Mgmt) (valve operability : Word) (s : State) : Host.Outcome State Fault Refusal :=
  .next (s.onPart (Part.takeOrder (.valveState m valve operability) m (Part.valveState valve operability) false))

end Sys2Proof.Machine
end

