-- ==== Sys2Proof/Machine/ReadOrders.lean ====
section
/-! DEFINITION. The reading orders (R21, R42, R67, R91, R154, R178, R186) and the reply layouts of 10.5. A word that the
layouts leave without content is a FREE value (log entry 17). -/

namespace Sys2Proof.Machine

/-- The free word of a place in a reply (log entry 17). -/
def Part.freeWord (p : Part) (place : Nat) : Word := Config.unstated (p.mgmt.fresh + place)

/-- The counter behind the free words goes past the places of a reply (log entry 17). -/
def Part.usedWords (p : Part) : Part := { p with mgmt := { p.mgmt with fresh := p.mgmt.fresh + 16 } }

/-- A time that may be absent (R181); the three bytes of an absent time are free. -/
def Part.timeOr (p : Part) (place : Nat) (t : Option Nat) : Item :=
  match t with
  | some n => timeItem n
  | none => ⟨0#8, Word.lo (p.freeWord place), Word.hi (p.freeWord (place + 1)), Word.lo (p.freeWord (place + 1))⟩

/-- A word that may be absent with no code for it: free where it is. -/
def Part.wordOr (p : Part) (place : Nat) (n : Option Nat) : Word :=
  match n with
  | some k => w16 k
  | none => p.freeWord place

/-- A list of ids behind its length (10.5). -/
def counted (ids : List Nat) : List Item := item (w16 ids.length) 0#16 :: pairUp (ids.map w16)

/-! ## READ_ENTRY (R21, R42, R154) -/

def segmentItems (g : Nat) (x : Segment) : List Item :=
  [item (w16 g) (w16 x.zone), item (w8 (flagNum x.source) (flagNum x.prot)) (w16 x.static), item (optionalWord x.ref) 0#16] ++
    counted x.valves

/-- STATION and CHANNEL of a MANUAL valve have no content (R6): free. -/
def Part.stationWord (p : Part) (x : Valve) : Word :=
  match x.kind with
  | .actuated => w16 x.station
  | .manual => p.freeWord 0

def Part.channelWord (p : Part) (x : Valve) : Word :=
  match x.kind with
  | .actuated => w8 x.channel (flagNum x.overridePermitted)
  | .manual => wordOf (Word.lo (p.freeWord 1)) (BitVec.ofNat 8 (flagNum x.overridePermitted))

/-- OPENING or PRIOR as a byte: 255 for UNKNOWN (10.5). -/
def openingByte (o : Option Nat) : Nat := o.getD 255

def Part.valveItems (p : Part) (v : Nat) (x : Valve) : List Item :=
  [item (w16 v) (w16 x.segA),
   item (optionalWord x.segB) (w8 x.kind.num x.normal.num),
   item (p.stationWord x) (p.channelWord x),
   item (w8 x.material x.vclass) (w8 x.initial.num 0),
   item (w16 x.velocity) (w16 x.diameter),
   item (w8 (openingByte x.opening) x.operability.num) (w8 x.holdCount (x.moveTag.getD 0)),
   p.timeOr 2 x.positionTime,
   item (w8 (flagNum (p.usable x)) (flagNum x.countsAsClosed)) 0#16]

def materialItems (k : Nat) (x : Material) : List Item := [item (w16 k) (w16 x.speed), item (w16 x.rating) 0#16]

/-- A profile breakpoint as a byte; beyond the count a byte has no content: free. -/
def Part.profileByte (p : Part) (x : ValveClass) (n : Nat) : Byte :=
  match x.profile[n]? with
  | some b => BitVec.ofNat 8 b
  | none => Word.lo (p.freeWord n)

def Part.vclassItems (p : Part) (k : Nat) (x : ValveClass) : List Item :=
  [item (w16 k) (w16 x.profile.length)] ++ pairUp (x.curve.map w16) ++
    [⟨p.profileByte x 0, p.profileByte x 1, p.profileByte x 2, p.profileByte x 3⟩,
     ⟨p.profileByte x 4, p.profileByte x 5, p.profileByte x 6, p.profileByte x 7⟩,
     item (w16 x.t10) (w16 x.allowance), item (w16 x.dwell) (w16 x.poll)]

def Part.sensorItems (p : Part) (k : Nat) (x : Sensor) : List Item :=
  [item (w16 k) (w16 x.station), item (w8 x.channel x.kind.num) (w16 x.place), item (w16 x.bandLow) (w16 x.bandHigh),
   item (w8 x.persist 0) (w16 x.drop), item (w16 x.window) 0#16,
   item (p.wordOr 0 x.lastValue) (w16 (flagNum x.lastValue.isSome)),
   p.timeOr 1 x.lastTime,
   item (w8 x.status.num x.countdown) (w8 x.side.num x.excursion.num)]

def Part.latchItems (p : Part) (l : Option Suspect) : List Item :=
  [item (w16 (flagNum l.isSome)) (p.wordOr 0 (l.map Suspect.candidate)),
   item (p.wordOr 1 (l.map fun x => x.cause.num)) (p.wordOr 2 (l.map Suspect.sensor)),
   p.timeOr 3 (l.map Suspect.raised)]

def Part.zoneItems (p : Part) (z : Nat) : List Item :=
  let x := p.zone z
  [item (w16 z) (w8 x.threshold x.slots), item (w16 x.margin) (w8 x.saturation.num x.urgency),
   item (w16 x.verifyWindow) (w16 x.drained),
   item (w8 x.mode.num (flagNum x.suspended)) (w8 x.counter (flagNum (p.lowPressure z)))] ++
    p.latchItems x.latch ++ counted (Table.keys (p.inletMeters z))

/-- The line item of a station load as it stands: PIN_LINE where SECURE, else LINE (10.5; log entry 34). -/
def Station.loadLine (x : Station) : Option Line := if x.secure then x.pinLine else x.line

/-- PIN_LINE has no content unless the station is SECURE (R141): free. -/
def Part.pinWord (p : Part) (x : Station) : Word := if x.secure then lineWord x.pinLine else p.freeWord 0

def Part.stationItems (p : Part) (n : Nat) (x : Station) : List Item :=
  [item (w16 x.address) (w8 (flagNum x.secure) (flagNum x.blocked)), item (lineWord x.loadLine) 0#16,
   item (w16 n) (w8 x.kind.num x.age.num), item (lineWord x.line) (p.pinWord x), p.timeOr 1 x.heard]

/-- The answer of a READ_ENTRY: the record, or NO_SUCH for a free one. -/
def Part.entryAnswer (p : Part) {α : Type} (x : Option α) (items : α → List Item) : Part × Answer :=
  match x with
  | some a => (p.usedWords, ⟨.ok, items a⟩)
  | none => refuse .noSuch p

/-- READ_ENTRY by the table code (R21, R42, R154, R182). -/
def Part.readEntry (table id : Word) (p : Part) : Part × Answer :=
  let n := id.toNat
  let ranged := fun (top : Nat) (a : Part × Answer) => if top < n then refuse .badArgument p else a
  match table.toNat with
  | 1 => ranged 2047 (p.entryAnswer (p.segment? n) (segmentItems n))
  | 2 => ranged 4095 (p.entryAnswer (p.valve? n) (p.valveItems n))
  | 3 => ranged 7 (p.entryAnswer (p.material? n) (materialItems n))
  | 4 => ranged 15 (p.entryAnswer (p.vclass? n) (p.vclassItems n))
  | 5 => ranged 511 (p.entryAnswer (p.sensor? n) (p.sensorItems n))
  | 6 => ranged 63 (p.entryAnswer (some ()) fun _ => p.zoneItems n)
  | 7 =>
    if n = 0 ∨ n = 65535 ∨ n = p.mgmt.ownAddress then refuse .badArgument p
    else p.entryAnswer (p.station? n) fun e => p.stationItems e.1 e.2
  | _ => refuse .badArgument p

/-! ## READ_INCIDENT (R67) -/

/-- A boundary word: the valve id, plus 32,768 for CLOSE (10.5). -/
def BoundaryEntry.word (b : BoundaryEntry) : Word :=
  match b.action with
  | .close => w16 (b.valve + 32768)
  | .none => w16 b.valve

def TouchedEntry.item (t : TouchedEntry) : Item :=
  Machine.item (w16 t.valve) (w8 (openingByte t.prior) t.role.num)

def incidentItems (r : Nat) (i : Incident) : List Item :=
  [item (w16 r) (w16 i.number),
   item (w8 i.origin.num i.zone) (w8 i.urgency i.state.num),
   item (w16 i.burst) (w8 ((i.heldReason.map HeldReason.num).getD 0) ((i.verdict.map Verdict.num).getD 0)),
   item (w16 i.repeats) (w8 i.restarts (flagNum i.restoreBegun + 2 * flagNum i.short)),
   timeItem i.opened,
   item (w16 i.collateral) (w16 i.prot.length),
   item (w16 i.area.length) (w16 i.boundary.length),
   item (w16 i.touched.length) 0#16] ++
    pairUp (i.prot.map w16) ++ pairUp (i.area.map w16) ++ pairUp (i.boundary.map BoundaryEntry.word) ++
    i.touched.map TouchedEntry.item

/-- READ_INCIDENT (R67). -/
def Part.readIncident (number : Word) (p : Part) : Part × Answer :=
  let n := number.toNat
  if n = 0 ∨ 255 < n then refuse .badArgument p
  else
    match p.byNumber n with
    | none => refuse .noSuch p
    | some (r, i) => (p, ⟨.ok, incidentItems r i⟩)

/-! ## READ_STATUS (R178) -/

def Part.stationCount (p : Part) (f : Station → Bool) : Nat := (p.stations.entries.filter fun e => f e.2).length

/-- NUMBER and STATE of a record; a free record's NUMBER has no content: free. -/
def Part.recordItem (p : Part) (r : Nat) : Item :=
  match p.incident? r with
  | some i => item (w16 i.number) (w8 i.state.num 0)
  | none => item (p.freeWord r) (w8 0 0)

/-- The planner's state; of an IDLE planner NUMBER and phase have no content: free. -/
def Part.plannerItem (p : Part) : Item :=
  match p.plan.plan with
  | some w => item 1#16 (w8 w.number w.phase.num)
  | none => item 0#16 (p.freeWord 8)

/-- The planner queue in the order it would be granted (R70, R91). -/
def Part.grantOrder (p : Part) : List PlanEntry :=
  sortBy (fun a b => decide (p.urgencyOf b.record < p.urgencyOf a.record)) p.plan.queue

/-- A line's queue lengths, classes 3 to 0, and its counters (10.5). -/
def LineState.items (l : LineState) : List Item :=
  [item (w8 l.queues.c3.length l.queues.c2.length) (w8 l.queues.c1.length l.queues.c0.length),
   item (w16 l.received) (w16 l.crcDrops), item (w16 l.queueDrops) 0#16]

/-- The zones with a slot held or a waiting entry (R107). -/
def Part.busyZones (p : Part) : List Nat :=
  (List.range 64).filter fun z => decide (0 < p.slotsHeld z) || decide (0 < p.waitingIn z)

def Part.statusItems (p : Part) : List Item :=
  let cfg := p.stationCount fun e => e.kind = .configured
  let lrn := p.stationCount fun e => e.kind = .learned
  [item (w16 p.mgmt.mode.num) (w16 p.mgmt.noticeAddress),
   item (w16 p.mgmt.ownAddress) (w16 p.mgmt.notices.length),
   item (w16 p.stations.mode.num) (w16 p.stations.interval),
   item (w16 cfg) (w16 lrn),
   item (w16 (512 - (cfg + lrn))) (w16 (p.stationCount fun e => e.kind = .configured && e.age = .silent))] ++
    incidentRecords.map p.recordItem ++
    [p.plannerItem, item (w16 p.plan.queue.length) 0#16] ++
    p.grantOrder.map (fun e => item (w16 e.number) (w16 (p.urgencyOf e.record))) ++
    (fieldLines ++ [Line.control]).flatMap (fun l => (p.line l).items) ++
    [item (w16 p.counters.secureDrops) (w16 p.counters.blockedDrops),
     item (w16 p.counters.learnFailures) (w16 p.counters.unknownRejects),
     item (w16 p.counters.latchDiscards) (w16 p.counters.staleEchoes),
     item (w16 p.counters.noticesLost) (w16 p.trace.fifo.length),
     item (w16 p.busyZones.length) 0#16] ++
    p.busyZones.map (fun z => item (w8 z (p.slotsHeld z)) (w16 (p.waitingIn z)))

/-- READ_STATUS (R178). -/
def Part.readStatus (p : Part) : Part × Answer := (p.usedWords, ⟨.ok, p.statusItems⟩)

/-! ## READ_TRACE (R186) -/

/-- The three items of a trace entry (10.5, R183). -/
def TraceEntry.items (e : TraceEntry) : List Item :=
  [⟨BitVec.ofNat 8 e.code.num, BitVec.ofNat 8 (e.stamp / 65536), BitVec.ofNat 8 (e.stamp / 256), BitVec.ofNat 8 e.stamp⟩,
   item (w8 (subjectKind e.subject) (e.incident.getD 0)) (w8 e.loss.num (flagNum e.value.isSome)),
   item (w16 (subjectId e.subject)) (w16 (e.value.getD 0))]

/-- READ_TRACE: the oldest entries are removed and returned (R186). -/
def Part.readTrace (wanted : Word) (p : Part) : Part × Answer :=
  if wanted.toNat = 0 then refuse .badArgument p
  else
    let n := min wanted.toNat 16
    let out := p.trace.fifo.take n
    let left := p.trace.fifo.drop n
    ({ p with trace := { p.trace with fifo := left } },
      ⟨loaded (decide (16 < wanted.toNat)), item (w16 out.length) (w16 left.length) :: out.flatMap TraceEntry.items⟩)

/-! ## The commands -/

/-- READ_ENTRY (R21). -/
def execReadEntry (m : Mgmt) (table id : Word) (s : State) : Host.Outcome State Fault Refusal :=
  .next (s.onPart (Part.takeOrder (.readEntry m table id) m (Part.readEntry table id) false))

/-- READ_TRACE (R186). -/
def execReadTrace (m : Mgmt) (wanted : Word) (s : State) : Host.Outcome State Fault Refusal :=
  .next (s.onPart (Part.takeOrder (.readTrace m wanted) m (Part.readTrace wanted) false))

/-- READ_STATUS (R178). -/
def execReadStatus (m : Mgmt) (s : State) : Host.Outcome State Fault Refusal :=
  .next (s.onPart (Part.takeOrder (.readStatus m) m Part.readStatus false))

/-- READ_INCIDENT (R67). -/
def execReadIncident (m : Mgmt) (number : Word) (s : State) : Host.Outcome State Fault Refusal :=
  .next (s.onPart (Part.takeOrder (.readIncident m number) m (Part.readIncident number) false))

end Sys2Proof.Machine
end

