-- ==== Sys2Proof/Machine/WatchOrders.lean ====
section
/-! DEFINITION. The orders on sensors and zones (sections 2.1, 2.3, 2.6). -/

namespace Sys2Proof.Machine

/-! ## Sensors (R23, R24, R25) -/

/-- The fields of a sensor load after they are taken into their ranges (first paragraph of R23), with the running
fields of a first load (R22). -/
def sensorOfLoad (station channel : Nat) (kind : SensorKind) (place low high persist drop window : Nat) : Sensor :=
  let bound := fun n => if kind = .pressure then min n 4095 else n
  let n := clampTo 1 15 persist
  { station := station, channel := channel, kind := kind, place := place, bandLow := bound low, bandHigh := bound high,
    persist := n, drop := if kind = .pressure then min drop 4095 else 0, window := clampTo 5 3600 window,
    lastValue := none, lastTime := none, status := .never, countdown := n, side := .none, excursion := .inBand,
    freshDue := none }

/-- Some value was taken into its range, other than the ignored DROP of a FLOW load (R23). -/
def sensorClamped (x : Sensor) (low high persist drop window : Nat) : Bool :=
  x.bandLow ≠ low || x.bandHigh ≠ high || x.persist ≠ persist || (x.kind = .pressure && x.drop ≠ drop) ||
    x.window ≠ window

/-- A reload changes where the samples come from or belong (first case of R24). -/
def Sensor.moved (old new : Sensor) : Bool :=
  old.kind ≠ new.kind || old.place ≠ new.place || old.station ≠ new.station || old.channel ≠ new.channel

/-- A reload changes the band or PERSIST (second case of R24). -/
def Sensor.rebanded (old new : Sensor) : Bool :=
  old.bandLow ≠ new.bandLow || old.bandHigh ≠ new.bandHigh || old.persist ≠ new.persist

/-- The new expiry of a sensor that stays FRESH: LAST_TIME plus the new window, and STALE where that is past (R24). -/
def Sensor.retimed (x : Sensor) (now : Nat) : Sensor :=
  if x.status = .fresh then
    let due := x.lastTime.getD 0 + 10 * x.window
    if due < now then x.stale else { x with freshDue := some due }
  else x

/-- The record a reload writes over a loaded one (R24). -/
def Sensor.reload (old new : Sensor) (now : Nat) : Sensor :=
  if old.moved new then new
  else
    let kept := { new with lastValue := old.lastValue, lastTime := old.lastTime, status := old.status }
    if old.rebanded new then kept.retimed now
    else ({ kept with countdown := old.countdown, side := old.side, excursion := old.excursion }).retimed now

/-- Test 1 of R23 but for KIND. -/
def sensorArgsBad (k : Nat) (x : Sensor) : Bool :=
  decide (511 < k) || x.station = 0 || x.station = 65535 || decide (31 < x.channel) ||
    (x.kind = .pressure && decide (2047 < x.place)) || (x.kind = .flow && decide (63 < x.place)) ||
    decide (x.bandHigh < x.bandLow)

/-- Test 3 of R23: the pair maps to a valve or to another sensor. -/
def Part.sensorPairTaken (p : Part) (k : Nat) (x : Sensor) : Bool :=
  match p.channel? x.station x.channel with
  | none => false
  | some t => t ≠ .sensor k

/-- Test 4 of R23: four other FLOW sensors of the zone are loaded. -/
def Part.metersFull (p : Part) (k : Nat) (x : Sensor) : Bool :=
  x.kind = .flow && decide (4 ≤ ((p.inletMeters x.place).filter fun e => e.1 ≠ k).length)

/-- LOAD of a sensor (R23, R24). -/
def Part.loadSensor (sensor station : Word) (channel kind : Byte) (place low high : Word) (persist : Byte)
    (drop window : Word) (p : Part) : Part × Answer :=
  let k := sensor.toNat
  match sensorKindOf kind with
  | none => refuse .badArgument p
  | some kd =>
    let x := sensorOfLoad station.toNat channel.toNat kd place.toNat low.toNat high.toNat persist.toNat drop.toNat
      window.toNat
    examine
      [(sensorArgsBad k x, .badArgument),
       (kd = .pressure && (p.segment? place.toNat).isNone, .noSuch),
       (p.sensorPairTaken k x, .duplicate),
       (p.metersFull k x, .listFull)]
      (fun p =>
        let q := (match p.sensor? k with
          | some o => (p.removeChannel o.station o.channel).putSensor k (o.reload x p.now)
          | none => p.putSensor k x)
        (q.putChannel x.station x.channel (.sensor k),
          .bare (loaded (sensorClamped x low.toNat high.toNat persist.toNat drop.toNat window.toNat)))) p

/-- CLEAR of a sensor (R25). -/
def Part.clearSensor (sensor : Word) (p : Part) : Part × Answer :=
  let k := sensor.toNat
  if 511 < k then refuse .badArgument p
  else
    match p.sensor? k with
    | none => refuse .noSuch p
    | some x => ((p.removeChannel x.station x.channel).removeSensor k, .bare .ok)

/-! ## Zones (R30) -/

/-- SLOTS would change while a valve holds a slot of the zone (R30). -/
def Part.slotsBusy (p : Part) (z slots : Nat) : Bool := (p.zone z).slots ≠ slots && decide (0 < p.slotsHeld z)

/-- The seven settings of a zone are written; a change of THRESHOLD sets COUNTER to 0 (R30). -/
def Zone.settings (old new : Zone) : Zone :=
  { old with
    counter := if old.threshold = new.threshold then old.counter else 0
    threshold := new.threshold, slots := new.slots, margin := new.margin, saturation := new.saturation,
    urgency := new.urgency, verifyWindow := new.verifyWindow, drained := new.drained }

/-- LOAD of a zone (R30). -/
def Part.loadZone (zone : Word) (threshold slots : Byte) (margin : Word) (saturation urgency : Byte)
    (window drained : Word) (p : Part) : Part × Answer :=
  let z := zone.toNat
  match saturationOf saturation with
  | none => refuse .badArgument p
  | some sat =>
    let x : Zone :=
      { p.zone z with
        threshold := clampTo 1 63 threshold.toNat, slots := clampTo 1 4 slots.toNat, margin := min margin.toNat 1000,
        saturation := sat, urgency := min urgency.toNat 3, verifyWindow := clampTo 30 3600 window.toNat,
        drained := min drained.toNat 4095 }
    let clamped := x.threshold ≠ threshold.toNat || x.slots ≠ slots.toNat || x.margin ≠ margin.toNat ||
      x.urgency ≠ urgency.toNat || x.verifyWindow ≠ window.toNat || x.drained ≠ drained.toNat
    examine [(decide (63 < z), .badArgument), (p.slotsBusy z x.slots, .busy)]
      (fun p => (p.putZone z ((p.zone z).settings x), .bare (loaded clamped))) p

/-- CLEAR of a zone: the power-on values of the seven settings (R30). -/
def Part.clearZone (zone : Word) (p : Part) : Part × Answer :=
  let z := zone.toNat
  examine [(decide (63 < z), .badArgument), (p.slotsBusy z Zone.powerOn.slots, .busy)]
    (fun p => (p.putZone z ((p.zone z).settings Zone.powerOn), .bare .ok)) p

/-! ## Modes and latches (R38, R39, R40) -/

/-- ZONE_MODE: a change from INHIBIT releases the latched suspect (R38). -/
def Part.zoneMode (zone mode : Word) (p : Part) : Part × Answer :=
  let z := zone.toNat
  match zoneModeOf mode with
  | none => refuse .badArgument p
  | some m =>
    if 63 < z then refuse .badArgument p
    else
      let q := p.putZone z { p.zone z with mode := m }
      (if (p.zone z).mode = .inhibit ∧ m ≠ .inhibit then q.releaseLatch z else q, .bare .ok)

/-- SUSPENDED is written in all 64 zones. -/
def Part.suspendZones (b : Bool) (p : Part) : Part :=
  (List.range 64).foldl (fun q z => q.putZone z { q.zone z with suspended := b }) p

/-- SUSPEND_ALL (R39). -/
def Part.suspendAll (p : Part) : Part × Answer := (p.suspendZones true, .bare .ok)

/-- RESUME_ALL: then the latched suspects of the zones that are not INHIBIT are routed, in ascending zone number (R39).
DEDUCED (log entry 52): MODE and LATCH of a zone are read at its turn, so a suspect latched there by a lower zone's routing
is released too. -/
def Part.resumeAll (p : Part) : Part × Answer :=
  ((List.range 64).foldl (fun q z => if (q.zone z).mode = .inhibit then q else q.releaseLatch z) (p.suspendZones false),
    .bare .ok)

/-- CLEAR_LATCH (R40). -/
def Part.clearLatch (zone : Word) (p : Part) : Part × Answer :=
  let z := zone.toNat
  if 63 < z then refuse .badArgument p
  else
    match (p.zone z).latch with
    | none => (p, .bare .ok)
    | some x =>
      ((p.putZone z { p.zone z with latch := none }).record .latchCleared none (some (.zone z)) (some x.candidate),
        .bare .ok)

/-! ## The commands -/

/-- LOAD_SENSOR (R23). -/
def execLoadSensor (m : Mgmt) (sensor station : Word) (channel kind : Byte) (place low high : Word) (persist : Byte)
    (drop window : Word) (s : State) : Host.Outcome State Fault Refusal :=
  .next (s.onPart (Part.takeOrder (.loadSensor m sensor station channel kind place low high persist drop window) m
    (Part.loadSensor sensor station channel kind place low high persist drop window) false))

/-- LOAD_ZONE (R30). -/
def execLoadZone (m : Mgmt) (zone : Word) (threshold slots : Byte) (margin : Word) (saturation urgency : Byte)
    (window drained : Word) (s : State) : Host.Outcome State Fault Refusal :=
  .next (s.onPart (Part.takeOrder (.loadZone m zone threshold slots margin saturation urgency window drained) m
    (Part.loadZone zone threshold slots margin saturation urgency window drained) false))

/-- CLEAR_SENSOR (R25). -/
def execClearSensor (m : Mgmt) (sensor : Word) (s : State) : Host.Outcome State Fault Refusal :=
  .next (s.onPart (Part.takeOrder (.clearSensor m sensor) m (Part.clearSensor sensor) false))

/-- CLEAR_ZONE (R30). -/
def execClearZone (m : Mgmt) (zone : Word) (s : State) : Host.Outcome State Fault Refusal :=
  .next (s.onPart (Part.takeOrder (.clearZone m zone) m (Part.clearZone zone) false))

/-- ZONE_MODE (R38). -/
def execZoneMode (m : Mgmt) (zone mode : Word) (s : State) : Host.Outcome State Fault Refusal :=
  .next (s.onPart (Part.takeOrder (.zoneMode m zone mode) m (Part.zoneMode zone mode) false))

/-- SUSPEND_ALL (R39). -/
def execSuspendAll (m : Mgmt) (s : State) : Host.Outcome State Fault Refusal :=
  .next (s.onPart (Part.takeOrder (.suspendAll m) m Part.suspendAll false))

/-- RESUME_ALL (R39). -/
def execResumeAll (m : Mgmt) (s : State) : Host.Outcome State Fault Refusal :=
  .next (s.onPart (Part.takeOrder (.resumeAll m) m Part.resumeAll false))

/-- CLEAR_LATCH (R40). -/
def execClearLatch (m : Mgmt) (zone : Word) (s : State) : Host.Outcome State Fault Refusal :=
  .next (s.onPart (Part.takeOrder (.clearLatch m zone) m (Part.clearLatch zone) false))

end Sys2Proof.Machine
end

