-- ==== Sys2Proof/Machine/Dispatch.lean ====
section
/-! DEFINITION. Every command and its meaning, one arm each. -/

namespace Sys2Proof.Machine

def exec (i : Instr) (s : State) : Host.Outcome State Fault Refusal :=
  match i with
  | .powerOn strap => Sys2Proof.Machine.execPowerOn strap s
  | .frameReceived line bytes => Sys2Proof.Machine.execFrameReceived line bytes s
  | .frameTransmitEnd line => Sys2Proof.Machine.execFrameTransmitEnd line s
  | .agingExpiry => Sys2Proof.Machine.execAgingExpiry s
  | .freshnessExpiry sensor => Sys2Proof.Machine.execFreshnessExpiry sensor s
  | .travelTimerExpiry valve => Sys2Proof.Machine.execTravelTimerExpiry valve s
  | .queryTimerExpiry valve => Sys2Proof.Machine.execQueryTimerExpiry valve s
  | .pollExpiry valve => Sys2Proof.Machine.execPollExpiry valve s
  | .dwellEnd valve => Sys2Proof.Machine.execDwellEnd valve s
  | .verifyWindowExpiry record => Sys2Proof.Machine.execVerifyWindowExpiry record s
  | .timeWrap => Sys2Proof.Machine.execTimeWrap s
  | .areaSearchExamine => Sys2Proof.Machine.execAreaSearchExamine s
  | .supplyWalkReach => Sys2Proof.Machine.execSupplyWalkReach s
  | .planComplete => Sys2Proof.Machine.execPlanComplete s
  | .loadSegment m segment zone source prot static ref => Sys2Proof.Machine.execLoadSegment m segment zone source prot static ref s
  | .loadValve m valve segA segB kind normal station channel overridePermitted material vclass operability velocity diameter => Sys2Proof.Machine.execLoadValve m valve segA segB kind normal station channel overridePermitted material vclass operability velocity diameter s
  | .loadMaterialClass m cls speed rating => Sys2Proof.Machine.execLoadMaterialClass m cls speed rating s
  | .loadValveClass m cls profileCount curve profile t10 allowance dwell poll => Sys2Proof.Machine.execLoadValveClass m cls profileCount curve profile t10 allowance dwell poll s
  | .loadSensor m sensor station channel kind place bandLow bandHigh persist drop window => Sys2Proof.Machine.execLoadSensor m sensor station channel kind place bandLow bandHigh persist drop window s
  | .loadZone m zone threshold slots margin saturation urgency window drained => Sys2Proof.Machine.execLoadZone m zone threshold slots margin saturation urgency window drained s
  | .loadStation m address secure blocked line => Sys2Proof.Machine.execLoadStation m address secure blocked line s
  | .clearSegment m segment => Sys2Proof.Machine.execClearSegment m segment s
  | .clearValve m valve => Sys2Proof.Machine.execClearValve m valve s
  | .clearMaterialClass m cls => Sys2Proof.Machine.execClearMaterialClass m cls s
  | .clearValveClass m cls => Sys2Proof.Machine.execClearValveClass m cls s
  | .clearSensor m sensor => Sys2Proof.Machine.execClearSensor m sensor s
  | .clearZone m zone => Sys2Proof.Machine.execClearZone m zone s
  | .clearStation m address => Sys2Proof.Machine.execClearStation m address s
  | .readEntry m table id => Sys2Proof.Machine.execReadEntry m table id s
  | .setMode m mode => Sys2Proof.Machine.execSetMode m mode s
  | .zoneMode m zone mode => Sys2Proof.Machine.execZoneMode m zone mode s
  | .suspendAll m => Sys2Proof.Machine.execSuspendAll m s
  | .resumeAll m => Sys2Proof.Machine.execResumeAll m s
  | .clearLatch m zone => Sys2Proof.Machine.execClearLatch m zone s
  | .setMaps m classMap urgencyMap noticePriority => Sys2Proof.Machine.execSetMaps m classMap urgencyMap noticePriority s
  | .setNoticeAddress m address => Sys2Proof.Machine.execSetNoticeAddress m address s
  | .setStationMode m mode interval => Sys2Proof.Machine.execSetStationMode m mode interval s
  | .setTracePolicy m policy => Sys2Proof.Machine.execSetTracePolicy m policy s
  | .declare m segment urgency => Sys2Proof.Machine.execDeclare m segment urgency s
  | .confirm m number => Sys2Proof.Machine.execConfirm m number s
  | .cancel m number => Sys2Proof.Machine.execCancel m number s
  | .restore m number => Sys2Proof.Machine.execRestore m number s
  | .resume m number => Sys2Proof.Machine.execResume m number s
  | .widen m number count ids => Sys2Proof.Machine.execWiden m number count ids s
  | .crewReport m valve result => Sys2Proof.Machine.execCrewReport m valve result s
  | .valveState m valve operability => Sys2Proof.Machine.execValveState m valve operability s
  | .readTrace m wanted => Sys2Proof.Machine.execReadTrace m wanted s
  | .readStatus m => Sys2Proof.Machine.execReadStatus m s
  | .readIncident m number => Sys2Proof.Machine.execReadIncident m number s
  | .clearCounters m => Sys2Proof.Machine.execClearCounters m s
  | .restart m => Sys2Proof.Machine.execRestart m s
  | .badOrder m => Sys2Proof.Machine.execBadOrder m s

end Sys2Proof.Machine
end

