-- ==== Sys2Proof/Safety.lean ====
section
/-! DEFINITION. The terms the claims are stated in: when nothing stands ready, what a reply adds, what the orders of the
control room configure and nothing else may change, and the bounds that every step keeps. -/

namespace Sys2Proof.Machine

/-! ## Rest -/

/-- Nothing stands ready: no HALTED context that its test no longer halts, and no waiting entry that a zone would grant
(R109, R111). -/
def Part.atRest (p : Part) : Prop := p.nextHalted = none ∧ p.nextGrant = none

/-- The pending list takes `n` more entries without losing one (R175), and no RESTART has become due (log entry 8). -/
def Part.room (n : Nat) (p : Part) : Prop :=
  p.mgmt.notices.length + n ≤ Config.pendingDepth ∧ p.mgmt.restartDue = false

/-- No RESTART is due, and no reply to a RESTART waits in the pending list (R179). -/
def Part.noRestart (p : Part) : Prop := p.mgmt.restartDue = false ∧ ∀ e ∈ p.mgmt.notices, e.restart = false

/-! ## Replies and notices -/

/-- The frames a line holds: the one in transmission and those queued, class 3 first. -/
def LineState.frames (l : LineState) : List OutFrame :=
  l.sending.toList ++ l.queues.c3 ++ l.queues.c2 ++ l.queues.c1 ++ l.queues.c0

/-- The frames of a pending entry, each with the entry's mark. -/
def PendEntry.outFrames (e : PendEntry) : List OutFrame := e.frames.map fun f => ⟨f, e.restart⟩

/-- The frames on their way up: what the control line holds, and what waits in the pending list. -/
def Part.outbox (p : Part) : List OutFrame := (p.line .control).frames ++ p.mgmt.notices.flatMap PendEntry.outFrames

/-- The part without what a reply or notice touches: the control line's queues and transmitter, and the pending list. -/
def Part.silenced (p : Part) : Part :=
  (p.setLine .control { p.line .control with queues := ⟨[], [], [], []⟩, sending := none }).setNotices []

/-- The frames of a reply to a management order, marked where the order is a RESTART (R173, R179). -/
def Part.replyFrames (m : Mgmt) (a : Answer) (restart : Bool) (p : Part) : List OutFrame :=
  let parts := cutParts a.data.length a.data
  (Part.partFrames m.source m.tag 0 a.result.num parts.length p 1 parts).map fun f => ⟨f, restart⟩

/-- The frames of a notice (R174). -/
def Part.noticeFrames (code : NoticeCode) (items : List Item) (p : Part) : List OutFrame :=
  [⟨p.noticeFrame (w16 p.mgmt.noticeAddress) 0#8 (headerItem code.num 0 1 1 :: items), false⟩]

/-- The part `q` is the part `e` with frames on their way up: nothing else differs, and the frames on their way up are
those of `e` and the new ones, none lost (R175). -/
def Part.posted (e : Part) (frames : List OutFrame) (q : Part) : Prop :=
  q.silenced = e.silenced ∧ q.outbox.Perm (e.outbox ++ frames)

/-- An order was taken from `s` to `t`: its effects made the part `e`, and the reply with the answer `a`, marked where it
is a RESTART's, is on its way up (R172, R173). -/
def State.replied (s : State) (e : Part) (m : Mgmt) (a : Answer) (restart : Bool) (t : State) : Prop :=
  t.pending = s.pending ∧ e.posted (e.replyFrames m a restart) t.part

/-- A command's own effect is its whole effect: nothing stands ready after it and no RESTART is due. -/
def Part.still (p : Part) : Prop := p.atRest ∧ p.mgmt.restartDue = false

/-- The same of an order's effect, with a place in the pending list should its reply have to wait. -/
def Part.quiet (p : Part) : Prop := p.atRest ∧ p.room 1

/-- Taken in the state `s`, the order `i` (no RESTART) of the management frame `m` ANSWERS A NEXT STATE: its effects make the part
`e`, its reply carries the answer `a`, and nothing else differs. -/
def State.takes (s : State) (i : Instr) (m : Mgmt) (e : Part) (a : Answer) : Prop :=
  ∃ t, exec i s = .next t ∧ s.replied e m a false t

/-! ## Configuration -/

/-- The loaded fields of a valve (R6), its running fields at the values of a first load. -/
def Valve.loadedOnly (x : Valve) : Valve :=
  { x with opening := none, positionTime := none, operability := x.initial, holdCount := 0, moveTag := none }

/-- MODE and the seven settings of a zone (R29). -/
def Zone.settingsOnly (x : Zone) : Zone := { x with suspended := false, counter := 0, latch := none }

/-- The fields of a CONFIGURED entry that no frame and no timer changes (R141). -/
def Station.loadedOnly (e : Station) : Option Station :=
  if e.kind = .configured then some { e with line := none, age := .untouched, heard := none } else none

/-- The part `q` is configured as `p` is: every record that an order loads, and every setting that an order sets, stands
as it stood (R1, R4, R5, R6, R13, R22, R29, R141, R165, R171, R184). -/
structure Part.configuredAs (q p : Part) : Prop where
  segments : q.net.segments = p.net.segments
  valves : ∀ v, (q.valve? v).map Valve.loadedOnly = (p.valve? v).map Valve.loadedOnly
  materials : q.net.materials = p.net.materials
  vclasses : q.net.vclasses = p.net.vclasses
  channels : q.net.channels = p.net.channels
  sensors : ∀ k, (q.sensor? k).map Sensor.unheard = (p.sensor? k).map Sensor.unheard
  zones : ∀ z, (q.zone z).settingsOnly = (p.zone z).settingsOnly
  entries : ∀ n, (Table.look q.stations.entries n).bind Station.loadedOnly =
    (Table.look p.stations.entries n).bind Station.loadedOnly
  stationMode : q.stations.mode = p.stations.mode
  interval : q.stations.interval = p.stations.interval
  classMap : q.trunk.classMap = p.trunk.classMap
  urgencyMap : q.trunk.urgencyMap = p.trunk.urgencyMap
  noticePriority : q.trunk.noticePriority = p.trunk.noticePriority
  ownAddress : q.mgmt.ownAddress = p.mgmt.ownAddress
  noticeAddress : q.mgmt.noticeAddress = p.mgmt.noticeAddress
  policy : q.trace.policy = p.trace.policy

end Sys2Proof.Machine

namespace Sys2Proof

/-- The commands that may change the configuration: POWER_ON, the loads and clears, and the orders that set a setting. -/
def Instr.configures : Instr → Bool
  | .powerOn _ => true
  | .loadSegment _ _ _ _ _ _ _ => true
  | .loadValve _ _ _ _ _ _ _ _ _ _ _ _ _ _ => true
  | .loadMaterialClass _ _ _ _ => true
  | .loadValveClass _ _ _ _ _ _ _ _ _ => true
  | .loadSensor _ _ _ _ _ _ _ _ _ _ _ => true
  | .loadZone _ _ _ _ _ _ _ _ _ => true
  | .clearSegment _ _ => true
  | .clearValve _ _ => true
  | .clearMaterialClass _ _ => true
  | .clearValveClass _ _ => true
  | .clearSensor _ _ => true
  | .clearZone _ _ => true
  | .loadStation _ _ _ _ _ => true
  | .clearStation _ _ => true
  | .zoneMode _ _ _ => true
  | .setMaps _ _ _ _ => true
  | .setNoticeAddress _ _ => true
  | .setStationMode _ _ _ => true
  | .setTracePolicy _ _ => true
  | .frameReceived _ _ => false
  | .frameTransmitEnd _ => false
  | .agingExpiry => false
  | .freshnessExpiry _ => false
  | .travelTimerExpiry _ => false
  | .queryTimerExpiry _ => false
  | .pollExpiry _ => false
  | .dwellEnd _ => false
  | .verifyWindowExpiry _ => false
  | .timeWrap => false
  | .areaSearchExamine => false
  | .supplyWalkReach => false
  | .planComplete => false
  | .readEntry _ _ _ => false
  | .setMode _ _ => false
  | .suspendAll _ => false
  | .resumeAll _ => false
  | .clearLatch _ _ => false
  | .declare _ _ _ => false
  | .confirm _ _ => false
  | .cancel _ _ => false
  | .restore _ _ => false
  | .resume _ _ => false
  | .widen _ _ _ _ => false
  | .crewReport _ _ _ => false
  | .valveState _ _ _ => false
  | .readTrace _ _ => false
  | .readStatus _ => false
  | .readIncident _ _ => false
  | .clearCounters _ => false
  | .restart _ => false
  | .badOrder _ => false

end Sys2Proof

namespace Sys2Proof.Machine

/-! ## Record sets -/

/-- Every record set in its canonical form: its numbers strictly rising, each with one record. -/
structure Part.canonical (p : Part) : Prop where
  segments : Table.wf p.net.segments = true
  valves : Table.wf p.net.valves = true
  materials : Table.wf p.net.materials = true
  vclasses : Table.wf p.net.vclasses = true
  channels : Table.wf p.net.channels = true
  sensors : Table.wf p.watch.sensors = true
  zones : Table.wf p.watch.zones = true
  entries : Table.wf p.stations.entries = true
  records : Table.wf p.inc.records = true
  contexts : Table.wf p.seq.contexts = true
  windows : Table.wf p.ver = true

/-! ## Bounds of the stores -/

/-- A line within its bounds: 16 frames a queue, counters at most 65,535 (R166, R187). -/
def LineState.bounded (l : LineState) : Prop :=
  (∀ c, (l.queues.get c).length ≤ Config.queueDepth) ∧ l.received ≤ Config.counterTop ∧
    l.crcDrops ≤ Config.counterTop ∧ l.queueDrops ≤ Config.counterTop

/-- The counters at most 65,535 (R187). -/
def Counters.bounded (c : Counters) : Prop :=
  c.secureDrops ≤ Config.counterTop ∧ c.blockedDrops ≤ Config.counterTop ∧ c.learnFailures ≤ Config.counterTop ∧
    c.unknownRejects ≤ Config.counterTop ∧ c.latchDiscards ≤ Config.counterTop ∧ c.staleEchoes ≤ Config.counterTop ∧
    c.noticesLost ≤ Config.counterTop

/-- Every store within its bound: queues and counters, 8 pending entries, 256 trace entries, the tag counter and NEXT in
1..255; an order that waits for lines names each line once (R45, R113, R166, R171, R184, R187). -/
structure Part.bounded (p : Part) : Prop where
  lines : ∀ l, (p.line l).bounded
  notices : p.mgmt.notices.length ≤ Config.pendingDepth
  trace : p.trace.fifo.length ≤ Config.traceDepth
  counters : p.counters.bounded
  tag : 1 ≤ p.seq.tag ∧ p.seq.tag ≤ 255
  next : 1 ≤ p.inc.next ∧ p.inc.next ≤ 255
  frames : ∀ f ∈ p.seq.frames, f.lines.Nodup

/-! ## Motion slots -/

/-- No zone has more valves in motion than slots (R107). -/
def Part.slotsKept (p : Part) : Prop := ∀ z, p.slotsHeld z ≤ (p.zone z).slots

/-! ## Incident records -/

/-- An incident record within its bounds (R43, R44, R45). -/
structure Incident.bounded (i : Incident) : Prop where
  number : 1 ≤ i.number ∧ i.number ≤ 255
  repeats : i.repeats ≤ 255
  area : i.area.length ≤ 64
  boundary : i.boundary.length ≤ 48
  touched : i.touched.length ≤ 64

/-- The Incident Table's records: of the eight numbers, within their bounds, no two incidents of one NUMBER; the
workspace of a plan within the bounds of what it may commit (R43, R45, R86). -/
structure Part.incidentsKept (p : Part) : Prop where
  within : ∀ r i, p.incident? r = some i → r < 8 ∧ i.bounded
  distinct : ∀ r r' i i', p.incident? r = some i → p.incident? r' = some i' → i.number = i'.number → r = r'
  next : 1 ≤ p.inc.next ∧ p.inc.next ≤ 255
  workspace : ∀ w, p.plan.plan = some w → w.area.length ≤ 64 ∧ w.boundary.length ≤ 48

/-! ## Station entries -/

/-- The Station Table's entries: of the 512 numbers, and no two in-use entries of one address (R141, R142). -/
structure Part.stationsKept (p : Part) : Prop where
  within : ∀ n e, Table.look p.stations.entries n = some e → n < 512
  distinct : ∀ n n' e e', Table.look p.stations.entries n = some e → Table.look p.stations.entries n' = some e' →
    e.address = e'.address → n = n'

/-! ## Hold counts -/

/-- The number of in-use records whose counted lists hold a valve. -/
def Part.holders (p : Part) (v : Nat) : Nat := (p.inc.records.filter fun e => e.2.holds v).length

/-- HOLD_COUNT of every loaded valve is the number of its holders (R46). -/
def Part.holdLaw (p : Part) : Prop := ∀ v x, p.valve? v = some x → x.holdCount = p.holders v

end Sys2Proof.Machine
end

