-- ==== Sys2Proof/WellFormed.lean ====
section
/-! DEFINITION. Which terms of `Instr` are commands of the part: the identifiers and list lengths that the
types do not already bound. -/

namespace Sys2Proof

/-- Checks by command. The ids of timer events name a record of their table (Introduction, Identifiers); the
list operands have the lengths of the order layouts of 10.5. -/
def Instr.wellFormed : Instr → Bool
  | .powerOn _ => true
  | .frameReceived _ _ => true
  | .frameTransmitEnd _ => true
  | .agingExpiry => true
  | .freshnessExpiry sensor => decide (sensor ≤ 511)
  | .travelTimerExpiry valve => decide (valve ≤ 4095)
  | .queryTimerExpiry valve => decide (valve ≤ 4095)
  | .pollExpiry valve => decide (valve ≤ 4095)
  | .dwellEnd valve => decide (valve ≤ 4095)
  | .verifyWindowExpiry record => decide (record ≤ 7)
  | .timeWrap => true
  | .areaSearchExamine => true
  | .supplyWalkReach => true
  | .planComplete => true
  | .loadSegment _ _ _ _ _ _ _ => true
  | .loadValve _ _ _ _ _ _ _ _ _ _ _ _ _ _ => true
  | .loadMaterialClass _ _ _ _ => true
  | .loadValveClass _ _ _ curve profile _ _ _ _ => decide (curve.length = 11 ∧ profile.length = 8)
  | .loadSensor _ _ _ _ _ _ _ _ _ _ _ => true
  | .loadZone _ _ _ _ _ _ _ _ _ => true
  | .loadStation _ _ _ _ _ => true
  | .clearSegment _ _ => true
  | .clearValve _ _ => true
  | .clearMaterialClass _ _ => true
  | .clearValveClass _ _ => true
  | .clearSensor _ _ => true
  | .clearZone _ _ => true
  | .clearStation _ _ => true
  | .readEntry _ _ _ => true
  | .setMode _ _ => true
  | .zoneMode _ _ _ => true
  | .suspendAll _ => true
  | .resumeAll _ => true
  | .clearLatch _ _ => true
  | .setMaps _ classMap urgencyMap _ => decide (classMap.length = 8 ∧ urgencyMap.length = 4)
  | .setNoticeAddress _ _ => true
  | .setStationMode _ _ _ => true
  | .setTracePolicy _ _ => true
  | .declare _ _ _ => true
  | .confirm _ _ => true
  | .cancel _ _ => true
  | .restore _ _ => true
  | .resume _ _ => true
  | .widen _ _ _ ids => decide (2 ≤ ids.length ∧ ids.length ≤ 8 ∧ ids.length % 2 = 0)
  | .crewReport _ _ _ => true
  | .valveState _ _ _ => true
  | .readTrace _ _ => true
  | .readStatus _ => true
  | .readIncident _ _ => true
  | .clearCounters _ => true
  | .restart _ => true
  | .badOrder _ => true

end Sys2Proof
end

