-- ==== Sys2Proof/Certificates/Slice0/Obligations.lean ====
section
/-! DEFINITION. The statements for the provers, one `Obligations.<Name>` each, family by family. `s.takes i m e a` says
that the order `i`, taken in `s`, answers a next state whose part is `e` but for the reply with the answer `a`;
`e.quiet` and `e.still` say of an explicit effect `e` that nothing else stands ready after it. -/

open Sys2Proof Sys2Proof.Machine

/-! ## The machine -/

/-- The step with a command at the front of the queue is that command's effect on the state with the queue's rest. -/
def Obligations.StepTakesFrontCommand : Prop :=
  ∀ (c : Instr) (s : State), Sys2Proof.Machine.step { s with pending := c :: s.pending } = exec c s

/-- MODEL CHOICE (log entries 2 and 5): with no command waiting, the oldest handed-over order comes to wait; where there
is none and no timer is due at the next tenth of a second, that tenth passes and nothing else changes. -/
def Obligations.IdleStep : Prop :=
  ∀ s : State, s.pending = [] →
    (∀ i l, s.part.mgmt.handed = i :: l → Sys2Proof.Machine.step s = .next { s with pending := [i] }) ∧
    (s.part.mgmt.handed = [] →
      s.part.now + 1 < s.part.trace.wrapDue →
      s.part.now + 1 < s.part.stations.agingDue →
      (∀ e ∈ s.part.watch.sensors, ∀ d, e.2.freshDue = some d → s.part.now + 1 < d) →
      (∀ e ∈ s.part.seq.contexts, ∀ d, (e.2.travelDue = some d ∨ e.2.queryDue = some d ∨ e.2.pollDue = some d ∨
        e.2.dwellDue = some d) → s.part.now + 1 < d) →
      (∀ e ∈ s.part.ver, s.part.now + 1 < e.2.due) →
      Sys2Proof.Machine.step s = .next { s with part := { s.part with now := s.part.now + 1 } })

/-- Every command completes, whatever the state: the manual names nothing that stops the part. The queue is the step's. -/
def Obligations.EveryCommandCompletes : Prop :=
  ∀ (i : Instr) (s : State), ∃ t, exec i s = .next t ∧ t.pending = s.pending

/-- POWER_ON puts every block at its power-on value, with the own address 65,280 plus the strap value; no zone is listed,
and every zone then reads as R29's table gives it. -/
def Obligations.PowerOnSetsEveryField : Prop :=
  ∀ (strap : BitVec 4) (s : State),
    let idle : LineState := { queues := ⟨[], [], [], []⟩, sending := none, received := 0, crcDrops := 0, queueDrops := 0 }
    exec (.powerOn strap) s = .next
      { pending := s.pending
        part :=
          { now := 0
            trunk :=
              { lines := ⟨idle, idle, idle, idle, idle⟩, classMap := [.c0, .c0, .c1, .c1, .c2, .c2, .c3, .c3],
                urgencyMap := [4, 5, 6, 7], noticePriority := 6 }
            stations := { entries := [], mode := .learn, interval := 300, agingDue := 3000 }
            net := { segments := [], valves := [], materials := [], vclasses := [], channels := [] }
            watch := { sensors := [], zones := [] }
            inc := { records := [], next := 1 }
            plan := { queue := [], plan := none }
            seq := { contexts := [], waiting := [], crew := [], frames := [], tag := 1 }
            ver := []
            mgmt :=
              { mode := .transparent, ownAddress := 65280 + strap.toNat, noticeAddress := 65535, notices := [],
                handed := [], restartDue := false, fresh := 0 }
            trace := { fifo := [], policy := .stop, wraps := 0, wrapDue := 16777216 }
            counters :=
              { secureDrops := 0, blockedDrops := 0, learnFailures := 0, unknownRejects := 0, latchDiscards := 0,
                staleEchoes := 0, noticesLost := 0 } } } ∧
    ∀ z, (Part.powerOn strap.toNat).zone z =
      { mode := .confirm, suspended := false, counter := 0, threshold := 4, latch := none, slots := 2, margin := 150,
        saturation := .refer, urgency := 0, verifyWindow := 300, drained := 50 }

/-- MODEL CHOICE (log entry 1): the machine after reset is the part after POWER_ON with strap value 0. -/
def Obligations.ResetIsPowerOn : Prop :=
  State.reset.pending = [] ∧ ∀ s : State, exec (.powerOn 0#4) s = .next { s with part := State.reset.part }

/-! ## Frames and orders on the line -/

/-- A sealed frame of at most 16 items and one of the four kinds is read back as itself. -/
def Obligations.FramesReadBack : Prop :=
  ∀ (f : Frame) (k : FrameKind), f.items.length ≤ 16 → f.kind = some k →
    readFrame f.sealed.bytes = some (f.sealed, k)

/-- A frame of which one check fails is not read: a CRC that is not the one of its body, or a kind that is none of the
four; and a byte string of another length than its item count gives. -/
def Obligations.UnfitFramesAreRefused : Prop :=
  (∀ f : Frame, f.items.length ≤ 16 → f.crc ≠ crc16 f.body → readFrame f.bytes = none) ∧
  (∀ f : Frame, f.items.length ≤ 16 → f.kind = none → readFrame f.bytes = none) ∧
  (∀ bs : List Byte, ∀ f k, readFrame bs = some (f, k) →
    bs.length = 9 + 4 * f.items.length ∧ f.items.length ≤ 16 ∧ f.crc = crc16 f.body ∧ f.kind = some k ∧ f.bytes = bs)

/-- The management frame of a well-formed order is read back, through bytes and CRC, as that order. -/
def Obligations.OrdersReadBack : Prop :=
  ∀ (i : Instr) (m : Mgmt) (items : List Item) (dst : Word) (priority : Nat),
    i.wellFormed = true → i.order = some (m, items) →
    let f := Frame.sealed
      { dst := dst, src := m.source, ctl := controlByte .manage priority, tag := m.tag, items := items, crc := 0#16 }
    readFrame f.bytes = some (f, .manage) ∧ f.order = i

/-! ## Invariants -/

/-- Every record set in canonical form, every store within its bound, the slots, the incident records and the station
entries within their laws. -/
def Obligations.ResetMeetsInvariants : Prop :=
  let p := State.reset.part
  p.canonical ∧ p.bounded ∧ p.slotsKept ∧ p.incidentsKept ∧ p.stationsKept ∧ p.holdLaw

/-- Every step keeps them, from any state that meets them. -/
def Obligations.StepKeepsInvariants : Prop :=
  ∀ s t : State, Sys2Proof.Machine.step s = .next t →
    s.part.canonical ∧ s.part.bounded ∧ s.part.slotsKept ∧ s.part.incidentsKept ∧ s.part.stationsKept →
    t.part.canonical ∧ t.part.bounded ∧ t.part.slotsKept ∧ t.part.incidentsKept ∧ t.part.stationsKept

/-- HOLD_COUNT of every loaded valve stays the number of the records whose counted lists hold it. The premise on
LOAD_VALVE rules out the one case in which R7 and R46 disagree (log entry 38). -/
def Obligations.StepKeepsHoldCounts : Prop :=
  ∀ s t : State, Sys2Proof.Machine.step s = .next t →
    (∀ m v a b kd no st ch pe ma vc op ve di,
      s.pending.head? = some (.loadValve m v a b kd no st ch pe ma vc op ve di) →
      s.part.valve? v.toNat = none → s.part.holders v.toNat = 0) →
    s.part.canonical → s.part.holdLaw → t.part.holdLaw

/-- No command but the configuring ones changes what an order loads or sets, the CONFIGURED entries of the Station Table
with ADDRESS, SECURE, PIN_LINE and BLOCKED among it (R141, R150): reports, timers, planning, closures, RESTART and the
reading orders leave the whole configuration. -/
def Obligations.OnlyOrdersConfigure : Prop :=
  ∀ s t : State, Sys2Proof.Machine.step s = .next t →
    (∀ i ∈ s.pending.head?, i.configures = false) → s.part.canonical → t.part.configuredAs s.part

/-- A TRANSPARENT part stays TRANSPARENT and takes no tag for a MOVE, but for POWER_ON and SET_MODE. -/
def Obligations.TransparentTakesNoTag : Prop :=
  ∀ s t : State, Sys2Proof.Machine.step s = .next t →
    (∀ n, s.pending.head? ≠ some (.powerOn n)) → (∀ m w, s.pending.head? ≠ some (.setMode m w)) →
    s.part.mgmt.mode = .transparent → t.part.mgmt.mode = .transparent ∧ t.part.seq.tag = s.part.seq.tag

/-- In a TRANSPARENT part no calculation point proceeds and no entry is eligible: nothing stands ready. -/
def Obligations.TransparentStandsStill : Prop :=
  ∀ p : Part, p.mgmt.mode = .transparent → p.atRest

/-- A record set reads back what was written, and frees what was freed; the canonical form is kept. -/
def Obligations.RecordSetsReadBack : Prop :=
  ∀ (α : Type) (t : Table α) (k j : Nat) (a : α),
    (Table.put t k a).look j = (if j = k then some a else t.look j) ∧
    (Table.remove t k).look j = (if j = k then none else t.look j) ∧
    (Table.wf t = true → Table.wf (Table.put t k a) = true ∧ Table.wf (Table.remove t k) = true) 

/-- A zone record reads back what was written, the power-on record too. -/
def Obligations.ZonesReadBack : Prop :=
  ∀ (p : Part) (z k : Nat) (x : Zone), (p.putZone z x).zone k = if k = z then x else p.zone k

/-! ## Segments, classes and valves (chapter 1) -/

/-- R4: a LOAD of a material class. -/
def Obligations.MaterialClassLoad : Prop :=
  ∀ (m : Mgmt) (cls speed rating : Word) (s : State),
    let i : Instr := .loadMaterialClass m cls speed rating
    let p := s.part.dropHanded i
    p.quiet →
    (7 < cls.toNat → s.takes i m p (.bare .badArgument)) ∧
    (cls.toNat ≤ 7 →
      s.takes i m (p.putMaterial cls.toNat ⟨max 200 (min speed.toNat 1500), max 600 (min rating.toNat 2500)⟩)
        (.bare (if 200 ≤ speed.toNat ∧ speed.toNat ≤ 1500 ∧ 600 ≤ rating.toNat ∧ rating.toNat ≤ 2500 then .ok
          else .okClamped)))

/-- R5: a LOAD of a valve class. `c` and `b` are the curve and the breakpoints the order carries. -/
def Obligations.ValveClassLoad : Prop :=
  ∀ (m : Mgmt) (cls count : Word) (curve : List Word) (profile : List Byte) (t10 allowance dwell poll : Word) (s : State),
    let i : Instr := .loadValveClass m cls count curve profile t10 allowance dwell poll
    let p := s.part.dropHanded i
    let c := curve.map BitVec.toNat
    let b := (profile.take count.toNat).map BitVec.toNat
    let good := cls.toNat ≤ 15 ∧
      (c.length = 11 ∧ c.head? = some 0 ∧ c.getLast? = some 1000 ∧ c.Pairwise (· ≤ ·)) ∧
      (2 ≤ count.toNat ∧ count.toNat ≤ 8 ∧ (∀ n ∈ b, n ≤ 100) ∧ b.Pairwise (· > ·) ∧ b.getLast? = some 0)
    let x : ValveClass :=
      { curve := c, profile := b, t10 := max 1 (min t10.toNat 120), allowance := max 5 (min allowance.toNat 300),
        dwell := max 1 (min dwell.toNat 600), poll := if poll.toNat = 0 then 0 else max 5 (min poll.toNat 120) }
    i.wellFormed = true → p.quiet →
    (¬good → s.takes i m p (.bare .badArgument)) ∧
    (good → s.takes i m (p.putVClass cls.toNat x)
      (.bare (if x.t10 = t10.toNat ∧ x.allowance = allowance.toNat ∧ x.dwell = dwell.toNat ∧ x.poll = poll.toNat then .ok
        else .okClamped)))

/-- R4, R5: the CLEAR of a class, of either sort. -/
def Obligations.ClassClears : Prop :=
  (∀ (m : Mgmt) (cls : Word) (s : State),
    let i : Instr := .clearMaterialClass m cls
    let p := s.part.dropHanded i
    let named := ∃ e ∈ p.net.valves, e.2.material = cls.toNat
    p.quiet →
    (7 < cls.toNat → s.takes i m p (.bare .badArgument)) ∧
    (cls.toNat ≤ 7 → p.material? cls.toNat = none → s.takes i m p (.bare .noSuch)) ∧
    (cls.toNat ≤ 7 → p.material? cls.toNat ≠ none → named → s.takes i m p (.bare .referenced)) ∧
    (cls.toNat ≤ 7 → p.material? cls.toNat ≠ none → ¬named → s.takes i m (p.removeMaterial cls.toNat) (.bare .ok))) ∧
  (∀ (m : Mgmt) (cls : Word) (s : State),
    let i : Instr := .clearValveClass m cls
    let p := s.part.dropHanded i
    let named := ∃ e ∈ p.net.valves, e.2.vclass = cls.toNat
    p.quiet →
    (15 < cls.toNat → s.takes i m p (.bare .badArgument)) ∧
    (cls.toNat ≤ 15 → p.vclass? cls.toNat = none → s.takes i m p (.bare .noSuch)) ∧
    (cls.toNat ≤ 15 → p.vclass? cls.toNat ≠ none → named → s.takes i m p (.bare .referenced)) ∧
    (cls.toNat ≤ 15 → p.vclass? cls.toNat ≠ none → ¬named → s.takes i m (p.removeVClass cls.toNat) (.bare .ok)))

/-- R2, R18: a LOAD of a segment. It keeps the valve list of a loaded segment and gives a new one an empty list; its WRITE
disturbance is announced. MODEL CHOICE (log entry 43): where R18 gives both IN_USE and REFERENCED, the answer is IN_USE; the
first load of a free segment changes no ZONE (log entry 51). -/
def Obligations.SegmentLoad : Prop :=
  ∀ (m : Mgmt) (segment zone : Word) (source prot : Byte) (static ref : Word) (s : State),
    let i : Instr := .loadSegment m segment zone source prot static ref
    let p := s.part.dropHanded i
    let g := segment.toNat
    let bad := 2047 < g ∨ 63 < zone.toNat ∨ 1 < source.toNat ∨ 1 < prot.toNat ∨ (ref ≠ 65535#16 ∧ 511 < ref.toNat)
    let used := ∃ e ∈ p.inc.records, g ∈ e.2.area
    let rezoned := ∃ x, p.segment? g = some x ∧ x.zone ≠ zone.toNat
    let holding := ∃ e ∈ p.net.valves, e.2.segA = g ∧ 0 < e.2.holdCount
    let x : Segment :=
      { zone := zone.toNat, source := decide (source = 1#8), prot := decide (prot = 1#8), static := min static.toNat 4095,
        ref := if ref = 65535#16 then none else some ref.toNat
        valves := match p.segment? g with
          | some y => y.valves
          | none => [] }
    let e := (p.putSegment g x).announce ⟨.segment g, true, false, false, false⟩
    (bad → p.quiet → s.takes i m p (.bare .badArgument)) ∧
    (¬bad → p.mgmt.mode = .active ∧ used → p.quiet → s.takes i m p (.bare .inUse)) ∧
    (¬bad → ¬(p.mgmt.mode = .active ∧ used) → rezoned ∧ (used ∨ holding) → p.quiet → s.takes i m p (.bare .referenced)) ∧
    (¬bad → ¬(p.mgmt.mode = .active ∧ used) → ¬(rezoned ∧ (used ∨ holding)) → e.quiet →
      s.takes i m e (.bare (if static.toNat ≤ 4095 then .ok else .okClamped)))

/-- R3, R18: a CLEAR of a segment. -/
def Obligations.SegmentClear : Prop :=
  ∀ (m : Mgmt) (segment : Word) (s : State),
    let i : Instr := .clearSegment m segment
    let p := s.part.dropHanded i
    let g := segment.toNat
    let used := ∃ e ∈ p.inc.records, g ∈ e.2.area
    let metered := ∃ e ∈ p.watch.sensors, e.2.kind = .pressure ∧ e.2.place = g
    let e := (p.removeSegment g).announce ⟨.segment g, true, false, false, false⟩
    (2047 < g → p.quiet → s.takes i m p (.bare .badArgument)) ∧
    (g ≤ 2047 → p.segment? g = none → p.quiet → s.takes i m p (.bare .noSuch)) ∧
    (∀ x, g ≤ 2047 → p.segment? g = some x →
      (used → p.quiet → s.takes i m p (.bare (if p.mgmt.mode = .active then .inUse else .referenced))) ∧
      (¬used → (x.valves ≠ [] ∨ metered) → p.quiet → s.takes i m p (.bare .referenced)) ∧
      (¬used → x.valves = [] → ¬metered → e.quiet → s.takes i m e (.bare .ok)))

/-- R8, R18: a LOAD of a valve, test by test; the writes and the disturbances of a taken load are those of
`ValveLoadWrites`. MODEL CHOICE (log entry 51): the first load of a free valve changes neither SEGMENT_A, SEGMENT_B nor
KIND, so only the segments' lists can make it REFERENCED. -/
def Obligations.ValveLoad : Prop :=
  ∀ (m : Mgmt) (valve segA segB : Word) (kind normal : Byte) (station : Word)
    (channel permitted material vclass operability : Byte) (velocity diameter : Word) (s : State),
    let i : Instr := .loadValve m valve segA segB kind normal station channel permitted material vclass operability velocity
      diameter
    let p := s.part.dropHanded i
    let v := valve.toNat
    let actuated := kind = 0#8
    let bad := 4095 < v ∨ 2047 < segA.toNat ∨ (segB ≠ 65535#16 ∧ (2047 < segB.toNat ∨ segB = segA)) ∨ 1 < kind.toNat ∨
      1 < normal.toNat ∨ 1 < permitted.toNat ∨ operability.toNat ∉ [0, 1, 2, 4] ∨ 7 < material.toNat ∨ 15 < vclass.toNat ∨
      (actuated ∧ (station = 0#16 ∨ station = 65535#16 ∨ 31 < channel.toNat))
    let free := p.segment? segA.toNat = none ∨ (segB ≠ 65535#16 ∧ p.segment? segB.toNat = none) ∨
      p.material? material.toNat = none ∨ p.vclass? vclass.toNat = none
    let old := p.valve? v
    let x : Valve :=
      { segA := segA.toNat, segB := if segB = 65535#16 then none else some segB.toNat,
        kind := if actuated then .actuated else .manual,
        station := if actuated then station.toNat else 0, channel := if actuated then channel.toNat else 0,
        material := material.toNat, vclass := vclass.toNat, velocity := min velocity.toNat 3000,
        diameter := max 50 (min diameter.toNat 1600), normal := if normal = 0#8 then .opened else .closed,
        overridePermitted := decide (permitted = 1#8)
        initial := if operability = 0#8 then .operable else if operability = 1#8 then .seized
          else if operability = 2#8 then .passing else .outOfService
        operability := if operability = 0#8 then .operable else if operability = 1#8 then .seized
          else if operability = 2#8 then .passing else .outOfService
        opening := old.bind Valve.opening, positionTime := old.bind Valve.positionTime,
        holdCount := (old.map Valve.holdCount).getD 0, moveTag := old.bind Valve.moveTag }
    let changed := listLosses old x ++ listGains old x
    let used := ∃ e ∈ p.inc.records, (∃ b ∈ e.2.boundary, b.valve = v) ∨ ∃ t ∈ e.2.touched, t.valve = v
    let lists := ∃ e ∈ p.inc.records, ∃ g ∈ changed, g ∈ e.2.area
    let rebuilt := ∃ o, old = some o ∧ (o.segA ≠ x.segA ∨ o.segB ≠ x.segB ∨ o.kind ≠ x.kind)
    let inUse := p.mgmt.mode = .active ∧ (used ∨ lists)
    let referenced := p.mgmt.mode = .transparent ∧ ((used ∧ rebuilt) ∨ lists)
    let taken := actuated ∧ ∃ t, p.channel? station.toNat channel.toNat = some t ∧ t ≠ .valve v
    let full := ∃ g ∈ listGains old x, ∃ y, p.segment? g = some y ∧ 8 ≤ y.valves.length
    let q := p.writeValve v old x
    let e := q.announceAll (loadDisturbs p q v old x)
    (bad → p.quiet → s.takes i m p (.bare .badArgument)) ∧
    (¬bad → free → p.quiet → s.takes i m p (.bare .noSuch)) ∧
    (¬bad → ¬free → inUse → p.quiet → s.takes i m p (.bare .inUse)) ∧
    (¬bad → ¬free → referenced → p.quiet → s.takes i m p (.bare .referenced)) ∧
    (¬bad → ¬free → ¬inUse → ¬referenced → taken → p.quiet → s.takes i m p (.bare .duplicate)) ∧
    (¬bad → ¬free → ¬inUse → ¬referenced → ¬taken → full → p.quiet → s.takes i m p (.bare .listFull)) ∧
    (¬bad → ¬free → ¬inUse → ¬referenced → ¬taken → ¬full → e.quiet →
      s.takes i m e (.bare (if velocity.toNat ≤ 3000 ∧ 50 ≤ diameter.toNat ∧ diameter.toNat ≤ 1600 then .ok else .okClamped)))

/-- R9, R12, R13, R18: a CLEAR of a valve. MODEL CHOICE (log entry 50): a HOLD_COUNT above 0 and a MOVE_TAG keep a valve by
the third test where no incident's list holds it any more, as R9's last sentence says and R18's words alone do not. -/
def Obligations.ValveClear : Prop :=
  ∀ (m : Mgmt) (valve : Word) (s : State),
    let i : Instr := .clearValve m valve
    let p := s.part.dropHanded i
    let v := valve.toNat
    (4095 < v → p.quiet → s.takes i m p (.bare .badArgument)) ∧
    (v ≤ 4095 → p.valve? v = none → p.quiet → s.takes i m p (.bare .noSuch)) ∧
    (∀ x, v ≤ 4095 → p.valve? v = some x →
      let segments := x.segA :: x.segB.toList
      let used := ∃ e ∈ p.inc.records, (∃ b ∈ e.2.boundary, b.valve = v) ∨ (∃ t ∈ e.2.touched, t.valve = v) ∨
        ∃ g ∈ segments, g ∈ e.2.area
      let kept := used ∨ 0 < x.holdCount ∨ x.moveTag ≠ none
      let l := segments.foldl (Part.unlist v) p
      let e := ((if x.kind = .actuated then l.removeChannel x.station x.channel else l).removeValve v).announceAll
        (⟨.valve v, true, false, false, false⟩ :: segments.map fun g => ⟨.segment g, true, false, false, false⟩)
      (kept → p.quiet → s.takes i m p (.bare (if p.mgmt.mode = .active then .inUse else .referenced))) ∧
      (¬kept → e.quiet → s.takes i m e (.bare .ok)))

/-- R7, R12, R13, R10, R19: the writes of a taken valve load. The valve's record is the load's; its id leaves the list of each
segment it no longer names and joins the end of each it newly names, and other lists stand; the index moves its pair; an
OPERABILITY trace entry is made of a changed value, and nothing else is changed. The disturbances are one of the valve, with
the causes WRITE, OPERABILITY and CLOSED_STATUS, and one of each segment whose list lost or gained it. MODEL CHOICE (log entry
44): the first load of a free valve changes no OPERABILITY, so it is not traced and carries the cause WRITE alone. -/
def Obligations.ValveLoadWrites : Prop :=
  ∀ (p : Part) (v : Nat) (x : Valve),
    let old := p.valve? v
    let q := p.writeValve v old x
    let names := fun (y : Valve) => y.segA :: y.segB.toList
    let before := (old.map names).getD []
    p.canonical →
    (∀ o, old = some o → o.segB ≠ some o.segA) → x.segB ≠ some x.segA →
    q.valve? v = some x ∧
    (∀ w, w ≠ v → q.valve? w = p.valve? w) ∧
    (∀ g, q.segment? g = (p.segment? g).map fun y =>
      { y with valves :=
          if g ∈ listLosses old x then y.valves.filter (fun w => w ≠ v)
          else if g ∈ listGains old x then y.valves ++ [v] else y.valves }) ∧
    (∀ k, Table.look q.net.channels k =
      if x.kind = .actuated ∧ k = chanKey x.station x.channel then some (.valve v)
      else if ∃ o ∈ old, o.kind = .actuated ∧ k = chanKey o.station o.channel then none
      else Table.look p.net.channels k) ∧
    q.trace = (if ∃ o ∈ old, o.operability ≠ x.operability then
        (p.record .operability none (some (.valve v)) (some x.operability.num)).trace else p.trace) ∧
    q = { p with net := { p.net with segments := q.net.segments, valves := q.net.valves, channels := q.net.channels },
                 trace := q.trace } ∧
    listLosses old x = before.filter (fun g => decide (g ∉ names x)) ∧
    listGains old x = (names x).filter (fun g => decide (g ∉ before)) ∧
    ∃ d : Disturb,
      loadDisturbs p q v old x =
        d :: (listLosses old x ++ listGains old x).map (fun g => ⟨.segment g, true, false, false, false⟩) ∧
      d.subject = .valve v ∧ d.write = true ∧ (d.oper = true ↔ ∃ o ∈ old, o.operability ≠ x.operability) ∧
      (d.closed = true ↔ ∃ o ∈ old, o.countsAsClosed ≠ x.countsAsClosed) ∧ d.station = false

/-- R10, R11: a VALVE_STATE order. A value that differs from the old is written with its trace entry and announced with
cause OPERABILITY; the value the valve has is neither traced nor announced. -/
def Obligations.ValveState : Prop :=
  ∀ (m : Mgmt) (valve operability : Word) (s : State),
    let i : Instr := .valveState m valve operability
    let p := s.part.dropHanded i
    let v := valve.toNat
    let bad := 4095 < v ∨ operability.toNat ∉ [0, 1, 4]
    let o : Operability := if operability = 0#16 then .operable else if operability = 1#16 then .seized else .outOfService
    (bad → p.quiet → s.takes i m p (.bare .badArgument)) ∧
    (¬bad → p.valve? v = none → p.quiet → s.takes i m p (.bare .noSuch)) ∧
    (∀ x, ¬bad → p.valve? v = some x →
      let w := (p.putValve v { x with operability := o }).record .operability none (some (.valve v)) (some o.num)
      let e := w.announce ⟨.valve v, false, true, false, false⟩
      (x.moveTag ≠ none → p.quiet → s.takes i m p (.bare .busy)) ∧
      (x.moveTag = none → x.operability = o → p.quiet → s.takes i m p (.bare .ok)) ∧
      (x.moveTag = none → x.operability ≠ o → e.quiet → s.takes i m e (.bare .ok)))

/-- R15, R123: a CREW_REPORT. `c` announces the change of the counts-as-closed status; `shut`, `back` and `lost` are what a
CLOSED, a returning and a SEIZED report do to one request of the valve, while it stands. MODEL CHOICE: the requests are
taken in the order they were raised, on CLOSED the close requests before the restore requests (log entry 49), the breach
test of a position follows them (log entry 15), and the disturbance follows all of these (log entry 11); a SEIZED report
ends a restore request as left partial with no LEFT_PARTIAL trace entry (log entry 22). -/
def Obligations.CrewReport : Prop :=
  ∀ (m : Mgmt) (valve result : Word) (s : State),
    let i : Instr := .crewReport m valve result
    let p := s.part.dropHanded i
    let v := valve.toNat
    let bad := 4095 < v ∨ 2 < result.toNat
    (bad → p.quiet → s.takes i m p (.bare .badArgument)) ∧
    (¬bad → p.valve? v = none → p.quiet → s.takes i m p (.bare .noSuch)) ∧
    (∀ x, ¬bad → p.valve? v = some x →
      let w := fun o => p.putValve v { x with opening := some o, positionTime := some p.now }
      let c := fun (o : Nat) (q : Part) =>
        if x.countsAsClosed = decide (o = 0) then q else q.announce ⟨.valve v, false, false, true, false⟩
      let asked := p.seq.crew.filter fun k => decide (k.valve = v)
      let drop := fun (q : Part) (k : CrewReq) =>
        { q with seq := { q.seq with crew := q.seq.crew.filter fun j => decide (j ≠ k) } }
      let target := fun (q : Part) (k : CrewReq) =>
        match (q.incident? k.record).bind fun j => j.touched.find? fun t => decide (t.valve = v), q.valve? v with
        | some t, some y => t.prior.getD (if y.normal = .closed then 0 else 100)
        | _, _ => if k.dir = .close then 0 else 100
      let shut := fun (q : Part) (k : CrewReq) =>
        if k ∈ q.seq.crew ∧ k.restore = false then (drop q k).testVerify k.record else q
      let back := fun (n : Nat) (q : Part) (k : CrewReq) =>
        if k ∈ q.seq.crew ∧ k.restore = true ∧ target q k = n then (drop q k).endTouched k.record v false else q
      let lost := fun (q : Part) (k : CrewReq) =>
        if k ∈ q.seq.crew then
          if k.restore = true then (drop q k).endTouched k.record v true
          else
            let q : Part := (drop q k).record .stepFailed ((q.incident? k.record).map Incident.number) (some (.valve v)) (some 0)
            if q.stateOf k.record = some .closing then q.planChanged k.record (.valve v) else q
        else q
      let unasked := ∀ k ∈ p.seq.crew, k.valve ≠ v
      let unrelied := ∀ e ∈ p.inc.records, ∀ b ∈ e.2.boundary, b.valve ≠ v
      (x.kind = .actuated → p.quiet → s.takes i m p (.bare .badArgument)) ∧
      (x.kind = .manual → unasked → result = 0#16 → (c 0 (w 0)).quiet → s.takes i m (c 0 (w 0)) (.bare .ok)) ∧
      (x.kind = .manual → unasked → unrelied → result = 1#16 → (c 100 (w 100)).quiet →
        s.takes i m (c 100 (w 100)) (.bare .ok)) ∧
      (x.kind = .manual → unasked → result = 2#16 → x.operability = .seized → p.quiet → s.takes i m p (.bare .ok)) ∧
      (x.kind = .manual → unasked → result = 2#16 → x.operability ≠ .seized →
        let e := ((p.putValve v { x with operability := .seized }).record .operability none (some (.valve v))
          (some 1)).announce ⟨.valve v, false, true, false, false⟩
        e.quiet → s.takes i m e (.bare .ok)) ∧
      (x.kind = .manual → result = 0#16 →
        let e := c 0 (asked.foldl (back 0) (asked.foldl shut (w 0)))
        e.quiet → s.takes i m e (.bare .ok)) ∧
      (x.kind = .manual → result = 1#16 →
        let e := c 100 ((asked.foldl (back 100) (w 100)).testBreach v x 100)
        e.quiet → s.takes i m e (.bare .ok)) ∧
      (x.kind = .manual → result = 2#16 → x.operability = .seized →
        let e := asked.foldl lost p
        e.quiet → s.takes i m e (.bare .ok)) ∧
      (x.kind = .manual → result = 2#16 → x.operability ≠ .seized →
        let e := (asked.foldl lost ((p.putValve v { x with operability := .seized }).record .operability none (some (.valve v))
          (some 1))).announce ⟨.valve v, false, true, false, false⟩
        e.quiet → s.takes i m e (.bare .ok)))

/-! ## Sensors and zones (chapter 2) -/

/-- R22, R23, R24: a LOAD of a sensor. `x` is the record of a first load, `y` the record a load of a loaded sensor leaves.
MODEL CHOICE (log entry 33): a reload makes a FRESH sensor STALE where the new expiry is earlier than the part's time, and
leaves it FRESH where the two are equal. -/
def Obligations.SensorLoad : Prop :=
  ∀ (m : Mgmt) (sensor station : Word) (channel kind : Byte) (place low high : Word) (persist : Byte) (drop window : Word)
    (s : State),
    let i : Instr := .loadSensor m sensor station channel kind place low high persist drop window
    let p := s.part.dropHanded i
    let k := sensor.toNat
    let pressure := kind = 0#8
    let lo := if pressure then min low.toNat 4095 else low.toNat
    let hi := if pressure then min high.toNat 4095 else high.toNat
    let n := max 1 (min persist.toNat 15)
    let t := max 5 (min window.toNat 3600)
    let x : Sensor :=
      { station := station.toNat, channel := channel.toNat, kind := if pressure then .pressure else .flow,
        place := place.toNat, bandLow := lo, bandHigh := hi, persist := n,
        drop := if pressure then min drop.toNat 4095 else 0, window := t, lastValue := none, lastTime := none,
        status := .never, countdown := n, side := .none, excursion := .inBand, freshDue := none }
    let bad := 511 < k ∨ 1 < kind.toNat ∨ station = 0#16 ∨ station = 65535#16 ∨ 31 < channel.toNat ∨
      (pressure ∧ 2047 < place.toNat) ∨ (¬pressure ∧ 63 < place.toNat) ∨ hi < lo
    let free := pressure ∧ p.segment? place.toNat = none
    let taken := ∃ c, p.channel? station.toNat channel.toNat = some c ∧ c ≠ .sensor k
    let full := ¬pressure ∧
      4 ≤ (p.watch.sensors.filter fun e => decide (e.2.kind = .flow ∧ e.2.place = place.toNat ∧ e.1 ≠ k)).length
    let clamped := lo ≠ low.toNat ∨ hi ≠ high.toNat ∨ n ≠ persist.toNat ∨ (pressure ∧ 4095 < drop.toNat) ∨ t ≠ window.toNat
    let y := fun (o : Sensor) =>
      if o.kind ≠ x.kind ∨ o.place ≠ x.place ∨ o.station ≠ x.station ∨ o.channel ≠ x.channel then x
      else
        let b := { x with lastValue := o.lastValue, lastTime := o.lastTime, status := o.status }
        let c := if o.bandLow ≠ lo ∨ o.bandHigh ≠ hi ∨ o.persist ≠ n then b
          else { b with countdown := o.countdown, side := o.side, excursion := o.excursion }
        if o.status ≠ .fresh then c
        else if o.lastTime.getD 0 + 10 * t < p.now then
          { c with status := .stale, countdown := n, side := .none, freshDue := none }
        else { c with freshDue := some (o.lastTime.getD 0 + 10 * t) }
    let e := (match p.sensor? k with
      | some o => (p.removeChannel o.station o.channel).putSensor k (y o)
      | none => p.putSensor k x).putChannel station.toNat channel.toNat (.sensor k)
    (bad → p.quiet → s.takes i m p (.bare .badArgument)) ∧
    (¬bad → free → p.quiet → s.takes i m p (.bare .noSuch)) ∧
    (¬bad → ¬free → taken → p.quiet → s.takes i m p (.bare .duplicate)) ∧
    (¬bad → ¬free → ¬taken → full → p.quiet → s.takes i m p (.bare .listFull)) ∧
    (¬bad → ¬free → ¬taken → ¬full → clamped → e.quiet → s.takes i m e (.bare .okClamped)) ∧
    (¬bad → ¬free → ¬taken → ¬full → ¬clamped → e.quiet → s.takes i m e (.bare .ok))

/-- R25: a CLEAR of a sensor. -/
def Obligations.SensorClear : Prop :=
  ∀ (m : Mgmt) (sensor : Word) (s : State),
    let i : Instr := .clearSensor m sensor
    let p := s.part.dropHanded i
    let k := sensor.toNat
    (511 < k → p.quiet → s.takes i m p (.bare .badArgument)) ∧
    (k ≤ 511 → p.sensor? k = none → p.quiet → s.takes i m p (.bare .noSuch)) ∧
    (∀ x, k ≤ 511 → p.sensor? k = some x →
      let e := (p.removeChannel x.station x.channel).removeSensor k
      e.quiet → s.takes i m e (.bare .ok))

/-- R30: a LOAD and a CLEAR of a zone. -/
def Obligations.ZoneSettings : Prop :=
  (∀ (m : Mgmt) (zone : Word) (threshold slots : Byte) (margin : Word) (saturation urgency : Byte) (window drained : Word)
    (s : State),
    let i : Instr := .loadZone m zone threshold slots margin saturation urgency window drained
    let p := s.part.dropHanded i
    let z := zone.toNat
    let n := max 1 (min threshold.toNat 63)
    let x : Zone :=
      { p.zone z with
        counter := if (p.zone z).threshold = n then (p.zone z).counter else 0
        threshold := n, slots := max 1 (min slots.toNat 4), margin := min margin.toNat 1000,
        saturation := if saturation = 0#8 then .clamp else .refer, urgency := min urgency.toNat 3,
        verifyWindow := max 30 (min window.toNat 3600), drained := min drained.toNat 4095 }
    let bad := 63 < z ∨ 1 < saturation.toNat
    let busy := (p.zone z).slots ≠ x.slots ∧ ∃ e ∈ p.seq.contexts, e.2.zone = z
    let fits := 1 ≤ threshold.toNat ∧ threshold.toNat ≤ 63 ∧ 1 ≤ slots.toNat ∧ slots.toNat ≤ 4 ∧ margin.toNat ≤ 1000 ∧
      urgency.toNat ≤ 3 ∧ 30 ≤ window.toNat ∧ window.toNat ≤ 3600 ∧ drained.toNat ≤ 4095
    (bad → p.quiet → s.takes i m p (.bare .badArgument)) ∧
    (¬bad → busy → p.quiet → s.takes i m p (.bare .busy)) ∧
    (¬bad → ¬busy → fits → (p.putZone z x).quiet → s.takes i m (p.putZone z x) (.bare .ok)) ∧
    (¬bad → ¬busy → ¬fits → (p.putZone z x).quiet → s.takes i m (p.putZone z x) (.bare .okClamped))) ∧
  (∀ (m : Mgmt) (zone : Word) (s : State),
    let i : Instr := .clearZone m zone
    let p := s.part.dropHanded i
    let z := zone.toNat
    let x : Zone :=
      { p.zone z with
        counter := if (p.zone z).threshold = 4 then (p.zone z).counter else 0
        threshold := 4, slots := 2, margin := 150, saturation := .refer, urgency := 0, verifyWindow := 300, drained := 50 }
    let busy := (p.zone z).slots ≠ 2 ∧ ∃ e ∈ p.seq.contexts, e.2.zone = z
    (63 < z → p.quiet → s.takes i m p (.bare .badArgument)) ∧
    (z ≤ 63 → busy → p.quiet → s.takes i m p (.bare .busy)) ∧
    (z ≤ 63 → ¬busy → (p.putZone z x).quiet → s.takes i m (p.putZone z x) (.bare .ok)))

/-- R38: a ZONE_MODE order; one that takes MODE from INHIBIT releases the latched suspect (`SuspectRouting`). -/
def Obligations.ZoneModeOrder : Prop :=
  ∀ (m : Mgmt) (zone mode : Word) (s : State),
    let i : Instr := .zoneMode m zone mode
    let p := s.part.dropHanded i
    let z := zone.toNat
    let bad := 63 < z ∨ 2 < mode.toNat
    let o : ZoneMode := if mode = 0#16 then .auto else if mode = 1#16 then .confirm else .inhibit
    let q := p.putZone z { p.zone z with mode := o }
    let releases := (p.zone z).mode = .inhibit ∧ o ≠ .inhibit
    (bad → p.quiet → s.takes i m p (.bare .badArgument)) ∧
    (¬bad → ¬releases → q.quiet → s.takes i m q (.bare .ok)) ∧
    (¬bad → (p.zone z).latch = none → q.quiet → s.takes i m q (.bare .ok)) ∧
    (∀ x, ¬bad → releases → (p.zone z).latch = some x →
      let e := (q.putZone z { q.zone z with latch := none }).routeSuspect (some z) x
      e.quiet → s.takes i m e (.bare .ok))

/-- R39: SUSPEND_ALL and RESUME_ALL. SUSPENDED is written in all 64 zones, and nothing else is; a RESUME_ALL then releases
the latched suspects of the zones that are not INHIBIT, in ascending zone number. MODEL CHOICE (log entry 52): MODE and
LATCH of a zone are read at its turn. -/
def Obligations.SuspendAndResume : Prop :=
  (∀ (p : Part) (b : Bool),
    (∀ z, (p.suspendZones b).zone z = if z < 64 then { p.zone z with suspended := b } else p.zone z) ∧
    ∃ t, p.suspendZones b = { p with watch := { p.watch with zones := t } }) ∧
  (∀ (m : Mgmt) (s : State),
    let i : Instr := .suspendAll m
    let e := (s.part.dropHanded i).suspendZones true
    e.quiet → s.takes i m e (.bare .ok)) ∧
  (∀ (m : Mgmt) (s : State),
    let i : Instr := .resumeAll m
    let q := (s.part.dropHanded i).suspendZones false
    let release := fun (q : Part) (z : Nat) =>
      match (q.zone z).latch with
      | some x => if (q.zone z).mode = .inhibit then q else (q.putZone z { q.zone z with latch := none }).routeSuspect (some z) x
      | none => q
    let e := (List.range 64).foldl release q
    e.quiet → s.takes i m e (.bare .ok))

/-- R40: a CLEAR_LATCH order. -/
def Obligations.ClearLatch : Prop :=
  ∀ (m : Mgmt) (zone : Word) (s : State),
    let i : Instr := .clearLatch m zone
    let p := s.part.dropHanded i
    let z := zone.toNat
    (63 < z → p.quiet → s.takes i m p (.bare .badArgument)) ∧
    (z ≤ 63 → (p.zone z).latch = none → p.quiet → s.takes i m p (.bare .ok)) ∧
    (∀ x, z ≤ 63 → (p.zone z).latch = some x →
      let e := (p.putZone z { p.zone z with latch := none }).record .latchCleared none (some (.zone z)) (some x.candidate)
      e.quiet → s.takes i m e (.bare .ok))

/-- R35, R36, R37: the routing of a suspect, at its raise (`latch` none) or at its release from a zone's latch. MODEL CHOICE
(log entry 19): a suspect of a free candidate is traced LATCH_LOST and not counted among the latch discards. -/
def Obligations.SuspectRouting : Prop :=
  ∀ (p : Part) (latch : Option Nat) (x : Suspect),
    let kept := fun (g : Segment) =>
      let old := p.zone g.zone
      match old.latch with
      | none => (p.putZone g.zone { old with latch := some x }).record .latched none (some (.zone g.zone)) (some x.candidate)
      | some _ =>
        ({ p with counters :=
            { p.counters with latchDiscards := min 65535 (p.counters.latchDiscards + 1) } }).record .latchLost none
          (some (.zone g.zone)) (some x.candidate)
    let latching := fun (g : Segment) =>
      (p.zone g.zone).mode = .inhibit ∨ (p.zone g.zone).suspended = true ∨ p.mgmt.mode = .transparent
    let full := ∀ r, r < 8 → p.incident? r ≠ none
    let outside := ∀ e ∈ p.inc.records, x.candidate ∉ e.2.area
    p.canonical → p.bounded →
    (p.segment? x.candidate = none →
      p.routeSuspect latch x = p.record .latchLost none (latch.map Subject.zone) (some x.candidate)) ∧
    (∀ g r i, p.segment? x.candidate = some g → p.incident? r = some i → x.candidate ∈ i.area →
      (∀ r' j, p.incident? r' = some j → x.candidate ∈ j.area → r ≤ r') →
      p.routeSuspect latch x =
        (p.putIncident r { i with repeats := if i.repeats < 255 then i.repeats + 1 else i.repeats }).record .absorbed
          (some i.number) (some (.segment x.candidate)) (some x.cause.num)) ∧
    (∀ g, p.segment? x.candidate = some g → outside → latching g → p.routeSuspect latch x = kept g) ∧
    (∀ g, p.segment? x.candidate = some g → outside → ¬latching g → full →
      p.routeSuspect latch x = (kept g).notice .tableFull [⟨BitVec.ofNat 8 (g.zone / 256), BitVec.ofNat 8 g.zone,
        BitVec.ofNat 8 (x.candidate / 256), BitVec.ofNat 8 x.candidate⟩]) ∧
    (∀ g, p.segment? x.candidate = some g → outside → ¬latching g → ¬full →
      p.routeSuspect latch x = p.openIncident .detected x.candidate (p.zone g.zone).urgency)

/-! ## Stations (chapter 8) -/

/-- R20, R149: what a change of a station entry, from the part `before` to the part `p`, tells: a STATION disturbance for
each loaded ACTUATED valve of the station whose usability differs, in ascending id; and the trace entry of a change, when
the station hosts a valve. -/
def Obligations.StationChanges : Prop :=
  ∀ (before p : Part) (address : Nat), p.canonical →
    (∃ vs : List Nat,
      p.stationNotice before address = vs.foldl (fun q v => q.announce ⟨.valve v, false, false, false, true⟩) p ∧
      vs.Pairwise (· < ·) ∧
      ∀ v, v ∈ vs ↔ ∃ x, p.valve? v = some x ∧ x.kind = .actuated ∧ x.station = address ∧ before.usable x ≠ p.usable x) ∧
    (∀ (code : TraceCode) (value : Option Nat),
      let hosted := ∃ e ∈ p.net.valves, e.2.kind = .actuated ∧ e.2.station = address
      (hosted → p.stationTrace code address value = p.record code none (some (.station address)) value) ∧
      (¬hosted → p.stationTrace code address value = p))

/-- R150: a LOAD of a station. `y` is the record written over a held entry, `x` the new one. MODEL CHOICE (log entry 20): a new
entry loaded BLOCKED is told and makes no STATION_BLOCKED trace entry. -/
def Obligations.StationLoad : Prop :=
  ∀ (m : Mgmt) (address : Word) (secure blocked : Byte) (line : Word) (s : State),
    let i : Instr := .loadStation m address secure blocked line
    let p := s.part.dropHanded i
    let a := address.toNat
    let bad := a = 0 ∨ a = 65535 ∨ a = p.mgmt.ownAddress ∨ 1 < secure.toNat ∨ 1 < blocked.toNat ∨
      (line ≠ 65535#16 ∧ 3 < line.toNat) ∨ (secure = 1#8 ∧ line = 65535#16)
    let l : Option Line := if line = 0#16 then some .f0 else if line = 1#16 then some .f1 else if line = 2#16 then some .f2
      else if line = 3#16 then some .f3 else none
    let x : Station :=
      { kind := .configured, address := a, line := l, secure := decide (secure = 1#8),
        pinLine := if secure = 1#8 then l else none, blocked := decide (blocked = 1#8), age := .untouched, heard := none }
    let number := fun (n : Nat) => (⟨.ok, [item (w16 n) 0#16]⟩ : Answer)
    let full := ∀ n, n < 512 → Table.look p.stations.entries n ≠ none
    p.canonical →
    (bad → p.quiet → s.takes i m p (.bare .badArgument)) ∧
    (∀ n e, ¬bad → p.station? a = some (n, e) →
      let y : Station :=
        { e with
          kind := .configured, secure := x.secure, pinLine := if x.secure = true then l else e.pinLine, blocked := x.blocked,
          line := if l = none then e.line else l }
      let q := p.putStation n y
      let b := (q.stationNotice p e.address).stationTrace .stationBlocked e.address (some (if y.blocked = true then 1 else 0))
      (e.blocked = y.blocked → q.quiet → s.takes i m q (number n)) ∧
      (e.blocked ≠ y.blocked → b.quiet → s.takes i m b (number n))) ∧
    (∀ n, ¬bad → p.station? a = none → n < 512 → Table.look p.stations.entries n = none →
      (∀ k, k < n → Table.look p.stations.entries k ≠ none) →
      let e := (p.putStation n x).stationNotice p a
      e.quiet → s.takes i m e (number n)) ∧
    (∀ n o, ¬bad → p.station? a = none → full → Table.look p.stations.entries n = some o → o.kind = .learned →
      (∀ k c, Table.look p.stations.entries k = some c → c.kind = .learned →
        o.heard.getD 0 < c.heard.getD 0 ∨ (o.heard.getD 0 = c.heard.getD 0 ∧ n ≤ k)) →
      let f := ((p.removeStation n).stationNotice p o.address).stationTrace .stationFreed o.address none
      let e := (f.putStation n x).stationNotice f a
      e.quiet → s.takes i m e (number n)) ∧
    (¬bad → p.station? a = none → full → (∀ k c, Table.look p.stations.entries k = some c → c.kind ≠ .learned) → p.quiet →
      s.takes i m p (.bare .tableFull))

/-- R151, R152: a CLEAR of a station, and a SET_STATION_MODE order. -/
def Obligations.StationClearAndMode : Prop :=
  (∀ (m : Mgmt) (address : Word) (s : State),
    let i : Instr := .clearStation m address
    let p := s.part.dropHanded i
    let a := address.toNat
    let bad := a = 0 ∨ a = 65535 ∨ a = p.mgmt.ownAddress
    (bad → p.quiet → s.takes i m p (.bare .badArgument)) ∧
    (¬bad → p.station? a = none → p.quiet → s.takes i m p (.bare .noSuch)) ∧
    (∀ n x, ¬bad → p.station? a = some (n, x) →
      let e := ((p.removeStation n).stationNotice p a).stationTrace .stationFreed a none
      e.quiet → s.takes i m e (.bare .ok))) ∧
  (∀ (m : Mgmt) (mode interval : Word) (s : State),
    let i : Instr := .setStationMode m mode interval
    let p := s.part.dropHanded i
    let n := max 10 (min interval.toNat 3600)
    let e := { p with
      stations :=
        { p.stations with
          mode := if mode = 0#16 then .learn else .rejectUnknown, interval := n, agingDue := p.now + 10 * n } }
    (1 < mode.toNat → p.quiet → s.takes i m p (.bare .badArgument)) ∧
    (mode.toNat ≤ 1 → n = interval.toNat → e.quiet → s.takes i m e (.bare .ok)) ∧
    (mode.toNat ≤ 1 → n ≠ interval.toNat → e.quiet → s.takes i m e (.bare .okClamped)))

/-- R147: the aging timer's expiry takes every in-use entry in ascending number and starts the timer again. MODEL CHOICE (log
entry 3): the command moves the part's time up to the timer's due time where it has not reached it. -/
def Obligations.AgingExpiry : Prop :=
  ∀ s : State,
    let p := s.part.advanceTo s.part.stations.agingDue
    let age := fun (q : Part) (n : Nat) =>
      match Table.look q.stations.entries n with
      | none => q
      | some e =>
        if e.age = .touched then q.putStation n { e with age := .untouched }
        else if e.age = .silent then q
        else if e.kind = .configured then
          ((q.putStation n { e with age := .silent }).stationNotice q e.address).stationTrace .stationSilent e.address none
        else ((q.removeStation n).stationNotice q e.address).stationTrace .stationFreed e.address none
    let q := (p.stations.entries.map Prod.fst).foldl age p
    let e := { q with stations := { q.stations with agingDue := p.now + 10 * q.stations.interval } }
    e.still → exec .agingExpiry s = .next { s with part := e }

/-! ## The Management Unit (chapters 10, 11) -/

/-- R177, R41: a SET_MODE order. A change to ACTIVE is stated with no step context and no order waiting; it offers the free
incident records to the latched zones in ascending number while a record is free. -/
def Obligations.SetMode : Prop :=
  ∀ (m : Mgmt) (mode : Word) (s : State),
    let i : Instr := .setMode m mode
    let p := s.part.dropHanded i
    let write := fun (o : PartMode) (n : Nat) =>
      ({ p with mgmt := { p.mgmt with mode := o } }).record .mode none none (some n)
    let offer := fun (q : Part) (z : Nat) =>
      match (q.zone z).latch with
      | some x =>
        if q.freeRecord ≠ none ∧ (q.zone z).mode ≠ .inhibit ∧ (q.zone z).suspended = false then
          (q.putZone z { q.zone z with latch := none }).routeSuspect (some z) x
        else q
      | none => q
    (1 < mode.toNat → p.quiet → s.takes i m p (.bare .badArgument)) ∧
    (mode.toNat = (if p.mgmt.mode = .active then 1 else 0) → p.quiet → s.takes i m p (.bare .ok)) ∧
    (mode = 0#16 → p.mgmt.mode = .active → p.room 1 → s.takes i m (write .transparent 0) (.bare .ok)) ∧
    (mode = 1#16 → p.mgmt.mode = .transparent → p.net.segments = [] → p.quiet → s.takes i m p (.bare .wrongState)) ∧
    (mode = 1#16 → p.mgmt.mode = .transparent → p.net.segments ≠ [] →
      let e := (List.range 64).foldl offer (write .active 1)
      e.seq.contexts = [] → e.seq.frames = [] → e.quiet → s.takes i m e (.bare .ok))

/-- R176, R184, R187: the orders that write a setting of the Management Unit, of the Trunk Interface and of the Trace
Recorder, and CLEAR_COUNTERS. The reply of a SET_MAPS order takes the new notice priority. -/
def Obligations.Settings : Prop :=
  (∀ (m : Mgmt) (address : Word) (s : State),
    let i : Instr := .setNoticeAddress m address
    let p := s.part.dropHanded i
    let bad := address.toNat = 0 ∨ address.toNat = p.mgmt.ownAddress
    let e := { p with mgmt := { p.mgmt with noticeAddress := address.toNat } }
    (bad → p.quiet → s.takes i m p (.bare .badArgument)) ∧ (¬bad → e.quiet → s.takes i m e (.bare .ok))) ∧
  (∀ (m : Mgmt) (classes priorities : List Byte) (notice : Byte) (s : State),
    let i : Instr := .setMaps m classes priorities notice
    let p := s.part.dropHanded i
    let bad := (∃ b ∈ classes, 3 < b.toNat) ∨ (∃ b ∈ priorities, 7 < b.toNat) ∨ 7 < notice.toNat
    let cls := fun (b : Byte) => if b = 0#8 then Cls.c0 else if b = 1#8 then .c1 else if b = 2#8 then .c2 else .c3
    let e := { p with
      trunk :=
        { p.trunk with
          classMap := classes.map cls, urgencyMap := priorities.map BitVec.toNat, noticePriority := notice.toNat } }
    i.wellFormed = true →
    (bad → p.quiet → s.takes i m p (.bare .badArgument)) ∧ (¬bad → e.quiet → s.takes i m e (.bare .ok))) ∧
  (∀ (m : Mgmt) (policy : Word) (s : State),
    let i : Instr := .setTracePolicy m policy
    let p := s.part.dropHanded i
    let e := { p with trace := { p.trace with policy := if policy = 0#16 then .stop else .overwrite } }
    (1 < policy.toNat → p.quiet → s.takes i m p (.bare .badArgument)) ∧
    (policy.toNat ≤ 1 → e.quiet → s.takes i m e (.bare .ok))) ∧
  (∀ (m : Mgmt) (s : State),
    let i : Instr := .clearCounters m
    let p := s.part.dropHanded i
    let zero := fun (l : LineState) => { l with received := 0, crcDrops := 0, queueDrops := 0 }
    let t := p.trunk.lines
    let e := { p with
      trunk := { p.trunk with lines := ⟨zero t.f0, zero t.f1, zero t.f2, zero t.f3, zero t.control⟩ }
      counters :=
        { secureDrops := 0, blockedDrops := 0, learnFailures := 0, unknownRejects := 0, latchDiscards := 0, staleEchoes := 0,
          noticesLost := 0 } }
    e.quiet → s.takes i m e (.bare .ok))

/-- R172, R173, R175: a management frame of no order is refused BAD_ORDER. On an idle control line its reply goes into
transmission; with the queue of its class full it joins the pending list, and a ninth entry pushes out the oldest. -/
def Obligations.BadOrderReply : Prop :=
  ∀ (m : Mgmt) (s : State),
    let i : Instr := .badOrder m
    let p := s.part.dropHanded i
    let f := Frame.sealed
      { dst := m.source, src := BitVec.ofNat 16 p.mgmt.ownAddress, ctl := controlByte .notice p.trunk.noticePriority,
        tag := m.tag, items := [⟨0#8, 2#8, 1#8, 1#8⟩], crc := 0#16 }
    let l := p.line .control
    let waiting : PendEntry := { code := 0, frames := [f], restart := false }
    (p.quiet → s.takes i m p (.bare .badOrder)) ∧
    (p.still → p.mgmt.notices = [] → l.sending = none → l.queues = ⟨[], [], [], []⟩ →
      exec i s = .next { s with part := p.setLine .control { l with sending := some ⟨f, false⟩ } }) ∧
    (p.still → 16 ≤ (l.queues.get (p.classOf f)).length → p.mgmt.notices.length < 8 →
      exec i s = .next { s with part := p.setNotices (p.mgmt.notices ++ [waiting]) }) ∧
    (∀ e r, p.still → 16 ≤ (l.queues.get (p.classOf f)).length → p.mgmt.notices = e :: r → r.length = 7 →
      e.restart = false → p.counters.noticesLost < 65535 →
      exec i s = .next { s with
        part := (({ p with
          mgmt := { p.mgmt with notices := r }
          counters := { p.counters with noticesLost := p.counters.noticesLost + 1 } }).record .noticeLost none none
            (some e.code)).setNotices (r ++ [waiting]) })

/-- R179, R175: a RESTART order changes nothing when it is taken; its reply carries the mark that starts it. A RESTART whose
reply waits in a full pending list is started when a ninth entry, here the reply of a BAD_ORDER frame, pushes that reply out:
the entry is counted and traced NOTICE_LOST, and what the command makes is then restarted (`RestartTakesEffect`). MODEL CHOICE
(log entry 8): the RESTART takes effect when the command's own effects are complete. -/
def Obligations.RestartOrder : Prop :=
  (∀ (m : Mgmt) (s : State),
    let i : Instr := .restart m
    let p := s.part.dropHanded i
    p.quiet → ∃ t, exec i s = .next t ∧ s.replied p m (.bare .ok) true t) ∧
  (∀ (m : Mgmt) (s : State) (e : PendEntry) (r : List PendEntry),
    let i : Instr := .badOrder m
    let p := s.part.dropHanded i
    let f := Frame.sealed
      { dst := m.source, src := BitVec.ofNat 16 p.mgmt.ownAddress, ctl := controlByte .notice p.trunk.noticePriority,
        tag := m.tag, items := [⟨0#8, 2#8, 1#8, 1#8⟩], crc := 0#16 }
    let waiting : PendEntry := { code := 0, frames := [f], restart := false }
    let pushed := (({ p with
      mgmt := { p.mgmt with notices := r, restartDue := true }
      counters := { p.counters with noticesLost := min 65535 (p.counters.noticesLost + 1) } }).record .noticeLost none none
        (some e.code)).setNotices (r ++ [waiting])
    p.atRest → p.bounded → 16 ≤ ((p.line .control).queues.get (p.classOf f)).length → p.mgmt.notices = e :: r → r.length = 7 →
    e.restart = true → exec i s = .next { s with part := pushed.restart })

/-- R179 and the rules of its table: what a RESTART makes of the part (`effect`), and that it takes effect when the
transmission of its reply ends. MODEL CHOICE (log entry 9): the orders already handed over stand through it. -/
def Obligations.RestartTakesEffect : Prop :=
  let effect := fun (p : Part) =>
    let empty := fun (l : LineState) => { l with queues := ⟨[], [], [], []⟩ }
    let t := p.trunk.lines
    { p with
      trunk := { p.trunk with lines := ⟨empty t.f0, empty t.f1, empty t.f2, empty t.f3, empty t.control⟩ }
      stations := { p.stations with
        entries := (p.stations.entries.filter fun e => decide (e.2.kind = .configured)).map fun e =>
          (e.1, { e.2 with age := .untouched })
        agingDue := p.now + 10 * p.stations.interval }
      net := { p.net with
        valves := p.net.valves.map fun e =>
          (e.1, { e.2 with opening := none, positionTime := none, holdCount := 0, moveTag := none }) }
      watch :=
        { sensors := p.watch.sensors.map fun e =>
            (e.1, { e.2 with
              lastValue := none, lastTime := none, status := .never, countdown := e.2.persist, side := .none,
              excursion := .inBand, freshDue := none })
          zones := (p.watch.zones.map fun e => (e.1, { e.2 with counter := 0, latch := none, suspended := false })).filter
            fun e => decide (e.2 ≠ Zone.powerOn) }
      inc := { p.inc with records := [] }
      plan := { queue := [], plan := none }
      seq := { p.seq with contexts := [], waiting := [], crew := [], frames := [] }
      ver := []
      mgmt := { p.mgmt with mode := .transparent, notices := [], restartDue := false }
      trace := { p.trace with
        fifo := [{ stamp := p.now % 16777216, code := .restarted, incident := none, subject := none, value := none,
                   loss := .none }] } }
  (∀ p : Part, p.restart = effect p) ∧
  (∀ (s : State) (f : Frame),
    let l := s.part.line .control
    l.sending = some ⟨f, true⟩ →
    exec (.frameTransmitEnd .control) s = .next { s with part := effect (s.part.setLine .control { l with sending := none }) })

/-! ## Derived statuses and the Surge Calculator (chapters 1, 4, 5) -/

/-- R16, R17, R71: counts-as-closed, usable and stands shut, as each is derived. -/
def Obligations.DerivedStatuses : Prop :=
  ∀ (p : Part) (x : Valve), p.canonical → p.stationsKept →
    (x.countsAsClosed = true ↔ x.opening = some 0 ∨ (x.opening = none ∧ x.normal = .closed)) ∧
    (p.usable x = true ↔ x.operability = .operable ∧ (x.kind = .manual ∨ ∃ n e,
      Table.look p.stations.entries n = some e ∧ e.address = x.station ∧ (e.age = .touched ∨ e.age = .untouched) ∧
        e.blocked = false)) ∧
    (x.standsShut = true ↔ (x.opening = some 0 ∨ (x.opening = none ∧ x.normal = .closed)) ∧
      (x.operability = .operable ∨ x.operability = .seized))

/-- R94, R95, R96: the coefficients, the coefficient change and the predicted rise, against exact fractions. -/
def Obligations.SurgeArithmetic : Prop :=
  ∀ (c : ValveClass) (coef : Nat → Nat),
    (∀ k, k ≤ 10 → c.curve[k]? = some (coef k)) → (∀ k, k < 10 → coef k ≤ coef (k + 1)) → coef 0 = 0 → coef 10 = 1000 →
    let exact := fun (x : Nat) =>
      if x = 100 then (coef 10 : ℚ)
      else (coef (x / 10) : ℚ) + ((coef (x / 10 + 1) : ℚ) - coef (x / 10)) * ((x - x / 10 * 10 : Nat) : ℚ) / 10
    (∀ x, x ≤ 100 →
      (c.up x : ℤ) = ⌈exact x⌉ ∧ (c.down x : ℤ) = ⌊exact x⌋ ∧
      (x % 10 = 0 → c.up x = coef (x / 10) ∧ c.down x = coef (x / 10))) ∧
    (∀ x y, x ≤ y → y ≤ 100 → exact x ≤ exact y ∧ c.up x ≤ c.up y ∧ c.down x ≤ c.down y) ∧
    (∀ (p : Part) (x : Valve) (o f : Nat) (i : SurgeInput), p.surgeInput x o f = some i → p.vclass? x.vclass = some i.cls) ∧
    (∀ o t, o ≤ 100 → t ≤ 100 → o ≠ t →
      let hi := max o t
      let lo := min o t
      (c.change o t : ℤ) = (c.up hi : ℤ) - c.down lo ∧ exact hi - exact lo ≤ c.change o t ∧
      (c.change o t : ℚ) < exact hi - exact lo + 2 ∧ c.change o t ≤ 1000 ∧ (hi = lo + 1 → c.change o t ≤ 101) ∧
      (∀ k, k < 10 → coef k = coef (k + 1) → k * 10 ≤ lo → hi ≤ (k + 1) * 10 → c.change o t = 0)) ∧
    c.change 100 0 = 1000 ∧ c.change 0 100 = 1000 ∧
    (∀ wave velocity dc : Nat,
      let r := ⌈((wave * velocity * dc : Nat) : ℚ) / 1000000⌉
      (predictedRise wave velocity dc : ℤ) = min r 4095 ∧ (saturated wave velocity dc = true ↔ 4095 < r) ∧
      (0 < wave → (predictedRise wave velocity dc = 0 ↔ dc = 0 ∨ velocity = 0)) ∧
      (wave ≤ 1500 → velocity ≤ 3000 → dc ≤ 1000 → wave * velocity * dc ≤ 4500000000) ∧
      (wave ≤ 1500 → velocity ≤ 3000 → dc ≤ 101 →
        predictedRise wave velocity dc ≤ 455 ∧ saturated wave velocity dc = false)) ∧
    (∀ (i : SurgeInput) (span : Nat), saturated i.wave i.velocity (i.dc span) = true → i.fits span = false)

/-- R97 to R103: what a calculation reads and answers. A step fits when it is not saturated and its predicted rise, of the
coefficient change from the current opening to its target, is within the budget (R98). The step's span is the first of the
halvings of the aimed span that fits, or 1; a span of 1 that does not fit is decided by SATURATION. -/
def Obligations.SurgeStep : Prop :=
  (∀ (p : Part) (x : Valve) (o f : Nat) (c : ValveClass) (k : Material),
    p.vclass? x.vclass = some c → p.material? x.material = some k →
    let side : Nat → Nat := fun g =>
      match p.segment? g with
      | none => 0
      | some y =>
        match y.ref.bind p.sensor? with
        | none => y.static
        | some s => if s.kind = .pressure ∧ s.status = .fresh then s.lastValue.getD y.static else y.static
    let pressure : Nat := match x.segB with
      | some b => max (side x.segA) (side b)
      | none => side x.segA
    let z := p.zone (match p.segment? x.segA with
      | some y => y.zone
      | none => 0)
    p.surgeInput x o f = some
      { opening := o, final := f, cls := c, wave := k.speed, velocity := x.velocity,
        budget := (min (max ((k.rating : ℤ) - pressure - z.margin) 0) 4095).toNat, saturation := z.saturation }) ∧
  (∀ i : SurgeInput, i.cls.profile.Pairwise (· > ·) → i.cls.profile.getLast? = some 0 → i.opening ≠ i.final →
    let down := i.final < i.opening
    let target := fun (n : Nat) => if down then i.opening - n else i.opening + n
    (down → ∀ b, b ∈ i.cls.profile → b < i.opening → (∀ k ∈ i.cls.profile, k < i.opening → k ≤ b) →
      i.aim = max b i.final) ∧
    (¬down → ∀ b, b ∈ i.cls.profile → i.opening < b → b < i.final →
      (∀ k ∈ i.cls.profile, i.opening < k → k < i.final → b ≤ k) → i.aim = b) ∧
    (¬down → (∀ b ∈ i.cls.profile, i.opening < b → i.final ≤ b) → i.aim = i.final) ∧
    (∃ n, i.span = i.aimSpan / 2 ^ n ∧ (i.fits i.span = true ∨ i.span = 1) ∧
      ∀ j, j < n → i.fits (i.aimSpan / 2 ^ j) = false ∧ 1 < i.aimSpan / 2 ^ j) ∧
    i.target i.aimSpan = i.aim ∧
    (i.fits i.span = true → i.calc = .step (target i.span) i.span) ∧
    (i.fits i.span = false → i.saturation = .clamp → i.calc = .clamped (target 1) (i.rise 1)) ∧
    (i.fits i.span = false → i.saturation = .refer → i.calc = .limit (i.rise 1))) ∧
  (∀ i : SurgeInput, i.opening = i.final → i.calc = .final) ∧
  (∀ (i : SurgeInput) (m : Nat),
    let target := if i.final < i.opening then i.opening - m else i.opening + m
    let dc := i.cls.change i.opening target
    let r := ⌈((i.wave * i.velocity * dc : Nat) : ℚ) / 1000000⌉
    (i.rise m : ℤ) = min r 4095 ∧ (i.fits m = true ↔ r ≤ 4095 ∧ min r 4095 ≤ i.budget))

/-! ## Frames and their items (chapters 1, 2, 9) -/

/-- R28: a GOOD sample moves the excursion state by the table. -/
def Obligations.ExcursionMoves : Prop :=
  ∀ (x : Sensor) (v : Nat), x.bandLow ≤ x.bandHigh →
    let y := x.excurse v
    y = { x with countdown := y.countdown, side := y.side, excursion := y.excursion } ∧
    (x.bandLow ≤ v → v ≤ x.bandHigh → y.countdown = x.persist ∧ y.side = .none ∧ y.excursion = .inBand) ∧
    (∀ (s : CountSide) (e : Excursion), (v < x.bandLow ∧ s = .low ∧ e = .low) ∨ (x.bandHigh < v ∧ s = .high ∧ e = .high) →
      let n := if x.side = .none ∨ x.side = s then x.countdown - 1 else x.persist - 1
      y.side = s ∧ (n = 0 → y.countdown = x.persist ∧ y.excursion = e) ∧
      (n ≠ 0 → y.countdown = n ∧ y.excursion = x.excursion) ∧ (x.persist = 1 → x.countdown = 1 → y.excursion = e))

/-- R14, R26, R32 to R34, R112, R115, R116, R118, R124, R158: an item of a passed REPORT, by its quantity and what its pair
maps to; then what the sequencer does with an applied position, and the breach test of a report. `VerifyWindow` states the
test `earlyTest` of a sample. MODEL CHOICE: a disturbance follows the sequencer's handling of the report (log entry 11), the
breach test its test for arrival (log entry 15), a suspect is traced at its raise and routed after the tests of the sample
(log entry 39), the slot of a step that ends is granted before the end is reported (log entry 12), the incidents of a failed
run are told in the order it came to serve them (log entries 13 and 46), the LEFT_PARTIAL entry follows the end of the
touched entry (log entry 22), the answer of a first QUERY also becomes the grant opening (log entry 21), and the records are
held for a breach in ascending number (log entry 45). -/
def Obligations.ReportItems : Prop :=
  (∀ (p : Part) (source : Nat) (i : Item),
    let c := p.channel? source i.channel
    let o := fun (x : Valve) (v : Nat) => p.putValve v { x with opening := some (min i.value 100), positionTime := some p.now }
    let told := fun (x : Valve) (v : Nat) (q : Part) =>
      if x.countsAsClosed = decide (i.value = 0) then q else q.announce ⟨.valve v, false, false, true, false⟩
    let unrelied := fun (v : Nat) => ∀ e ∈ p.inc.records, ∀ b ∈ e.2.boundary, b.valve ≠ v
    (c = none → p.offerItem source i = p) ∧
    (i.b0.getLsbD 2 = true → p.offerItem source i = p) ∧
    (∀ k x, c = some (.sensor k) → p.sensor? k = some x → i.code ≠ (if x.kind = .pressure then 1 else 2) →
      p.offerItem source i = p) ∧
    (∀ v, c = some (.valve v) → i.code ≠ 3 → i.code ≠ 4 → p.offerItem source i = p) ∧
    (∀ k x, c = some (.sensor k) → p.sensor? k = some x → x.kind = .pressure → i.b0.getLsbD 2 = false → i.code = 1 →
      let v := min i.value 4095
      let y := { x.excurse v with
        lastValue := some v, lastTime := some p.now, status := .fresh, freshDue := some (p.now + 10 * x.window) }
      let sharp := x.drop ≠ 0 ∧ x.status = .fresh ∧ ∃ l, x.lastValue = some l ∧ v + x.drop ≤ l
      let e := ((p.record .suspect none (some (.segment x.place)) (some 1)).putSensor k y).routeSuspect none
        { candidate := x.place, cause := .sharpDrop, sensor := k, raised := p.now }
      let tested := fun (q : Part) => (List.range 8).foldl (Part.earlyTest k y) (q.putSensor k y)
      let f := (tested (p.record .suspect none (some (.segment x.place)) (some 1))).routeSuspect none
        { candidate := x.place, cause := .sharpDrop, sensor := k, raised := p.now }
      (p.ver = [] → ¬sharp → (p.putSensor k y).atRest → p.offerItem source i = p.putSensor k y) ∧
      (p.ver = [] → sharp → e.atRest → p.offerItem source i = e) ∧
      (¬sharp → (tested p).atRest → p.offerItem source i = tested p) ∧
      (sharp → f.atRest → p.offerItem source i = f)) ∧
    (∀ k x, c = some (.sensor k) → p.sensor? k = some x → x.kind = .flow → i.b0.getLsbD 2 = false → i.code = 2 →
      let y := { x.excurse i.value with
        lastValue := some i.value, lastTime := some p.now, status := .fresh, freshDue := some (p.now + 10 * x.window) }
      let q := p.putSensor k y
      let z := p.zone x.place
      let low := fun (s : Sensor) => s.kind = .pressure ∧ s.status = .fresh ∧ s.excursion = .low ∧
        ∃ g, p.segment? s.place = some g ∧ g.zone = x.place
      let counted := fun (n : Nat) => q.putZone x.place { z with counter := n }
      let above := x.bandHigh < i.value
      let lowPressure := ∃ e ∈ q.watch.sensors, low e.2
      p.canonical → x.bandLow ≤ x.bandHigh →
      (x.bandLow ≤ i.value → ¬above → (counted 0).atRest → p.offerItem source i = counted 0) ∧
      (i.value < x.bandLow ∨ (above ∧ ¬lowPressure) → q.atRest → p.offerItem source i = q) ∧
      (above → lowPressure → z.counter + 1 < z.threshold → (counted (z.counter + 1)).atRest →
        p.offerItem source i = counted (z.counter + 1)) ∧
      (∀ r s, above → lowPressure → z.threshold ≤ z.counter + 1 → (r, s) ∈ q.watch.sensors → low s →
        (∀ e ∈ q.watch.sensors, low e.2 → e ≠ (r, s) →
          let d := fun (u : Sensor) => (u.bandLow : ℤ) - (u.lastValue.getD 0 : ℤ)
          d e.2 < d s ∨ (d e.2 = d s ∧ s.place < e.2.place)) →
        let x := ({ candidate := s.place, cause := .coincidence, sensor := r, raised := p.now } : Suspect)
        let e := ((counted 0).record .suspect none (some (.segment s.place)) (some 0)).routeSuspect none x
        e.atRest → p.offerItem source i = e)) ∧
    (∀ v x, c = some (.valve v) → p.valve? v = some x → i.b0.getLsbD 2 = false → i.code = 3 → unrelied v →
      (p.context? v = none → (told x v (o x v)).atRest → p.offerItem source i = told x v (o x v)) ∧
      (∀ d t k, p.context? v = some d → d.phase = .travelling → d.target = some t →
        min i.value 100 ≤ t + 2 → t ≤ min i.value 100 + 2 → d.dropAfterStep = false →
        d.run = .closing → t ≠ 0 → p.vclass? x.vclass = some k → p.canonical →
        let e := told x v (((o x v).putValve v
          { x with opening := some (min i.value 100), positionTime := some p.now, moveTag := none }).putContext v
          { d with
            travelDue := none, pollDue := none, reached := some t, target := none, phase := .dwelling,
            dwellDue := some (p.now + 10 * k.dwell) })
        e.atRest → p.offerItem source i = e)) ∧
    (∀ v x, c = some (.valve v) → p.valve? v = some x → i.b0.getLsbD 2 = false → i.code = 3 →
      let e := told x v (((o x v).takePosition Part.settled v (min i.value 100)).testBreach v x (min i.value 100))
      e.atRest → p.offerItem source i = e) ∧
    (∀ v x d, c = some (.valve v) → p.valve? v = some x → p.context? v = some d → i.b0.getLsbD 2 = false → i.code = 4 →
      x.moveTag = some i.b2.toNat →
      let first := d.serves.head?.bind fun r => (p.incident? r).map Incident.number
      let refused := fun (op : Operability) (n why : Nat) =>
        let w := if x.operability = op then p else
          (p.putValve v { x with operability := op }).record .operability none (some (.valve v)) (some n)
        let a := (w.record .stepFailed first (some (.valve v)) (some why)).endContext v
        let b := if d.run = .closing then
            d.serves.foldl (fun q r => if q.stateOf r = some .closing then q.planChanged r (.valve v) else q) a
          else (d.serves.foldl (fun q r => q.endTouched r v true) a).record .leftPartial first (some (.valve v)) none
        let e := if x.operability = op then b else b.announce ⟨.valve v, false, true, false, false⟩
        a.atRest → e.atRest → p.offerItem source i = e
      (i.b3 = 1#8 → refused .local 3 1) ∧ (i.b3 = 2#8 → refused .seized 1 0)) ∧
    (∀ v x, c = some (.valve v) → p.valve? v = some x → i.b0.getLsbD 2 = false → i.code = 4 → i.b3.toNat ≤ 2 →
      let e := { p with counters := { p.counters with staleEchoes := min 65535 (p.counters.staleEchoes + 1) } }
      (x.moveTag ≠ some i.b2.toNat → p.bounded → e.atRest → p.offerItem source i = e) ∧
      (x.moveTag = some i.b2.toNat → i.b3 = 0#8 → p.atRest → p.offerItem source i = p))) ∧
  (∀ (grants : Part → Part) (p : Part) (v o : Nat),
    let took := fun (q : Part) => p.takePosition grants v o = q
    (p.context? v = none → took p) ∧
    (∀ c x, p.context? v = some c → p.valve? v = some x →
      let arrives := ∃ t, c.phase = .travelling ∧ c.target = some t ∧ o ≤ t + 2 ∧ t ≤ o + 2
      let learn := fun (q : Part) (r : Nat) =>
        match q.incident? r with
        | some i => q.putIncident r { i with
            touched := i.touched.map fun t => if t.valve = v ∧ t.prior = none then { t with prior := some o } else t }
        | none => q
      let back := if x.normal = .closed then 0 else 100
      let goal : Nat := if c.run = .closing then 0 else
        match (c.serves.head?.bind p.incident?).bind fun i => i.touched.find? fun t => decide (t.valve = v) with
        | some t => t.prior.getD back
        | none => back
      (c.phase ≠ .querying → ¬arrives → took p) ∧
      (c.phase = .querying → took (((c.serves.foldl learn p).putContext v
        { c with queryDue := none, grantOpening := some (c.grantOpening.getD o) }).calcPoint grants v)) ∧
      (∀ t, c.phase = .travelling → c.target = some t → o ≤ t + 2 → t ≤ o + 2 → p.canonical →
        let d := { c with travelDue := none, pollDue := none, reached := some t, target := none }
        let q := (p.putValve v { x with moveTag := none }).putContext v d
        let ended := grants (q.endContext v)
        (c.dropAfterStep = true → took ended) ∧
        (c.dropAfterStep = false → t = goal → c.run = .closing → took (c.serves.foldl (fun q r => q.testVerify r) ended)) ∧
        (c.dropAfterStep = false → t = goal → c.run = .restoring →
          took (c.serves.foldl (fun q r => q.endTouched r v false) ended)) ∧
        (∀ k, c.dropAfterStep = false → t ≠ goal → p.vclass? x.vclass = some k →
          took (q.putContext v { d with phase := .dwelling, dwellDue := some (p.now + 10 * k.dwell) }))))) ∧
  (∀ (p : Part) (v o : Nat) (x : Valve),
    let shut := x.opening = some 0 ∨ x.opening = some 1 ∨ x.opening = some 2 ∨ (x.opening = none ∧ x.normal = .closed)
    let test := fun (q : Part) (r : Nat) =>
      match q.incident? r with
      | some i => if q.breached r v i = true then q.hold r .breach (some v) else q
      | none => q
    (∀ (q : Part) (r : Nat) (i : Incident), q.breached r v i = true ↔
      (i.state = .closing ∨ i.state = .verifying ∨ i.state = .isolated) ∧
        (⟨v, .none⟩ ∈ i.boundary ∨ (⟨v, .close⟩ ∈ i.boundary ∧ ∀ c, q.context? v = some c → r ∉ c.serves))) ∧
    (shut → 2 < o → p.testBreach v x o = (List.range 8).foldl test p) ∧
    (¬(shut ∧ 2 < o) → p.testBreach v x o = p))

/-- R142 to R146, R155 to R157: a frame on a field line. MODEL CHOICE: a passed REPORT is queued, or dropped at a full
queue, before its items are offered (log entry 42), and a frame too short for any check is counted like a failed CRC (log
entry 26). -/
def Obligations.FieldFrames : Prop :=
  ∀ (l : Line) (bytes : List Byte) (s : State), l ≠ .control → s.part.bounded →
    let i : Instr := .frameReceived l bytes
    let x := s.part.line l
    let p := s.part.setLine l { x with received := min 65535 (x.received + 1) }
    let drop := s.part.setLine l
      { x with received := min 65535 (x.received + 1), crcDrops := min 65535 (x.crcDrops + 1) }
    let count := fun (f : Counters → Counters) => { p with counters := f p.counters }
    let unknown := fun (c : Counters) => { c with unknownRejects := min 65535 (c.unknownRejects + 1) }
    (readFrame bytes = none → drop.still → exec i s = .next { s with part := drop }) ∧
    (∀ f k, readFrame bytes = some (f, k) →
      let a := f.src.toNat
      let up := fun (q : Part) => q.passFrame .control f
      let offered := fun (q : Part) => if k = .report then f.items.foldl (fun q i => q.offerItem a i) (up q) else up q
      let named := a ≠ 0 ∧ a ≠ 65535 ∧ a ≠ p.mgmt.ownAddress
      let taken := fun (e : Part) => e.still → exec i s = .next { s with part := e }
      (k = .manage → f.dst.toNat = p.mgmt.ownAddress → taken drop) ∧
      (¬(k = .manage ∧ f.dst.toNat = p.mgmt.ownAddress) →
        (¬named → taken (count unknown)) ∧
        (∀ n e, named → p.station? a = some (n, e) →
          let pinned := e.secure = true ∧ e.pinLine ≠ some l
          let touched := p.putStation n { e with age := .touched, heard := some p.now, line := some l }
          let heard := if e.age = .silent then
              (touched.stationNotice p a).stationTrace .stationHeard a (some (lineNum l))
            else touched
          let moved := if e.line ≠ none ∧ e.line ≠ some l then heard.stationTrace .lineChange a (some (lineNum l)) else heard
          (e.blocked = true → p.mgmt.mode = .active →
            taken (count fun c => { c with blockedDrops := min 65535 (c.blockedDrops + 1) })) ∧
          (e.blocked = false → pinned → p.mgmt.mode = .active →
            taken (count fun c => { c with secureDrops := min 65535 (c.secureDrops + 1) })) ∧
          ((e.blocked = true ∨ pinned) → p.mgmt.mode = .transparent → taken (up p)) ∧
          (e.blocked = false → ¬pinned → taken (offered moved))) ∧
        (named → p.station? a = none →
          (p.stations.mode = .rejectUnknown → p.mgmt.mode = .active → taken (count unknown)) ∧
          (p.stations.mode = .rejectUnknown → p.mgmt.mode = .transparent → taken (up p)) ∧
          (∀ n, p.stations.mode = .learn → n < 512 → Table.look p.stations.entries n = none →
            (∀ j, j < n → Table.look p.stations.entries j ≠ none) →
            let e : Station :=
              { kind := .learned, address := a, line := some l, secure := false, pinLine := none, blocked := false,
                age := .touched, heard := some p.now }
            taken (offered (((p.putStation n e).stationNotice p a).stationTrace .stationLearned a (some (lineNum l))))) ∧
          (p.stations.mode = .learn → (∀ n, n < 512 → Table.look p.stations.entries n ≠ none) →
            taken (offered (count fun c => { c with learnFailures := min 65535 (c.learnFailures + 1) }))))))

/-- R153, R156, R159 to R163, R169: a frame on the control line. `route` is the routing of a downstream frame; the held
valves stand in the order of R160, and the holder a notice names is that of R161. Then the effect of an override on the
valves it gives over (R125, R162). MODEL CHOICE: the records are held in ascending number (log entry 45), and the
disturbances of the valves follow when all are given over (log entry 11), as do the grants of the slots that the ended
contexts held (log entry 12); an order for the part is handed over to the end of the list of orders not yet taken (log entry
5); a frame too short for any check is counted like a failed CRC (log entry 26). -/
def Obligations.ControlFrames : Prop :=
  (∀ (bytes : List Byte) (s : State), s.part.canonical → s.part.bounded →
    let i : Instr := .frameReceived .control bytes
    let x := s.part.line .control
    let p := s.part.setLine .control { x with received := min 65535 (x.received + 1) }
    let drop := s.part.setLine .control
      { x with received := min 65535 (x.received + 1), crcDrops := min 65535 (x.crcDrops + 1) }
    (readFrame bytes = none → drop.still → exec i s = .next { s with part := drop }) ∧
    (∀ f k, readFrame bytes = some (f, k) →
      let own := f.dst.toNat = p.mgmt.ownAddress
      let lines := [Line.f0, .f1, .f2, .f3]
      let handed := { p with mgmt := { p.mgmt with handed := p.mgmt.handed ++ [f.order] } }
      let blocked := { p with counters := { p.counters with blockedDrops := min 65535 (p.counters.blockedDrops + 1) } }
      let copied := fun (ls : List Line) => ls.foldl (fun q l => q.passFrame l f) p
      let shut := ∃ n e, p.station? f.dst.toNat = some (n, e) ∧ e.blocked = true ∧ p.mgmt.mode = .active
      let lined := fun (l : Line) => ∃ n e, p.station? f.dst.toNat = some (n, e) ∧ e.line = some l
      let route := fun (q : Part) =>
        (f.dst = 65535#16 → q = copied lines) ∧
        (f.dst ≠ 65535#16 → shut → q = blocked) ∧
        (∀ l, f.dst ≠ 65535#16 → ¬shut → lined l → q = copied [l]) ∧
        (f.dst ≠ 65535#16 → ¬shut → (∀ l, ¬lined l) → q = copied lines)
      let taken := fun (e : Part) => e.still → exec i s = .next { s with part := e }
      let notice := fun (v : Nat) (forwarded : Byte) (q : Part) =>
        (q.notice .orderHeld [⟨BitVec.ofNat 8 (f.dst.toNat / 256), BitVec.ofNat 8 f.dst.toNat, f.tag, forwarded⟩,
            item (w16 v) (w16 (q.firstHolder v))]).record .orderHeld
          (some (q.firstHolder v)) (some (.valve v)) (some f.tag.toNat)
      let room := fun (l : Line) => ((p.line l).queues.get (p.classOf f)).length < 16
      let addressed := fun (j : Item) (v : Nat) (y : Valve) => (j.code = 17 ∨ j.code = 18 ∨ j.code = 19) ∧
        ((f.dst = 65535#16 ∧ y.kind = .actuated ∧ y.channel = j.channel) ∨
          (f.dst ≠ 65535#16 ∧ p.channel? f.dst.toNat j.channel = some (.valve v)))
      let firstBy := fun (v n : Nat) => ∃ y, p.valve? v = some y ∧ (∃ j, f.items[n]? = some j ∧ addressed j v y) ∧
        ∀ k, k < n → ∀ j, f.items[k]? = some j → ¬addressed j v y
      (∀ v, v ∈ p.heldValves f ↔ ∃ y, p.valve? v = some y ∧ 0 < y.holdCount ∧ ∃ j ∈ f.items, addressed j v y) ∧
      (p.heldValves f).Pairwise (fun v w => ∃ n m, firstBy v n ∧ firstBy w m ∧ (n < m ∨ (n = m ∧ v < w))) ∧
      (∀ v r j, p.incident? r = some j → j.holds v = true →
        (∀ r' j', p.incident? r' = some j' → j'.holds v = true → r ≤ r') → p.firstHolder v = j.number) ∧
      (own → k = .manage → taken handed) ∧
      (own → k ≠ .manage → taken drop) ∧
      route (p.routeDown f) ∧
      (¬own → k ≠ .order → taken (p.routeDown f)) ∧
      (¬own → k = .order → p.heldValves f = [] → taken (p.routeDown f)) ∧
      (∀ v vs, ¬own → k = .order → p.heldValves f = v :: vs →
        let permitted := f.ctl.getLsbD 1 = true ∧ ∀ w ∈ v :: vs, ∃ y, p.valve? w = some y ∧ y.overridePermitted = true
        let fits := ∃ l ∈ p.linesTo f.dst.toNat, room l
        (¬permitted → p.mgmt.mode = .active → taken (notice v 0#8 p)) ∧
        (¬permitted → p.mgmt.mode = .transparent → fits → taken (notice v 1#8 (p.routeDown f))) ∧
        (permitted → fits → taken ((p.routeDown f).overrideAll f.tag.toNat (v :: vs))) ∧
        ((permitted ∨ p.mgmt.mode = .transparent) → ¬fits → taken (p.routeDown f))))) ∧
  (∀ (p : Part) (tag : Nat) (vs : List Nat),
    let give := fun (q : Part) (v : Nat) =>
      let a : Part := match q.valve? v with
        | some x => if x.operability = Operability.local then q else
            (q.putValve v { x with operability := .local }).record .operability none (some (.valve v)) (some 3)
        | none => q
      let b := a.endContext v
      let c : Part := { b with seq := { b.seq with
        waiting := b.seq.waiting.filter fun w => decide (w.valve ≠ v)
        crew := b.seq.crew.filter fun k => decide (k.valve ≠ v) } }
      let hold := fun (q : Part) (r : Nat) =>
        match q.incident? r with
        | some i => if i.holds v = true then q.hold r .override (some v) else q
        | none => q
      ((List.range 8).foldl hold c).record .override none (some (.valve v)) (some tag)
    let w := vs.foldl give p
    p.overrideAll tag vs = (vs.filter fun v => decide (p.operOf v ≠ w.operOf v)).foldl
      (fun q v => q.announce ⟨.valve v, false, true, false, false⟩) w) ∧
  (∀ (i : Incident) (v : Nat), i.holds v = true ↔ (∃ t ∈ i.touched, t.valve = v) ∨ ⟨v, .close⟩ ∈ i.boundary)

/-- R166, R167, R168, R173, R175, with R105, R112, R113: queues and transmitters. A place freed on the control line is taken by
the oldest pending entry of its class, whose next parts join at once while their queue has a place and no other entry waits
for it; a place freed on a field line, while the part is ACTIVE, by the oldest MOVE or QUERY that waits for it, and the one
whose last line has taken it starts its timers. -/
def Obligations.QueuesAndTransmitters : Prop :=
  (∀ (p : Part) (l : Line) (f : Frame),
    let x := p.line l
    let c := p.classOf f
    let q := x.queues.get c
    (16 ≤ q.length → p.bounded → p.passFrame l f = p.setLine l { x with queueDrops := min 65535 (x.queueDrops + 1) }) ∧
    (q.length < 16 → x.sending ≠ none →
      p.passFrame l f = p.setLine l { x with queues := x.queues.set c (q ++ [⟨f, false⟩]) }) ∧
    (x.sending = none → x.queues = ⟨[], [], [], []⟩ → p.mgmt.notices = [] → p.seq.frames = [] →
      p.passFrame l f = p.setLine l { x with sending := some ⟨f, false⟩ })) ∧
  (∀ (s : State) (l : Line) (g : OutFrame),
    let i : Instr := .frameTransmitEnd l
    let p := s.part
    let x := p.line l
    let taken := fun (e : Part) => e.still → exec i s = .next { s with part := e }
    x.sending = some g → g.restart = false →
    (x.queues = ⟨[], [], [], []⟩ → taken (p.setLine l { x with sending := none })) ∧
    (∀ (c : Cls) (f : OutFrame) (r : List OutFrame), x.queues.get c = f :: r →
      (∀ d, x.queues.get d ≠ [] → d = c ∨ d.ctorIdx < c.ctorIdx) →
      let y := { x with queues := x.queues.set c r, sending := some f }
      let asks := fun (d : SeqFrame) => l ∈ d.lines ∧ p.classOf d.frame = c
      let waits := fun (d : PendEntry) => ∃ h hs, d.frames = h :: hs ∧ p.classOf h = c
      (p.mgmt.notices = [] → p.seq.frames = [] → taken (p.setLine l y)) ∧
      (l = .control → (∀ d ∈ p.mgmt.notices, ¬waits d) → taken (p.setLine l y)) ∧
      (l ≠ .control → p.mgmt.mode = .transparent ∨ (∀ d ∈ p.seq.frames, ¬asks d) → taken (p.setLine l y)) ∧
      (∀ (a b : List PendEntry) (e : PendEntry) (h : Frame) (hs : List Frame), l = .control → p.mgmt.notices = a ++ e :: b →
        e.frames = h :: hs → p.classOf h = c → (∀ d ∈ a, ¬waits d) →
        let q := (p.setLine l { y with queues := x.queues.set c (r ++ [⟨h, e.restart⟩]) }).queueParts (a ++ b) e.restart hs
        taken (q.1.setNotices (a ++ (if q.2 = [] then b else { e with frames := q.2 } :: b)))) ∧
      (∀ (a b : List SeqFrame) (e : SeqFrame), l ≠ .control → p.mgmt.mode = .active → p.seq.frames = a ++ e :: b → asks e →
        (∀ d ∈ a, ¬asks d) →
        let z := p.setLine l { y with queues := x.queues.set c (r ++ [⟨e.frame, false⟩]) }
        let left := e.lines.filter fun k => decide (k ≠ l)
        let q := fun (fs : List SeqFrame) => { z with seq := { p.seq with frames := fs } }
        (left ≠ [] → taken (q (a ++ { e with lines := left } :: b))) ∧
        (∀ v k d, left = [] → p.valve? e.valve = some v → p.vclass? v.vclass = some k → p.context? e.valve = some d →
          p.canonical →
          (e.kind = .poll → taken (q (a ++ b))) ∧
          (e.kind = .query → taken ((q (a ++ b)).putContext e.valve
            { d with phase := .querying, queryDue := some (p.now + 10 * k.allowance) })) ∧
          (e.kind = .move → taken ((q (a ++ b)).putContext e.valve
            { d with
              phase := .travelling, travelDue := some (p.now + 10 * (k.t10 * ((d.span + 9) / 10) + k.allowance))
              pollDue := if k.poll = 0 then none else some (p.now + 10 * k.poll), pollStart := p.now })))))) ∧
  (∀ (others : List PendEntry) (again : Bool) (p : Part) (f : Frame) (fs : List Frame),
    let c := p.classOf f
    let x := p.line .control
    let q := x.queues.get c
    let waits := ∃ d ∈ others, ∃ h hs, d.frames = h :: hs ∧ p.classOf h = c
    p.queueParts others again [] = (p, []) ∧
    (q.length < 16 → ¬waits → p.queueParts others again (f :: fs) =
      (p.setLine .control { x with queues := x.queues.set c (q ++ [⟨f, again⟩]) }).queueParts others again fs) ∧
    (16 ≤ q.length ∨ waits → p.queueParts others again (f :: fs) = (p, f :: fs)))

/-! ## Time and timers (chapters 2, 6, 7, 11) -/

/-- R27, R184, R185: a freshness timer that expires, the wrap of the stamp, and how an entry joins the trace FIFO. MODEL
CHOICE: an expiry, or the wrap, moves the part's time up to the time it is due (log entry 3), and the expiry of a timer that
does not run changes nothing (log entry 4). -/
def Obligations.FreshnessAndTimeWrap : Prop :=
  (∀ (s : State) (k : Nat) (x : Sensor) (d : Nat),
    s.part.sensor? k = some x → x.freshDue = some d →
    let e := ({ s.part with now := max s.part.now d }).putSensor k
      { x with status := .stale, countdown := x.persist, side := .none, freshDue := none }
    e.still → exec (.freshnessExpiry k) s = .next { s with part := e }) ∧
  (∀ (s : State) (k : Nat), (∀ x, s.part.sensor? k = some x → x.freshDue = none) → s.part.still →
    exec (.freshnessExpiry k) s = .next s) ∧
  (∀ (s : State),
    let t := s.part.trace
    let n := (t.wraps + 1) % 65536
    let e := { s.part with
      now := max s.part.now t.wrapDue
      trace := { t with wraps := n, wrapDue := t.wrapDue + 16777216 }.join
        { stamp := 0, code := .timeWrap, incident := none, subject := none, value := some n, loss := .none } }
    e.still → exec .timeWrap s = .next { s with part := e }) ∧
  (∀ (t : Recorder) (x : TraceEntry),
    (t.fifo.length < 256 → t.join x = { t with fifo := t.fifo ++ [x] }) ∧
    (∀ l y, t.fifo = l ++ [y] → l.length = 255 → t.policy = .stop →
      t.join x = { t with fifo := l ++ [{ y with loss := .lostAfter }] }) ∧
    (∀ a b l, t.fifo = a :: b :: l → l.length = 254 → t.policy = .overwrite →
      t.join x = { t with fifo := { b with loss := .lostBefore } :: l ++ [x] }))

/-- R105, R106, R111 to R114, R117, R118, R127: the expiries of the timers of a valve's step, what a calculation point does
by the test of its run and the result of the calculation, and what forming an order does where its station has no line or
the line no place. `failed` ends the step with its trace entry and `told` reports it; `first` is the number of the first
incident the run serves. MODEL CHOICE: an expiry moves the part's time up to the time it is due (log entry 3), a disturbance
follows the report of the failure (log entry 11), which follows the grant of the slot the step held (log entry 12), the
surge limit holds each incident in CLOSING that the run serves and the entries name the first incident served (log entry
13), a poll QUERY with no line fails the step (log entry 16), the LEFT_PARTIAL entry follows the end of the touched entry
(log entry 22), the release of R127 is tested while the incident is RESTORING (log entry 30), and the incidents are told in
the order the run came to serve them (log entry 46). -/
def Obligations.StepTimers : Prop :=
  (∀ (s : State) (v : Nat) (c : StepCtx) (x : Valve) (k : ValveClass),
    s.part.context? v = some c → s.part.valve? v = some x → s.part.vclass? x.vclass = some k → s.part.canonical →
    let q := fun (d : Nat) => { s.part with now := max s.part.now d }
    let first := c.serves.head?.bind fun r => (s.part.incident? r).map Incident.number
    let failed := fun (why : Nat) (q : Part) => (q.record .stepFailed first (some (.valve v)) (some why)).endContext v
    let told := fun (q : Part) =>
      if c.run = .closing then
        c.serves.foldl (fun q r => if q.stateOf r = some .closing then q.planChanged r (.valve v) else q) q
      else (c.serves.foldl (fun q r => q.endTouched r v true) q).record .leftPartial first (some (.valve v)) none
    let taken := fun (i : Instr) (e : Part) => e.still → exec i s = .next { s with part := e }
    let order := fun (u tag code value : Nat) =>
      Frame.sealed
        { dst := BitVec.ofNat 16 x.station, src := BitVec.ofNat 16 s.part.mgmt.ownAddress,
          ctl := controlByte .order (s.part.trunk.urgencyMap.getD u 0), tag := BitVec.ofNat 8 tag,
          items := [⟨BitVec.ofNat 8 (x.channel * 8), BitVec.ofNat 8 code, BitVec.ofNat 8 (value / 256), BitVec.ofNat 8 value⟩],
          crc := 0#16 }
    let urgent := fun (u : Nat) => (∃ r ∈ c.serves, s.part.urgencyOf r = u) ∧ ∀ r ∈ c.serves, s.part.urgencyOf r ≤ u
    let idle := fun (l : Line) => (s.part.line l).sending = none ∧ (s.part.line l).queues = ⟨[], [], [], []⟩ ∧
      s.part.mgmt.notices = [] ∧ s.part.seq.frames = [] ∧ x.station ≠ 65535 ∧
      ∃ n e, s.part.station? x.station = some (n, e) ∧ e.blocked = false ∧ e.line = some l
    let sends := fun (l : Line) (f : Frame) (q : Part) => q.setLine l { q.line l with sending := some ⟨f, false⟩ }
    (∀ d, c.travelDue = some d →
      let heard := ∃ n e, s.part.station? x.station = some (n, e) ∧ e.age ≠ .silent ∧ e.blocked = false
      let a := failed 2 (q d)
      let b := failed 0 (((q d).putValve v { x with operability := .seized }).record .operability none (some (.valve v)) (some 1))
      (¬heard → a.atRest → taken (.travelTimerExpiry v) (told a)) ∧
      (heard → x.operability ≠ .seized → b.atRest →
        taken (.travelTimerExpiry v) ((told b).announce ⟨.valve v, false, true, false, false⟩)) ∧
      (heard → x.operability = .seized → (failed 0 (q d)).atRest → taken (.travelTimerExpiry v) (told (failed 0 (q d))))) ∧
    (∀ d, c.queryDue = some d → (failed 2 (q d)).atRest → taken (.queryTimerExpiry v) (told (failed 2 (q d)))) ∧
    (∀ d, c.pollDue = some d →
      let n := max s.part.now d
      let timed := (q d).putContext v
        { c with pollDue := if k.poll = 0 then none else some (n + 10 * k.poll), pollStart := n }
      let due := s.part.mgmt.mode = .active ∧ (∀ t, x.positionTime = some t → t < c.pollStart) ∧
        ∀ f ∈ s.part.seq.frames, ¬(f.valve = v ∧ f.kind = .poll)
      (¬due → taken (.pollExpiry v) timed) ∧
      (∀ l u, due → idle l → urgent u → taken (.pollExpiry v) (sends l (order u 0 19 0) timed)) ∧
      (due → c.serves ≠ [] → x.station ≠ 65535 → (∃ n e, s.part.station? x.station = some (n, e) ∧ e.blocked = true) →
        (failed 2 timed).atRest → taken (.pollExpiry v) (told (failed 2 timed)))) ∧
    (∀ d, c.dwellDue = some d →
      taken (.dwellEnd v) (((q d).putContext v { c with dwellDue := none }).calcPoint Part.settled v)) ∧
    (∀ d o, c.dwellDue = some d → c.reached = some o → c.run = .closing →
      let n := max s.part.now d
      (s.part.mgmt.mode = .transparent →
        taken (.dwellEnd v) ((q d).putContext v { c with phase := .halted, dwellDue := none })) ∧
      (∀ i, s.part.mgmt.mode = .active → (∃ r ∈ c.serves, s.part.stateOf r = some .closing) →
        s.part.surgeInput x o 0 = some i →
        (∀ t m l u, i.calc = .step t m → idle l → urgent u →
          let tag := s.part.seq.tag
          let moved := ((q d).putValve v { x with moveTag := some tag }).putContext v
            { c with
              phase := .travelling, target := some t, span := m, dwellDue := none
              travelDue := some (n + 10 * (k.t10 * ((m + 9) / 10) + k.allowance))
              pollDue := if k.poll = 0 then none else some (n + 10 * k.poll), pollStart := n }
          taken (.dwellEnd v) (sends l (order u tag 17 t)
            { moved with seq := { moved.seq with tag := if tag < 255 then tag + 1 else 1 } })) ∧
        (∀ rise, i.calc = .limit rise →
          let a := ((q d).record .surgeLimit first (some (.valve v)) (some rise)).endContext v
          a.atRest → taken (.dwellEnd v)
            (c.serves.foldl (fun q r => if q.stateOf r = some .closing then q.hold r .surgeLimit (some v) else q) a)))) ∧
    (∀ p : Part, p.valve? v = some x → p.canonical →
      p.endContext v = { p with
        net := { p.net with valves := Table.put p.net.valves v { x with moveTag := none } }
        seq := { p.seq with
          contexts := p.seq.contexts.filter fun e => decide (e.1 ≠ v)
          frames := p.seq.frames.filter fun f => decide (f.valve ≠ v) } })) ∧
  (∀ (grants : Part → Part) (p : Part) (v : Nat) (c : StepCtx) (x : Valve), p.context? v = some c → p.valve? v = some x →
    let serving := fun (st : IncState) => ∃ r ∈ c.serves, p.stateOf r = some st
    let first := c.serves.head?.bind fun r => (p.incident? r).map Incident.number
    let back := if x.normal = .closed then 0 else 100
    let goal : Nat := if c.run = .closing then 0 else
      match (c.serves.head?.bind p.incident?).bind fun i => i.touched.find? fun t => decide (t.valve = v) with
      | some t => t.prior.getD back
      | none => back
    let goes := p.mgmt.mode = .active ∧ serving (if c.run = .closing then .closing else .restoring)
    let waits := p.mgmt.mode = .transparent ∨
      (c.run = .closing ∧ (serving .planWait ∨ serving .planning ∨ serving .confirmWait)) ∨
      (c.run = .restoring ∧ serving .restoring)
    let released := c.run = .restoring ∧ serving .restoring ∧ 1 < x.holdCount
    let ended := grants (p.endContext v)
    let release := fun (short : Bool) (q : Part) => c.serves.foldl (fun q r => q.endTouched r v short) q
    let comes := fun (q : Part) => p.calcPoint grants v = q
    (released → comes (release false ended)) ∧
    (¬released → ¬goes → waits → comes (p.putContext v { c with phase := .halted, dwellDue := none })) ∧
    (¬released → ¬goes → ¬waits → comes ended) ∧
    (¬released → goes → c.reached = none → x.opening = none → comes (p.formQuery grants v x c)) ∧
    (∀ o i, ¬released → goes → c.reached = some o ∨ (c.reached = none ∧ x.opening = some o) → p.surgeInput x o goal = some i →
      (i.calc = .final → c.run = .closing → comes (c.serves.foldl (fun q r => q.testVerify r) ended)) ∧
      (i.calc = .final → c.run = .restoring → comes (release false ended)) ∧
      (∀ t m, i.calc = .step t m → comes (p.formMove grants v x c t m)) ∧
      (∀ t rise, i.calc = .clamped t rise →
        comes ((p.record .surgeClamped first (some (.valve v)) (some rise)).formMove grants v x c t 1)) ∧
      (∀ rise, i.calc = .limit rise →
        let q := grants ((p.record .surgeLimit first (some (.valve v)) (some rise)).endContext v)
        (c.run = .closing →
          comes (c.serves.foldl (fun q r => if q.stateOf r = some .closing then q.hold r .surgeLimit (some v) else q) q)) ∧
        (c.run = .restoring → comes (release true q))))) ∧
  (∀ (grants : Part → Part) (p : Part) (v u t m : Nat) (c : StepCtx) (x : Valve), p.context? v = some c → p.valve? v = some x →
    p.canonical → (∃ r ∈ c.serves, p.urgencyOf r = u) → (∀ r ∈ c.serves, p.urgencyOf r ≤ u) →
    let tag := p.seq.tag
    let order := fun (tag code value : Nat) =>
      Frame.sealed
        { dst := BitVec.ofNat 16 x.station, src := BitVec.ofNat 16 p.mgmt.ownAddress,
          ctl := controlByte .order (p.trunk.urgencyMap.getD u 0), tag := BitVec.ofNat 8 tag,
          items := [⟨BitVec.ofNat 8 (x.channel * 8), BitVec.ofNat 8 code, BitVec.ofNat 8 (value / 256), BitVec.ofNat 8 value⟩],
          crc := 0#16 }
    let first := c.serves.head?.bind fun r => (p.incident? r).map Incident.number
    let fails := fun (q : Part) =>
      let a := grants ((q.record .stepFailed first (some (.valve v)) (some 2)).endContext v)
      if c.run = .closing then
        c.serves.foldl (fun q r => if q.stateOf r = some .closing then q.planChanged r (.valve v) else q) a
      else (c.serves.foldl (fun q r => q.endTouched r v true) a).record .leftPartial first (some (.valve v)) none
    let waits := fun (kind : OrderKind) (f : Frame) (l : Line) (q : Part) =>
      q.setSeqFrames (q.seq.frames ++ [{ valve := v, kind := kind, frame := f, lines := [l] }])
    let moved := (({ p with seq := { p.seq with tag := if tag < 255 then tag + 1 else 1 } }).putValve v
      { x with moveTag := some tag }).putContext v { c with phase := .pending, target := some t, span := m, dwellDue := none }
    let asked := p.putContext v { c with phase := .pending }
    let shut := ∃ n e, p.station? x.station = some (n, e) ∧ e.blocked = true ∧ p.mgmt.mode = .active
    let routed := fun (l : Line) => ¬shut ∧ ∃ n e, p.station? x.station = some (n, e) ∧ e.line = some l
    let full := fun (l : Line) (f : Frame) => 16 ≤ ((p.line l).queues.get (p.classOf f)).length
    x.station ≠ 65535 →
    (shut → p.formMove grants v x c t m = fails moved ∧ p.formQuery grants v x c = fails asked) ∧
    (∀ l, routed l → full l (order tag 17 t) → p.formMove grants v x c t m = waits .move (order tag 17 t) l moved) ∧
    (∀ l, routed l → full l (order 0 19 0) → p.formQuery grants v x c = waits .query (order 0 19 0) l asked))

/-- R132 to R134, R136, R137: a verification's window expires, the early test of a sample, the start conditions and the start.
A verdict or NOT_TIGHT is given with its trace entry, the end of the context, the change of state and the notice. The early
test is stated of every part, whatever its time: a window that has not run out is ended by it. The expiry answers a
next state from every state. MODEL CHOICE: an expiry moves the part's time up to the window's end (log entry 3), and the
expiry of a window that is not open changes nothing (log entry 4). -/
def Obligations.VerifyWindow : Prop :=
  let mine := fun (j : Incident) (x : Sensor) => x.kind = .pressure ∧ x.status = .fresh ∧ x.place ∈ j.area
  let low := fun (q : Part) (j : Incident) (x : Sensor) => ∃ v, x.lastValue = some v ∧ v ≤ (q.zone j.zone).drained
  let meter := fun (j : Incident) (x : Sensor) => x.kind = .flow ∧ x.place = j.zone
  let any := fun (q : Part) (f : Sensor → Prop) => ∃ e ∈ q.watch.sensors, f e.2
  let all := fun (q : Part) (f : Sensor → Prop) => ∀ e ∈ q.watch.sensors, f e.2
  let ended := fun (r : Nat) (j : Incident) (by' : Option Subject) (n : Nat) (q : Part) =>
    (q.record .verifyEnd (some j.number) by' (some n)).removeVerify r
  let verdict := fun (r : Nat) (j : Incident) (by' : Option Subject) (v : Verdict) (n : Nat) (q : Part) =>
    ((ended r j by' n q).moveIncident r .isolated fun x => { x with verdict := some v }).notice .isolated
      [item (w16 j.number) (w16 n)]
  (∀ (s : State) (r : Nat) (c : VerifyCtx) (i : Incident),
    Table.look s.part.ver r = some c → s.part.incident? r = some i → i.state = .verifying →
    let p := { s.part with now := max s.part.now c.due }
    let loose := ((ended r i none 4 p).moveIncident r .notTight id).notice .notTight [item (w16 i.number) 0#16]
    let taken := fun (e : Part) => e.still → exec (.verifyWindowExpiry r) s = .next { s with part := e }
    (any p (mine i) → all p (fun x => mine i x → low p i x) → taken (verdict r i none .tight 1 p)) ∧
    (any p (fun x => mine i x ∧ ¬low p i x) → taken loose) ∧
    (¬any p (mine i) → any p (meter i) → all p (fun x => meter i x → x.status = .fresh ∧ x.excursion = .inBand) →
      taken (verdict r i none .inflowOnly 2 p)) ∧
    (¬any p (mine i) → ¬any p (fun x => meter i x ∧ x.status = .fresh) → taken (verdict r i none .unverified 3 p)) ∧
    (¬any p (mine i) → any p (fun x => meter i x ∧ x.status = .fresh) →
      any p (fun x => meter i x ∧ ¬(x.status = .fresh ∧ x.excursion = .inBand)) → taken loose)) ∧
  (∀ (s : State) (r : Nat), Table.look s.part.ver r = none → s.part.still → exec (.verifyWindowExpiry r) s = .next s) ∧
  (∀ (s : State) (r : Nat), ∃ t, exec (.verifyWindowExpiry r) s = .next t ∧ t.pending = s.pending) ∧
  (∀ (p : Part) (r k : Nat) (x : Sensor) (c : VerifyCtx) (j : Incident),
    Table.look p.ver r = some c → p.incident? r = some j → j.state = .verifying →
    (x.place ∈ j.area → all p (fun y => mine j y → low p j y) →
      p.earlyTest k x r = verdict r j (some (.sensor k)) .tight 1 p) ∧
    (x.place ∉ j.area ∨ any p (fun y => mine j y ∧ ¬low p j y) → p.earlyTest k x r = p)) ∧
  (∀ (p : Part) (r k : Nat) (x : Sensor),
    Table.look p.ver r = none ∨ (∀ j, p.incident? r = some j → j.state ≠ .verifying) → p.earlyTest k x r = p) ∧
  (∀ (p : Part) (r : Nat) (j : Incident), p.incident? r = some j →
    let met := j.state = .closing ∧ ∀ b ∈ j.boundary, ∃ x, p.valve? b.valve = some x ∧
      (b.action = .none → x.opening = some 0 ∨ (x.opening = none ∧ x.normal = .closed)) ∧
      (b.action = .close → x.kind = .manual → x.opening = some 0) ∧
      (b.action = .close → x.kind = .actuated → (∃ t ∈ j.touched, t.valve = b.valve) ∧
        (∀ c, p.context? b.valve = some c → r ∉ c.serves) ∧
        (x.opening = some 0 ∨ x.opening = some 1 ∨ x.opening = some 2))
    (met → p.testVerify r = p.enterVerifying r) ∧ (¬met → p.testVerify r = p)) ∧
  (∀ (q : Part) (r : Nat) (j : Incident), q.incident? r = some j → j.state ≠ .verifying →
    let g := { j with state := .verifying, heldReason := none, verdict := none }
    let m := (q.zone j.zone).verifyWindow
    let w := { q with inc := { q.inc with records := Table.put q.inc.records r g } }
    q.enterVerifying r = ((w.record .state (some j.number) none (some 5)).putVerify r
      { number := j.number, start := q.now, length := m, due := q.now + 10 * m }).record .verifyStart (some j.number) none
        (some m))

/-! ## The Isolation Planner (chapter 4) -/

/-- R72 to R77: AREA_SEARCH_EXAMINE. Which valve comes next, how it is classified, and how the search ends: `taken w2` says
that the command leaves the workspace `w2`, or its pruned and ordered form when no valve is left to examine. The model's
choices (log entries 6 and 47): a command examines one valve; the one after which no valve is left to examine, and one that
finds none from the start, prunes and orders the boundary and begins the walk, whose pairs stand in the order of the SOURCE
segments, ascending, and of each one's list (log entry 48); with no search in progress the command changes nothing. -/
def Obligations.AreaSearch : Prop :=
  (∀ (s : State) (w : Workspace), s.part.plan.plan = some w → w.phase = .areaSearch → w.result = none →
    let p := s.part
    let answers := fun (w2 : Workspace) =>
      let e := p.setPlan (some w2)
      e.still → exec .areaSearchExamine s = .next { s with part := e }
    let size := fun (b : BoundaryEntry) => ((p.valve? b.valve).map Valve.diameter).getD 0
    let before := fun (a b : BoundaryEntry) =>
      (a.action = .close ∧ b.action = .none) ∨ (a.action = .none ∧ b.action = .none ∧ a.valve ≤ b.valve) ∨
        (a.action = .close ∧ b.action = .close ∧ (size b < size a ∨ (size a = size b ∧ a.valve ≤ b.valve)))
    let taken := fun (w2 : Workspace) =>
      (w2.result ≠ none ∨ p.nextValve w2 ≠ none → answers w2) ∧
      (w2.result = none → p.nextValve w2 = none →
        ∃ l : List BoundaryEntry, l.Perm (w2.boundary.filter fun b => !p.interior w2.area b.valve) ∧ l.Pairwise before ∧
          answers { w2 with
            phase := .supplyWalk, frontier := [], todo := [], boundary := l
            reached := Table.keys (p.net.segments.filter fun e => e.2.source)
            walk := (Table.keys (p.net.segments.filter fun e => e.2.source)).flatMap p.pairsOf })
    (p.nextValve w = none → taken w) ∧
    (∀ g v vs front x, p.nextValve w = some (g, v :: vs, front) → p.valve? v = some x →
      let w1 := { w with taken := g, todo := vs, frontier := front, examined := w.examined ++ [v] }
      (x.segB = none → taken w1) ∧
      (∀ b, x.segB = some b →
        let far := if x.segA = g then b else x.segA
        let source := ∃ y, p.segment? far = some y ∧ y.source = true
        let open' := x.operability = .passing ∨ x.operability = .local ∨ x.operability = .outOfService
        let crossed := open' ∨ (x.standsShut = false ∧ p.usable x = false)
        let joins := fun (a : Action) => { w1 with boundary := w.boundary ++ [⟨v, a⟩] }
        let tooLarge := { w1 with result := some .planTooLarge }
        (crossed → source → taken { w1 with result := some .sourceInArea }) ∧
        (crossed → ¬source → far ∈ w.area → taken w1) ∧
        (crossed → ¬source → far ∉ w.area → w.area.length < 64 →
          taken { w1 with area := w.area ++ [far], frontier := front ++ [far] }) ∧
        (crossed → ¬source → far ∉ w.area → 64 ≤ w.area.length → taken tooLarge) ∧
        (¬crossed → 48 ≤ w.boundary.length → taken tooLarge) ∧
        (¬crossed → w.boundary.length < 48 → x.standsShut = true → taken (joins .none)) ∧
        (¬crossed → w.boundary.length < 48 → x.standsShut = false → taken (joins .close))))) ∧
  (∀ s : State, (∀ w, s.part.plan.plan = some w → w.phase = .supplyWalk ∨ w.result ≠ none) → s.part.still →
    exec .areaSearchExamine s = .next s) ∧
  (∀ (p : Part) (w : Workspace),
    (w.todo = [] → w.frontier = [] → p.nextValve w = none) ∧
    (∀ g fs y, w.todo = [] → w.frontier = g :: fs → p.segment? g = some y →
      p.nextValve w = p.nextValve { w with taken := g, todo := y.valves, frontier := fs }) ∧
    (∀ v vs, w.todo = v :: vs → v ∈ w.examined → p.nextValve w = p.nextValve { w with todo := vs }) ∧
    (∀ v vs, w.todo = v :: vs → v ∉ w.examined → p.nextValve w = some (w.taken, v :: vs, w.frontier)) ∧
    (∀ l v, p.interior l v = true ↔ ∃ x b, p.valve? v = some x ∧ x.segB = some b ∧ x.segA ∈ l ∧ b ∈ l))

/-- R78, R79: SUPPLY_WALK_REACH takes one pair of a reached segment and a valve of its list; with no pair left the walk has
ended and its result stands: `dry` is the collateral, `fire` the protected segments. The model's choices: one pair to a
command, and no change where no walk is in progress (log entry 6); the pairs in the order in which their segments were reached,
each segment's in list order (log entry 48). -/
def Obligations.SupplyWalk : Prop :=
  (∀ (s : State) (w : Workspace), s.part.plan.plan = some w → w.phase = .supplyWalk → w.result = none → s.part.canonical →
    let p := s.part
    let answers := fun (w2 : Workspace) =>
      let e := p.setPlan (some w2)
      e.still → exec .supplyWalkReach s = .next { s with part := e }
    let others := fun (f : Incident → Prop) => ∃ e ∈ p.inc.records, e.1 ≠ w.record ∧ f e.2
    let taken := fun (w2 : Workspace) =>
      (w2.walk ≠ [] → answers w2) ∧
      (∀ dry fire : List Nat, w2.walk = [] → dry.Pairwise (· < ·) → fire.Pairwise (· < ·) →
        (∀ g, g ∈ dry ↔ p.segment? g ≠ none ∧ g ∉ w2.area ∧ g ∉ w2.reached ∧ ¬others fun i => g ∈ i.area) →
        (∀ g, g ∈ fire ↔ ∃ y, p.segment? g = some y ∧ y.prot = true ∧ (g ∈ w2.area ∨ g ∈ dry)) →
        answers { w2 with result := some (.commit dry.length (fire.take 8)) })
    (w.walk = [] → taken w) ∧
    (∀ g v rest x, w.walk = (g, v) :: rest → p.valve? v = some x →
      let w1 := { w with walk := rest }
      (x.segB = none → taken w1) ∧
      (∀ b, x.segB = some b →
        let far := if x.segA = g then b else x.segA
        let stops := x.standsShut = true ∨ (∃ e ∈ w.boundary, e.valve = v ∧ e.action = .close) ∨
          others fun i => (∃ e ∈ i.boundary, e.valve = v) ∨ ∃ t ∈ i.touched, t.valve = v
        (stops ∨ far ∈ w.reached → taken w1) ∧
        (∀ y, ¬stops → far ∉ w.reached → p.segment? far = some y →
          taken { w1 with reached := w.reached ++ [far], walk := rest ++ y.valves.map fun u => (far, u) })))) ∧
  (∀ s : State, (∀ w, s.part.plan.plan = some w → w.phase = .areaSearch ∨ w.result ≠ none) → s.part.still →
    exec .supplyWalkReach s = .next s)

/-- R50, R51, R70, R72, R85, R88: PLAN_COMPLETE takes the result of a plan that has ended, and the planner grants again; and
what a commit and a CONFIRM hand to the sequencer (R44, R107 to R109, R111, R112, R119 to R122, R127): the roles and the
notice, the adjustment, the hand-over entry by entry, the waiting lists and the grants. The model's choices: that the
command changes nothing without an ended plan, and ends an empty walk itself (log entry 6); that a slot freed inside the
work of one command is granted when that work is done (log entry 12); that every CLOSE entry is handed over though an
earlier one has taken the incident out of CLOSING (log entry 23); that of several zones the lowest-numbered grants first
(log entry 25); that HALTED contexts that may go on are taken in ascending valve id, and before any grant (log entry 40);
that a grant's run serves the incidents in the order of the waiting list (log entry 46); that the waiting entry of an
incident left out of a grant stays out of the list (log entry 53). -/
def Obligations.PlanComplete : Prop :=
  (∀ (s : State) (w : Workspace) (res : PlanResult), s.part.plan.plan = some w → w.result = some res →
    let p := { s.part with plan := { s.part.plan with plan := none } }
    let r := w.record
    let taken := fun (e : Part) => e.grantPlan.still → exec .planComplete s = .next { s with part := e.grantPlan }
    ((∀ i, p.incident? r = some i → i.number ≠ w.number ∨ i.state ≠ .planning) →
      taken (p.record .planVoid (some w.number) none none)) ∧
    (∀ i, p.incident? r = some i → i.number = w.number → i.state = .planning →
      (res = .sourceInArea → taken (p.hold r .sourceInArea none)) ∧
      (res = .planTooLarge → taken (p.hold r .planTooLarge none)) ∧
      (∀ x, res = .disturbed x →
        let n := i.restarts + 1
        let q := ({ p with inc := { p.inc with records := Table.put p.inc.records r { i with restarts := n } } }).record
          .planDisturbed (some i.number) (some x) (some n)
        (n < 4 → taken (q.toPlanWait r id)) ∧ (4 ≤ n → taken (q.hold r .unstable none))) ∧
      (∀ c prot, res = .commit c prot →
        let l := i.touched ++ p.sharedJoins r i w.boundary
        let j := { i with
          area := w.area, boundary := w.boundary, collateral := c, prot := prot, restarts := 0
          touched := l.map fun t => { t with role := p.roleOf w.area w.boundary t.valve } }
        let q := fun (st : IncState) => ((p.putIncident r j).moveIncident r st id).notice .planCommitted (committedItems j)
        let asks := prot ≠ [] ∨ (p.zone i.zone).mode = .confirm
        let closes := ∃ b ∈ w.boundary, b.action = .close
        (64 < l.length → taken (p.hold r .planTooLarge none)) ∧
        (l.length ≤ 64 → asks →
          taken (((q .confirmWait).notice .confirmRequired
            [item (w16 i.number) (w16 (if prot = [] then 1 else 0))]).adjustBoundary r)) ∧
        (l.length ≤ 64 → ¬asks → closes → taken (((q .closing).adjustBoundary r).handOver r)) ∧
        (l.length ≤ 64 → ¬asks → ¬closes → taken (((q .verifying).adjustBoundary r).enterVerifying r))))) ∧
  -- a walk that began with nothing to reach completes as one that has ended (R79)
  (∀ (s : State) (w : Workspace) (dry fire : List Nat), s.part.plan.plan = some w → w.result = none → w.phase = .supplyWalk →
    w.walk = [] → s.part.canonical → dry.Pairwise (· < ·) → fire.Pairwise (· < ·) →
    let p := s.part
    (∀ g, g ∈ dry ↔ p.segment? g ≠ none ∧ g ∉ w.area ∧ g ∉ w.reached ∧
      ¬∃ e ∈ p.inc.records, e.1 ≠ w.record ∧ g ∈ e.2.area) →
    (∀ g, g ∈ fire ↔ ∃ y, p.segment? g = some y ∧ y.prot = true ∧ (g ∈ w.area ∨ g ∈ dry)) →
    exec .planComplete s = exec .planComplete
      { s with part := p.setPlan (some { w with result := some (.commit dry.length (fire.take 8)) }) }) ∧
  (∀ s : State, (∀ w, s.part.plan.plan = some w → w.result = none ∧ (w.phase = .areaSearch ∨ w.walk ≠ [])) → s.part.still →
    exec .planComplete s = .next s) ∧
  (∀ (p : Part) (r : Nat) (i : Incident) (b : List BoundaryEntry) (v : Nat),
    p.sharedJoins r i [] = [] ∧
    p.sharedJoins r i (⟨v, .close⟩ :: b) = p.sharedJoins r i b ∧
    (i.touches v = true ∨ (∀ e ∈ p.inc.records, e.1 ≠ r → e.2.touches v = false) →
      p.sharedJoins r i (⟨v, .none⟩ :: b) = p.sharedJoins r i b) ∧
    (∀ k j t, i.touches v = false → p.canonical → p.incident? k = some j → k ≠ r → t ∈ j.touched → t.valve = v →
      (j.touched.map TouchedEntry.valve).Nodup →
      (∀ k' j', p.incident? k' = some j' → k' ≠ r → j'.touches v = true → k ≤ k') →
      p.sharedJoins r i (⟨v, .none⟩ :: b) = ⟨v, t.prior, .boundary⟩ :: p.sharedJoins r i b)) ∧
  (∀ (p : Part) (a b : List PlanEntry) (e : PlanEntry) (i : Incident),
    (p.plan.plan ≠ none ∨ p.plan.queue = [] → p.grantPlan = p) ∧
    (p.plan.plan = none → p.plan.queue = a ++ e :: b → e ∉ a → e ∉ b →
      (∀ d ∈ a, p.urgencyOf d.record < p.urgencyOf e.record) → (∀ d ∈ b, p.urgencyOf d.record ≤ p.urgencyOf e.record) →
      p.incident? e.record = some i →
      let n := i.burst
      p.grantPlan = (({ p with plan := { p.plan with queue := a ++ b } }).moveIncident e.record .planning id).setPlan (some
        { record := e.record, number := e.number, phase := .areaSearch, area := [n], frontier := [n], taken := n, todo := [],
          examined := [], boundary := [], reached := [], walk := [],
          result := if p.isSource n then some .sourceInArea else none }))) ∧
  -- roles and the PLAN_COMMITTED notice (R44, 10.5)
  (∀ (p : Part) (area : List Nat) (l : List BoundaryEntry) (v : Nat) (i : Incident),
    let inside := ∃ x g, p.valve? v = some x ∧ x.segB = some g ∧ x.segA ∈ area ∧ g ∈ area
    ((∃ e ∈ l, e.valve = v) → p.roleOf area l v = .boundary) ∧
    ((∀ e ∈ l, e.valve ≠ v) → inside → p.roleOf area l v = .interior) ∧
    ((∀ e ∈ l, e.valve ≠ v) → ¬inside → p.roleOf area l v = .abandoned) ∧
    committedItems i =
      [item (w16 i.number) (w16 i.area.length),
       item (w16 (i.boundary.filter fun e => decide (e.action = .close)).length)
         (w16 (i.boundary.filter fun e => decide (e.action = .none)).length),
       item (w16 i.collateral) (w16 i.prot.length)] ++ pairUp (i.prot.map w16)) ∧
  -- the adjustment at a commit (R111, R119)
  (∀ (p : Part) (r : Nat) (i : Incident) (vs : List Nat), p.incident? r = some i → p.canonical → vs.Pairwise (· < ·) →
    (∀ v, v ∈ vs ↔ ∃ c, p.context? v = some c ∧ c.run = .closing ∧ ⟨v, .close⟩ ∉ i.boundary) →
    let q := vs.foldl (fun q v => q.leaveServes r v) p
    p.adjustBoundary r = { q with seq := { q.seq with
      waiting := q.seq.waiting.filter fun w =>
        decide ¬(w.record = r ∧ w.run = .closing ∧ BoundaryEntry.mk w.valve .close ∉ i.boundary)
      crew := q.seq.crew.filter fun c =>
        decide ¬(c.record = r ∧ c.restore = false ∧ BoundaryEntry.mk c.valve .close ∉ i.boundary) } }) ∧
  (∀ (p : Part) (r v : Nat) (c : StepCtx), p.context? v = some c →
    let left := c.serves.filter fun k => decide (k ≠ r)
    (r ∉ c.serves → p.leaveServes r v = p) ∧
    (r ∈ c.serves → left ≠ [] → p.leaveServes r v = p.putContext v { c with serves := left }) ∧
    (r ∈ c.serves → left = [] → c.phase = .travelling →
      p.leaveServes r v = p.putContext v { c with serves := [], dropAfterStep := true }) ∧
    (r ∈ c.serves → left = [] → c.phase ≠ .travelling → p.leaveServes r v = p.endContext v)) ∧
  -- the hand-over (R44, R120 to R122)
  (∀ (p : Part) (r : Nat) (i : Incident), p.incident? r = some i →
    p.handOver r = ((((i.boundary.filter fun e => decide (e.action = .close)).map BoundaryEntry.valve).foldl
      (fun q v => q.handEntry r v) p).settled).testVerify r) ∧
  (∀ (p : Part) (r v : Nat) (i : Incident) (x : Valve) (g : Segment),
    p.incident? r = some i → p.valve? v = some x → p.segment? x.segA = some g →
    let does := fun (q : Part) => p.handEntry r v = q
    let listed := ∃ t ∈ i.touched, t.valve = v
    let room := listed ∨ i.touched.length < 64
    let full := p.hold r .planTooLarge none
    let asked := ∃ c ∈ p.seq.crew, c.valve = v ∧ c.record = r ∧ c.restore = false
    let waits := ∃ w ∈ p.seq.waiting, w.valve = v ∧ w.record = r ∧ w.run = .closing
    let joined := { p with seq := { p.seq with waiting := p.seq.waiting ++ [WaitEntry.mk g.zone v r .closing] } }
    let touched := fun (prior : Option Nat) (q : Part) =>
      (listed → q = p) ∧ (¬listed → q = p.putIncident r { i with touched := i.touched ++ [⟨v, prior, .boundary⟩] })
    (x.kind = .manual → asked ∨ x.opening = some 0 → does p) ∧
    (x.kind = .manual → ¬asked → x.opening ≠ some 0 → ¬room → does full) ∧
    (∀ q, x.kind = .manual → ¬asked → x.opening ≠ some 0 → room → touched (some 100) q →
      does (({ q with seq := { q.seq with crew := q.seq.crew ++ [CrewReq.mk v r false .close] } }).notice .crewRequired
        [item (w16 i.number) (w16 v), item 0#16 0#16])) ∧
    (x.kind = .actuated → p.context? v = none → (waits → does p) ∧ (¬waits → does joined)) ∧
    (∀ c, x.kind = .actuated → p.context? v = some c →
      (r ∈ c.serves → c.phase = .halted → does (p.calcPoint id v)) ∧
      (r ∈ c.serves → c.phase ≠ .halted → does p) ∧
      (r ∉ c.serves → c.run = .restoring → (waits → does p) ∧ (¬waits → does joined)) ∧
      (r ∉ c.serves → c.run = .closing → ¬room → does full) ∧
      (∀ a, r ∉ c.serves → c.run = .closing → room → touched c.grantOpening a →
        let b := a.putContext v { c with serves := c.serves ++ [r], dropAfterStep := false }
        let q := { b with seq := { b.seq with
          waiting := b.seq.waiting.filter fun w => decide ¬(w.valve = v ∧ w.record = r ∧ w.run = .closing) } }
        (c.phase = .halted → does (q.calcPoint id v)) ∧ (c.phase ≠ .halted → does q)))) ∧
  -- waiting lists and grants (R107 to R109, R112, R127)
  (∀ (p : Part) (z : Nat),
    let place := fun (w : WaitEntry) (i : Incident) =>
      if w.run = .closing then i.boundary.findIdx fun e => decide (e.valve = w.valve)
      else i.touched.reverse.findIdx fun t => decide (t.valve = w.valve)
    (p.zoneList z).Perm (p.seq.waiting.filter fun w => decide (w.zone = z)) ∧
    (p.zoneList z).Pairwise fun a b => ∀ i j, p.incident? a.record = some i → p.incident? b.record = some j →
      j.urgency < i.urgency ∨ (i.urgency = j.urgency ∧
        (i.opened < j.opened ∨ (i.opened = j.opened ∧
          (a.record < b.record ∨ (a.record = b.record ∧ place a i ≤ place b j)))))) ∧
  (∀ (p : Part) (w : WaitEntry),
    let free := fun (y : Nat) => (p.seq.contexts.filter fun e => decide (e.2.zone = y)).length < (p.zone y).slots
    let ready := fun (e : WaitEntry) => p.mgmt.mode = .active ∧ p.context? e.valve = none ∧
      p.stateOf e.record = some (if e.run = .closing then .closing else .restoring)
    (p.eligible w = true ↔ ready w) ∧
    (p.nextGrant = none ↔ ∀ y, y < 64 → free y → ∀ e ∈ p.zoneList y, ¬ready e) ∧
    (p.nextGrant = some w ↔ ∃ z a b, z < 64 ∧ free z ∧ p.zoneList z = a ++ w :: b ∧ ready w ∧ (∀ e ∈ a, ¬ready e) ∧
      ∀ y, y < z → free y → ∀ e ∈ p.zoneList y, ¬ready e)) ∧
  (∀ (grants : Part → Part) (p : Part) (w : WaitEntry) (x : Valve), p.valve? w.valve = some x →
    let does := fun (q : Part) => p.grant grants w = q
    let begun := fun (rs : List Nat) (q : Part) => (q.putContext w.valve
      { zone := w.zone, run := w.run, serves := rs, grantOpening := x.opening, reached := none, phase := .halted,
        target := none, span := 0, dropAfterStep := false, travelDue := none, queryDue := none, pollDue := none,
        pollStart := 0, dwellDue := none }).startStep grants w.valve
    let without := fun (l : List WaitEntry) =>
      { p with seq := { p.seq with waiting := p.seq.waiting.filter fun e => decide (e ∉ l) } }
    let all := (p.zoneList w.zone).filter fun e => decide (e.valve = w.valve ∧ e.run = .closing) && p.eligible e
    let a := all.foldl (fun a e => Part.grantTo w.valve x.opening e a) (without all, [])
    (w.run = .restoring → 1 < x.holdCount → does ((without [w]).endTouched w.record w.valve false)) ∧
    (w.run = .restoring → x.holdCount ≤ 1 → does (begun [w.record] (without [w]))) ∧
    (w.run = .closing → a.2 = [] → does a.1) ∧
    (w.run = .closing → a.2 ≠ [] → does (begun a.2 a.1))) ∧
  (∀ (p : Part) (w : WaitEntry) (i : Incident) (o : Option Nat) (rs : List Nat), p.incident? w.record = some i →
    let v := w.valve
    let listed := ∃ t ∈ i.touched, t.valve = v
    (listed → Part.grantTo v o w (p, rs) = (p, rs ++ [w.record])) ∧
    (¬listed → i.touched.length < 64 → Part.grantTo v o w (p, rs) =
      (p.putIncident w.record { i with touched := i.touched ++ [⟨v, o, .boundary⟩] }, rs ++ [w.record])) ∧
    (¬listed → 64 ≤ i.touched.length → Part.grantTo v o w (p, rs) = (p.hold w.record .planTooLarge none, rs))) ∧
  (∀ (grants : Part → Part) (p : Part) (v : Nat) (c : StepCtx) (x : Valve), p.context? v = some c → p.valve? v = some x →
    (x.opening = none → p.startStep grants v = p.formQuery grants v x c) ∧
    (x.opening ≠ none → p.startStep grants v = p.calcPoint grants v)) ∧
  (∀ (p : Part) (w : WaitEntry), p.nextHalted = none →
    (p.nextGrant = none → p.settled = p) ∧
    (p.nextGrant = some w → (∀ g, p.grant g w = p.grant id w) → (p.grant id w).atRest → p.settled = p.grant id w)) ∧
  (∀ (p : Part) (v : Nat) (c : StepCtx), p.canonical → p.context? v = some c → c.phase = .halted →
    let serving := fun (d : StepCtx) (st : IncState) => ∃ r ∈ d.serves, p.stateOf r = some st
    let stays := fun (d : StepCtx) =>
      ¬(p.mgmt.mode = .active ∧ serving d (if d.run = .closing then .closing else .restoring)) ∧
      (p.mgmt.mode = .transparent ∨
        (d.run = .closing ∧ (serving d .planWait ∨ serving d .planning ∨ serving d .confirmWait)) ∨
        (d.run = .restoring ∧ serving d .restoring))
    ¬stays c → (∀ u d, u < v → p.context? u = some d → d.phase = .halted → stays d) →
      (∀ g, p.calcPoint g v = p.calcPoint id v) → (p.calcPoint id v).atRest → p.settled = p.calcPoint id v)

/-! ## Reading orders, and the operator's orders (chapters 1 to 4, 10) -/

/-- R21, R42, R67, R154, R178, R182, R186: the reading orders. A reply that has words without content takes them from the
model's counter, which goes on by 16; nothing else changes but the trace entries a READ_TRACE removes. The model's choices: the
free words and their places (log entry 17); word B of 0 after an odd count, and 65,535 for an absent optional word (log entry
33); the second item of a station shows PIN_LINE where it is SECURE, else LINE (log entry 34); the initial OPERABILITY of the
last load stands beside the running one (log entry 35). -/
def Obligations.ReadOrders : Prop :=
  (∀ (m : Mgmt) (wanted : Word) (s : State),
    let i : Instr := .readTrace m wanted
    let p := s.part.dropHanded i
    let n := min wanted.toNat 16
    let out := p.trace.fifo.take n
    let left := p.trace.fifo.drop n
    let e := { p with trace := { p.trace with fifo := left } }
    let data := item (w16 out.length) (w16 left.length) :: out.flatMap TraceEntry.items
    (wanted = 0#16 → p.quiet → s.takes i m p (.bare .badArgument)) ∧
    (1 ≤ wanted.toNat → wanted.toNat ≤ 16 → e.quiet → s.takes i m e ⟨.ok, data⟩) ∧
    (16 < wanted.toNat → e.quiet → s.takes i m e ⟨.okClamped, data⟩)) ∧
  (∀ (m : Mgmt) (s : State),
    let i : Instr := .readStatus m
    let p := s.part.dropHanded i
    let e := { p with mgmt := { p.mgmt with fresh := p.mgmt.fresh + 16 } }
    let word := fun (k : Nat) => Config.unstated (p.mgmt.fresh + k)
    let count := fun (f : Station → Bool) => (p.stations.entries.filter fun x => f x.2).length
    let cfg := count fun x => decide (x.kind = .configured)
    let lrn := count fun x => decide (x.kind = .learned)
    let silent := count fun x => decide (x.kind = .configured ∧ x.age = .silent)
    let record := fun (r : Nat) => match p.incident? r with
      | some j => item (w16 j.number) (w8 j.state.num 0)
      | none => item (word r) 0#16
    let planner := match p.plan.plan with
      | some w => item 1#16 (w8 w.number (if w.phase = .areaSearch then 0 else 1))
      | none => item 0#16 (word 8)
    let line := fun (l : LineState) =>
      [item (w8 l.queues.c3.length l.queues.c2.length) (w8 l.queues.c1.length l.queues.c0.length),
       item (w16 l.received) (w16 l.crcDrops), item (w16 l.queueDrops) 0#16]
    let slots := fun (z : Nat) => (p.seq.contexts.filter fun x => decide (x.2.zone = z)).length
    let waits := fun (z : Nat) => (p.seq.waiting.filter fun x => decide (x.zone = z)).length
    let zones := (List.range 64).filter fun z => decide (0 < slots z ∨ 0 < waits z)
    let urgency := fun (x : PlanEntry) => p.urgencyOf x.record
    ∀ order : List PlanEntry, order.Pairwise (fun a b => urgency b ≤ urgency a) →
      (∀ u, (order.filter fun x => decide (urgency x = u)) = p.plan.queue.filter fun x => decide (urgency x = u)) →
      e.quiet → s.takes i m e ⟨.ok,
        [item (w16 p.mgmt.mode.num) (w16 p.mgmt.noticeAddress),
         item (w16 p.mgmt.ownAddress) (w16 p.mgmt.notices.length),
         item (w16 p.stations.mode.num) (w16 p.stations.interval),
         item (w16 cfg) (w16 lrn),
         item (w16 (512 - (cfg + lrn))) (w16 silent)] ++
        (List.range 8).map record ++
        [planner, item (w16 p.plan.queue.length) 0#16] ++
        order.map (fun x => item (w16 x.number) (w16 (urgency x))) ++
        [Line.f0, .f1, .f2, .f3, .control].flatMap (fun l => line (p.line l)) ++
        [item (w16 p.counters.secureDrops) (w16 p.counters.blockedDrops),
         item (w16 p.counters.learnFailures) (w16 p.counters.unknownRejects),
         item (w16 p.counters.latchDiscards) (w16 p.counters.staleEchoes),
         item (w16 p.counters.noticesLost) (w16 p.trace.fifo.length),
         item (w16 zones.length) 0#16] ++
        zones.map fun z => item (w8 z (slots z)) (w16 (waits z))⟩) ∧
  (∀ (m : Mgmt) (number : Word) (s : State),
    let i : Instr := .readIncident m number
    let p := s.part.dropHanded i
    let n := number.toNat
    let bad := n = 0 ∨ 255 < n
    (bad → p.quiet → s.takes i m p (.bare .badArgument)) ∧
    (¬bad → (∀ r j, p.incident? r = some j → j.number ≠ n) → p.canonical → p.quiet → s.takes i m p (.bare .noSuch)) ∧
    (∀ r j, ¬bad → p.byNumber n = some (r, j) → p.quiet →
      s.takes i m p ⟨.ok,
        [item (w16 r) (w16 n),
         item (w8 j.origin.num j.zone) (w8 j.urgency j.state.num),
         item (w16 j.burst) (w8 ((j.heldReason.map HeldReason.num).getD 0) ((j.verdict.map Verdict.num).getD 0)),
         item (w16 j.repeats) (w8 j.restarts (flagNum j.restoreBegun + 2 * flagNum j.short)),
         timeItem j.opened,
         item (w16 j.collateral) (w16 j.prot.length),
         item (w16 j.area.length) (w16 j.boundary.length),
         item (w16 j.touched.length) 0#16] ++
          pairUp (j.prot.map w16) ++ pairUp (j.area.map w16) ++
          pairUp (j.boundary.map fun b => w16 (if b.action = .close then b.valve + 32768 else b.valve)) ++
          j.touched.map fun t => item (w16 t.valve) (w8 (t.prior.getD 255) t.role.num)⟩)) ∧
  (∀ (m : Mgmt) (table id : Word) (s : State),
    let i : Instr := .readEntry m table id
    let p := s.part.dropHanded i
    let t := table.toNat
    let n := id.toNat
    let bad := t = 0 ∨ 7 < t ∨ (t = 1 ∧ 2047 < n) ∨ (t = 2 ∧ 4095 < n) ∨ (t = 3 ∧ 7 < n) ∨ (t = 4 ∧ 15 < n) ∨ (t = 5 ∧ 511 < n) ∨
      (t = 6 ∧ 63 < n) ∨ (t = 7 ∧ (n = 0 ∨ n = 65535 ∨ n = p.mgmt.ownAddress))
    let free := (t = 1 ∧ p.segment? n = none) ∨ (t = 2 ∧ p.valve? n = none) ∨ (t = 3 ∧ p.material? n = none) ∨
      (t = 4 ∧ p.vclass? n = none) ∨ (t = 5 ∧ p.sensor? n = none) ∨ (t = 7 ∧ p.station? n = none)
    let e := { p with mgmt := { p.mgmt with fresh := p.mgmt.fresh + 16 } }
    let answers := fun (data : List Item) => e.quiet → s.takes i m e ⟨.ok, data⟩
    let word := fun (k : Nat) => Config.unstated (p.mgmt.fresh + k)
    let byte := fun (a : Nat) => BitVec.ofNat 8 a
    let flag := fun (b : Bool) => if b then 1 else 0
    let time := fun (o : Option Nat) (k : Nat) => match o with
      | some a => Item.mk 1#8 (byte (a / 65536)) (byte (a / 256)) (byte a)
      | none => ⟨0#8, (word k).lo, (word (k + 1)).hi, (word (k + 1)).lo⟩
    let lineOr := fun (l : Option Line) => match l with
      | some a => w16 (lineNum a)
      | none => 65535#16
    (bad → p.quiet → s.takes i m p (.bare .badArgument)) ∧
    (¬bad → free → p.quiet → s.takes i m p (.bare .noSuch)) ∧
    (∀ x, ¬bad → t = 1 → p.segment? n = some x →
      answers ([item (w16 n) (w16 x.zone), item (w8 (flagNum x.source) (flagNum x.prot)) (w16 x.static),
        item (optionalWord x.ref) 0#16, item (w16 x.valves.length) 0#16] ++ pairUp (x.valves.map w16))) ∧
    (∀ x, ¬bad → t = 2 → p.valve? n = some x → answers
      [item (w16 n) (w16 x.segA),
       item (w16 (x.segB.getD 65535)) (w8 x.kind.num x.normal.num),
       item (if x.kind = .actuated then w16 x.station else word 0)
         (if x.kind = .actuated then w8 x.channel (flag x.overridePermitted)
          else wordOf (word 1).lo (byte (flag x.overridePermitted))),
       item (w8 x.material x.vclass) (w8 x.initial.num 0),
       item (w16 x.velocity) (w16 x.diameter),
       item (w8 (x.opening.getD 255) x.operability.num) (w8 x.holdCount (x.moveTag.getD 0)),
       time x.positionTime 2,
       item (w8 (flag (p.usable x)) (flag x.countsAsClosed)) 0#16]) ∧
    (∀ x, ¬bad → t = 3 → p.material? n = some x → answers [item (w16 n) (w16 x.speed), item (w16 x.rating) 0#16]) ∧
    (∀ x, ¬bad → t = 4 → p.vclass? n = some x →
      let point := fun (k : Nat) => match x.profile[k]? with
        | some a => byte a
        | none => (word k).lo
      answers ([item (w16 n) (w16 x.profile.length)] ++ pairUp (x.curve.map w16) ++
        [⟨point 0, point 1, point 2, point 3⟩, ⟨point 4, point 5, point 6, point 7⟩,
         item (w16 x.t10) (w16 x.allowance), item (w16 x.dwell) (w16 x.poll)])) ∧
    (∀ x, ¬bad → t = 5 → p.sensor? n = some x →
      let valued := fun (w a : Word) => answers
        [item (w16 n) (w16 x.station), item (w8 x.channel x.kind.num) (w16 x.place), item (w16 x.bandLow) (w16 x.bandHigh),
         item (w8 x.persist 0) (w16 x.drop), item (w16 x.window) 0#16, item w a, time x.lastTime 1,
         item (w8 x.status.num x.countdown) (w8 x.side.num x.excursion.num)]
      (x.lastValue = none → valued (word 0) 0#16) ∧ (∀ a, x.lastValue = some a → valued (w16 a) 1#16)) ∧
    (∀ meters : List Nat, ¬bad → t = 6 → meters.Pairwise (· < ·) → p.canonical →
      (∀ k, k ∈ meters ↔ ∃ y, p.sensor? k = some y ∧ y.kind = .flow ∧ y.place = n) →
      let z := p.zone n
      let latched := fun (l : List Item) => answers
        ([item (w16 n) (w8 z.threshold z.slots), item (w16 z.margin) (w8 z.saturation.num z.urgency),
          item (w16 z.verifyWindow) (w16 z.drained),
          item (w8 z.mode.num (flag z.suspended)) (w8 z.counter (flag (p.lowPressure n)))] ++ l ++
          [item (w16 meters.length) 0#16] ++ pairUp (meters.map w16))
      (z.latch = none → latched [item 0#16 (word 0), item (word 1) (word 2), time none 3]) ∧
      (∀ y, z.latch = some y →
        latched [item 1#16 (w16 y.candidate), item (w16 y.cause.num) (w16 y.sensor), time (some y.raised) 3])) ∧
    (∀ k x, ¬bad → t = 7 → p.station? n = some (k, x) → answers
      [item (w16 x.address) (w8 (flag x.secure) (flag x.blocked)),
       item (lineOr (if x.secure then x.pinLine else x.line)) 0#16,
       item (w16 k) (w8 x.kind.num x.age.num),
       item (lineOr x.line) (if x.secure then lineOr x.pinLine else word 0),
       time x.heard 1]))

/-- R45, R48, R49: a DECLARE order, and the incident it opens: `n` is its NUMBER, the first from NEXT on that no record in use
holds, and `r` the lowest-numbered free record. The model's choice (log entry 10): an opening enters the planner queue, and an
idle planner grants, before the OPENED entry and the notice; the opening itself makes no STATE entry. -/
def Obligations.Declare : Prop :=
  (∀ (m : Mgmt) (segment urgency : Word) (s : State),
    let i : Instr := .declare m segment urgency
    let p := s.part.dropHanded i
    let g := segment.toNat
    let u := min urgency.toNat 3
    let bad := 2047 < g
    let free := p.segment? g = none
    let again := ∃ r j, p.incident? r = some j ∧ j.burst = g
    let within := fun (r : Nat) => ∃ j, p.incident? r = some j ∧ g ∈ j.area
    let full := ∀ r, r < 8 → p.incident? r ≠ none
    let result : Result := if 3 < urgency.toNat then .okClamped else .ok
    p.canonical →
    (bad → p.quiet → s.takes i m p (.bare .badArgument)) ∧
    (¬bad → free → p.quiet → s.takes i m p (.bare .noSuch)) ∧
    (¬bad → ¬free → again → p.quiet → s.takes i m p (.bare .duplicate)) ∧
    (∀ r j, ¬bad → ¬free → ¬again → p.incident? r = some j → g ∈ j.area → (∀ k, within k → r ≤ k) →
      let e := ({ p with inc := { p.inc with
        records := Table.put p.inc.records r { j with repeats := min 255 (j.repeats + 1) } } }).record .absorbed (some j.number)
          (some (.segment g)) (some 2)
      j.repeats ≤ 255 → e.quiet → s.takes i m e ⟨.absorbed, [item (w16 j.number) 0#16]⟩) ∧
    (¬bad → ¬free → ¬again → (∀ r, ¬within r) → full → p.quiet → s.takes i m p (.bare .tableFull)) ∧
    (∀ n, ¬bad → ¬free → ¬again → (∀ r, ¬within r) → ¬full → n = p.nextNumber →
      let e := p.openIncident .declared g u
      e.quiet → s.takes i m e ⟨result, [item (w16 n) 0#16]⟩)) ∧
  (∀ (p : Part) (origin : Origin) (g u r n : Nat) (x : Segment),
    p.incident? r = none → r < 8 → (∀ k, k < r → p.incident? k ≠ none) → p.segment? g = some x → n = p.nextNumber →
    let i : Incident :=
      { number := n, origin := origin, burst := g, zone := x.zone, urgency := u, state := .planWait, heldReason := none,
        repeats := 0, restarts := 0, area := [g], boundary := [], touched := [], collateral := 0, prot := [], verdict := none,
        opened := p.now, restoreBegun := false, short := false }
    let q := { p with inc := { records := Table.put p.inc.records r i, next := if n < 255 then n + 1 else 1 } }
    p.openIncident origin g u =
      (({ q with plan := { q.plan with queue := q.plan.queue ++ [PlanEntry.mk r n] } }).grantPlan.record .opened (some n)
        (some (.segment g)) none).notice .incidentOpened
          [item (w16 n) (w16 g), item (w8 origin.num x.zone) (w8 u 0)]) ∧
  (∀ (p : Part) (j : Nat), 1 ≤ p.inc.next → p.inc.next ≤ 255 → j ≤ 8 →
    let turn := fun (k : Nat) => (p.inc.next + k - 1) % 255 + 1
    let used := fun (n : Nat) => ∃ e ∈ p.inc.records, e.2.number = n
    (∀ k, k < j → used (turn k)) → ¬used (turn j) → p.nextNumber = turn j)

/-- R52, R58 to R62, R182: the orders that name an incident by its NUMBER; and what they set off: a record freed and its
hold counts (R46, R47, R64), the free records offered to the latched zones (R41), the end of a touched entry (R63) and the
dispatch of a restoration (R126, R128). The model's choices: a WIDEN announces the changed valves when all are written (log
entry 11), and refuses an ill-sized list before it looks for the incident (log entry 37); the grants of a dispatch follow it
(log entry 12); the crew requests and contexts of a freed record end with it (log entry 32). -/
def Obligations.IncidentOrders : Prop :=
  (∀ (m : Mgmt) (number count : Word) (ids : List Word) (s : State),
    let orders : List Instr :=
      [.confirm m number, .cancel m number, .restore m number, .resume m number, .widen m number count ids]
    let n := number.toNat
    let vs := (ids.take count.toNat).map BitVec.toNat
    let illSized := count.toNat = 0 ∨ 8 < count.toNat ∨ ids.length ≠ 2 * ((count.toNat + 1) / 2)
    let bad := n = 0 ∨ 255 < n
    (∀ i ∈ orders, bad ∨ (i = .widen m number count ids ∧ illSized) →
      let p := s.part.dropHanded i
      p.quiet → s.takes i m p (.bare .badArgument)) ∧
    (∀ i ∈ orders, ¬bad → (i = .widen m number count ids → ¬illSized) →
      let p := s.part.dropHanded i
      p.canonical → (∀ r j, p.incident? r = some j → j.number ≠ n) → p.quiet → s.takes i m p (.bare .noSuch)) ∧
    (∀ r j, ¬bad →
      (let i : Instr := .confirm m number
       let p := s.part.dropHanded i
       let closes := ∃ b ∈ j.boundary, b.action = .close
       let toClosing := (p.moveIncident r .closing id).handOver r
       p.byNumber n = some (r, j) →
       (j.state ≠ .confirmWait → p.quiet → s.takes i m p (.bare .wrongState)) ∧
       (j.state = .confirmWait → closes → toClosing.quiet → s.takes i m toClosing (.bare .ok)) ∧
       (j.state = .confirmWait → ¬closes → (p.enterVerifying r).quiet → s.takes i m (p.enterVerifying r) (.bare .ok))) ∧
      (let i : Instr := .cancel m number
       let p := s.part.dropHanded i
       let may := (j.state = .planWait ∨ j.state = .planning ∨ j.state = .confirmWait ∨ j.state = .held) ∧ j.touched = []
       let e := p.freeIncident r .cancelled
       p.byNumber n = some (r, j) →
       (¬may → p.quiet → s.takes i m p (.bare .wrongState)) ∧ (may → e.quiet → s.takes i m e (.bare .ok))) ∧
      (let i : Instr := .restore m number
       let p := s.part.dropHanded i
       let gone := p.freeIncident r (if j.short then .restoredPartial else .restored)
       let e := (((p.withdraw r).moveIncident r .restoring fun x =>
         { x with boundary := [], restoreBegun := true }).dispatchRestore r)
       p.byNumber n = some (r, j) →
       (j.state = .restoring → p.quiet → s.takes i m p (.bare .wrongState)) ∧
       (j.state ≠ .restoring → j.touched = [] → gone.quiet → s.takes i m gone (.bare .ok)) ∧
       (j.state ≠ .restoring → j.touched ≠ [] → e.quiet → s.takes i m e (.bare .ok))) ∧
      (let i : Instr := .resume m number
       let p := s.part.dropHanded i
       let may := j.state = .held ∧ j.restoreBegun = false
       let e := p.toPlanWait r fun x => { x with restarts := 0 }
       p.byNumber n = some (r, j) →
       (¬may → p.quiet → s.takes i m p (.bare .wrongState)) ∧ (may → e.quiet → s.takes i m e (.bare .ok))) ∧
      (let i : Instr := .widen m number count ids
       let p := s.part.dropHanded i
       let wide := (∃ v ∈ vs, 4095 < v) ∨ ¬vs.Nodup
       let may := j.state = .notTight ∨ j.state = .isolated
       let stray := ∃ v ∈ vs, ∀ b ∈ j.boundary, b.valve ≠ v
       let w := vs.foldl (fun q v => q.writeOper v .passing) p
       let e := ((vs.filter fun v => p.operOf v ≠ w.operOf v).foldl
         (fun q v => q.announce ⟨.valve v, false, true, false, false⟩) w).toPlanWait r id
       p.byNumber n = some (r, j) → ¬illSized →
       (wide → p.quiet → s.takes i m p (.bare .badArgument)) ∧
       (¬wide → ¬may → p.quiet → s.takes i m p (.bare .wrongState)) ∧
       (¬wide → may → stray → p.quiet → s.takes i m p (.bare .noSuch)) ∧
       (¬wide → may → ¬stray → e.quiet → s.takes i m e (.bare .ok))))) ∧
  -- freeing a record (R41, R46, R47, R64)
  (∀ (p : Part) (r : Nat) (i : Incident) (outcome : IncOutcome), p.incident? r = some i →
    let q := p.removeIncident r
    let q := { q with
      plan := { q.plan with queue := q.plan.queue.filter fun e => decide (e.record ≠ r) }
      ver := Table.remove q.ver r
      seq := { q.seq with waiting := q.seq.waiting.filter fun w => decide (w.record ≠ r) } }
    let q := (Table.keys q.seq.contexts).foldl (fun q v => q.leaveServes r v) q
    let q := { q with seq := { q.seq with crew := q.seq.crew.filter fun c => decide (c.record ≠ r) } }
    p.freeIncident r outcome = ((q.record .ended (some i.number) none (some outcome.num)).notice .ended
      [item (w16 i.number) (w16 i.burst), item (w16 outcome.num) (w16 i.repeats)]).offerRecords) ∧
  (∀ (p : Part) (r : Nat) (i j : Incident), p.incident? r = some i →
    let holds := fun (k : Incident) (v : Nat) => (∃ t ∈ k.touched, t.valve = v) ∨ ⟨v, .close⟩ ∈ k.boundary
    let gone := p.removeIncident r
    let written := p.putIncident r j
    gone = { p with inc := gone.inc, net := { p.net with valves := gone.net.valves } } ∧
    gone.inc = { p.inc with records := Table.remove p.inc.records r } ∧
    written = { p with inc := written.inc, net := { p.net with valves := written.net.valves } } ∧
    written.inc = { p.inc with records := Table.put p.inc.records r j } ∧
    (∀ v, p.valve? v = none → gone.valve? v = none ∧ written.valve? v = none) ∧
    (∀ v x, p.valve? v = some x →
      (holds i v → gone.valve? v = some { x with holdCount := x.holdCount - 1 }) ∧
      (¬holds i v → gone.valve? v = some x) ∧
      (holds i v → ¬holds j v → written.valve? v = some { x with holdCount := x.holdCount - 1 }) ∧
      (¬holds i v → holds j v → written.valve? v = some { x with holdCount := x.holdCount + 1 }) ∧
      ((holds i v ↔ holds j v) → written.valve? v = some x))) ∧
  (∀ p : Part,
    let offered := fun (q : Part) (z : Nat) =>
      if q.freeRecord ≠ none ∧ (q.zone z).mode ≠ .inhibit ∧ (q.zone z).suspended = false then q.releaseLatch z else q
    (p.mgmt.mode = .transparent → p.offerRecords = p) ∧
    (p.mgmt.mode = .active → p.offerRecords = (List.range 64).foldl offered p) ∧
    (∀ z, (p.zone z).latch = none → p.releaseLatch z = p) ∧
    (∀ z x, (p.zone z).latch = some x →
      p.releaseLatch z = (p.putZone z { p.zone z with latch := none }).routeSuspect (some z) x)) ∧
  -- the end of a touched entry (R63)
  (∀ (p : Part) (r v : Nat) (i : Incident) (short : Bool), p.incident? r = some i →
    let j := { i with touched := i.touched.filter fun t => decide (t.valve ≠ v), short := i.short || short }
    let q := p.putIncident r j
    let last := j.touched = [] ∧ i.state = .restoring
    ((∀ t ∈ i.touched, t.valve ≠ v) → p.endTouched r v short = p) ∧
    ((∃ t ∈ i.touched, t.valve = v) → ¬last → p.endTouched r v short = q) ∧
    ((∃ t ∈ i.touched, t.valve = v) → last →
      p.endTouched r v short = q.freeIncident r (if j.short then .restoredPartial else .restored))) ∧
  -- restoration (R126 to R128)
  (∀ (p : Part) (r : Nat) (i : Incident), p.incident? r = some i →
    let q := { p with seq := { p.seq with waiting := p.seq.waiting.filter fun w => decide ¬(w.record = r ∧ w.run = .closing) } }
    let q := (Table.keys q.seq.contexts).foldl (fun q v => Part.reverseContext r q v) q
    let q := { q with seq := { q.seq with crew := q.seq.crew.filter fun c => decide ¬(c.record = r ∧ c.restore = false) } }
    p.dispatchRestore r =
      ((i.touched.reverse.map TouchedEntry.valve).foldl (fun q v => q.dispatchEntry r i.number v) q).settled) ∧
  (∀ (p : Part) (r v : Nat) (c : StepCtx), p.context? v = some c →
    let turned := p.putContext v { c with run := .restoring }
    let does := fun (q : Part) => Part.reverseContext r p v = q
    (c.run = .restoring ∨ r ∉ c.serves → does p) ∧
    (c.run = .closing → r ∈ c.serves → c.serves ≠ [r] →
      does (p.putContext v { c with serves := c.serves.filter fun k => decide (k ≠ r) })) ∧
    (c.run = .closing → c.serves = [r] → c.phase = .halted → p.mgmt.mode = .active → does (turned.calcPoint id v)) ∧
    (c.run = .closing → c.serves = [r] → c.phase ≠ .halted ∨ p.mgmt.mode = .transparent → does turned)) ∧
  (∀ (p : Part) (r v : Nat) (i : Incident) (x : Valve) (g : Segment) (t : TouchedEntry) (a b : List TouchedEntry),
    p.incident? r = some i → p.valve? v = some x → p.segment? x.segA = some g →
    i.touched = a ++ t :: b → t.valve = v → (∀ u ∈ a, u.valve ≠ v) →
    let does := fun (q : Part) => p.dispatchEntry r i.number v = q
    let target := t.prior.getD (if x.normal = .closed then 0 else 100)
    let left := (∃ c, p.context? v = some c ∧ r ∈ c.serves) ∨
      ∃ w ∈ p.seq.waiting, w.valve = v ∧ w.record = r ∧ w.run = .restoring
    let moves := i.state = .restoring ∧ ¬left ∧ x.holdCount ≤ 1 ∧ x.opening ≠ some target
    let asked := ∃ c ∈ p.seq.crew, c.valve = v ∧ c.record = r ∧ c.restore = true
    let asks := fun (d : CrewDir) =>
      ({ p with seq := { p.seq with crew := p.seq.crew ++ [CrewReq.mk v r true d] } }).notice .crewRequired
        [item (w16 i.number) (w16 v), item (w16 d.num) 0#16]
    (i.state ≠ .restoring ∨ left → does p) ∧
    (∀ n, n ≠ i.number → p.dispatchEntry r n v = p) ∧
    (i.state = .restoring → ¬left → 1 < x.holdCount ∨ x.opening = some target → does (p.endTouched r v false)) ∧
    (moves → x.kind = .actuated →
      does { p with seq := { p.seq with waiting := p.seq.waiting ++ [WaitEntry.mk g.zone v r .restoring] } }) ∧
    (moves → x.kind = .manual → asked → does p) ∧
    (moves → x.kind = .manual → ¬asked → target = 0 → does (asks .close)) ∧
    (moves → x.kind = .manual → ¬asked → target ≠ 0 → does (asks .opened)))

/-- R19, R50, R53, R54, R56, R69, R81 to R84: what a disturbance does to the plan in flight and to an incident, and how an
incident returns to PLAN_WAIT or is held. The model's choice (log entry 11): an announced disturbance goes to the planner, and
then to the incident records in ascending number. -/
def Obligations.Disturbances : Prop :=
  (∀ (p : Part) (x : Subject),
    (p.plan.plan = none → p.markPlan x = p) ∧
    (∀ w, p.plan.plan = some w →
      let meets := w.phase = .supplyWalk ∨ (∃ v ∈ w.examined, x = .valve v) ∨ (∃ g ∈ w.area, x = .segment g)
      (w.result ≠ none ∨ ¬meets → p.markPlan x = p) ∧
      (w.result = none → meets → p.markPlan x = p.setPlan (some { w with result := some (.disturbed x) })))) ∧
  (∀ (p : Part) (d : Disturb) (r : Nat) (i : Incident), p.incident? r = some i →
    let back := p.testIncident d r = p.planChanged r d.subject
    let stays := p.testIncident d r = p
    (i.state = .confirmWait → ∀ g, d.subject = .segment g → (g ∈ i.area → back) ∧ (g ∉ i.area → stays)) ∧
    (i.state = .confirmWait → ∀ v, d.subject = .valve v →
      let meets := (∃ b ∈ i.boundary, b.valve = v) ∨ (∃ t ∈ i.touched, t.valve = v) ∨
        ∃ x, p.valve? v = some x ∧ (x.segA ∈ i.area ∨ ∃ b ∈ i.area, x.segB = some b)
      (meets → back) ∧ (¬meets → stays)) ∧
    (∀ v x, d.subject = .valve v → p.valve? v = some x →
      let lost := (d.oper = true ∨ d.station = true) ∧ (∃ b ∈ i.boundary, b = ⟨v, .close⟩) ∧ x.opening ≠ some 0 ∧ p.usable x = false
      let leaks := d.closed = true ∧ (∃ b ∈ i.boundary, b = ⟨v, .none⟩) ∧ (x.opening = some 1 ∨ x.opening = some 2)
      (i.state = .closing → (lost ∨ leaks → back) ∧ (¬lost → ¬leaks → stays)) ∧
      (i.state = .verifying → (leaks → back) ∧ (¬leaks → stays))) ∧
    (i.state ≠ .confirmWait → i.state ≠ .closing → i.state ≠ .verifying → stays)) ∧
  (∀ (p : Part) (r : Nat) (i : Incident) (x : Subject), p.incident? r = some i →
    let moved := fun (st : IncState) (q : Part) =>
      let j := { i with state := st, heldReason := none, verdict := none }
      let q := ({ q with inc := { q.inc with records := Table.put q.inc.records r j } }).removeVerify r
      if i.state = st then q else q.record .state (some i.number) none (some st.num)
    let queued := fun (q : Part) => ({ q with plan := { q.plan with queue := q.plan.queue ++ [PlanEntry.mk r i.number] } }).grantPlan
    let held := fun (why : HeldReason) (q : Part) =>
      let j := { i with state := .held, heldReason := some why, verdict := none }
      let q := { q with plan := { q.plan with queue := q.plan.queue.filter fun e => decide (e.record ≠ r) } }
      let q := ({ q with inc := { q.inc with records := Table.put q.inc.records r j } }).removeVerify r
      if i.state = .held then q else q.record .state (some i.number) none (some 8)
    let named := fun (id kind : Nat) => [item (w16 i.number) (w16 id), item (w16 kind) 0#16]
    (∀ g, x = .segment g → p.planChanged r x = (queued (moved .planWait p)).notice .planChanged (named g 1)) ∧
    (∀ v, x = .valve v → p.planChanged r x = (queued (moved .planWait p)).notice .planChanged (named v 2)) ∧
    (∀ why v, p.hold r why (some v) = (held why p).notice .held
      [item (w16 i.number) (w16 why.num), item (w16 v) 0#16]) ∧
    (∀ why, p.hold r why none = (held why p).notice .held [item (w16 i.number) (w16 why.num), item 65535#16 0#16])) ∧
  (∀ (p : Part) (d : Disturb),
    p.announce d = (List.range 8).foldl (fun q r => q.testIncident d r) (p.markPlan d.subject) ∧
    (∀ r, p.incident? r = none → p.testIncident d r = p) ∧
    (∀ r i g, p.incident? r = some i → d.subject = .segment g → i.state = .closing ∨ i.state = .verifying →
      p.testIncident d r = p))
end

