-- ==== Sys2Proof/Laws/State.lean ====
section
/-! SUPPORT. One lemma for each field after each update of the part: what the update leaves, and what it writes. -/

namespace Sys2Proof.Machine

/-! ## putSegment -/

@[simp] theorem Part.putSegment_now (p : Part) (i : Nat) (x : Segment) : (p.putSegment i x).now = p.now := rfl
@[simp] theorem Part.putSegment_trunk (p : Part) (i : Nat) (x : Segment) : (p.putSegment i x).trunk = p.trunk := rfl
@[simp] theorem Part.putSegment_stations (p : Part) (i : Nat) (x : Segment) :
    (p.putSegment i x).stations = p.stations := rfl
@[simp] theorem Part.putSegment_net_segments (p : Part) (i : Nat) (x : Segment) :
    (p.putSegment i x).net.segments = Table.put p.net.segments i x := rfl
@[simp] theorem Part.putSegment_net_valves (p : Part) (i : Nat) (x : Segment) :
    (p.putSegment i x).net.valves = p.net.valves := rfl
@[simp] theorem Part.putSegment_net_materials (p : Part) (i : Nat) (x : Segment) :
    (p.putSegment i x).net.materials = p.net.materials := rfl
@[simp] theorem Part.putSegment_net_vclasses (p : Part) (i : Nat) (x : Segment) :
    (p.putSegment i x).net.vclasses = p.net.vclasses := rfl
@[simp] theorem Part.putSegment_net_channels (p : Part) (i : Nat) (x : Segment) :
    (p.putSegment i x).net.channels = p.net.channels := rfl
@[simp] theorem Part.putSegment_watch (p : Part) (i : Nat) (x : Segment) : (p.putSegment i x).watch = p.watch := rfl
@[simp] theorem Part.putSegment_inc (p : Part) (i : Nat) (x : Segment) : (p.putSegment i x).inc = p.inc := rfl
@[simp] theorem Part.putSegment_plan (p : Part) (i : Nat) (x : Segment) : (p.putSegment i x).plan = p.plan := rfl
@[simp] theorem Part.putSegment_seq (p : Part) (i : Nat) (x : Segment) : (p.putSegment i x).seq = p.seq := rfl
@[simp] theorem Part.putSegment_ver (p : Part) (i : Nat) (x : Segment) : (p.putSegment i x).ver = p.ver := rfl
@[simp] theorem Part.putSegment_mgmt (p : Part) (i : Nat) (x : Segment) : (p.putSegment i x).mgmt = p.mgmt := rfl
@[simp] theorem Part.putSegment_trace (p : Part) (i : Nat) (x : Segment) : (p.putSegment i x).trace = p.trace := rfl
@[simp] theorem Part.putSegment_counters (p : Part) (i : Nat) (x : Segment) :
    (p.putSegment i x).counters = p.counters := rfl

/-! ## removeSegment -/

@[simp] theorem Part.removeSegment_now (p : Part) (i : Nat) : (p.removeSegment i).now = p.now := rfl
@[simp] theorem Part.removeSegment_trunk (p : Part) (i : Nat) : (p.removeSegment i).trunk = p.trunk := rfl
@[simp] theorem Part.removeSegment_stations (p : Part) (i : Nat) : (p.removeSegment i).stations = p.stations := rfl
@[simp] theorem Part.removeSegment_net_segments (p : Part) (i : Nat) :
    (p.removeSegment i).net.segments = Table.remove p.net.segments i := rfl
@[simp] theorem Part.removeSegment_net_valves (p : Part) (i : Nat) :
    (p.removeSegment i).net.valves = p.net.valves := rfl
@[simp] theorem Part.removeSegment_net_materials (p : Part) (i : Nat) :
    (p.removeSegment i).net.materials = p.net.materials := rfl
@[simp] theorem Part.removeSegment_net_vclasses (p : Part) (i : Nat) :
    (p.removeSegment i).net.vclasses = p.net.vclasses := rfl
@[simp] theorem Part.removeSegment_net_channels (p : Part) (i : Nat) :
    (p.removeSegment i).net.channels = p.net.channels := rfl
@[simp] theorem Part.removeSegment_watch (p : Part) (i : Nat) : (p.removeSegment i).watch = p.watch := rfl
@[simp] theorem Part.removeSegment_inc (p : Part) (i : Nat) : (p.removeSegment i).inc = p.inc := rfl
@[simp] theorem Part.removeSegment_plan (p : Part) (i : Nat) : (p.removeSegment i).plan = p.plan := rfl
@[simp] theorem Part.removeSegment_seq (p : Part) (i : Nat) : (p.removeSegment i).seq = p.seq := rfl
@[simp] theorem Part.removeSegment_ver (p : Part) (i : Nat) : (p.removeSegment i).ver = p.ver := rfl
@[simp] theorem Part.removeSegment_mgmt (p : Part) (i : Nat) : (p.removeSegment i).mgmt = p.mgmt := rfl
@[simp] theorem Part.removeSegment_trace (p : Part) (i : Nat) : (p.removeSegment i).trace = p.trace := rfl
@[simp] theorem Part.removeSegment_counters (p : Part) (i : Nat) : (p.removeSegment i).counters = p.counters := rfl

/-! ## putValve -/

@[simp] theorem Part.putValve_now (p : Part) (i : Nat) (x : Valve) : (p.putValve i x).now = p.now := rfl
@[simp] theorem Part.putValve_trunk (p : Part) (i : Nat) (x : Valve) : (p.putValve i x).trunk = p.trunk := rfl
@[simp] theorem Part.putValve_stations (p : Part) (i : Nat) (x : Valve) :
    (p.putValve i x).stations = p.stations := rfl
@[simp] theorem Part.putValve_net_segments (p : Part) (i : Nat) (x : Valve) :
    (p.putValve i x).net.segments = p.net.segments := rfl
@[simp] theorem Part.putValve_net_valves (p : Part) (i : Nat) (x : Valve) :
    (p.putValve i x).net.valves = Table.put p.net.valves i x := rfl
@[simp] theorem Part.putValve_net_materials (p : Part) (i : Nat) (x : Valve) :
    (p.putValve i x).net.materials = p.net.materials := rfl
@[simp] theorem Part.putValve_net_vclasses (p : Part) (i : Nat) (x : Valve) :
    (p.putValve i x).net.vclasses = p.net.vclasses := rfl
@[simp] theorem Part.putValve_net_channels (p : Part) (i : Nat) (x : Valve) :
    (p.putValve i x).net.channels = p.net.channels := rfl
@[simp] theorem Part.putValve_watch (p : Part) (i : Nat) (x : Valve) : (p.putValve i x).watch = p.watch := rfl
@[simp] theorem Part.putValve_inc (p : Part) (i : Nat) (x : Valve) : (p.putValve i x).inc = p.inc := rfl
@[simp] theorem Part.putValve_plan (p : Part) (i : Nat) (x : Valve) : (p.putValve i x).plan = p.plan := rfl
@[simp] theorem Part.putValve_seq (p : Part) (i : Nat) (x : Valve) : (p.putValve i x).seq = p.seq := rfl
@[simp] theorem Part.putValve_ver (p : Part) (i : Nat) (x : Valve) : (p.putValve i x).ver = p.ver := rfl
@[simp] theorem Part.putValve_mgmt (p : Part) (i : Nat) (x : Valve) : (p.putValve i x).mgmt = p.mgmt := rfl
@[simp] theorem Part.putValve_trace (p : Part) (i : Nat) (x : Valve) : (p.putValve i x).trace = p.trace := rfl
@[simp] theorem Part.putValve_counters (p : Part) (i : Nat) (x : Valve) :
    (p.putValve i x).counters = p.counters := rfl

/-! ## removeValve -/

@[simp] theorem Part.removeValve_now (p : Part) (i : Nat) : (p.removeValve i).now = p.now := rfl
@[simp] theorem Part.removeValve_trunk (p : Part) (i : Nat) : (p.removeValve i).trunk = p.trunk := rfl
@[simp] theorem Part.removeValve_stations (p : Part) (i : Nat) : (p.removeValve i).stations = p.stations := rfl
@[simp] theorem Part.removeValve_net_segments (p : Part) (i : Nat) :
    (p.removeValve i).net.segments = p.net.segments := rfl
@[simp] theorem Part.removeValve_net_valves (p : Part) (i : Nat) :
    (p.removeValve i).net.valves = Table.remove p.net.valves i := rfl
@[simp] theorem Part.removeValve_net_materials (p : Part) (i : Nat) :
    (p.removeValve i).net.materials = p.net.materials := rfl
@[simp] theorem Part.removeValve_net_vclasses (p : Part) (i : Nat) :
    (p.removeValve i).net.vclasses = p.net.vclasses := rfl
@[simp] theorem Part.removeValve_net_channels (p : Part) (i : Nat) :
    (p.removeValve i).net.channels = p.net.channels := rfl
@[simp] theorem Part.removeValve_watch (p : Part) (i : Nat) : (p.removeValve i).watch = p.watch := rfl
@[simp] theorem Part.removeValve_inc (p : Part) (i : Nat) : (p.removeValve i).inc = p.inc := rfl
@[simp] theorem Part.removeValve_plan (p : Part) (i : Nat) : (p.removeValve i).plan = p.plan := rfl
@[simp] theorem Part.removeValve_seq (p : Part) (i : Nat) : (p.removeValve i).seq = p.seq := rfl
@[simp] theorem Part.removeValve_ver (p : Part) (i : Nat) : (p.removeValve i).ver = p.ver := rfl
@[simp] theorem Part.removeValve_mgmt (p : Part) (i : Nat) : (p.removeValve i).mgmt = p.mgmt := rfl
@[simp] theorem Part.removeValve_trace (p : Part) (i : Nat) : (p.removeValve i).trace = p.trace := rfl
@[simp] theorem Part.removeValve_counters (p : Part) (i : Nat) : (p.removeValve i).counters = p.counters := rfl

/-! ## adjustValve -/

@[simp] theorem Part.adjustValve_now (p : Part) (i : Nat) (f : Valve → Valve) : (p.adjustValve i f).now = p.now := rfl
@[simp] theorem Part.adjustValve_trunk (p : Part) (i : Nat) (f : Valve → Valve) :
    (p.adjustValve i f).trunk = p.trunk := rfl
@[simp] theorem Part.adjustValve_stations (p : Part) (i : Nat) (f : Valve → Valve) :
    (p.adjustValve i f).stations = p.stations := rfl
@[simp] theorem Part.adjustValve_net_segments (p : Part) (i : Nat) (f : Valve → Valve) :
    (p.adjustValve i f).net.segments = p.net.segments := rfl
@[simp] theorem Part.adjustValve_net_valves (p : Part) (i : Nat) (f : Valve → Valve) :
    (p.adjustValve i f).net.valves = Table.adjust p.net.valves i f := rfl
@[simp] theorem Part.adjustValve_net_materials (p : Part) (i : Nat) (f : Valve → Valve) :
    (p.adjustValve i f).net.materials = p.net.materials := rfl
@[simp] theorem Part.adjustValve_net_vclasses (p : Part) (i : Nat) (f : Valve → Valve) :
    (p.adjustValve i f).net.vclasses = p.net.vclasses := rfl
@[simp] theorem Part.adjustValve_net_channels (p : Part) (i : Nat) (f : Valve → Valve) :
    (p.adjustValve i f).net.channels = p.net.channels := rfl
@[simp] theorem Part.adjustValve_watch (p : Part) (i : Nat) (f : Valve → Valve) :
    (p.adjustValve i f).watch = p.watch := rfl
@[simp] theorem Part.adjustValve_inc (p : Part) (i : Nat) (f : Valve → Valve) : (p.adjustValve i f).inc = p.inc := rfl
@[simp] theorem Part.adjustValve_plan (p : Part) (i : Nat) (f : Valve → Valve) :
    (p.adjustValve i f).plan = p.plan := rfl
@[simp] theorem Part.adjustValve_seq (p : Part) (i : Nat) (f : Valve → Valve) : (p.adjustValve i f).seq = p.seq := rfl
@[simp] theorem Part.adjustValve_ver (p : Part) (i : Nat) (f : Valve → Valve) : (p.adjustValve i f).ver = p.ver := rfl
@[simp] theorem Part.adjustValve_mgmt (p : Part) (i : Nat) (f : Valve → Valve) :
    (p.adjustValve i f).mgmt = p.mgmt := rfl
@[simp] theorem Part.adjustValve_trace (p : Part) (i : Nat) (f : Valve → Valve) :
    (p.adjustValve i f).trace = p.trace := rfl
@[simp] theorem Part.adjustValve_counters (p : Part) (i : Nat) (f : Valve → Valve) :
    (p.adjustValve i f).counters = p.counters := rfl

/-! ## putMaterial -/

@[simp] theorem Part.putMaterial_now (p : Part) (i : Nat) (x : Material) : (p.putMaterial i x).now = p.now := rfl
@[simp] theorem Part.putMaterial_trunk (p : Part) (i : Nat) (x : Material) :
    (p.putMaterial i x).trunk = p.trunk := rfl
@[simp] theorem Part.putMaterial_stations (p : Part) (i : Nat) (x : Material) :
    (p.putMaterial i x).stations = p.stations := rfl
@[simp] theorem Part.putMaterial_net_segments (p : Part) (i : Nat) (x : Material) :
    (p.putMaterial i x).net.segments = p.net.segments := rfl
@[simp] theorem Part.putMaterial_net_valves (p : Part) (i : Nat) (x : Material) :
    (p.putMaterial i x).net.valves = p.net.valves := rfl
@[simp] theorem Part.putMaterial_net_materials (p : Part) (i : Nat) (x : Material) :
    (p.putMaterial i x).net.materials = Table.put p.net.materials i x := rfl
@[simp] theorem Part.putMaterial_net_vclasses (p : Part) (i : Nat) (x : Material) :
    (p.putMaterial i x).net.vclasses = p.net.vclasses := rfl
@[simp] theorem Part.putMaterial_net_channels (p : Part) (i : Nat) (x : Material) :
    (p.putMaterial i x).net.channels = p.net.channels := rfl
@[simp] theorem Part.putMaterial_watch (p : Part) (i : Nat) (x : Material) :
    (p.putMaterial i x).watch = p.watch := rfl
@[simp] theorem Part.putMaterial_inc (p : Part) (i : Nat) (x : Material) : (p.putMaterial i x).inc = p.inc := rfl
@[simp] theorem Part.putMaterial_plan (p : Part) (i : Nat) (x : Material) : (p.putMaterial i x).plan = p.plan := rfl
@[simp] theorem Part.putMaterial_seq (p : Part) (i : Nat) (x : Material) : (p.putMaterial i x).seq = p.seq := rfl
@[simp] theorem Part.putMaterial_ver (p : Part) (i : Nat) (x : Material) : (p.putMaterial i x).ver = p.ver := rfl
@[simp] theorem Part.putMaterial_mgmt (p : Part) (i : Nat) (x : Material) : (p.putMaterial i x).mgmt = p.mgmt := rfl
@[simp] theorem Part.putMaterial_trace (p : Part) (i : Nat) (x : Material) :
    (p.putMaterial i x).trace = p.trace := rfl
@[simp] theorem Part.putMaterial_counters (p : Part) (i : Nat) (x : Material) :
    (p.putMaterial i x).counters = p.counters := rfl

/-! ## removeMaterial -/

@[simp] theorem Part.removeMaterial_now (p : Part) (i : Nat) : (p.removeMaterial i).now = p.now := rfl
@[simp] theorem Part.removeMaterial_trunk (p : Part) (i : Nat) : (p.removeMaterial i).trunk = p.trunk := rfl
@[simp] theorem Part.removeMaterial_stations (p : Part) (i : Nat) : (p.removeMaterial i).stations = p.stations := rfl
@[simp] theorem Part.removeMaterial_net_segments (p : Part) (i : Nat) :
    (p.removeMaterial i).net.segments = p.net.segments := rfl
@[simp] theorem Part.removeMaterial_net_valves (p : Part) (i : Nat) :
    (p.removeMaterial i).net.valves = p.net.valves := rfl
@[simp] theorem Part.removeMaterial_net_materials (p : Part) (i : Nat) :
    (p.removeMaterial i).net.materials = Table.remove p.net.materials i := rfl
@[simp] theorem Part.removeMaterial_net_vclasses (p : Part) (i : Nat) :
    (p.removeMaterial i).net.vclasses = p.net.vclasses := rfl
@[simp] theorem Part.removeMaterial_net_channels (p : Part) (i : Nat) :
    (p.removeMaterial i).net.channels = p.net.channels := rfl
@[simp] theorem Part.removeMaterial_watch (p : Part) (i : Nat) : (p.removeMaterial i).watch = p.watch := rfl
@[simp] theorem Part.removeMaterial_inc (p : Part) (i : Nat) : (p.removeMaterial i).inc = p.inc := rfl
@[simp] theorem Part.removeMaterial_plan (p : Part) (i : Nat) : (p.removeMaterial i).plan = p.plan := rfl
@[simp] theorem Part.removeMaterial_seq (p : Part) (i : Nat) : (p.removeMaterial i).seq = p.seq := rfl
@[simp] theorem Part.removeMaterial_ver (p : Part) (i : Nat) : (p.removeMaterial i).ver = p.ver := rfl
@[simp] theorem Part.removeMaterial_mgmt (p : Part) (i : Nat) : (p.removeMaterial i).mgmt = p.mgmt := rfl
@[simp] theorem Part.removeMaterial_trace (p : Part) (i : Nat) : (p.removeMaterial i).trace = p.trace := rfl
@[simp] theorem Part.removeMaterial_counters (p : Part) (i : Nat) : (p.removeMaterial i).counters = p.counters := rfl

/-! ## putVClass -/

@[simp] theorem Part.putVClass_now (p : Part) (i : Nat) (x : ValveClass) : (p.putVClass i x).now = p.now := rfl
@[simp] theorem Part.putVClass_trunk (p : Part) (i : Nat) (x : ValveClass) : (p.putVClass i x).trunk = p.trunk := rfl
@[simp] theorem Part.putVClass_stations (p : Part) (i : Nat) (x : ValveClass) :
    (p.putVClass i x).stations = p.stations := rfl
@[simp] theorem Part.putVClass_net_segments (p : Part) (i : Nat) (x : ValveClass) :
    (p.putVClass i x).net.segments = p.net.segments := rfl
@[simp] theorem Part.putVClass_net_valves (p : Part) (i : Nat) (x : ValveClass) :
    (p.putVClass i x).net.valves = p.net.valves := rfl
@[simp] theorem Part.putVClass_net_materials (p : Part) (i : Nat) (x : ValveClass) :
    (p.putVClass i x).net.materials = p.net.materials := rfl
@[simp] theorem Part.putVClass_net_vclasses (p : Part) (i : Nat) (x : ValveClass) :
    (p.putVClass i x).net.vclasses = Table.put p.net.vclasses i x := rfl
@[simp] theorem Part.putVClass_net_channels (p : Part) (i : Nat) (x : ValveClass) :
    (p.putVClass i x).net.channels = p.net.channels := rfl
@[simp] theorem Part.putVClass_watch (p : Part) (i : Nat) (x : ValveClass) : (p.putVClass i x).watch = p.watch := rfl
@[simp] theorem Part.putVClass_inc (p : Part) (i : Nat) (x : ValveClass) : (p.putVClass i x).inc = p.inc := rfl
@[simp] theorem Part.putVClass_plan (p : Part) (i : Nat) (x : ValveClass) : (p.putVClass i x).plan = p.plan := rfl
@[simp] theorem Part.putVClass_seq (p : Part) (i : Nat) (x : ValveClass) : (p.putVClass i x).seq = p.seq := rfl
@[simp] theorem Part.putVClass_ver (p : Part) (i : Nat) (x : ValveClass) : (p.putVClass i x).ver = p.ver := rfl
@[simp] theorem Part.putVClass_mgmt (p : Part) (i : Nat) (x : ValveClass) : (p.putVClass i x).mgmt = p.mgmt := rfl
@[simp] theorem Part.putVClass_trace (p : Part) (i : Nat) (x : ValveClass) : (p.putVClass i x).trace = p.trace := rfl
@[simp] theorem Part.putVClass_counters (p : Part) (i : Nat) (x : ValveClass) :
    (p.putVClass i x).counters = p.counters := rfl

/-! ## removeVClass -/

@[simp] theorem Part.removeVClass_now (p : Part) (i : Nat) : (p.removeVClass i).now = p.now := rfl
@[simp] theorem Part.removeVClass_trunk (p : Part) (i : Nat) : (p.removeVClass i).trunk = p.trunk := rfl
@[simp] theorem Part.removeVClass_stations (p : Part) (i : Nat) : (p.removeVClass i).stations = p.stations := rfl
@[simp] theorem Part.removeVClass_net_segments (p : Part) (i : Nat) :
    (p.removeVClass i).net.segments = p.net.segments := rfl
@[simp] theorem Part.removeVClass_net_valves (p : Part) (i : Nat) :
    (p.removeVClass i).net.valves = p.net.valves := rfl
@[simp] theorem Part.removeVClass_net_materials (p : Part) (i : Nat) :
    (p.removeVClass i).net.materials = p.net.materials := rfl
@[simp] theorem Part.removeVClass_net_vclasses (p : Part) (i : Nat) :
    (p.removeVClass i).net.vclasses = Table.remove p.net.vclasses i := rfl
@[simp] theorem Part.removeVClass_net_channels (p : Part) (i : Nat) :
    (p.removeVClass i).net.channels = p.net.channels := rfl
@[simp] theorem Part.removeVClass_watch (p : Part) (i : Nat) : (p.removeVClass i).watch = p.watch := rfl
@[simp] theorem Part.removeVClass_inc (p : Part) (i : Nat) : (p.removeVClass i).inc = p.inc := rfl
@[simp] theorem Part.removeVClass_plan (p : Part) (i : Nat) : (p.removeVClass i).plan = p.plan := rfl
@[simp] theorem Part.removeVClass_seq (p : Part) (i : Nat) : (p.removeVClass i).seq = p.seq := rfl
@[simp] theorem Part.removeVClass_ver (p : Part) (i : Nat) : (p.removeVClass i).ver = p.ver := rfl
@[simp] theorem Part.removeVClass_mgmt (p : Part) (i : Nat) : (p.removeVClass i).mgmt = p.mgmt := rfl
@[simp] theorem Part.removeVClass_trace (p : Part) (i : Nat) : (p.removeVClass i).trace = p.trace := rfl
@[simp] theorem Part.removeVClass_counters (p : Part) (i : Nat) : (p.removeVClass i).counters = p.counters := rfl

/-! ## putChannel -/

@[simp] theorem Part.putChannel_now (p : Part) (a c : Nat) (x : ChanTarget) : (p.putChannel a c x).now = p.now := rfl
@[simp] theorem Part.putChannel_trunk (p : Part) (a c : Nat) (x : ChanTarget) :
    (p.putChannel a c x).trunk = p.trunk := rfl
@[simp] theorem Part.putChannel_stations (p : Part) (a c : Nat) (x : ChanTarget) :
    (p.putChannel a c x).stations = p.stations := rfl
@[simp] theorem Part.putChannel_net_segments (p : Part) (a c : Nat) (x : ChanTarget) :
    (p.putChannel a c x).net.segments = p.net.segments := rfl
@[simp] theorem Part.putChannel_net_valves (p : Part) (a c : Nat) (x : ChanTarget) :
    (p.putChannel a c x).net.valves = p.net.valves := rfl
@[simp] theorem Part.putChannel_net_materials (p : Part) (a c : Nat) (x : ChanTarget) :
    (p.putChannel a c x).net.materials = p.net.materials := rfl
@[simp] theorem Part.putChannel_net_vclasses (p : Part) (a c : Nat) (x : ChanTarget) :
    (p.putChannel a c x).net.vclasses = p.net.vclasses := rfl
@[simp] theorem Part.putChannel_net_channels (p : Part) (a c : Nat) (x : ChanTarget) :
    (p.putChannel a c x).net.channels = Table.put p.net.channels (chanKey a c) x := rfl
@[simp] theorem Part.putChannel_watch (p : Part) (a c : Nat) (x : ChanTarget) :
    (p.putChannel a c x).watch = p.watch := rfl
@[simp] theorem Part.putChannel_inc (p : Part) (a c : Nat) (x : ChanTarget) : (p.putChannel a c x).inc = p.inc := rfl
@[simp] theorem Part.putChannel_plan (p : Part) (a c : Nat) (x : ChanTarget) :
    (p.putChannel a c x).plan = p.plan := rfl
@[simp] theorem Part.putChannel_seq (p : Part) (a c : Nat) (x : ChanTarget) : (p.putChannel a c x).seq = p.seq := rfl
@[simp] theorem Part.putChannel_ver (p : Part) (a c : Nat) (x : ChanTarget) : (p.putChannel a c x).ver = p.ver := rfl
@[simp] theorem Part.putChannel_mgmt (p : Part) (a c : Nat) (x : ChanTarget) :
    (p.putChannel a c x).mgmt = p.mgmt := rfl
@[simp] theorem Part.putChannel_trace (p : Part) (a c : Nat) (x : ChanTarget) :
    (p.putChannel a c x).trace = p.trace := rfl
@[simp] theorem Part.putChannel_counters (p : Part) (a c : Nat) (x : ChanTarget) :
    (p.putChannel a c x).counters = p.counters := rfl

/-! ## removeChannel -/

@[simp] theorem Part.removeChannel_now (p : Part) (a c : Nat) : (p.removeChannel a c).now = p.now := rfl
@[simp] theorem Part.removeChannel_trunk (p : Part) (a c : Nat) : (p.removeChannel a c).trunk = p.trunk := rfl
@[simp] theorem Part.removeChannel_stations (p : Part) (a c : Nat) :
    (p.removeChannel a c).stations = p.stations := rfl
@[simp] theorem Part.removeChannel_net_segments (p : Part) (a c : Nat) :
    (p.removeChannel a c).net.segments = p.net.segments := rfl
@[simp] theorem Part.removeChannel_net_valves (p : Part) (a c : Nat) :
    (p.removeChannel a c).net.valves = p.net.valves := rfl
@[simp] theorem Part.removeChannel_net_materials (p : Part) (a c : Nat) :
    (p.removeChannel a c).net.materials = p.net.materials := rfl
@[simp] theorem Part.removeChannel_net_vclasses (p : Part) (a c : Nat) :
    (p.removeChannel a c).net.vclasses = p.net.vclasses := rfl
@[simp] theorem Part.removeChannel_net_channels (p : Part) (a c : Nat) :
    (p.removeChannel a c).net.channels = Table.remove p.net.channels (chanKey a c) := rfl
@[simp] theorem Part.removeChannel_watch (p : Part) (a c : Nat) : (p.removeChannel a c).watch = p.watch := rfl
@[simp] theorem Part.removeChannel_inc (p : Part) (a c : Nat) : (p.removeChannel a c).inc = p.inc := rfl
@[simp] theorem Part.removeChannel_plan (p : Part) (a c : Nat) : (p.removeChannel a c).plan = p.plan := rfl
@[simp] theorem Part.removeChannel_seq (p : Part) (a c : Nat) : (p.removeChannel a c).seq = p.seq := rfl
@[simp] theorem Part.removeChannel_ver (p : Part) (a c : Nat) : (p.removeChannel a c).ver = p.ver := rfl
@[simp] theorem Part.removeChannel_mgmt (p : Part) (a c : Nat) : (p.removeChannel a c).mgmt = p.mgmt := rfl
@[simp] theorem Part.removeChannel_trace (p : Part) (a c : Nat) : (p.removeChannel a c).trace = p.trace := rfl
@[simp] theorem Part.removeChannel_counters (p : Part) (a c : Nat) :
    (p.removeChannel a c).counters = p.counters := rfl

/-! ## putSensor -/

@[simp] theorem Part.putSensor_now (p : Part) (i : Nat) (x : Sensor) : (p.putSensor i x).now = p.now := rfl
@[simp] theorem Part.putSensor_trunk (p : Part) (i : Nat) (x : Sensor) : (p.putSensor i x).trunk = p.trunk := rfl
@[simp] theorem Part.putSensor_stations (p : Part) (i : Nat) (x : Sensor) :
    (p.putSensor i x).stations = p.stations := rfl
@[simp] theorem Part.putSensor_net (p : Part) (i : Nat) (x : Sensor) : (p.putSensor i x).net = p.net := rfl
@[simp] theorem Part.putSensor_watch_sensors (p : Part) (i : Nat) (x : Sensor) :
    (p.putSensor i x).watch.sensors = Table.put p.watch.sensors i x := rfl
@[simp] theorem Part.putSensor_watch_zones (p : Part) (i : Nat) (x : Sensor) :
    (p.putSensor i x).watch.zones = p.watch.zones := rfl
@[simp] theorem Part.putSensor_inc (p : Part) (i : Nat) (x : Sensor) : (p.putSensor i x).inc = p.inc := rfl
@[simp] theorem Part.putSensor_plan (p : Part) (i : Nat) (x : Sensor) : (p.putSensor i x).plan = p.plan := rfl
@[simp] theorem Part.putSensor_seq (p : Part) (i : Nat) (x : Sensor) : (p.putSensor i x).seq = p.seq := rfl
@[simp] theorem Part.putSensor_ver (p : Part) (i : Nat) (x : Sensor) : (p.putSensor i x).ver = p.ver := rfl
@[simp] theorem Part.putSensor_mgmt (p : Part) (i : Nat) (x : Sensor) : (p.putSensor i x).mgmt = p.mgmt := rfl
@[simp] theorem Part.putSensor_trace (p : Part) (i : Nat) (x : Sensor) : (p.putSensor i x).trace = p.trace := rfl
@[simp] theorem Part.putSensor_counters (p : Part) (i : Nat) (x : Sensor) :
    (p.putSensor i x).counters = p.counters := rfl

/-! ## removeSensor -/

@[simp] theorem Part.removeSensor_now (p : Part) (i : Nat) : (p.removeSensor i).now = p.now := rfl
@[simp] theorem Part.removeSensor_trunk (p : Part) (i : Nat) : (p.removeSensor i).trunk = p.trunk := rfl
@[simp] theorem Part.removeSensor_stations (p : Part) (i : Nat) : (p.removeSensor i).stations = p.stations := rfl
@[simp] theorem Part.removeSensor_net (p : Part) (i : Nat) : (p.removeSensor i).net = p.net := rfl
@[simp] theorem Part.removeSensor_watch_sensors (p : Part) (i : Nat) :
    (p.removeSensor i).watch.sensors = Table.remove p.watch.sensors i := rfl
@[simp] theorem Part.removeSensor_watch_zones (p : Part) (i : Nat) :
    (p.removeSensor i).watch.zones = p.watch.zones := rfl
@[simp] theorem Part.removeSensor_inc (p : Part) (i : Nat) : (p.removeSensor i).inc = p.inc := rfl
@[simp] theorem Part.removeSensor_plan (p : Part) (i : Nat) : (p.removeSensor i).plan = p.plan := rfl
@[simp] theorem Part.removeSensor_seq (p : Part) (i : Nat) : (p.removeSensor i).seq = p.seq := rfl
@[simp] theorem Part.removeSensor_ver (p : Part) (i : Nat) : (p.removeSensor i).ver = p.ver := rfl
@[simp] theorem Part.removeSensor_mgmt (p : Part) (i : Nat) : (p.removeSensor i).mgmt = p.mgmt := rfl
@[simp] theorem Part.removeSensor_trace (p : Part) (i : Nat) : (p.removeSensor i).trace = p.trace := rfl
@[simp] theorem Part.removeSensor_counters (p : Part) (i : Nat) : (p.removeSensor i).counters = p.counters := rfl

/-! ## putZone -/

@[simp] theorem Part.putZone_now (p : Part) (z : Nat) (x : Zone) : (p.putZone z x).now = p.now := rfl
@[simp] theorem Part.putZone_trunk (p : Part) (z : Nat) (x : Zone) : (p.putZone z x).trunk = p.trunk := rfl
@[simp] theorem Part.putZone_stations (p : Part) (z : Nat) (x : Zone) : (p.putZone z x).stations = p.stations := rfl
@[simp] theorem Part.putZone_net (p : Part) (z : Nat) (x : Zone) : (p.putZone z x).net = p.net := rfl
@[simp] theorem Part.putZone_watch_sensors (p : Part) (z : Nat) (x : Zone) :
    (p.putZone z x).watch.sensors = p.watch.sensors := rfl
@[simp] theorem Part.putZone_inc (p : Part) (z : Nat) (x : Zone) : (p.putZone z x).inc = p.inc := rfl
@[simp] theorem Part.putZone_plan (p : Part) (z : Nat) (x : Zone) : (p.putZone z x).plan = p.plan := rfl
@[simp] theorem Part.putZone_seq (p : Part) (z : Nat) (x : Zone) : (p.putZone z x).seq = p.seq := rfl
@[simp] theorem Part.putZone_ver (p : Part) (z : Nat) (x : Zone) : (p.putZone z x).ver = p.ver := rfl
@[simp] theorem Part.putZone_mgmt (p : Part) (z : Nat) (x : Zone) : (p.putZone z x).mgmt = p.mgmt := rfl
@[simp] theorem Part.putZone_trace (p : Part) (z : Nat) (x : Zone) : (p.putZone z x).trace = p.trace := rfl
@[simp] theorem Part.putZone_counters (p : Part) (z : Nat) (x : Zone) : (p.putZone z x).counters = p.counters := rfl

/-! ## putStation -/

@[simp] theorem Part.putStation_now (p : Part) (n : Nat) (x : Station) : (p.putStation n x).now = p.now := rfl
@[simp] theorem Part.putStation_trunk (p : Part) (n : Nat) (x : Station) : (p.putStation n x).trunk = p.trunk := rfl
@[simp] theorem Part.putStation_stations_entries (p : Part) (n : Nat) (x : Station) :
    (p.putStation n x).stations.entries = Table.put p.stations.entries n x := rfl
@[simp] theorem Part.putStation_stations_mode (p : Part) (n : Nat) (x : Station) :
    (p.putStation n x).stations.mode = p.stations.mode := rfl
@[simp] theorem Part.putStation_stations_interval (p : Part) (n : Nat) (x : Station) :
    (p.putStation n x).stations.interval = p.stations.interval := rfl
@[simp] theorem Part.putStation_stations_agingDue (p : Part) (n : Nat) (x : Station) :
    (p.putStation n x).stations.agingDue = p.stations.agingDue := rfl
@[simp] theorem Part.putStation_net (p : Part) (n : Nat) (x : Station) : (p.putStation n x).net = p.net := rfl
@[simp] theorem Part.putStation_watch (p : Part) (n : Nat) (x : Station) : (p.putStation n x).watch = p.watch := rfl
@[simp] theorem Part.putStation_inc (p : Part) (n : Nat) (x : Station) : (p.putStation n x).inc = p.inc := rfl
@[simp] theorem Part.putStation_plan (p : Part) (n : Nat) (x : Station) : (p.putStation n x).plan = p.plan := rfl
@[simp] theorem Part.putStation_seq (p : Part) (n : Nat) (x : Station) : (p.putStation n x).seq = p.seq := rfl
@[simp] theorem Part.putStation_ver (p : Part) (n : Nat) (x : Station) : (p.putStation n x).ver = p.ver := rfl
@[simp] theorem Part.putStation_mgmt (p : Part) (n : Nat) (x : Station) : (p.putStation n x).mgmt = p.mgmt := rfl
@[simp] theorem Part.putStation_trace (p : Part) (n : Nat) (x : Station) : (p.putStation n x).trace = p.trace := rfl
@[simp] theorem Part.putStation_counters (p : Part) (n : Nat) (x : Station) :
    (p.putStation n x).counters = p.counters := rfl

/-! ## removeStation -/

@[simp] theorem Part.removeStation_now (p : Part) (n : Nat) : (p.removeStation n).now = p.now := rfl
@[simp] theorem Part.removeStation_trunk (p : Part) (n : Nat) : (p.removeStation n).trunk = p.trunk := rfl
@[simp] theorem Part.removeStation_stations_entries (p : Part) (n : Nat) :
    (p.removeStation n).stations.entries = Table.remove p.stations.entries n := rfl
@[simp] theorem Part.removeStation_stations_mode (p : Part) (n : Nat) :
    (p.removeStation n).stations.mode = p.stations.mode := rfl
@[simp] theorem Part.removeStation_stations_interval (p : Part) (n : Nat) :
    (p.removeStation n).stations.interval = p.stations.interval := rfl
@[simp] theorem Part.removeStation_stations_agingDue (p : Part) (n : Nat) :
    (p.removeStation n).stations.agingDue = p.stations.agingDue := rfl
@[simp] theorem Part.removeStation_net (p : Part) (n : Nat) : (p.removeStation n).net = p.net := rfl
@[simp] theorem Part.removeStation_watch (p : Part) (n : Nat) : (p.removeStation n).watch = p.watch := rfl
@[simp] theorem Part.removeStation_inc (p : Part) (n : Nat) : (p.removeStation n).inc = p.inc := rfl
@[simp] theorem Part.removeStation_plan (p : Part) (n : Nat) : (p.removeStation n).plan = p.plan := rfl
@[simp] theorem Part.removeStation_seq (p : Part) (n : Nat) : (p.removeStation n).seq = p.seq := rfl
@[simp] theorem Part.removeStation_ver (p : Part) (n : Nat) : (p.removeStation n).ver = p.ver := rfl
@[simp] theorem Part.removeStation_mgmt (p : Part) (n : Nat) : (p.removeStation n).mgmt = p.mgmt := rfl
@[simp] theorem Part.removeStation_trace (p : Part) (n : Nat) : (p.removeStation n).trace = p.trace := rfl
@[simp] theorem Part.removeStation_counters (p : Part) (n : Nat) : (p.removeStation n).counters = p.counters := rfl

/-! ## putContext -/

@[simp] theorem Part.putContext_now (p : Part) (v : Nat) (x : StepCtx) : (p.putContext v x).now = p.now := rfl
@[simp] theorem Part.putContext_trunk (p : Part) (v : Nat) (x : StepCtx) : (p.putContext v x).trunk = p.trunk := rfl
@[simp] theorem Part.putContext_stations (p : Part) (v : Nat) (x : StepCtx) :
    (p.putContext v x).stations = p.stations := rfl
@[simp] theorem Part.putContext_net (p : Part) (v : Nat) (x : StepCtx) : (p.putContext v x).net = p.net := rfl
@[simp] theorem Part.putContext_watch (p : Part) (v : Nat) (x : StepCtx) : (p.putContext v x).watch = p.watch := rfl
@[simp] theorem Part.putContext_inc (p : Part) (v : Nat) (x : StepCtx) : (p.putContext v x).inc = p.inc := rfl
@[simp] theorem Part.putContext_plan (p : Part) (v : Nat) (x : StepCtx) : (p.putContext v x).plan = p.plan := rfl
@[simp] theorem Part.putContext_seq_contexts (p : Part) (v : Nat) (x : StepCtx) :
    (p.putContext v x).seq.contexts = Table.put p.seq.contexts v x := rfl
@[simp] theorem Part.putContext_seq_waiting (p : Part) (v : Nat) (x : StepCtx) :
    (p.putContext v x).seq.waiting = p.seq.waiting := rfl
@[simp] theorem Part.putContext_seq_crew (p : Part) (v : Nat) (x : StepCtx) :
    (p.putContext v x).seq.crew = p.seq.crew := rfl
@[simp] theorem Part.putContext_seq_frames (p : Part) (v : Nat) (x : StepCtx) :
    (p.putContext v x).seq.frames = p.seq.frames := rfl
@[simp] theorem Part.putContext_seq_tag (p : Part) (v : Nat) (x : StepCtx) :
    (p.putContext v x).seq.tag = p.seq.tag := rfl
@[simp] theorem Part.putContext_ver (p : Part) (v : Nat) (x : StepCtx) : (p.putContext v x).ver = p.ver := rfl
@[simp] theorem Part.putContext_mgmt (p : Part) (v : Nat) (x : StepCtx) : (p.putContext v x).mgmt = p.mgmt := rfl
@[simp] theorem Part.putContext_trace (p : Part) (v : Nat) (x : StepCtx) : (p.putContext v x).trace = p.trace := rfl
@[simp] theorem Part.putContext_counters (p : Part) (v : Nat) (x : StepCtx) :
    (p.putContext v x).counters = p.counters := rfl

/-! ## adjustContext -/

@[simp] theorem Part.adjustContext_now (p : Part) (v : Nat) (f : StepCtx → StepCtx) :
    (p.adjustContext v f).now = p.now := rfl
@[simp] theorem Part.adjustContext_trunk (p : Part) (v : Nat) (f : StepCtx → StepCtx) :
    (p.adjustContext v f).trunk = p.trunk := rfl
@[simp] theorem Part.adjustContext_stations (p : Part) (v : Nat) (f : StepCtx → StepCtx) :
    (p.adjustContext v f).stations = p.stations := rfl
@[simp] theorem Part.adjustContext_net (p : Part) (v : Nat) (f : StepCtx → StepCtx) :
    (p.adjustContext v f).net = p.net := rfl
@[simp] theorem Part.adjustContext_watch (p : Part) (v : Nat) (f : StepCtx → StepCtx) :
    (p.adjustContext v f).watch = p.watch := rfl
@[simp] theorem Part.adjustContext_inc (p : Part) (v : Nat) (f : StepCtx → StepCtx) :
    (p.adjustContext v f).inc = p.inc := rfl
@[simp] theorem Part.adjustContext_plan (p : Part) (v : Nat) (f : StepCtx → StepCtx) :
    (p.adjustContext v f).plan = p.plan := rfl
@[simp] theorem Part.adjustContext_seq_contexts (p : Part) (v : Nat) (f : StepCtx → StepCtx) :
    (p.adjustContext v f).seq.contexts = Table.adjust p.seq.contexts v f := rfl
@[simp] theorem Part.adjustContext_seq_waiting (p : Part) (v : Nat) (f : StepCtx → StepCtx) :
    (p.adjustContext v f).seq.waiting = p.seq.waiting := rfl
@[simp] theorem Part.adjustContext_seq_crew (p : Part) (v : Nat) (f : StepCtx → StepCtx) :
    (p.adjustContext v f).seq.crew = p.seq.crew := rfl
@[simp] theorem Part.adjustContext_seq_frames (p : Part) (v : Nat) (f : StepCtx → StepCtx) :
    (p.adjustContext v f).seq.frames = p.seq.frames := rfl
@[simp] theorem Part.adjustContext_seq_tag (p : Part) (v : Nat) (f : StepCtx → StepCtx) :
    (p.adjustContext v f).seq.tag = p.seq.tag := rfl
@[simp] theorem Part.adjustContext_ver (p : Part) (v : Nat) (f : StepCtx → StepCtx) :
    (p.adjustContext v f).ver = p.ver := rfl
@[simp] theorem Part.adjustContext_mgmt (p : Part) (v : Nat) (f : StepCtx → StepCtx) :
    (p.adjustContext v f).mgmt = p.mgmt := rfl
@[simp] theorem Part.adjustContext_trace (p : Part) (v : Nat) (f : StepCtx → StepCtx) :
    (p.adjustContext v f).trace = p.trace := rfl
@[simp] theorem Part.adjustContext_counters (p : Part) (v : Nat) (f : StepCtx → StepCtx) :
    (p.adjustContext v f).counters = p.counters := rfl

/-! ## setWaiting -/

@[simp] theorem Part.setWaiting_now (p : Part) (w : List WaitEntry) : (p.setWaiting w).now = p.now := rfl
@[simp] theorem Part.setWaiting_trunk (p : Part) (w : List WaitEntry) : (p.setWaiting w).trunk = p.trunk := rfl
@[simp] theorem Part.setWaiting_stations (p : Part) (w : List WaitEntry) :
    (p.setWaiting w).stations = p.stations := rfl
@[simp] theorem Part.setWaiting_net (p : Part) (w : List WaitEntry) : (p.setWaiting w).net = p.net := rfl
@[simp] theorem Part.setWaiting_watch (p : Part) (w : List WaitEntry) : (p.setWaiting w).watch = p.watch := rfl
@[simp] theorem Part.setWaiting_inc (p : Part) (w : List WaitEntry) : (p.setWaiting w).inc = p.inc := rfl
@[simp] theorem Part.setWaiting_plan (p : Part) (w : List WaitEntry) : (p.setWaiting w).plan = p.plan := rfl
@[simp] theorem Part.setWaiting_seq_contexts (p : Part) (w : List WaitEntry) :
    (p.setWaiting w).seq.contexts = p.seq.contexts := rfl
@[simp] theorem Part.setWaiting_seq_waiting (p : Part) (w : List WaitEntry) : (p.setWaiting w).seq.waiting = w := rfl
@[simp] theorem Part.setWaiting_seq_crew (p : Part) (w : List WaitEntry) :
    (p.setWaiting w).seq.crew = p.seq.crew := rfl
@[simp] theorem Part.setWaiting_seq_frames (p : Part) (w : List WaitEntry) :
    (p.setWaiting w).seq.frames = p.seq.frames := rfl
@[simp] theorem Part.setWaiting_seq_tag (p : Part) (w : List WaitEntry) : (p.setWaiting w).seq.tag = p.seq.tag := rfl
@[simp] theorem Part.setWaiting_ver (p : Part) (w : List WaitEntry) : (p.setWaiting w).ver = p.ver := rfl
@[simp] theorem Part.setWaiting_mgmt (p : Part) (w : List WaitEntry) : (p.setWaiting w).mgmt = p.mgmt := rfl
@[simp] theorem Part.setWaiting_trace (p : Part) (w : List WaitEntry) : (p.setWaiting w).trace = p.trace := rfl
@[simp] theorem Part.setWaiting_counters (p : Part) (w : List WaitEntry) :
    (p.setWaiting w).counters = p.counters := rfl

/-! ## setCrew -/

@[simp] theorem Part.setCrew_now (p : Part) (c : List CrewReq) : (p.setCrew c).now = p.now := rfl
@[simp] theorem Part.setCrew_trunk (p : Part) (c : List CrewReq) : (p.setCrew c).trunk = p.trunk := rfl
@[simp] theorem Part.setCrew_stations (p : Part) (c : List CrewReq) : (p.setCrew c).stations = p.stations := rfl
@[simp] theorem Part.setCrew_net (p : Part) (c : List CrewReq) : (p.setCrew c).net = p.net := rfl
@[simp] theorem Part.setCrew_watch (p : Part) (c : List CrewReq) : (p.setCrew c).watch = p.watch := rfl
@[simp] theorem Part.setCrew_inc (p : Part) (c : List CrewReq) : (p.setCrew c).inc = p.inc := rfl
@[simp] theorem Part.setCrew_plan (p : Part) (c : List CrewReq) : (p.setCrew c).plan = p.plan := rfl
@[simp] theorem Part.setCrew_seq_contexts (p : Part) (c : List CrewReq) :
    (p.setCrew c).seq.contexts = p.seq.contexts := rfl
@[simp] theorem Part.setCrew_seq_waiting (p : Part) (c : List CrewReq) :
    (p.setCrew c).seq.waiting = p.seq.waiting := rfl
@[simp] theorem Part.setCrew_seq_crew (p : Part) (c : List CrewReq) : (p.setCrew c).seq.crew = c := rfl
@[simp] theorem Part.setCrew_seq_frames (p : Part) (c : List CrewReq) : (p.setCrew c).seq.frames = p.seq.frames := rfl
@[simp] theorem Part.setCrew_seq_tag (p : Part) (c : List CrewReq) : (p.setCrew c).seq.tag = p.seq.tag := rfl
@[simp] theorem Part.setCrew_ver (p : Part) (c : List CrewReq) : (p.setCrew c).ver = p.ver := rfl
@[simp] theorem Part.setCrew_mgmt (p : Part) (c : List CrewReq) : (p.setCrew c).mgmt = p.mgmt := rfl
@[simp] theorem Part.setCrew_trace (p : Part) (c : List CrewReq) : (p.setCrew c).trace = p.trace := rfl
@[simp] theorem Part.setCrew_counters (p : Part) (c : List CrewReq) : (p.setCrew c).counters = p.counters := rfl

/-! ## setSeqFrames -/

@[simp] theorem Part.setSeqFrames_now (p : Part) (f : List SeqFrame) : (p.setSeqFrames f).now = p.now := rfl
@[simp] theorem Part.setSeqFrames_trunk (p : Part) (f : List SeqFrame) : (p.setSeqFrames f).trunk = p.trunk := rfl
@[simp] theorem Part.setSeqFrames_stations (p : Part) (f : List SeqFrame) :
    (p.setSeqFrames f).stations = p.stations := rfl
@[simp] theorem Part.setSeqFrames_net (p : Part) (f : List SeqFrame) : (p.setSeqFrames f).net = p.net := rfl
@[simp] theorem Part.setSeqFrames_watch (p : Part) (f : List SeqFrame) : (p.setSeqFrames f).watch = p.watch := rfl
@[simp] theorem Part.setSeqFrames_inc (p : Part) (f : List SeqFrame) : (p.setSeqFrames f).inc = p.inc := rfl
@[simp] theorem Part.setSeqFrames_plan (p : Part) (f : List SeqFrame) : (p.setSeqFrames f).plan = p.plan := rfl
@[simp] theorem Part.setSeqFrames_seq_contexts (p : Part) (f : List SeqFrame) :
    (p.setSeqFrames f).seq.contexts = p.seq.contexts := rfl
@[simp] theorem Part.setSeqFrames_seq_waiting (p : Part) (f : List SeqFrame) :
    (p.setSeqFrames f).seq.waiting = p.seq.waiting := rfl
@[simp] theorem Part.setSeqFrames_seq_crew (p : Part) (f : List SeqFrame) :
    (p.setSeqFrames f).seq.crew = p.seq.crew := rfl
@[simp] theorem Part.setSeqFrames_seq_frames (p : Part) (f : List SeqFrame) : (p.setSeqFrames f).seq.frames = f := rfl
@[simp] theorem Part.setSeqFrames_seq_tag (p : Part) (f : List SeqFrame) :
    (p.setSeqFrames f).seq.tag = p.seq.tag := rfl
@[simp] theorem Part.setSeqFrames_ver (p : Part) (f : List SeqFrame) : (p.setSeqFrames f).ver = p.ver := rfl
@[simp] theorem Part.setSeqFrames_mgmt (p : Part) (f : List SeqFrame) : (p.setSeqFrames f).mgmt = p.mgmt := rfl
@[simp] theorem Part.setSeqFrames_trace (p : Part) (f : List SeqFrame) : (p.setSeqFrames f).trace = p.trace := rfl
@[simp] theorem Part.setSeqFrames_counters (p : Part) (f : List SeqFrame) :
    (p.setSeqFrames f).counters = p.counters := rfl

/-! ## setLine -/

@[simp] theorem Part.setLine_now (p : Part) (l : Line) (x : LineState) : (p.setLine l x).now = p.now := rfl
@[simp] theorem Part.setLine_trunk_lines (p : Part) (l : Line) (x : LineState) :
    (p.setLine l x).trunk.lines = p.trunk.lines.set l x := rfl
@[simp] theorem Part.setLine_trunk_classMap (p : Part) (l : Line) (x : LineState) :
    (p.setLine l x).trunk.classMap = p.trunk.classMap := rfl
@[simp] theorem Part.setLine_trunk_urgencyMap (p : Part) (l : Line) (x : LineState) :
    (p.setLine l x).trunk.urgencyMap = p.trunk.urgencyMap := rfl
@[simp] theorem Part.setLine_trunk_noticePriority (p : Part) (l : Line) (x : LineState) :
    (p.setLine l x).trunk.noticePriority = p.trunk.noticePriority := rfl
@[simp] theorem Part.setLine_stations (p : Part) (l : Line) (x : LineState) :
    (p.setLine l x).stations = p.stations := rfl
@[simp] theorem Part.setLine_net (p : Part) (l : Line) (x : LineState) : (p.setLine l x).net = p.net := rfl
@[simp] theorem Part.setLine_watch (p : Part) (l : Line) (x : LineState) : (p.setLine l x).watch = p.watch := rfl
@[simp] theorem Part.setLine_inc (p : Part) (l : Line) (x : LineState) : (p.setLine l x).inc = p.inc := rfl
@[simp] theorem Part.setLine_plan (p : Part) (l : Line) (x : LineState) : (p.setLine l x).plan = p.plan := rfl
@[simp] theorem Part.setLine_seq (p : Part) (l : Line) (x : LineState) : (p.setLine l x).seq = p.seq := rfl
@[simp] theorem Part.setLine_ver (p : Part) (l : Line) (x : LineState) : (p.setLine l x).ver = p.ver := rfl
@[simp] theorem Part.setLine_mgmt (p : Part) (l : Line) (x : LineState) : (p.setLine l x).mgmt = p.mgmt := rfl
@[simp] theorem Part.setLine_trace (p : Part) (l : Line) (x : LineState) : (p.setLine l x).trace = p.trace := rfl
@[simp] theorem Part.setLine_counters (p : Part) (l : Line) (x : LineState) :
    (p.setLine l x).counters = p.counters := rfl

/-! ## setNotices -/

@[simp] theorem Part.setNotices_now (p : Part) (n : List PendEntry) : (p.setNotices n).now = p.now := rfl
@[simp] theorem Part.setNotices_trunk (p : Part) (n : List PendEntry) : (p.setNotices n).trunk = p.trunk := rfl
@[simp] theorem Part.setNotices_stations (p : Part) (n : List PendEntry) :
    (p.setNotices n).stations = p.stations := rfl
@[simp] theorem Part.setNotices_net (p : Part) (n : List PendEntry) : (p.setNotices n).net = p.net := rfl
@[simp] theorem Part.setNotices_watch (p : Part) (n : List PendEntry) : (p.setNotices n).watch = p.watch := rfl
@[simp] theorem Part.setNotices_inc (p : Part) (n : List PendEntry) : (p.setNotices n).inc = p.inc := rfl
@[simp] theorem Part.setNotices_plan (p : Part) (n : List PendEntry) : (p.setNotices n).plan = p.plan := rfl
@[simp] theorem Part.setNotices_seq (p : Part) (n : List PendEntry) : (p.setNotices n).seq = p.seq := rfl
@[simp] theorem Part.setNotices_ver (p : Part) (n : List PendEntry) : (p.setNotices n).ver = p.ver := rfl
@[simp] theorem Part.setNotices_mgmt_mode (p : Part) (n : List PendEntry) :
    (p.setNotices n).mgmt.mode = p.mgmt.mode := rfl
@[simp] theorem Part.setNotices_mgmt_ownAddress (p : Part) (n : List PendEntry) :
    (p.setNotices n).mgmt.ownAddress = p.mgmt.ownAddress := rfl
@[simp] theorem Part.setNotices_mgmt_noticeAddress (p : Part) (n : List PendEntry) :
    (p.setNotices n).mgmt.noticeAddress = p.mgmt.noticeAddress := rfl
@[simp] theorem Part.setNotices_mgmt_notices (p : Part) (n : List PendEntry) :
    (p.setNotices n).mgmt.notices = n := rfl
@[simp] theorem Part.setNotices_mgmt_handed (p : Part) (n : List PendEntry) :
    (p.setNotices n).mgmt.handed = p.mgmt.handed := rfl
@[simp] theorem Part.setNotices_mgmt_restartDue (p : Part) (n : List PendEntry) :
    (p.setNotices n).mgmt.restartDue = p.mgmt.restartDue := rfl
@[simp] theorem Part.setNotices_mgmt_fresh (p : Part) (n : List PendEntry) :
    (p.setNotices n).mgmt.fresh = p.mgmt.fresh := rfl
@[simp] theorem Part.setNotices_trace (p : Part) (n : List PendEntry) : (p.setNotices n).trace = p.trace := rfl
@[simp] theorem Part.setNotices_counters (p : Part) (n : List PendEntry) :
    (p.setNotices n).counters = p.counters := rfl

/-! ## setPlan -/

@[simp] theorem Part.setPlan_now (p : Part) (w : Option Workspace) : (p.setPlan w).now = p.now := rfl
@[simp] theorem Part.setPlan_trunk (p : Part) (w : Option Workspace) : (p.setPlan w).trunk = p.trunk := rfl
@[simp] theorem Part.setPlan_stations (p : Part) (w : Option Workspace) : (p.setPlan w).stations = p.stations := rfl
@[simp] theorem Part.setPlan_net (p : Part) (w : Option Workspace) : (p.setPlan w).net = p.net := rfl
@[simp] theorem Part.setPlan_watch (p : Part) (w : Option Workspace) : (p.setPlan w).watch = p.watch := rfl
@[simp] theorem Part.setPlan_inc (p : Part) (w : Option Workspace) : (p.setPlan w).inc = p.inc := rfl
@[simp] theorem Part.setPlan_plan_queue (p : Part) (w : Option Workspace) :
    (p.setPlan w).plan.queue = p.plan.queue := rfl
@[simp] theorem Part.setPlan_plan_plan (p : Part) (w : Option Workspace) : (p.setPlan w).plan.plan = w := rfl
@[simp] theorem Part.setPlan_seq (p : Part) (w : Option Workspace) : (p.setPlan w).seq = p.seq := rfl
@[simp] theorem Part.setPlan_ver (p : Part) (w : Option Workspace) : (p.setPlan w).ver = p.ver := rfl
@[simp] theorem Part.setPlan_mgmt (p : Part) (w : Option Workspace) : (p.setPlan w).mgmt = p.mgmt := rfl
@[simp] theorem Part.setPlan_trace (p : Part) (w : Option Workspace) : (p.setPlan w).trace = p.trace := rfl
@[simp] theorem Part.setPlan_counters (p : Part) (w : Option Workspace) : (p.setPlan w).counters = p.counters := rfl

/-! ## setPlanQueue -/

@[simp] theorem Part.setPlanQueue_now (p : Part) (q : List PlanEntry) : (p.setPlanQueue q).now = p.now := rfl
@[simp] theorem Part.setPlanQueue_trunk (p : Part) (q : List PlanEntry) : (p.setPlanQueue q).trunk = p.trunk := rfl
@[simp] theorem Part.setPlanQueue_stations (p : Part) (q : List PlanEntry) :
    (p.setPlanQueue q).stations = p.stations := rfl
@[simp] theorem Part.setPlanQueue_net (p : Part) (q : List PlanEntry) : (p.setPlanQueue q).net = p.net := rfl
@[simp] theorem Part.setPlanQueue_watch (p : Part) (q : List PlanEntry) : (p.setPlanQueue q).watch = p.watch := rfl
@[simp] theorem Part.setPlanQueue_inc (p : Part) (q : List PlanEntry) : (p.setPlanQueue q).inc = p.inc := rfl
@[simp] theorem Part.setPlanQueue_plan_queue (p : Part) (q : List PlanEntry) :
    (p.setPlanQueue q).plan.queue = q := rfl
@[simp] theorem Part.setPlanQueue_plan_plan (p : Part) (q : List PlanEntry) :
    (p.setPlanQueue q).plan.plan = p.plan.plan := rfl
@[simp] theorem Part.setPlanQueue_seq (p : Part) (q : List PlanEntry) : (p.setPlanQueue q).seq = p.seq := rfl
@[simp] theorem Part.setPlanQueue_ver (p : Part) (q : List PlanEntry) : (p.setPlanQueue q).ver = p.ver := rfl
@[simp] theorem Part.setPlanQueue_mgmt (p : Part) (q : List PlanEntry) : (p.setPlanQueue q).mgmt = p.mgmt := rfl
@[simp] theorem Part.setPlanQueue_trace (p : Part) (q : List PlanEntry) : (p.setPlanQueue q).trace = p.trace := rfl
@[simp] theorem Part.setPlanQueue_counters (p : Part) (q : List PlanEntry) :
    (p.setPlanQueue q).counters = p.counters := rfl

/-! ## putVerify -/

@[simp] theorem Part.putVerify_now (p : Part) (r : Nat) (x : VerifyCtx) : (p.putVerify r x).now = p.now := rfl
@[simp] theorem Part.putVerify_trunk (p : Part) (r : Nat) (x : VerifyCtx) : (p.putVerify r x).trunk = p.trunk := rfl
@[simp] theorem Part.putVerify_stations (p : Part) (r : Nat) (x : VerifyCtx) :
    (p.putVerify r x).stations = p.stations := rfl
@[simp] theorem Part.putVerify_net (p : Part) (r : Nat) (x : VerifyCtx) : (p.putVerify r x).net = p.net := rfl
@[simp] theorem Part.putVerify_watch (p : Part) (r : Nat) (x : VerifyCtx) : (p.putVerify r x).watch = p.watch := rfl
@[simp] theorem Part.putVerify_inc (p : Part) (r : Nat) (x : VerifyCtx) : (p.putVerify r x).inc = p.inc := rfl
@[simp] theorem Part.putVerify_plan (p : Part) (r : Nat) (x : VerifyCtx) : (p.putVerify r x).plan = p.plan := rfl
@[simp] theorem Part.putVerify_seq (p : Part) (r : Nat) (x : VerifyCtx) : (p.putVerify r x).seq = p.seq := rfl
@[simp] theorem Part.putVerify_ver (p : Part) (r : Nat) (x : VerifyCtx) :
    (p.putVerify r x).ver = Table.put p.ver r x := rfl
@[simp] theorem Part.putVerify_mgmt (p : Part) (r : Nat) (x : VerifyCtx) : (p.putVerify r x).mgmt = p.mgmt := rfl
@[simp] theorem Part.putVerify_trace (p : Part) (r : Nat) (x : VerifyCtx) : (p.putVerify r x).trace = p.trace := rfl
@[simp] theorem Part.putVerify_counters (p : Part) (r : Nat) (x : VerifyCtx) :
    (p.putVerify r x).counters = p.counters := rfl

/-! ## removeVerify -/

@[simp] theorem Part.removeVerify_now (p : Part) (r : Nat) : (p.removeVerify r).now = p.now := rfl
@[simp] theorem Part.removeVerify_trunk (p : Part) (r : Nat) : (p.removeVerify r).trunk = p.trunk := rfl
@[simp] theorem Part.removeVerify_stations (p : Part) (r : Nat) : (p.removeVerify r).stations = p.stations := rfl
@[simp] theorem Part.removeVerify_net (p : Part) (r : Nat) : (p.removeVerify r).net = p.net := rfl
@[simp] theorem Part.removeVerify_watch (p : Part) (r : Nat) : (p.removeVerify r).watch = p.watch := rfl
@[simp] theorem Part.removeVerify_inc (p : Part) (r : Nat) : (p.removeVerify r).inc = p.inc := rfl
@[simp] theorem Part.removeVerify_plan (p : Part) (r : Nat) : (p.removeVerify r).plan = p.plan := rfl
@[simp] theorem Part.removeVerify_seq (p : Part) (r : Nat) : (p.removeVerify r).seq = p.seq := rfl
@[simp] theorem Part.removeVerify_ver (p : Part) (r : Nat) : (p.removeVerify r).ver = Table.remove p.ver r := rfl
@[simp] theorem Part.removeVerify_mgmt (p : Part) (r : Nat) : (p.removeVerify r).mgmt = p.mgmt := rfl
@[simp] theorem Part.removeVerify_trace (p : Part) (r : Nat) : (p.removeVerify r).trace = p.trace := rfl
@[simp] theorem Part.removeVerify_counters (p : Part) (r : Nat) : (p.removeVerify r).counters = p.counters := rfl

/-! ## advanceTo -/

@[simp] theorem Part.advanceTo_trunk (p : Part) (t : Nat) : (p.advanceTo t).trunk = p.trunk := rfl
@[simp] theorem Part.advanceTo_stations (p : Part) (t : Nat) : (p.advanceTo t).stations = p.stations := rfl
@[simp] theorem Part.advanceTo_net (p : Part) (t : Nat) : (p.advanceTo t).net = p.net := rfl
@[simp] theorem Part.advanceTo_watch (p : Part) (t : Nat) : (p.advanceTo t).watch = p.watch := rfl
@[simp] theorem Part.advanceTo_inc (p : Part) (t : Nat) : (p.advanceTo t).inc = p.inc := rfl
@[simp] theorem Part.advanceTo_plan (p : Part) (t : Nat) : (p.advanceTo t).plan = p.plan := rfl
@[simp] theorem Part.advanceTo_seq (p : Part) (t : Nat) : (p.advanceTo t).seq = p.seq := rfl
@[simp] theorem Part.advanceTo_ver (p : Part) (t : Nat) : (p.advanceTo t).ver = p.ver := rfl
@[simp] theorem Part.advanceTo_mgmt (p : Part) (t : Nat) : (p.advanceTo t).mgmt = p.mgmt := rfl
@[simp] theorem Part.advanceTo_trace (p : Part) (t : Nat) : (p.advanceTo t).trace = p.trace := rfl
@[simp] theorem Part.advanceTo_counters (p : Part) (t : Nat) : (p.advanceTo t).counters = p.counters := rfl

/-! ## record -/

@[simp] theorem Part.record_now (p : Part) (c : TraceCode) (n : Option Nat) (s : Option Subject) (x : Option Nat) :
    (p.record c n s x).now = p.now := rfl
@[simp] theorem Part.record_trunk (p : Part) (c : TraceCode) (n : Option Nat) (s : Option Subject) (x : Option Nat) :
    (p.record c n s x).trunk = p.trunk := rfl
@[simp] theorem Part.record_stations (p : Part) (c : TraceCode) (n : Option Nat) (s : Option Subject) (x : Option Nat) :
    (p.record c n s x).stations = p.stations := rfl
@[simp] theorem Part.record_net (p : Part) (c : TraceCode) (n : Option Nat) (s : Option Subject) (x : Option Nat) :
    (p.record c n s x).net = p.net := rfl
@[simp] theorem Part.record_watch (p : Part) (c : TraceCode) (n : Option Nat) (s : Option Subject) (x : Option Nat) :
    (p.record c n s x).watch = p.watch := rfl
@[simp] theorem Part.record_inc (p : Part) (c : TraceCode) (n : Option Nat) (s : Option Subject) (x : Option Nat) :
    (p.record c n s x).inc = p.inc := rfl
@[simp] theorem Part.record_plan (p : Part) (c : TraceCode) (n : Option Nat) (s : Option Subject) (x : Option Nat) :
    (p.record c n s x).plan = p.plan := rfl
@[simp] theorem Part.record_seq (p : Part) (c : TraceCode) (n : Option Nat) (s : Option Subject) (x : Option Nat) :
    (p.record c n s x).seq = p.seq := rfl
@[simp] theorem Part.record_ver (p : Part) (c : TraceCode) (n : Option Nat) (s : Option Subject) (x : Option Nat) :
    (p.record c n s x).ver = p.ver := rfl
@[simp] theorem Part.record_mgmt (p : Part) (c : TraceCode) (n : Option Nat) (s : Option Subject) (x : Option Nat) :
    (p.record c n s x).mgmt = p.mgmt := rfl
@[simp] theorem Part.record_counters (p : Part) (c : TraceCode) (n : Option Nat) (s : Option Subject) (x : Option Nat) :
    (p.record c n s x).counters = p.counters := rfl

end Sys2Proof.Machine
end

