-- ==== Sys2Proof/Laws/Tables.lean ====
section
/-! SUPPORT. What the operations on record sets do: reading after a write, the canonical form, and counting. -/

namespace Sys2Proof.Machine

variable {α β : Type}

/-! ## Reading after a write -/

@[simp] theorem Table.look_nil (k : Nat) : Table.look ([] : Table α) k = none := rfl

theorem Table.look_put (t : Table α) (k : Nat) (a : α) (j : Nat) :
    (Table.put t k a).look j = if j = k then some a else t.look j := by
  induction t with
  | nil => simp [Table.put, Table.look, eq_comm]
  | cons e t ih =>
    obtain ⟨i, b⟩ := e
    simp only [Table.put]
    split
    · simp only [Table.look]; split <;> rename_i h <;> simp [h, eq_comm]
    · split
      · subst_vars; simp only [Table.look]; split <;> rename_i h <;> simp [h, eq_comm]
        intro h'; exact absurd h'.symm h
      · simp only [Table.look, ih]
        split <;> rename_i h
        · subst h; simp [*, eq_comm]
        · rfl

@[simp] theorem Table.look_put_self (t : Table α) (k : Nat) (a : α) : (Table.put t k a).look k = some a := by
  simp [Table.look_put]

theorem Table.look_put_ne (t : Table α) {k j : Nat} (a : α) (h : j ≠ k) : (Table.put t k a).look j = t.look j := by
  simp [Table.look_put, h]

theorem Table.look_remove (t : Table α) (k j : Nat) :
    (Table.remove t k).look j = if j = k then none else t.look j := by
  induction t with
  | nil => simp [Table.remove]
  | cons e t ih =>
    obtain ⟨i, b⟩ := e
    simp only [Table.remove]
    split
    · subst_vars; simp only [ih, Table.look]; split <;> simp_all [eq_comm]
    · simp only [Table.look, ih]; split <;> simp_all

@[simp] theorem Table.look_remove_self (t : Table α) (k : Nat) : (Table.remove t k).look k = none := by
  simp [Table.look_remove]

theorem Table.look_remove_ne (t : Table α) {k j : Nat} (h : j ≠ k) : (Table.remove t k).look j = t.look j := by
  simp [Table.look_remove, h]

theorem Table.look_adjust (t : Table α) (k : Nat) (f : α → α) (j : Nat) :
    (Table.adjust t k f).look j = if j = k then (t.look j).map f else t.look j := by
  induction t with
  | nil => simp [Table.adjust]
  | cons e t ih =>
    obtain ⟨i, b⟩ := e
    simp only [Table.adjust, List.map_cons] at ih ⊢
    by_cases h : i = k
    · subst h; simp only [if_true, Table.look, ih]; by_cases h' : i = j
      · subst h'; simp
      · simp [h']
    · simp only [h, if_false, Table.look, ih]; by_cases h' : i = j
      · subst h'; simp [h]
      · simp [h']

theorem Table.look_mapAll (f : α → β) (t : Table α) (j : Nat) :
    Table.look (t.map fun e => (e.1, f e.2)) j = (t.look j).map f := by
  induction t with
  | nil => rfl
  | cons e t ih => obtain ⟨i, b⟩ := e; simp only [List.map_cons, Table.look, ih]; split <;> rfl

theorem Table.look_mapAll' (f : α → α) (t : Table α) (j : Nat) : (Table.mapAll f t).look j = (t.look j).map f :=
  Table.look_mapAll f t j

theorem Table.mem_of_look {t : Table α} {k : Nat} {a : α} (h : t.look k = some a) : (k, a) ∈ t := by
  induction t with
  | nil => simp [Table.look] at h
  | cons e t ih =>
    obtain ⟨i, b⟩ := e
    simp only [Table.look] at h
    split at h
    · simp_all
    · exact List.mem_cons_of_mem _ (ih h)

/-! ## The canonical form -/

theorem Table.wf_cons {i : Nat} {b : α} {t : Table α} :
    Table.wf ((i, b) :: t) = true ↔ (∀ e ∈ t, i < e.1) ∧ t.wf = true := by
  simp [Table.wf, Bool.and_eq_true, List.all_eq_true]

theorem Table.mem_put {t : Table α} {k : Nat} {a : α} {e : Nat × α} (h : e ∈ Table.put t k a) : e = (k, a) ∨ e ∈ t := by
  induction t with
  | nil => simpa [Table.put] using h
  | cons d t ih =>
    obtain ⟨i, b⟩ := d
    simp only [Table.put] at h
    split at h
    · simpa using h
    · split at h
      · rcases List.mem_cons.1 h with h | h <;> simp [h]
      · rcases List.mem_cons.1 h with h | h
        · simp [h]
        · rcases ih h with h | h <;> simp [h]

theorem Table.mem_remove {t : Table α} {k : Nat} {e : Nat × α} (h : e ∈ Table.remove t k) : e ∈ t ∧ e.1 ≠ k := by
  induction t with
  | nil => simp [Table.remove] at h
  | cons d t ih =>
    obtain ⟨i, b⟩ := d
    simp only [Table.remove] at h
    split at h
    · exact ⟨List.mem_cons_of_mem _ (ih h).1, (ih h).2⟩
    · rcases List.mem_cons.1 h with h | h
      · subst h; exact ⟨by simp, by assumption⟩
      · exact ⟨List.mem_cons_of_mem _ (ih h).1, (ih h).2⟩

theorem Table.wf_put {t : Table α} (k : Nat) (a : α) (h : t.wf = true) : (Table.put t k a).wf = true := by
  induction t with
  | nil => rfl
  | cons d t ih =>
    obtain ⟨i, b⟩ := d
    obtain ⟨h1, h2⟩ := Table.wf_cons.1 h
    simp only [Table.put]
    split
    · refine Table.wf_cons.2 ⟨?_, h⟩
      intro e he
      rcases List.mem_cons.1 he with he | he
      · subst he; assumption
      · have := h1 e he; omega
    · split
      · subst_vars; exact Table.wf_cons.2 ⟨h1, h2⟩
      · refine Table.wf_cons.2 ⟨?_, ih h2⟩
        intro e he
        rcases Table.mem_put he with he | he
        · subst he; simp only; omega
        · exact h1 e he

theorem Table.wf_remove {t : Table α} (k : Nat) (h : t.wf = true) : (Table.remove t k).wf = true := by
  induction t with
  | nil => rfl
  | cons d t ih =>
    obtain ⟨i, b⟩ := d
    obtain ⟨h1, h2⟩ := Table.wf_cons.1 h
    simp only [Table.remove]
    split
    · exact ih h2
    · exact Table.wf_cons.2 ⟨fun e he => h1 e (Table.mem_remove he).1, ih h2⟩

theorem Table.wf_map {t : Table α} (f : Nat × α → Nat × β) (hf : ∀ e, (f e).1 = e.1) (h : t.wf = true) :
    Table.wf (t.map f) = true := by
  induction t with
  | nil => rfl
  | cons d t ih =>
    obtain ⟨i, b⟩ := d
    obtain ⟨h1, h2⟩ := Table.wf_cons.1 h
    have hd : f (i, b) = (i, (f (i, b)).2) := Prod.ext (hf _) rfl
    rw [List.map_cons, hd]
    refine Table.wf_cons.2 ⟨?_, ih h2⟩
    intro e he
    obtain ⟨d, hd, rfl⟩ := List.mem_map.1 he
    rw [hf]; exact h1 d hd

theorem Table.wf_adjust {t : Table α} (k : Nat) (f : α → α) (h : t.wf = true) : (Table.adjust t k f).wf = true :=
  Table.wf_map _ (fun e => by split <;> rfl) h

theorem Table.wf_mapAll {t : Table α} (f : α → α) (h : t.wf = true) : (Table.mapAll f t).wf = true :=
  Table.wf_map _ (fun _ => rfl) h

theorem Table.wf_filter {t : Table α} (f : Nat × α → Bool) (h : t.wf = true) : Table.wf (t.filter f) = true := by
  induction t with
  | nil => rfl
  | cons d t ih =>
    obtain ⟨i, b⟩ := d
    obtain ⟨h1, h2⟩ := Table.wf_cons.1 h
    rw [List.filter_cons]
    split
    · exact Table.wf_cons.2 ⟨fun e he => h1 e (List.mem_filter.1 he).1, ih h2⟩
    · exact ih h2

theorem Table.look_of_mem {t : Table α} (h : t.wf = true) {k : Nat} {a : α} (m : (k, a) ∈ t) : t.look k = some a := by
  induction t with
  | nil => simp at m
  | cons d t ih =>
    obtain ⟨i, b⟩ := d
    obtain ⟨h1, h2⟩ := Table.wf_cons.1 h
    simp only [Table.look]
    rcases List.mem_cons.1 m with m | m
    · simp_all
    · have := h1 _ m
      split
      · simp only at this; omega
      · exact ih h2 m

theorem Table.mem_iff_look {t : Table α} (h : t.wf = true) {k : Nat} {a : α} : (k, a) ∈ t ↔ t.look k = some a :=
  ⟨Table.look_of_mem h, Table.mem_of_look⟩

theorem Table.look_filter {t : Table α} (h : t.wf = true) (f : Nat × α → Bool) (k : Nat) :
    Table.look (t.filter f) k = (t.look k).filter fun a => f (k, a) := by
  have hf := Table.wf_filter f h
  cases hk : t.look k with
  | none =>
    rcases hl : Table.look (t.filter f) k with _ | a
    · rfl
    · have := (List.mem_filter.1 (Table.mem_of_look hl)).1
      rw [Table.look_of_mem h this] at hk; cases hk
  | some a =>
    by_cases ha : f (k, a) = true
    · simp only [Option.filter, ha, if_true]
      exact Table.look_of_mem hf (List.mem_filter.2 ⟨Table.mem_of_look hk, ha⟩)
    · simp only [Option.filter, ha]
      rcases hl : Table.look (t.filter f) k with _ | b
      · rfl
      · have hb := List.mem_filter.1 (Table.mem_of_look hl)
        have := Table.look_of_mem h hb.1
        rw [hk] at this; cases this; exact absurd hb.2 ha

/-! ## Free numbers -/

theorem Table.firstFree_spec {t : Table α} {n k : Nat} (h : t.firstFree n = some k) : k < n ∧ t.look k = none := by
  have h1 := List.find?_some h
  have h2 := List.mem_of_find?_eq_some h
  exact ⟨List.mem_range.1 h2, by simpa using h1⟩

/-! ## Counting -/

theorem Table.count_put {t : Table α} (h : t.wf = true) (k : Nat) (a : α) (f : Nat × α → Bool) :
    ((Table.put t k a).filter f).length + (((t.look k).filter fun b => f (k, b)).toList.length) =
      (t.filter f).length + (if f (k, a) then 1 else 0) := by
  induction t with
  | nil => simp only [Table.put, List.filter]; split <;> simp_all
  | cons d t ih =>
    obtain ⟨i, b⟩ := d
    obtain ⟨h1, h2⟩ := Table.wf_cons.1 h
    have ih := ih h2
    have hlt : ∀ k, k ≤ i → Table.look t k = none := by
      intro k hk
      rcases hl : Table.look t k with _ | c
      · rfl
      · have := h1 _ (Table.mem_of_look hl); simp only at this; omega
    simp only [Table.put]
    split
    · rename_i hk
      have e1 : Table.look ((i, b) :: t) k = none := by
        simp only [Table.look]; split
        · omega
        · exact hlt k (by omega)
      rw [e1]; simp only [List.filter_cons, Option.filter_none, Option.toList_none, List.length_nil]
      by_cases hp : f (k, a) = true <;> by_cases hq : f (i, b) = true <;> simp [hp, hq]
    · split
      · subst_vars
        simp only [Table.look, List.filter_cons, if_true, Option.filter_some]
        by_cases hp : f (i, a) = true <;> by_cases hq : f (i, b) = true <;> simp [hp, hq]
      · rename_i hk hk'
        have e1 : Table.look ((i, b) :: t) k = Table.look t k := by simp [Table.look, Ne.symm hk']
        rw [e1]; simp only [List.filter_cons]
        by_cases hq : f (i, b) = true
        · simp only [hq, if_true, List.length_cons]; omega
        · simp only [hq]; exact ih

theorem Table.count_remove (t : Table α) (k : Nat) (f : Nat × α → Bool) :
    ((Table.remove t k).filter f).length ≤ (t.filter f).length := by
  induction t with
  | nil => simp [Table.remove]
  | cons d t ih =>
    obtain ⟨i, b⟩ := d
    simp only [Table.remove]
    split
    · by_cases hq : f (i, b) = true
      · simp only [List.filter_cons, hq, if_true, List.length_cons]; omega
      · simp only [List.filter_cons, hq]; exact ih
    · by_cases hq : f (i, b) = true
      · simp only [List.filter_cons, hq, if_true, List.length_cons]; omega
      · simp only [List.filter_cons, hq]; exact ih

theorem Table.count_put_same {t : Table α} (h : t.wf = true) {k : Nat} {a b : α} (f : Nat × α → Bool)
    (hb : t.look k = some b) (hf : f (k, a) = f (k, b)) :
    ((Table.put t k a).filter f).length = (t.filter f).length := by
  have := Table.count_put h k a f
  rw [hb] at this
  simp only [Option.filter_some, hf] at this
  split at this <;> simp_all

theorem Table.count_put_new {t : Table α} (h : t.wf = true) {k : Nat} {a : α} (f : Nat × α → Bool)
    (hb : t.look k = none) :
    ((Table.put t k a).filter f).length = (t.filter f).length + (if f (k, a) then 1 else 0) := by
  have := Table.count_put h k a f
  rw [hb] at this
  simpa using this

theorem Table.count_adjust (t : Table α) (k : Nat) (g : α → α) (f : Nat × α → Bool) (hf : ∀ i a, f (i, g a) = f (i, a)) :
    ((Table.adjust t k g).filter f).length = (t.filter f).length := by
  induction t with
  | nil => rfl
  | cons d t ih =>
    obtain ⟨i, b⟩ := d
    simp only [Table.adjust, List.map_cons] at ih ⊢
    have e : f (if i = k then (i, g b) else (i, b)) = f (i, b) := by split <;> simp [hf]
    simp only [List.filter_cons, e]
    split <;> simp only [List.length_cons, ih]

theorem Table.length_put (t : Table α) (k : Nat) (a : α) : (Table.put t k a).length ≤ t.length + 1 := by
  induction t with
  | nil => simp [Table.put]
  | cons d t ih =>
    obtain ⟨i, b⟩ := d
    simp only [Table.put]
    split
    · simp
    · split <;> simp only [List.length_cons] <;> omega

end Sys2Proof.Machine
end

