-- ==== Sys2Proof/Laws/Keeps.lean ====
section
/-! SUPPORT. `Keeps`: what every operation but the orders' own writes leaves or keeps, and that the operations of Ops
and IncidentOps keep it. -/

namespace Sys2Proof.Machine

/-- From `p` to `q` the configuration stands, a TRANSPARENT part stays so and takes no tag, and the invariants of the
stores are kept. -/
structure Keeps (p q : Part) : Prop where
  config : p.canonical → q.configuredAs p
  silent : p.isActive = false → q.isActive = false ∧ q.seq.tag = p.seq.tag
  canonical : p.canonical → q.canonical
  bounded : p.bounded → q.bounded
  slots : p.canonical → p.slotsKept → q.slotsKept
  incidents : p.canonical → p.incidentsKept → q.incidentsKept
  stations : p.canonical → p.stationsKept → q.stationsKept
  hold : p.canonical → p.holdLaw → q.holdLaw

/-- `Keeps` but for the bounds of the stores. -/
structure KeepsU (p q : Part) : Prop where
  config : p.canonical → q.configuredAs p
  silent : p.isActive = false → q.isActive = false ∧ q.seq.tag = p.seq.tag
  canonical : p.canonical → q.canonical
  slots : p.canonical → p.slotsKept → q.slotsKept
  incidents : p.canonical → p.incidentsKept → q.incidentsKept
  stations : p.canonical → p.stationsKept → q.stationsKept
  hold : p.canonical → p.holdLaw → q.holdLaw

theorem Keeps.unbounded {p q : Part} (h : Keeps p q) : KeepsU p q := { h with }

theorem KeepsU.bound {p q : Part} (h : KeepsU p q) (b : p.bounded → q.bounded) : Keeps p q := { h with bounded := b }

theorem Part.configuredAs.refl (p : Part) : p.configuredAs p := by constructor <;> intros <;> rfl

theorem Part.configuredAs.trans {p q r : Part} (h : q.configuredAs p) (k : r.configuredAs q) : r.configuredAs p := by
  constructor <;> intros <;> first
    | exact k.segments.trans h.segments | exact (k.valves _).trans (h.valves _) | exact k.materials.trans h.materials
    | exact k.vclasses.trans h.vclasses | exact k.channels.trans h.channels | exact (k.sensors _).trans (h.sensors _)
    | exact (k.zones _).trans (h.zones _) | exact k.stationMode.trans h.stationMode | exact k.interval.trans h.interval
    | exact (k.entries _).trans (h.entries _) | exact k.classMap.trans h.classMap | exact k.urgencyMap.trans h.urgencyMap
    | exact k.noticePriority.trans h.noticePriority | exact k.ownAddress.trans h.ownAddress
    | exact k.noticeAddress.trans h.noticeAddress | exact k.policy.trans h.policy

theorem Keeps.refl (p : Part) : Keeps p p :=
  ⟨fun _ => .refl p, fun h => ⟨h, rfl⟩, id, id, fun _ h => h, fun _ h => h, fun _ h => h, fun _ h => h⟩

theorem isActive_congr {p q : Part} (h : q.mgmt.mode = p.mgmt.mode) : q.isActive = p.isActive := by
  simp [Part.isActive, h]

theorem Keeps.trans {p q r : Part} (h : Keeps p q) (k : Keeps q r) : Keeps p r where
  config c := (h.config c).trans (k.config (h.canonical c))
  silent a := ⟨(k.silent (h.silent a).1).1, ((k.silent (h.silent a).1).2).trans (h.silent a).2⟩
  canonical a := k.canonical (h.canonical a)
  bounded a := k.bounded (h.bounded a)
  slots c a := k.slots (h.canonical c) (h.slots c a)
  incidents c a := k.incidents (h.canonical c) (h.incidents c a)
  stations c a := k.stations (h.canonical c) (h.stations c a)
  hold c a := k.hold (h.canonical c) (h.hold c a)

theorem KeepsU.trans {p q r : Part} (h : KeepsU p q) (k : KeepsU q r) : KeepsU p r where
  config c := (h.config c).trans (k.config (h.canonical c))
  silent a := ⟨(k.silent (h.silent a).1).1, ((k.silent (h.silent a).1).2).trans (h.silent a).2⟩
  canonical a := k.canonical (h.canonical a)
  slots c a := k.slots (h.canonical c) (h.slots c a)
  incidents c a := k.incidents (h.canonical c) (h.incidents c a)
  stations c a := k.stations (h.canonical c) (h.stations c a)
  hold c a := k.hold (h.canonical c) (h.hold c a)

theorem Keeps.foldl {α : Type} {f : Part → α → Part} (hf : ∀ q a, Keeps q (f q a)) (l : List α) (p : Part) :
    Keeps p (l.foldl f p) := by
  induction l generalizing p with
  | nil => exact .refl p
  | cons a l ih => exact (hf p a).trans (ih _)

theorem Keeps.ite {c : Prop} [Decidable c] {p a b : Part} (ha : Keeps p a) (hb : Keeps p b) :
    Keeps p (if c then a else b) := by split <;> assumption

theorem Keeps.iteB {c : Bool} {p a b : Part} (ha : Keeps p a) (hb : Keeps p b) :
    Keeps p (if c then a else b) := by split <;> assumption

/-! ## The invariants alone -/

/-- The invariants of the stores, but for the law of the hold counts, go from `p` to `q`. -/
structure Sound (p q : Part) : Prop where
  canonical : p.canonical → q.canonical
  bounded : p.bounded → q.bounded
  slots : p.canonical → p.slotsKept → q.slotsKept
  incidents : p.canonical → p.incidentsKept → q.incidentsKept
  stations : p.canonical → p.stationsKept → q.stationsKept

/-- Besides, a TRANSPARENT part stays so and takes no tag. -/
structure Stable (p q : Part) : Prop extends Sound p q where
  silent : p.isActive = false → q.isActive = false ∧ q.seq.tag = p.seq.tag

/-- Besides, the law of the hold counts goes over. -/
structure Firm (p q : Part) : Prop extends Stable p q where
  hold : p.canonical → p.holdLaw → q.holdLaw

theorem Keeps.firm {p q : Part} (h : Keeps p q) : Firm p q := { h with }

theorem Sound.trans {p q r : Part} (h : Sound p q) (k : Sound q r) : Sound p r where
  canonical a := k.canonical (h.canonical a)
  bounded a := k.bounded (h.bounded a)
  slots c a := k.slots (h.canonical c) (h.slots c a)
  incidents c a := k.incidents (h.canonical c) (h.incidents c a)
  stations c a := k.stations (h.canonical c) (h.stations c a)

theorem Firm.refl (p : Part) : Firm p p := (Keeps.refl p).firm

theorem Stable.trans {p q r : Part} (h : Stable p q) (k : Stable q r) : Stable p r where
  toSound := h.toSound.trans k.toSound
  silent a := ⟨(k.silent (h.silent a).1).1, ((k.silent (h.silent a).1).2).trans (h.silent a).2⟩

theorem Firm.trans {p q r : Part} (h : Firm p q) (k : Firm q r) : Firm p r where
  toStable := h.toStable.trans k.toStable
  hold c a := k.hold (h.canonical c) (h.hold c a)

/-- What keeps the invariants and the configuration. -/
theorem Firm.keeps {p q : Part} (h : Firm p q) (c : p.canonical → q.configuredAs p) : Keeps p q := { h with config := c }

/-! ## Writes that leave most of the part -/

/-- The law of the hold counts goes over where hold counts and records are the same. -/
theorem holdLaw_congr {p q : Part}
    (v : ∀ n, (q.valve? n).map Valve.holdCount = (p.valve? n).map Valve.holdCount)
    (r : q.inc.records = p.inc.records) (h : p.holdLaw) : q.holdLaw := by
  intro n x hx
  have e := v n
  rw [hx] at e
  cases hy : p.valve? n with
  | none => rw [hy] at e; cases e
  | some y =>
    rw [hy] at e
    have e : x.holdCount = y.holdCount := by simpa using e
    rw [e, h n y hy, Part.holders, Part.holders, r]

/-- A change of the trace, of the notices, of the free-value counter, of the counters and of the lines alone. -/
theorem KeepsU.ofLight {p q : Part} (net : q.net = p.net) (watch : q.watch = p.watch) (inc : q.inc = p.inc)
    (plan : q.plan = p.plan) (seq : q.seq = p.seq) (ver : q.ver = p.ver) (stations : q.stations = p.stations)
    (maps : q.trunk.classMap = p.trunk.classMap ∧ q.trunk.urgencyMap = p.trunk.urgencyMap ∧
      q.trunk.noticePriority = p.trunk.noticePriority)
    (mgmt : q.mgmt.mode = p.mgmt.mode ∧ q.mgmt.ownAddress = p.mgmt.ownAddress ∧
      q.mgmt.noticeAddress = p.mgmt.noticeAddress)
    (policy : q.trace.policy = p.trace.policy) : KeepsU p q where
  config _ := by
    constructor <;> intros <;>
      simp [Part.valve?, Part.sensor?, Part.zone, net, watch, stations, maps, mgmt, policy]
  silent a := ⟨(isActive_congr mgmt.1).trans a, by rw [seq]⟩
  canonical h := by
    obtain ⟨h1, h2, h3, h4, h5, h6, h7, h8, h9, h10, h11⟩ := h
    constructor <;> simp_all
  slots _ h z := by simpa [Part.slotsHeld, Part.zone, seq, watch] using h z
  incidents _ h := by
    have e : ∀ r, q.incident? r = p.incident? r := fun r => by simp [Part.incident?, inc]
    exact ⟨fun r i a => h.within r i (e r ▸ a), fun r r' i i' a b => h.distinct r r' i i' (e r ▸ a) (e r' ▸ b),
      inc ▸ h.next, fun w a => h.workspace w (plan ▸ a)⟩
  stations _ h := ⟨by simpa [stations] using h.within, by simpa [stations] using h.distinct⟩
  hold _ := holdLaw_congr (fun v => by simp [Part.valve?, net]) (by rw [inc])

theorem Keeps.ofLight {p q : Part} (net : q.net = p.net) (watch : q.watch = p.watch) (inc : q.inc = p.inc)
    (plan : q.plan = p.plan) (seq : q.seq = p.seq) (ver : q.ver = p.ver) (stations : q.stations = p.stations)
    (maps : q.trunk.classMap = p.trunk.classMap ∧ q.trunk.urgencyMap = p.trunk.urgencyMap ∧
      q.trunk.noticePriority = p.trunk.noticePriority)
    (mgmt : q.mgmt.mode = p.mgmt.mode ∧ q.mgmt.ownAddress = p.mgmt.ownAddress ∧
      q.mgmt.noticeAddress = p.mgmt.noticeAddress)
    (policy : q.trace.policy = p.trace.policy)
    (bounded : p.bounded → q.bounded) : Keeps p q :=
  (KeepsU.ofLight net watch inc plan seq ver stations maps mgmt policy).bound bounded

theorem bounded_congr {p q : Part} (lines : q.trunk.lines = p.trunk.lines) (notices : q.mgmt.notices = p.mgmt.notices)
    (trace : q.trace.fifo = p.trace.fifo) (counters : q.counters = p.counters) (tag : q.seq.tag = p.seq.tag)
    (next : q.inc.next = p.inc.next) (frames : ∀ f ∈ q.seq.frames, f ∈ p.seq.frames) (h : p.bounded) : q.bounded where
  lines l := by simpa [Part.line, lines] using h.lines l
  notices := notices ▸ h.notices
  trace := trace ▸ h.trace
  counters := counters ▸ h.counters
  tag := tag ▸ h.tag
  next := next ▸ h.next
  frames f a := h.frames f (frames f a)

theorem incidentsKept_congr {p q : Part} (records : q.inc.records = p.inc.records) (next : q.inc.next = p.inc.next)
    (plan : q.plan.plan = p.plan.plan) (h : p.incidentsKept) : q.incidentsKept := by
  have e : ∀ r, q.incident? r = p.incident? r := fun r => by simp [Part.incident?, records]
  exact ⟨fun r i a => h.within r i (e r ▸ a), fun r r' i i' a b => h.distinct r r' i i' (e r ▸ a) (e r' ▸ b),
    next ▸ h.next, fun w a => h.workspace w (plan ▸ a)⟩

/-! ## The trace FIFO -/

theorem markNewest_length (l : List TraceEntry) : (markNewest l).length = l.length := by
  induction l with
  | nil => rfl
  | cons e l ih => cases l with
    | nil => rfl
    | cons f l => simpa [markNewest] using ih

theorem markOldest_length (l : List TraceEntry) : (markOldest l).length = l.length := by cases l <;> rfl

theorem Recorder.join_length (e : TraceEntry) (r : Recorder) (h : r.fifo.length ≤ Config.traceDepth) :
    (r.join e).fifo.length ≤ Config.traceDepth := by
  unfold Recorder.join
  split
  · simp; omega
  · split
    · simp only [markNewest_length]; exact h
    · simp only [List.length_append, markOldest_length, List.length_tail, List.length_cons, List.length_nil,
        Config.traceDepth] at *
      omega

@[simp] theorem Recorder.join_policy (e : TraceEntry) (r : Recorder) : (r.join e).policy = r.policy := by
  unfold Recorder.join; split
  · rfl
  · split <;> simp_all

@[simp] theorem Recorder.join_wraps (e : TraceEntry) (r : Recorder) : (r.join e).wraps = r.wraps := by
  unfold Recorder.join; split
  · rfl
  · split <;> rfl

@[simp] theorem Recorder.join_wrapDue (e : TraceEntry) (r : Recorder) : (r.join e).wrapDue = r.wrapDue := by
  unfold Recorder.join; split
  · rfl
  · split <;> rfl

theorem keeps_record (p : Part) (c n s x) : Keeps p (p.record c n s x) :=
  .ofLight rfl rfl rfl rfl rfl rfl rfl ⟨rfl, rfl, rfl⟩ ⟨rfl, rfl, rfl⟩ (Recorder.join_policy _ _) fun h =>
    ⟨h.lines, h.notices, Recorder.join_length _ _ h.trace, h.counters, h.tag, h.next, h.frames⟩

/-! ## Lines and queues -/

theorem PerLine.get_set {α : Type} (q : PerLine α) (l : Line) (a : α) (k : Line) :
    (q.set l a).get k = if k = l then a else q.get k := by cases l <;> cases k <;> rfl

theorem PerClass.get_set {α : Type} (q : PerClass α) (c : Cls) (a : α) (k : Cls) :
    (q.set c a).get k = if k = c then a else q.get k := by cases c <;> cases k <;> rfl

theorem Part.setLine_line (p : Part) (l : Line) (x : LineState) (k : Line) :
    (p.setLine l x).line k = if k = l then x else p.line k := PerLine.get_set _ _ _ _

theorem keeps_setLine (p : Part) (l : Line) (x : LineState) (h : p.bounded → x.bounded) :
    Keeps p (p.setLine l x) :=
  .ofLight rfl rfl rfl rfl rfl rfl rfl ⟨rfl, rfl, rfl⟩ ⟨rfl, rfl, rfl⟩ rfl fun b =>
    ⟨fun k => by rw [Part.setLine_line]; split
                 · exact h b
                 · exact b.lines k,
      b.notices, b.trace, b.counters, b.tag, b.next, b.frames⟩

theorem raise_le {n : Nat} (h : n ≤ Config.counterTop) : raise n ≤ Config.counterTop := by
  unfold raise; split <;> omega

theorem keeps_setQueue (p : Part) (l : Line) (c : Cls) (q : List OutFrame) (s : Option OutFrame)
    (h : p.bounded → q.length ≤ Config.queueDepth) :
    Keeps p (p.setLine l { p.line l with queues := (p.line l).queues.set c q, sending := s }) :=
  keeps_setLine p l _ fun b =>
    ⟨fun k => by rw [PerClass.get_set]; split
                 · exact h b
                 · exact (b.lines l).1 k, (b.lines l).2⟩

theorem keepsU_setLine (p : Part) (l : Line) (x : LineState) : KeepsU p (p.setLine l x) :=
  .ofLight rfl rfl rfl rfl rfl rfl rfl ⟨rfl, rfl, rfl⟩ ⟨rfl, rfl, rfl⟩ rfl

theorem keepsU_append (p : Part) (l : Line) (c : Cls) (f : OutFrame) : KeepsU p (p.append l c f) := keepsU_setLine _ _ _

theorem keeps_append (p : Part) (l : Line) (c : Cls) (f : OutFrame) (h : p.hasPlace l c = true) :
    Keeps p (p.append l c f) := by
  refine keeps_setQueue p l c _ (p.line l).sending fun _ => ?_
  have := of_decide_eq_true h
  simp only [List.length_append, List.length_singleton]; omega

theorem keeps_adjustContext (p : Part) (v : Nat) (f : StepCtx → StepCtx) (h : ∀ c, (f c).zone = c.zone) :
    Keeps p (p.adjustContext v f) where
  config _ := by constructor <;> intros <;> rfl
  silent a := ⟨a, rfl⟩
  canonical h' := { h' with contexts := Table.wf_adjust _ _ h'.contexts }
  bounded := bounded_congr rfl rfl rfl rfl rfl rfl fun _ h => h
  slots _ h' z := by
    have := Table.count_adjust p.seq.contexts v f (fun e => decide (e.2.zone = z)) (fun i a => by simp [h])
    exact (le_of_eq this).trans (h' z)
  incidents _ := incidentsKept_congr rfl rfl rfl
  stations _ h := ⟨h.within, h.distinct⟩
  hold _ := holdLaw_congr (fun _ => rfl) rfl

theorem keeps_orderQueued (p : Part) (v : Nat) (k : OrderKind) : Keeps p (p.orderQueued v k) := by
  unfold Part.orderQueued
  split
  · exact .refl p
  · split
    · exact .refl p
    · split
      · exact keeps_adjustContext _ _ _ fun _ => rfl
      · exact keeps_adjustContext _ _ _ fun _ => rfl
      · exact .refl p

theorem keeps_setNotices (p : Part) (n : List PendEntry)
    (h : p.mgmt.notices.length ≤ Config.pendingDepth → n.length ≤ Config.pendingDepth) : Keeps p (p.setNotices n) :=
  .ofLight rfl rfl rfl rfl rfl rfl rfl ⟨rfl, rfl, rfl⟩ ⟨rfl, rfl, rfl⟩ rfl fun b =>
    ⟨b.lines, h b.notices, b.trace, b.counters, b.tag, b.next, b.frames⟩

theorem keeps_setSeqFrames (p : Part) (f : List SeqFrame)
    (h : (∀ e ∈ p.seq.frames, e.lines.Nodup) → ∀ e ∈ f, e.lines.Nodup) : Keeps p (p.setSeqFrames f) where
  config _ := by constructor <;> intros <;> rfl
  silent a := ⟨a, rfl⟩
  canonical h' := { h' with }
  bounded b := { b with frames := h b.frames }
  slots _ h' := h'
  incidents _ := incidentsKept_congr rfl rfl rfl
  stations _ h := ⟨h.within, h.distinct⟩
  hold _ := holdLaw_congr (fun _ => rfl) rfl

/-- What `findNotice` finds: the first entry that waits, where it stands. -/
theorem findNotice_some {w : PendEntry → Bool} {l a b : List PendEntry} {e : PendEntry}
    (h : findNotice w l = some (a, e, b)) : l = a ++ e :: b ∧ w e = true ∧ ∀ d ∈ a, w d = false := by
  induction l generalizing a with
  | nil => simp [findNotice] at h
  | cons d l ih =>
    simp only [findNotice] at h
    split at h
    · rename_i hd
      simp only [Option.some.injEq, Prod.mk.injEq] at h
      obtain ⟨rfl, rfl, rfl⟩ := h
      exact ⟨rfl, hd, by simp⟩
    · rename_i hd
      simp only [Option.map_eq_some_iff, Prod.mk.injEq] at h
      obtain ⟨⟨a', e', b'⟩, h, rfl, rfl, rfl⟩ := h
      obtain ⟨rfl, h2, h3⟩ := ih h
      refine ⟨rfl, h2, fun x hx => ?_⟩
      rcases List.mem_cons.1 hx with rfl | hx
      · simpa using hd
      · exact h3 x hx

/-- The list an offered place leaves is no longer than it was. -/
theorem offered_length {a b : List PendEntry} {e e' : PendEntry} {c : Bool} :
    (a ++ (if c then b else e' :: b)).length ≤ (a ++ e :: b).length := by
  cases c <;> simp

theorem takeOrder_nodup {g : Frame → Cls} {l : Line} {c : Cls} {t : List SeqFrame} {f : SeqFrame} {r : List SeqFrame}
    (h : takeOrder g l c t = some (f, r)) (ht : ∀ e ∈ t, e.lines.Nodup) : ∀ e ∈ r, e.lines.Nodup := by
  induction t generalizing f r with
  | nil => simp [takeOrder] at h
  | cons e t ih =>
    have he := ht e (by simp)
    have ht' : ∀ e ∈ t, e.lines.Nodup := fun e a => ht e (by simp [a])
    simp only [takeOrder] at h
    split at h
    · simp only [Option.some.injEq, Prod.mk.injEq] at h
      rw [← h.2]; split
      · exact ht'
      · intro x hx
        rcases List.mem_cons.1 hx with rfl | hx
        · exact he.filter _
        · exact ht' x hx
    · simp only [Option.map_eq_some_iff, Prod.mk.injEq] at h
      obtain ⟨⟨f', r'⟩, h, rfl, rfl⟩ := h
      intro x hx
      rcases List.mem_cons.1 hx with rfl | hx
      · exact he
      · exact ih h ht' x hx

@[simp] theorem Part.append_mgmt (l : Line) (c : Cls) (f : OutFrame) (p : Part) : (p.append l c f).mgmt = p.mgmt := rfl

@[simp] theorem Part.queueParts_mgmt (o : List PendEntry) (r : Bool) (fs : List Frame) (p : Part) :
    (p.queueParts o r fs).1.mgmt = p.mgmt := by
  induction fs generalizing p with
  | nil => rfl
  | cons f fs ih => simp only [Part.queueParts]; split <;> simp [ih]

theorem keeps_queueParts (o : List PendEntry) (r : Bool) (fs : List Frame) (p : Part) :
    Keeps p (p.queueParts o r fs).1 := by
  induction fs generalizing p with
  | nil => exact .refl p
  | cons f fs ih =>
    simp only [Part.queueParts]
    split
    · rename_i h
      simp only [Bool.and_eq_true] at h
      exact (keeps_append p _ _ _ h.1).trans (ih _)
    · exact .refl p

theorem keepsU_offerPlace (p : Part) (l : Line) (c : Cls) : KeepsU p (p.offerPlace l c) := by
  unfold Part.offerPlace
  split
  · split
    · exact (Keeps.refl p).unbounded
    · rename_i a e b hr
      split
      · exact (Keeps.refl p).unbounded
      · rename_i f fs hf
        have k := (keepsU_append p .control c ⟨f, e.restart⟩).trans
          (keeps_queueParts (a ++ b) e.restart fs (p.append .control c ⟨f, e.restart⟩)).unbounded
        refine k.trans (keeps_setNotices _ _ fun h => ?_).unbounded
        rw [Part.queueParts_mgmt, Part.append_mgmt, (findNotice_some hr).1] at h
        exact offered_length.trans h
  · split
    · split
      · exact (Keeps.refl p).unbounded
      · rename_i e r hr
        have k := (keeps_setSeqFrames p r (takeOrder_nodup hr)).unbounded.trans (keepsU_append _ l c ⟨e.frame, false⟩)
        dsimp only
        split
        · exact k.trans (keeps_orderQueued _ _ _).unbounded
        · exact k
    · exact (Keeps.refl p).unbounded

theorem keeps_offerPlace (p : Part) (l : Line) (c : Cls) (h : p.hasPlace l c = true) : Keeps p (p.offerPlace l c) := by
  unfold Part.offerPlace
  split
  · subst_vars
    split
    · exact .refl p
    · rename_i a e b hr
      split
      · exact .refl p
      · rename_i f fs hf
        have k := (keeps_append p .control c ⟨f, e.restart⟩ h).trans
          (keeps_queueParts (a ++ b) e.restart fs (p.append .control c ⟨f, e.restart⟩))
        refine k.trans (keeps_setNotices _ _ fun h => ?_)
        rw [Part.queueParts_mgmt, Part.append_mgmt, (findNotice_some hr).1] at h
        exact offered_length.trans h
  · split
    · split
      · exact .refl p
      · rename_i e r hr
        have k := (keeps_setSeqFrames p r (takeOrder_nodup hr)).trans (keeps_append _ l c ⟨e.frame, false⟩ h)
        exact .ite (k.trans (keeps_orderQueued _ _ _)) k
    · exact .refl p

theorem headOf_get {q : PerClass (List OutFrame)} {c : Cls} {f : OutFrame} {r : List OutFrame}
    (h : headOf q = some (c, f, r)) : q.get c = f :: r := by
  unfold headOf at h
  split at h <;> simp only [Option.some.injEq, Prod.mk.injEq, reduceCtorEq] at h <;>
    obtain ⟨rfl, rfl, rfl⟩ := h <;> assumption

theorem keeps_pump (p : Part) (l : Line) : Keeps p (p.pump l) := by
  unfold Part.pump
  dsimp only
  split
  · exact .refl p
  · split
    · exact .refl p
    · rename_i c f r hr
      have hq := headOf_get hr
      refine KeepsU.bound ((keepsU_setLine _ _ _).trans (keepsU_offerPlace _ _ _)) fun b => ?_
      have hlen : r.length < Config.queueDepth := by
        have := (b.lines l).1 c; rw [hq] at this; simp only [List.length_cons] at this; omega
      have k := keeps_setQueue p l c r (some f) fun _ => hlen.le
      refine (keeps_offerPlace _ l c ?_).bounded (k.bounded b)
      simp [Part.hasPlace, Part.setLine_line, PerClass.get_set, hlen]

theorem keepsU_enqueue (p : Part) (l : Line) (c : Cls) (f : OutFrame) : KeepsU p (p.enqueue l c f) :=
  (keepsU_append p l c f).trans (keeps_pump _ l).unbounded

theorem keeps_enqueue (p : Part) (l : Line) (c : Cls) (f : OutFrame) (h : p.hasPlace l c = true) :
    Keeps p (p.enqueue l c f) := (keeps_append p l c f h).trans (keeps_pump _ l)

theorem keeps_passFrame (p : Part) (l : Line) (f : Frame) : Keeps p (p.passFrame l f) := by
  unfold Part.passFrame
  split
  · rename_i h; exact keeps_enqueue _ _ _ _ h
  · exact keeps_setLine p l _ fun b =>
      ⟨(b.lines l).1, (b.lines l).2.1, (b.lines l).2.2.1, raise_le (b.lines l).2.2.2⟩

/-! ## Replies and notices -/

theorem keepsU_discardOldest (p : Part) : KeepsU p p.discardOldest := by
  unfold Part.discardOldest
  split
  · exact (Keeps.refl p).unbounded
  · rename_i e l h
    refine KeepsU.trans (q := { p with
        mgmt := { p.mgmt with notices := l, restartDue := p.mgmt.restartDue || e.restart }
        counters := { p.counters with noticesLost := raise p.counters.noticesLost } }) ?_ (keeps_record _ _ _ _ _).unbounded
    exact .ofLight rfl rfl rfl rfl rfl rfl rfl ⟨rfl, rfl, rfl⟩ ⟨rfl, rfl, rfl⟩ rfl

theorem discardOldest_bounded (p : Part) (b : p.bounded) :
    p.discardOldest.bounded ∧ p.discardOldest.mgmt.notices.length = p.mgmt.notices.length - 1 := by
  unfold Part.discardOldest
  split
  · rename_i h; exact ⟨b, by simp [h]⟩
  · rename_i e l h
    refine ⟨(keeps_record _ _ _ _ _).bounded ?_, by simp [h]⟩
    have hn := b.notices
    rw [h] at hn; simp only [List.length_cons] at hn
    exact ⟨b.lines, by simp only; omega, b.trace,
      ⟨b.counters.1, b.counters.2.1, b.counters.2.2.1, b.counters.2.2.2.1, b.counters.2.2.2.2.1,
        b.counters.2.2.2.2.2.1, raise_le b.counters.2.2.2.2.2.2⟩, b.tag, b.next, b.frames⟩

theorem keeps_joinPending (p : Part) (e : PendEntry) : Keeps p (p.joinPending e) := by
  unfold Part.joinPending
  dsimp only
  split
  · rename_i h
    exact keeps_setNotices p _ fun _ => by simp only [List.length_append, List.length_singleton]; omega
  · refine KeepsU.bound ((keepsU_discardOldest p).trans
      (.ofLight rfl rfl rfl rfl rfl rfl rfl ⟨rfl, rfl, rfl⟩ ⟨rfl, rfl, rfl⟩ rfl)) fun b => ?_
    obtain ⟨b1, b2⟩ := discardOldest_bounded p b
    have := b.notices
    refine ⟨b1.lines, ?_, b1.trace, b1.counters, b1.tag, b1.next, b1.frames⟩
    simp only [Part.setNotices_mgmt_notices, List.length_append, b2, List.length_singleton, Config.pendingDepth] at *
    omega

theorem keeps_postFrames (code : Nat) (restart : Bool) (l : List Frame) (p : Part) :
    Keeps p (p.postFrames code restart l) := by
  induction l generalizing p with
  | nil => exact .refl p
  | cons f l ih =>
    unfold Part.postFrames
    dsimp only
    split
    · rename_i h
      rw [Bool.and_eq_true] at h
      exact (keeps_enqueue _ _ _ _ h.1).trans (ih _)
    · exact keeps_joinPending _ _

theorem keeps_notice (p : Part) (c : NoticeCode) (l : List Item) : Keeps p (p.notice c l) := keeps_postFrames _ _ _ _

theorem keeps_reply (p : Part) (m : Mgmt) (a : Answer) (r : Bool) : Keeps p (p.reply m a r) := keeps_postFrames _ _ _ _

end Sys2Proof.Machine
end

