-- ==== Sys2Proof/Laws/Holds.lean ====
section
/-! SUPPORT. The hold counts of R46: what `rehold` writes, and that writing or freeing a record keeps the law. -/

namespace Sys2Proof.Machine

/-! ## The counted lists -/

theorem nodup_eraseDups : ∀ (n : Nat) (l : List Nat), l.length ≤ n → l.eraseDups.Nodup
  | _, [], _ => by simp
  | 0, a :: l, h => by simp at h
  | n + 1, a :: l, h => by
    rw [List.eraseDups_cons, List.nodup_cons]
    refine ⟨fun m => ?_, nodup_eraseDups n _ ?_⟩
    · rw [List.mem_eraseDups, List.mem_filter] at m
      simp at m
    · have := List.length_filter_le (fun b => !b == a) l
      simp only [List.length_cons] at h
      omega

theorem Incident.nodup_counted (i : Incident) : i.counted.Nodup := nodup_eraseDups _ _ le_rfl

/-- The counted lists of a record are the valves it holds. -/
theorem Incident.mem_counted (i : Incident) (v : Nat) : v ∈ i.counted ↔ i.holds v = true := by
  simp only [Incident.counted, List.mem_eraseDups, List.mem_append, List.mem_map, List.mem_filter, Incident.holds,
    Incident.touches, Incident.closes, Bool.or_eq_true, List.any_eq_true, decide_eq_true_eq, Bool.and_eq_true]
  constructor
  · rintro (⟨t, h, rfl⟩ | ⟨b, ⟨h, g⟩, rfl⟩)
    · exact .inl ⟨t, h, rfl⟩
    · exact .inr ⟨b, h, rfl, g⟩
  · rintro (⟨t, h, rfl⟩ | ⟨b, h, rfl, g⟩)
    · exact .inl ⟨t, h, rfl⟩
    · exact .inr ⟨b, ⟨h, g⟩, rfl⟩

/-! ## What `rehold` writes -/

/-- A valve with another hold count. -/
def Valve.heldBy (n : Nat) (x : Valve) : Valve := { x with holdCount := n }

theorem Part.addHolds_spec (l : List Nat) (p : Part) :
    l.foldl (fun q v => q.addHold v) p =
        { p with net := { p.net with valves := (l.foldl (fun q v => q.addHold v) p).net.valves } } ∧
      (∀ v, (l.foldl (fun q v => q.addHold v) p).valve? v =
        (p.valve? v).map fun x => x.heldBy (x.holdCount + l.count v)) ∧
      (p.net.valves.wf = true → (l.foldl (fun q v => q.addHold v) p).net.valves.wf = true) := by
  induction l generalizing p with
  | nil =>
    refine ⟨rfl, fun v => ?_, id⟩
    cases h : p.valve? v <;> simp [h, Valve.heldBy]
  | cons a l ih =>
    obtain ⟨h1, h2, h3⟩ := ih (p.addHold a)
    refine ⟨h1, fun v => ?_, fun h => h3 ?_⟩
    · rw [List.foldl_cons, h2 v]
      simp only [Part.valve?, Part.addHold, Part.adjustValve_net_valves, Table.look_adjust, List.count_cons]
      by_cases e : v = a
      · subst e
        cases Table.look p.net.valves v <;> simp [Valve.heldBy]; omega
      · rw [if_neg e]
        cases Table.look p.net.valves v <;> simp [Valve.heldBy, Ne.symm e]
    · unfold Part.addHold; rw [Part.adjustValve_net_valves]; exact Table.wf_adjust _ _ h

theorem Part.dropHolds_spec (l : List Nat) (p : Part) :
    l.foldl (fun q v => q.dropHold v) p =
        { p with net := { p.net with valves := (l.foldl (fun q v => q.dropHold v) p).net.valves } } ∧
      (∀ v, (l.foldl (fun q v => q.dropHold v) p).valve? v =
        (p.valve? v).map fun x => x.heldBy (x.holdCount - l.count v)) ∧
      (p.net.valves.wf = true → (l.foldl (fun q v => q.dropHold v) p).net.valves.wf = true) := by
  induction l generalizing p with
  | nil =>
    refine ⟨rfl, fun v => ?_, id⟩
    cases h : p.valve? v <;> simp [h, Valve.heldBy]
  | cons a l ih =>
    obtain ⟨h1, h2, h3⟩ := ih (p.dropHold a)
    refine ⟨h1, fun v => ?_, fun h => h3 ?_⟩
    · rw [List.foldl_cons, h2 v]
      simp only [Part.valve?, Part.dropHold, Part.adjustValve_net_valves, Table.look_adjust, List.count_cons]
      by_cases e : v = a
      · subst e
        cases Table.look p.net.valves v <;> simp [Valve.heldBy]; omega
      · rw [if_neg e]
        cases Table.look p.net.valves v <;> simp [Valve.heldBy, Ne.symm e]
    · unfold Part.dropHold; rw [Part.adjustValve_net_valves]; exact Table.wf_adjust _ _ h

theorem count_left (old new : List Nat) (h : new.Nodup) (v : Nat) :
    (new.filter fun v => !old.contains v).count v = if v ∈ new ∧ v ∉ old then 1 else 0 := by
  by_cases m : v ∈ new ∧ v ∉ old
  · rw [if_pos m]
    exact List.count_eq_one_of_mem (h.filter _) (List.mem_filter.2 ⟨m.1, by simpa using m.2⟩)
  · rw [if_neg m]
    refine List.count_eq_zero.2 fun k => m ?_
    obtain ⟨a, b⟩ := List.mem_filter.1 k
    exact ⟨a, by simpa using b⟩

/-- `rehold` changes hold counts alone: one more for each valve that joins, one less for each that leaves. -/
theorem Part.rehold_spec (p : Part) (old new : List Nat) (ho : old.Nodup) (hn : new.Nodup) :
    p.rehold old new = { p with net := { p.net with valves := (p.rehold old new).net.valves } } ∧
      (∀ v, (p.rehold old new).valve? v = (p.valve? v).map fun x =>
        x.heldBy (x.holdCount + (if v ∈ new ∧ v ∉ old then 1 else 0) - (if v ∈ old ∧ v ∉ new then 1 else 0))) ∧
      (p.net.valves.wf = true → (p.rehold old new).net.valves.wf = true) := by
  unfold Part.rehold
  obtain ⟨a1, a2, a3⟩ := Part.addHolds_spec (new.filter fun v => !old.contains v) p
  generalize (new.filter fun v => !old.contains v).foldl (fun q v => q.addHold v) p = q at a1 a2 a3 ⊢
  obtain ⟨b1, b2, b3⟩ := Part.dropHolds_spec (old.filter fun v => !new.contains v) q
  refine ⟨?_, fun v => ?_, fun h => b3 (a3 h)⟩
  · rw [b1, a1]
  · rw [b2, a2, count_left old new hn, count_left new old ho]
    cases p.valve? v <;> simp [Valve.heldBy]

/-- A valve that holds count `n` and is otherwise the one before. -/
theorem Valve.heldBy_loadedOnly (n : Nat) (x : Valve) : (x.heldBy n).loadedOnly = x.loadedOnly := rfl

/-! ## Writing the records -/

/-- The records and NEXT are written, and the hold counts follow from one list of counted valves to another. -/
theorem keeps_rerecord (p : Part) (t : Table Incident) (n : Nat) (old new : List Nat) (ho : old.Nodup) (hn : new.Nodup)
    (c : p.canonical → Table.wf t = true) (b : p.bounded → 1 ≤ n ∧ n ≤ 255)
    (i : p.canonical → p.incidentsKept → Part.incidentsKept { p with inc := ⟨t, n⟩ })
    (g : p.canonical → ∀ v, (t.filter fun e => e.2.holds v).length + (if v ∈ old ∧ v ∉ new then 1 else 0) =
      p.holders v + (if v ∈ new ∧ v ∉ old then 1 else 0)) :
    Keeps p (Part.rehold old new { p with inc := ⟨t, n⟩ }) := by
  obtain ⟨h1, h2, h3⟩ := Part.rehold_spec { p with inc := ⟨t, n⟩ } old new ho hn
  generalize Part.rehold old new { p with inc := ⟨t, n⟩ } = q at h1 h2 h3 ⊢
  have inc : q.inc = ⟨t, n⟩ := by rw [h1]
  have hz : ∀ z, q.zone z = p.zone z := fun z => by rw [h1]; rfl
  exact
  { config := fun _ => by
      constructor
      case valves =>
        intro v
        rw [h2 v]
        show ((p.valve? v).map _).map _ = _
        cases p.valve? v <;> rfl
      all_goals (intros; rw [h1])
      all_goals rfl
    silent := fun a => by rw [h1]; exact ⟨a, rfl⟩
    canonical := fun k => by
      have hv := h3 k.valves
      rw [h1] at hv ⊢
      exact { k with valves := hv, records := c k }
    bounded := fun k => by
      rw [h1]
      exact ⟨k.lines, k.notices, k.trace, k.counters, k.tag, b k, k.frames⟩
    slots := fun _ k z => by
      have : q.slotsHeld z = p.slotsHeld z := by rw [h1]; rfl
      rw [this, hz]; exact k z
    incidents := fun k m => by
      rw [h1]
      obtain ⟨i1, i2, i3, i4⟩ := i k m
      exact ⟨i1, i2, i3, i4⟩
    stations := fun _ k => by rw [h1]; exact ⟨k.within, k.distinct⟩
    hold := fun k m v x hx => by
      rw [h2 v] at hx
      have hx' : (p.valve? v).map (fun x => x.heldBy (x.holdCount + (if v ∈ new ∧ v ∉ old then 1 else 0) -
        (if v ∈ old ∧ v ∉ new then 1 else 0))) = some x := hx
      cases hy : p.valve? v with
      | none => rw [hy] at hx'; cases hx'
      | some y =>
        rw [hy] at hx'
        have e : x = y.heldBy (y.holdCount + (if v ∈ new ∧ v ∉ old then 1 else 0) -
          (if v ∈ old ∧ v ∉ new then 1 else 0)) := by simpa using hx'.symm
        have e2 : q.holders v = (t.filter fun e => e.2.holds v).length := by rw [Part.holders, inc]
        have e3 := g k v
        have e4 := m v y hy
        rw [e2, e]
        show y.holdCount + _ - _ = _
        omega }

/-- One record written over another. -/
theorem count_record {t : Table Incident} (h : t.wf = true) {r : Nat} {i j : Incident} (hi : t.look r = some i) (v : Nat) :
    ((Table.put t r j).filter fun e => e.2.holds v).length + (if v ∈ i.counted ∧ v ∉ j.counted then 1 else 0) =
      (t.filter fun e => e.2.holds v).length + (if v ∈ j.counted ∧ v ∉ i.counted then 1 else 0) := by
  have := Table.count_put h r j fun e => e.2.holds v
  rw [hi] at this
  simp only [Incident.mem_counted, Option.filter_some] at this ⊢
  by_cases a : i.holds v = true <;> by_cases b : j.holds v = true <;> simp_all

/-- A record written into a free place. -/
theorem count_newRecord {t : Table Incident} (h : t.wf = true) {r : Nat} {j : Incident} (hi : t.look r = none) (v : Nat) :
    ((Table.put t r j).filter fun e => e.2.holds v).length + (if v ∈ ([] : List Nat) ∧ v ∉ j.counted then 1 else 0) =
      (t.filter fun e => e.2.holds v).length + (if v ∈ j.counted ∧ v ∉ ([] : List Nat) then 1 else 0) := by
  have := Table.count_put h r j fun e => e.2.holds v
  rw [hi] at this
  simp only [Incident.mem_counted] at this ⊢
  by_cases b : j.holds v = true <;> simp_all

/-- A record freed. -/
theorem count_freeRecord {t : Table Incident} (h : t.wf = true) {r : Nat} {i : Incident} (hi : t.look r = some i) (v : Nat) :
    ((Table.remove t r).filter fun e => e.2.holds v).length + (if v ∈ i.counted ∧ v ∉ ([] : List Nat) then 1 else 0) =
      (t.filter fun e => e.2.holds v).length + (if v ∈ ([] : List Nat) ∧ v ∉ i.counted then 1 else 0) := by
  induction t with
  | nil => simp at hi
  | cons d t ih =>
    obtain ⟨k, b⟩ := d
    obtain ⟨h1, h2⟩ := Table.wf_cons.1 h
    simp only [Table.remove]
    by_cases e : k = r
    · subst e
      have hb : b = i := by simpa [Table.look] using hi
      subst hb
      have hr : Table.remove t k = t := by
        have : ∀ t : Table Incident, (∀ e ∈ t, k < e.1) → Table.remove t k = t := by
          intro t
          induction t with
          | nil => intro _; rfl
          | cons d t ih =>
            intro h
            have := h d (by simp)
            obtain ⟨m, x⟩ := d
            simp only [Table.remove]
            rw [if_neg (by simp at this; omega), ih fun e he => h e (by simp [he])]
        exact this t h1
      rw [if_pos rfl, hr]
      simp only [Incident.mem_counted, List.filter_cons]
      by_cases a : b.holds v = true <;> simp [a]
    · have hi' : Table.look t r = some i := by simpa [Table.look, e] using hi
      have := ih h2 hi'
      rw [if_neg e]
      simp only [List.filter_cons]
      by_cases a : b.holds v = true
      · simp only [a, if_true, List.length_cons]; omega
      · simp only [a]; exact this

end Sys2Proof.Machine
end

