-- ==== Sys2Proof/Laws/KeepsIncident.lean ====
section
/-! SUPPORT. The operations of IncidentOps and Disturbance keep what `Keeps` states. -/

namespace Sys2Proof.Machine

/-! ## Valves -/

theorem keeps_adjustValve (p : Part) (v : Nat) (f : Valve → Valve) (h : ∀ x, (f x).loadedOnly = x.loadedOnly)
    (hc : ∀ x, (f x).holdCount = x.holdCount := by intro x; rfl) : Keeps p (p.adjustValve v f) where
  config _ := by
    constructor <;> intros <;> try rfl
    rename_i w
    simp only [Part.valve?, Part.adjustValve_net_valves, Table.look_adjust]
    split
    · cases Table.look p.net.valves w <;> simp [h]
    · rfl
  silent a := ⟨a, rfl⟩
  canonical c := { c with valves := Table.wf_adjust _ _ c.valves }
  bounded := bounded_congr rfl rfl rfl rfl rfl rfl fun _ h => h
  slots _ h := h
  incidents _ := incidentsKept_congr rfl rfl rfl
  stations _ h := ⟨h.within, h.distinct⟩
  hold _ := holdLaw_congr (fun w => by
    simp only [Part.valve?, Part.adjustValve_net_valves, Table.look_adjust]
    split
    · cases Table.look p.net.valves w <;> simp [hc]
    · rfl) rfl

theorem keeps_putValve (p : Part) (v : Nat) (x y : Valve) (hx : p.valve? v = some x) (h : y.loadedOnly = x.loadedOnly)
    (hc : y.holdCount = x.holdCount := by rfl) : Keeps p (p.putValve v y) where
  config _ := by
    constructor <;> intros <;> try rfl
    rename_i w
    simp only [Part.valve?, Part.putValve_net_valves, Table.look_put]
    split
    · subst_vars; rw [Part.valve?] at hx; simp [hx, h]
    · rfl
  silent a := ⟨a, rfl⟩
  canonical c := { c with valves := Table.wf_put _ _ c.valves }
  bounded := bounded_congr rfl rfl rfl rfl rfl rfl fun _ h => h
  slots _ h := h
  incidents _ := incidentsKept_congr rfl rfl rfl
  stations _ h := ⟨h.within, h.distinct⟩
  hold _ := holdLaw_congr (fun w => by
    simp only [Part.valve?, Part.putValve_net_valves, Table.look_put]
    split
    · subst_vars; rw [Part.valve?] at hx; simp [hx, hc]
    · rfl) rfl

/-! ## Incident records -/

/-- A record that keeps its NUMBER and its bounds. -/
structure Incident.Like (i j : Incident) : Prop where
  number : j.number = i.number
  bounded : i.bounded → j.bounded

theorem Incident.Like.refl (i : Incident) : i.Like i := ⟨rfl, id⟩

theorem Incident.Like.trans {i j k : Incident} (h : i.Like j) (g : j.Like k) : i.Like k :=
  ⟨g.number.trans h.number, fun b => g.bounded (h.bounded b)⟩

theorem Incident.like_enter (i : Incident) (st : IncState) : i.Like (i.enter st) :=
  ⟨rfl, fun h => ⟨h.number, h.repeats, h.area, h.boundary, h.touched⟩⟩

theorem Incident.like_reason (i : Incident) (h : Option HeldReason) : i.Like { i with heldReason := h } :=
  ⟨rfl, fun h => ⟨h.number, h.repeats, h.area, h.boundary, h.touched⟩⟩

theorem Incident.like_verdict (i : Incident) (v : Option Verdict) : i.Like { i with verdict := v } :=
  ⟨rfl, fun h => ⟨h.number, h.repeats, h.area, h.boundary, h.touched⟩⟩

/-- A record written over another of the same NUMBER. -/
theorem incidentsKept_put {p : Part} {r : Nat} {i j : Incident} (hi : p.incident? r = some i) (h : i.Like j)
    (k : p.incidentsKept) : Part.incidentsKept { p with inc := ⟨Table.put p.inc.records r j, p.inc.next⟩ } := by
  have e : ∀ r', Table.look (Table.put p.inc.records r j) r' = if r' = r then some j else p.incident? r' :=
    fun r' => Table.look_put _ _ _ _
  refine ⟨fun r' i' a => ?_, fun r₁ r₂ i₁ i₂ a b c => ?_, k.next, k.workspace⟩
  · rw [Part.incident?, e] at a
    split at a
    · cases a; subst_vars; exact ⟨(k.within _ _ hi).1, h.bounded (k.within _ _ hi).2⟩
    · exact k.within _ _ a
  · rw [Part.incident?, e] at a b
    split at a <;> split at b
    · subst_vars; rfl
    · cases a; subst_vars; exact k.distinct _ _ _ _ hi b (h.number ▸ c)
    · cases b; subst_vars; exact k.distinct _ _ _ _ a hi (c.trans h.number)
    · exact k.distinct _ _ _ _ a b c

/-- A record written over another; the new one need be like it only where the invariant of the records holds. -/
theorem keeps_putLike (p : Part) (r : Nat) (i j : Incident) (hi : p.incident? r = some i)
    (h : p.incidentsKept → i.Like j) : Keeps p (p.putIncident r j) := by
  unfold Part.putIncident Part.countedBy
  rw [hi]
  exact keeps_rerecord p _ p.inc.next i.counted j.counted i.nodup_counted j.nodup_counted
    (fun c => Table.wf_put _ _ c.records) (fun b => b.next) (fun _ k => incidentsKept_put hi (h k) k)
    (fun c v => count_record c.records hi v)

theorem keeps_putIncident (p : Part) (r : Nat) (i j : Incident) (hi : p.incident? r = some i) (h : i.Like j) :
    Keeps p (p.putIncident r j) := keeps_putLike p r i j hi fun _ => h

theorem keeps_removeIncident (p : Part) (r : Nat) (i : Incident) (hi : p.incident? r = some i) :
    Keeps p (p.removeIncident r) := by
  unfold Part.removeIncident Part.countedBy
  rw [hi]
  refine keeps_rerecord p _ p.inc.next i.counted [] i.nodup_counted List.nodup_nil
    (fun c => Table.wf_remove _ c.records) (fun b => b.next) (fun _ k => ?_) (fun c v => count_freeRecord c.records hi v)
  have e : ∀ r' i', Table.look (Table.remove p.inc.records r) r' = some i' → p.incident? r' = some i' := by
    intro r' i' a
    rw [Table.look_remove] at a
    split at a
    · cases a
    · exact a
  exact ⟨fun r' i' a => k.within r' i' (e _ _ a), fun r₁ r₂ i₁ i₂ a b => k.distinct _ _ _ _ (e _ _ a) (e _ _ b),
    k.next, k.workspace⟩

theorem keeps_removeVerify (p : Part) (r : Nat) : Keeps p (p.removeVerify r) where
  config _ := by constructor <;> intros <;> rfl
  silent a := ⟨a, rfl⟩
  canonical c := { c with windows := Table.wf_remove _ c.windows }
  bounded := bounded_congr rfl rfl rfl rfl rfl rfl fun _ h => h
  slots _ h := h
  incidents _ := incidentsKept_congr rfl rfl rfl
  stations _ h := ⟨h.within, h.distinct⟩
  hold _ := holdLaw_congr (fun _ => rfl) rfl

theorem keeps_putVerify (p : Part) (r : Nat) (x : VerifyCtx) : Keeps p (p.putVerify r x) where
  config _ := by constructor <;> intros <;> rfl
  silent a := ⟨a, rfl⟩
  canonical c := { c with windows := Table.wf_put _ _ c.windows }
  bounded := bounded_congr rfl rfl rfl rfl rfl rfl fun _ h => h
  slots _ h := h
  incidents _ := incidentsKept_congr rfl rfl rfl
  stations _ h := ⟨h.within, h.distinct⟩
  hold _ := holdLaw_congr (fun _ => rfl) rfl

theorem keeps_moveIncident (p : Part) (r : Nat) (st : IncState) (f : Incident → Incident) (hf : ∀ i, Incident.Like i (f i)) :
    Keeps p (p.moveIncident r st f) := by
  unfold Part.moveIncident
  split
  · exact .refl p
  · rename_i i hi
    have k1 : Keeps p (p.putIncident r (f (i.enter st))) :=
      keeps_putIncident p r i _ hi ((i.like_enter st).trans (hf _))
    dsimp only
    have k2 : Keeps p (if st = .verifying then p.putIncident r (f (i.enter st))
        else (p.putIncident r (f (i.enter st))).removeVerify r) := .ite k1 (k1.trans (keeps_removeVerify _ _))
    exact .ite k2 (k2.trans (keeps_record _ _ _ _ _))

/-! ## The planner queue -/

theorem keeps_setPlanQueue (p : Part) (q : List PlanEntry) : Keeps p (p.setPlanQueue q) where
  config _ := by constructor <;> intros <;> rfl
  silent a := ⟨a, rfl⟩
  canonical c := { c with }
  bounded := bounded_congr rfl rfl rfl rfl rfl rfl fun _ h => h
  slots _ h := h
  incidents _ := incidentsKept_congr rfl rfl rfl
  stations _ h := ⟨h.within, h.distinct⟩
  hold _ := holdLaw_congr (fun _ => rfl) rfl

theorem keeps_setPlan (p : Part) (w : Option Workspace)
    (h : (∀ x, p.plan.plan = some x → x.area.length ≤ 64 ∧ x.boundary.length ≤ 48) →
      ∀ x, w = some x → x.area.length ≤ 64 ∧ x.boundary.length ≤ 48) : Keeps p (p.setPlan w) where
  config _ := by constructor <;> intros <;> rfl
  silent a := ⟨a, rfl⟩
  canonical c := { c with }
  bounded := bounded_congr rfl rfl rfl rfl rfl rfl fun _ h => h
  slots _ h := h
  incidents _ k := ⟨k.within, k.distinct, k.next, h k.workspace⟩
  stations _ h := ⟨h.within, h.distinct⟩
  hold _ := holdLaw_congr (fun _ => rfl) rfl

theorem keeps_grantPlan (p : Part) : Keeps p p.grantPlan := by
  unfold Part.grantPlan
  split
  · split
    · refine ((keeps_setPlanQueue p _).trans (keeps_moveIncident _ _ _ _ fun i => .refl i)).trans
        (keeps_setPlan _ _ fun _ x hx => ?_)
      cases hx; simp [Workspace.start]
    · exact keeps_setPlanQueue _ _
  · exact .refl p

theorem keeps_enterPlanner (p : Part) (r : Nat) : Keeps p (p.enterPlanner r) := by
  unfold Part.enterPlanner
  split
  · exact (keeps_setPlanQueue _ _).trans (keeps_grantPlan _)
  · exact .refl p

theorem keeps_withdraw (p : Part) (r : Nat) : Keeps p (p.withdraw r) := keeps_setPlanQueue _ _

theorem keeps_toPlanWait (p : Part) (r : Nat) (f : Incident → Incident) (hf : ∀ i, Incident.Like i (f i)) :
    Keeps p (p.toPlanWait r f) := (keeps_moveIncident _ _ _ _ hf).trans (keeps_enterPlanner _ _)

theorem keeps_planChanged (p : Part) (r : Nat) (s : Subject) : Keeps p (p.planChanged r s) := by
  unfold Part.planChanged
  split
  · exact (keeps_toPlanWait _ _ _ fun i => .refl i).trans (keeps_notice _ _ _)
  · exact .refl p

theorem keeps_hold (p : Part) (r : Nat) (h : HeldReason) (v : Option Nat) : Keeps p (p.hold r h v) := by
  unfold Part.hold
  split
  · exact ((keeps_withdraw _ _).trans (keeps_moveIncident _ _ _ _ fun i =>
      i.like_reason _)).trans (keeps_notice _ _ _)
  · exact .refl p

/-! ## Verification -/

theorem keeps_enterVerifying (p : Part) (r : Nat) : Keeps p (p.enterVerifying r) := by
  unfold Part.enterVerifying
  split
  · exact ((keeps_moveIncident _ _ _ _ fun i => .refl i).trans (keeps_putVerify _ _ _)).trans (keeps_record _ _ _ _ _)
  · exact .refl p

theorem keeps_testVerify (p : Part) (r : Nat) : Keeps p (p.testVerify r) := by
  unfold Part.testVerify
  split
  · exact .iteB (keeps_enterVerifying _ _) (.refl p)
  · exact .refl p

theorem keeps_giveVerdict (p : Part) (r : Nat) (v : Verdict) (k : Option Nat) : Keeps p (p.giveVerdict r v k) := by
  unfold Part.giveVerdict
  split
  · exact (((keeps_record _ _ _ _ _).trans (keeps_removeVerify _ _)).trans (keeps_moveIncident _ _ _ _ fun i =>
      i.like_verdict _)).trans (keeps_notice _ _ _)
  · exact .refl p

theorem keeps_giveNotTight (p : Part) (r : Nat) : Keeps p (p.giveNotTight r) := by
  unfold Part.giveNotTight
  split
  · exact (((keeps_record _ _ _ _ _).trans (keeps_removeVerify _ _)).trans
      (keeps_moveIncident _ _ _ _ fun i => .refl i)).trans (keeps_notice _ _ _)
  · exact .refl p

/-! ## Opening -/

theorem succNumber_range {n : Nat} (h : 1 ≤ n ∧ n ≤ 255) : 1 ≤ succNumber n ∧ succNumber n ≤ 255 := by
  unfold succNumber; split <;> omega

theorem freeNumber_range (used : List Nat) (k c : Nat) (h : 1 ≤ c ∧ c ≤ 255) :
    1 ≤ freeNumber used k c ∧ freeNumber used k c ≤ 255 := by
  induction k generalizing c with
  | zero => exact h
  | succ k ih =>
    simp only [freeNumber]
    split
    · exact ih _ (succNumber_range h)
    · exact h

/-- The candidates before the answer, in order. -/
def numbersFrom : Nat → Nat → List Nat
  | 0, c => [c]
  | n + 1, c => c :: numbersFrom n (succNumber c)

theorem freeNumber_used (used : List Nat) (k c : Nat) (h : freeNumber used k c ∈ used) :
    ∀ x ∈ numbersFrom k c, x ∈ used := by
  induction k generalizing c with
  | zero => intro x hx; simp only [numbersFrom, List.mem_singleton] at hx; subst hx; exact h
  | succ k ih =>
    simp only [freeNumber] at h
    split at h
    · rename_i hc
      intro x hx
      rcases List.mem_cons.1 hx with rfl | hx
      · simpa using hc
      · exact ih _ h x hx
    · rename_i hc; exact absurd (by simpa using h) hc

theorem numbersFrom_length (k c : Nat) : (numbersFrom k c).length = k + 1 := by
  induction k generalizing c with
  | zero => rfl
  | succ k ih => simp [numbersFrom, ih]

/-- The `i`-th candidate. -/
theorem numbersFrom_get (k c : Nat) (h : 1 ≤ c ∧ c ≤ 255) (i : Nat) (hi : i < (numbersFrom k c).length) :
    (numbersFrom k c)[i] = (c - 1 + i) % 255 + 1 := by
  induction k generalizing c i with
  | zero =>
    have : i = 0 := by simp [numbersFrom_length] at hi; exact hi
    subst this; simp only [numbersFrom, List.getElem_cons_zero]; omega
  | succ k ih =>
    cases i with
    | zero => simp only [numbersFrom, List.getElem_cons_zero]; omega
    | succ i =>
      simp only [numbersFrom, List.getElem_cons_succ]
      rw [ih _ (succNumber_range h)]
      unfold succNumber; split <;> omega

theorem numbersFrom_nodup (k c : Nat) (h : 1 ≤ c ∧ c ≤ 255) (hk : k < 255) : (numbersFrom k c).Nodup := by
  rw [List.nodup_iff_injective_getElem]
  intro ⟨i, hi⟩ ⟨j, hj⟩ e
  simp only [numbersFrom_get k c h] at e
  rw [numbersFrom_length] at hi hj
  simp only [Fin.mk.injEq]
  omega

theorem freeNumber_fresh (used : List Nat) (c : Nat) (h : 1 ≤ c ∧ c ≤ 255) (hu : used.length ≤ 8) :
    freeNumber used 8 c ∉ used := by
  intro hm
  have := (List.Nodup.subperm (numbersFrom_nodup 8 c h (by omega)) (freeNumber_used used 8 c hm)).length_le
  rw [numbersFrom_length] at this; omega

theorem Table.wf_length {α : Type} {t : Table α} (h : t.wf = true) (n : Nat) (hn : ∀ e ∈ t, e.1 < n) : t.length ≤ n := by
  have hd : t.keys.Nodup := by
    induction t with
    | nil => exact List.nodup_nil
    | cons d t ih =>
      obtain ⟨i, b⟩ := d
      obtain ⟨h1, h2⟩ := Table.wf_cons.1 h
      refine List.nodup_cons.2 ⟨fun m => ?_, ih h2 fun e he => hn e (by simp [he])⟩
      obtain ⟨e, he, hi⟩ := List.mem_map.1 m
      have := h1 e he; omega
  have := (List.Nodup.subperm hd (l₂ := List.range n) fun x hx => by
    obtain ⟨e, he, rfl⟩ := List.mem_map.1 hx
    exact List.mem_range.2 (hn e he)).length_le
  simpa [Table.keys] using this

theorem Part.incidentsKept.length {p : Part} (c : p.canonical) (h : p.incidentsKept) : p.inc.records.length ≤ 8 :=
  Table.wf_length c.records 8 fun e he => (h.within e.1 e.2 (Table.look_of_mem c.records he)).1

theorem keeps_addIncident (p : Part) (r : Nat) (o : Origin) (g u : Nat) (hr : p.freeRecord = some r) :
    Keeps p (p.addIncident r (p.newIncident o g u)) := by
  have hn : p.incident? r = none := (Table.firstFree_spec hr).2
  have e0 : Part.countedBy { p with inc := { p.inc with next := succNumber p.nextNumber } } r = [] := by
    show (match p.incident? r with | some i => i.counted | none => []) = []
    rw [hn]
  unfold Part.addIncident Part.putIncident
  rw [show (p.newIncident o g u).number = p.nextNumber from rfl, e0]
  refine keeps_rerecord p _ (succNumber p.nextNumber) [] _ List.nodup_nil (Incident.nodup_counted _)
    (fun c => Table.wf_put _ _ c.records) (fun b => succNumber_range (freeNumber_range _ _ _ b.next)) (fun c k => ?_)
    (fun c v => count_newRecord c.records hn v)
  have hnum := freeNumber_range (p.inc.records.map fun e => e.2.number) 8 _ k.next
  have hfresh := freeNumber_fresh (p.inc.records.map fun e => e.2.number) p.inc.next k.next
    (by rw [List.length_map]; exact k.length c)
  have hib : (p.newIncident o g u).bounded := ⟨hnum, by simp [Part.newIncident], by simp [Part.newIncident],
    by simp [Part.newIncident], by simp [Part.newIncident]⟩
  have e : ∀ r', Table.look (Table.put p.inc.records r (p.newIncident o g u)) r' =
      if r' = r then some (p.newIncident o g u) else p.incident? r' := fun r' => Table.look_put _ _ _ _
  have hne : ∀ r' j, p.incident? r' = some j → j.number ≠ p.nextNumber := fun r' j hj hn =>
    hfresh (List.mem_map.2 ⟨(r', j), Table.mem_of_look hj, hn⟩)
  refine ⟨fun r' i' a => ?_, fun r₁ r₂ i₁ i₂ a b c => ?_, succNumber_range hnum, k.workspace⟩
  · rw [Part.incident?, e] at a
    split at a
    · cases a; subst_vars; exact ⟨(Table.firstFree_spec hr).1, hib⟩
    · exact k.within _ _ a
  · rw [Part.incident?, e] at a b
    split at a <;> split at b
    · subst_vars; rfl
    · cases a; exact absurd c.symm (hne _ _ b)
    · cases b; exact absurd c (hne _ _ a)
    · exact k.distinct _ _ _ _ a b c

theorem keeps_openIncident (p : Part) (o : Origin) (g u : Nat) : Keeps p (p.openIncident o g u) := by
  unfold Part.openIncident
  split
  · exact .refl p
  · rename_i r hr
    exact (((keeps_addIncident p r o g u hr).trans (keeps_enterPlanner _ _)).trans (keeps_record _ _ _ _ _)).trans
      (keeps_notice _ _ _)

/-! ## Suspects -/

theorem keeps_absorb (p : Part) (r g v : Nat) : Keeps p (p.absorb r g v) := by
  unfold Part.absorb
  split
  · rename_i i hi
    refine Keeps.trans (keeps_putIncident p r i _ hi ?_) (keeps_record _ _ _ _ _)
    refine ⟨rfl, fun h => ⟨h.number, ?_, h.area, h.boundary, h.touched⟩⟩
    have := h.repeats
    dsimp only; split <;> omega
  · exact .refl p

theorem keeps_putZone (p : Part) (z : Nat) (x : Zone) (h : x.settingsOnly = (p.zone z).settingsOnly) :
    Keeps p (p.putZone z x) := by
  have e : ∀ w, (p.putZone z x).zone w = if w = z then x else p.zone w := by
    intro w
    by_cases hx : x = Zone.powerOn
    · simp only [Part.zone, Part.putZone, hx, if_true, Table.look_remove]; split <;> rfl
    · simp only [Part.zone, Part.putZone, hx, if_false, Table.look_put]; split <;> rfl
  have hs : x.slots = (p.zone z).slots := by have := congrArg Zone.slots h; exact this
  exact
  { config := fun _ => by
      constructor <;> intros <;> try rfl
      rw [e]; split
      · subst_vars; exact h
      · rfl
    silent := fun a => ⟨a, rfl⟩
    canonical := fun c =>
      { c with
        zones := by
          show Table.wf (if x = Zone.powerOn then Table.remove p.watch.zones z else Table.put p.watch.zones z x) = true
          split
          · exact Table.wf_remove _ c.zones
          · exact Table.wf_put _ _ c.zones }
    bounded := bounded_congr rfl rfl rfl rfl rfl rfl fun _ h => h
    slots := fun _ k w => by
      rw [e]; split
      · subst_vars; exact hs ▸ k w
      · exact k w
    incidents := fun _ => incidentsKept_congr rfl rfl rfl
    stations := fun _ h => ⟨h.within, h.distinct⟩
    hold := fun _ => holdLaw_congr (fun _ => rfl) rfl }

theorem keeps_counters (p : Part) (c : Counters) (h : p.counters.bounded → c.bounded) :
    Keeps p { p with counters := c } :=
  .ofLight rfl rfl rfl rfl rfl rfl rfl ⟨rfl, rfl, rfl⟩ ⟨rfl, rfl, rfl⟩ rfl fun b =>
    ⟨b.lines, b.notices, b.trace, h b.counters, b.tag, b.next, b.frames⟩

theorem keeps_latchSuspect (p : Part) (z : Nat) (x : Suspect) : Keeps p (p.latchSuspect z x) := by
  unfold Part.latchSuspect
  split
  · exact (keeps_putZone _ _ _ (by rfl)).trans (keeps_record _ _ _ _ _)
  · refine Keeps.trans (keeps_counters p _ ?_) (keeps_record _ _ _ _ _)
    exact fun b => ⟨b.1, b.2.1, b.2.2.1, b.2.2.2.1, raise_le b.2.2.2.2.1, b.2.2.2.2.2⟩

theorem keeps_routeSuspect (p : Part) (l : Option Nat) (x : Suspect) : Keeps p (p.routeSuspect l x) := by
  unfold Part.routeSuspect
  split
  · exact keeps_record _ _ _ _ _
  · split
    · exact keeps_absorb _ _ _ _
    · exact .iteB (keeps_latchSuspect _ _ _)
        (.iteB ((keeps_latchSuspect _ _ _).trans (keeps_notice _ _ _)) (keeps_openIncident _ _ _ _))

theorem keeps_releaseLatch (p : Part) (z : Nat) : Keeps p (p.releaseLatch z) := by
  unfold Part.releaseLatch
  split
  · exact (keeps_putZone _ _ _ (by rfl)).trans (keeps_routeSuspect _ _ _)
  · exact .refl p

theorem keeps_offerRecords (p : Part) : Keeps p p.offerRecords := by
  unfold Part.offerRecords
  exact .iteB (Keeps.foldl (fun q z => .iteB (keeps_releaseLatch _ _) (.refl _)) _ _) (.refl p)

/-! ## Contexts, waiting entries, crew requests -/

theorem keeps_removeContext (p : Part) (v : Nat) :
    Keeps p { p with seq := { p.seq with
      contexts := Table.remove p.seq.contexts v, frames := p.seq.frames.filter fun f => f.valve ≠ v } } where
  config _ := by constructor <;> intros <;> rfl
  silent a := ⟨a, rfl⟩
  canonical c := { c with contexts := Table.wf_remove _ c.contexts }
  bounded := bounded_congr rfl rfl rfl rfl rfl rfl fun _ h => (List.mem_filter.1 h).1
  slots _ h z := (Table.count_remove _ _ _).trans (h z)
  incidents _ := incidentsKept_congr rfl rfl rfl
  stations _ h := ⟨h.within, h.distinct⟩
  hold _ := holdLaw_congr (fun _ => rfl) rfl

theorem keeps_endContext (p : Part) (v : Nat) : Keeps p (p.endContext v) :=
  (keeps_removeContext p v).trans (keeps_adjustValve _ _ _ fun _ => rfl)

theorem keeps_setWaiting (p : Part) (w : List WaitEntry) : Keeps p (p.setWaiting w) where
  config _ := by constructor <;> intros <;> rfl
  silent a := ⟨a, rfl⟩
  canonical c := { c with }
  bounded := bounded_congr rfl rfl rfl rfl rfl rfl fun _ h => h
  slots _ h := h
  incidents _ := incidentsKept_congr rfl rfl rfl
  stations _ h := ⟨h.within, h.distinct⟩
  hold _ := holdLaw_congr (fun _ => rfl) rfl

theorem keeps_setCrew (p : Part) (c : List CrewReq) : Keeps p (p.setCrew c) where
  config _ := by constructor <;> intros <;> rfl
  silent a := ⟨a, rfl⟩
  canonical c := { c with }
  bounded := bounded_congr rfl rfl rfl rfl rfl rfl fun _ h => h
  slots _ h := h
  incidents _ := incidentsKept_congr rfl rfl rfl
  stations _ h := ⟨h.within, h.distinct⟩
  hold _ := holdLaw_congr (fun _ => rfl) rfl

/-- A context replaced by one of the same zone. -/
theorem keeps_putContext (p : Part) (v : Nat) (c d : StepCtx) (hc : p.context? v = some c) (h : d.zone = c.zone) :
    Keeps p (p.putContext v d) where
  config _ := by constructor <;> intros <;> rfl
  silent a := ⟨a, rfl⟩
  canonical k := { k with contexts := Table.wf_put _ _ k.contexts }
  bounded := bounded_congr rfl rfl rfl rfl rfl rfl fun _ h => h
  slots k a z := by
    have := Table.count_put_same k.contexts (fun e => decide (e.2.zone = z)) (a := d) hc (by simp [h])
    exact (le_of_eq this).trans (a z)
  incidents _ := incidentsKept_congr rfl rfl rfl
  stations _ h := ⟨h.within, h.distinct⟩
  hold _ := holdLaw_congr (fun _ => rfl) rfl

/-- A new context in a zone with a free slot. -/
theorem keeps_newContext (p : Part) (v : Nat) (d : StepCtx) (hc : p.context? v = none) (h : p.freeSlot d.zone = true) :
    Keeps p (p.putContext v d) where
  config _ := by constructor <;> intros <;> rfl
  silent a := ⟨a, rfl⟩
  canonical k := { k with contexts := Table.wf_put _ _ k.contexts }
  bounded := bounded_congr rfl rfl rfl rfl rfl rfl fun _ h => h
  slots k a z := by
    have e := Table.count_put_new k.contexts (fun e => decide (e.2.zone = z)) (a := d) hc
    have hs := of_decide_eq_true h
    have az := a z
    simp only [Part.slotsHeld, Part.zone, Part.putContext_seq_contexts, Part.putContext_watch] at *
    rw [e]
    by_cases hz : d.zone = z
    · subst hz; simp only [decide_true, if_true]; omega
    · simp only [hz, decide_false]; simpa using az
  incidents _ := incidentsKept_congr rfl rfl rfl
  stations _ h := ⟨h.within, h.distinct⟩
  hold _ := holdLaw_congr (fun _ => rfl) rfl

theorem keeps_leaveServes (p : Part) (r v : Nat) : Keeps p (p.leaveServes r v) := by
  unfold Part.leaveServes
  split
  · exact .refl p
  · rename_i c hc
    exact .iteB (.iteB (.ite (keeps_putContext p v c _ hc rfl) (keeps_endContext _ _)) (keeps_putContext p v c _ hc rfl))
      (.refl p)

theorem keeps_leaveAll (p : Part) (r : Nat) : Keeps p (p.leaveAll r) :=
  Keeps.foldl (f := fun q v => Part.leaveServes r v q) (fun q v => keeps_leaveServes q r v) _ _

theorem keeps_freeIncident (p : Part) (r : Nat) (o : IncOutcome) : Keeps p (p.freeIncident r o) := by
  unfold Part.freeIncident
  split
  · exact .refl p
  · rename_i i hi
    exact (((((((((keeps_removeIncident p r i hi).trans (keeps_withdraw _ _)).trans (keeps_removeVerify _ _)).trans
      (keeps_setWaiting _ _)).trans (keeps_leaveAll _ _)).trans (keeps_setCrew _ _)).trans (keeps_record _ _ _ _ _)).trans
      (keeps_notice _ _ _)).trans (keeps_offerRecords _))

theorem keeps_endTouched (p : Part) (r v : Nat) (b : Bool) : Keeps p (p.endTouched r v b) := by
  unfold Part.endTouched
  split
  · exact .refl p
  · rename_i i hi
    have k : Keeps p (p.putIncident r
        { i with touched := i.touched.filter (fun t => t.valve ≠ v), short := i.short || b }) :=
      keeps_putIncident p r i _ hi ⟨rfl, fun h => ⟨h.number, h.repeats, h.area, h.boundary,
        (List.length_filter_le _ _).trans h.touched⟩⟩
    exact .iteB (.iteB (k.trans (keeps_freeIncident _ _ _)) k) (.refl p)

/-- A touched entry joins a list that has room for it. -/
theorem keeps_touch (p : Part) (r v : Nat) (o : Option Nat) (h : ∀ i, p.incident? r = some i → i.canTouch v = true) :
    Keeps p (p.touch r v o) := by
  unfold Part.touch
  split
  · exact .refl p
  · rename_i i hi
    split
    · exact .refl p
    · rename_i ht
      have := h i hi
      simp only [Incident.canTouch, ht, Bool.false_or, decide_eq_true_eq] at this
      exact keeps_putIncident p r i _ hi ⟨rfl, fun h => ⟨h.number, h.repeats, h.area, h.boundary, by
        simp only [List.length_append, List.length_singleton]; omega⟩⟩

/-! ## Disturbances -/

theorem keeps_markPlan (p : Part) (x : Subject) : Keeps p (p.markPlan x) := by
  unfold Part.markPlan
  split
  · exact .refl p
  · rename_i w hw
    split
    · exact .refl p
    · exact .iteB (keeps_setPlan _ _ fun h y hy => by cases hy; exact h w hw) (.refl p)

theorem keeps_testIncident (p : Part) (d : Disturb) (r : Nat) : Keeps p (p.testIncident d r) := by
  unfold Part.testIncident
  split
  · exact .iteB (keeps_planChanged _ _ _) (.refl p)
  · exact .refl p

theorem keeps_announce (p : Part) (d : Disturb) : Keeps p (p.announce d) :=
  (keeps_markPlan _ _).trans (Keeps.foldl (f := Part.testIncident d) (fun q r => keeps_testIncident q d r) _ _)

theorem keeps_announceAll (p : Part) (ds : List Disturb) : Keeps p (p.announceAll ds) :=
  Keeps.foldl (f := fun q d => Part.announce d q) (fun q d => keeps_announce q d) _ _

theorem keeps_writeOper (p : Part) (v : Nat) (o : Operability) : Keeps p (p.writeOper v o) := by
  unfold Part.writeOper
  split
  · exact .refl p
  · rename_i x hx
    refine .ite (.refl p) (Keeps.trans (keeps_putValve p v x _ hx ?_) (keeps_record _ _ _ _ _))
    rfl

theorem keeps_setOper (p : Part) (v : Nat) (o : Operability) : Keeps p (p.setOper v o) :=
  (keeps_writeOper _ _ _).trans (keeps_announceAll _ _)

theorem keeps_stationNotice (p q : Part) (a : Nat) : Keeps p (p.stationNotice q a) := keeps_announceAll _ _

theorem keeps_stationTrace (p : Part) (c : TraceCode) (a : Nat) (x : Option Nat) : Keeps p (p.stationTrace c a x) := by
  unfold Part.stationTrace; exact .iteB (keeps_record _ _ _ _ _) (.refl p)

end Sys2Proof.Machine
end

