-- ==== Sys2Proof/Laws/Reports.lean ====
section
/-! SUPPORT. What posting a reply or notice leaves: everything but the control line, the pending list, the trace, the
notices-lost counter and the mark of a due RESTART. -/

namespace Sys2Proof.Machine

/-- From `p` to `q` nothing differs but the control line, the pending list, the trace FIFO, the counters and the mark of a
due RESTART. -/
structure Reports (p q : Part) : Prop where
  now : q.now = p.now
  net : q.net = p.net
  watch : q.watch = p.watch
  inc : q.inc = p.inc
  plan : q.plan = p.plan
  seq : q.seq = p.seq
  ver : q.ver = p.ver
  stations : q.stations = p.stations
  lines : ∀ l, l ≠ .control → q.line l = p.line l
  counts : (q.line .control).received = (p.line .control).received ∧
    (q.line .control).crcDrops = (p.line .control).crcDrops ∧ (q.line .control).queueDrops = (p.line .control).queueDrops
  classMap : q.trunk.classMap = p.trunk.classMap
  urgencyMap : q.trunk.urgencyMap = p.trunk.urgencyMap
  noticePriority : q.trunk.noticePriority = p.trunk.noticePriority
  mode : q.mgmt.mode = p.mgmt.mode
  ownAddress : q.mgmt.ownAddress = p.mgmt.ownAddress
  noticeAddress : q.mgmt.noticeAddress = p.mgmt.noticeAddress
  handed : q.mgmt.handed = p.mgmt.handed
  fresh : q.mgmt.fresh = p.mgmt.fresh

theorem Reports.refl (p : Part) : Reports p p := by constructor <;> intros <;> first | rfl | exact ⟨rfl, rfl, rfl⟩

theorem Reports.trans {p q r : Part} (h : Reports p q) (k : Reports q r) : Reports p r where
  now := k.now.trans h.now
  net := k.net.trans h.net
  watch := k.watch.trans h.watch
  inc := k.inc.trans h.inc
  plan := k.plan.trans h.plan
  seq := k.seq.trans h.seq
  ver := k.ver.trans h.ver
  stations := k.stations.trans h.stations
  lines l a := (k.lines l a).trans (h.lines l a)
  counts := ⟨k.counts.1.trans h.counts.1, k.counts.2.1.trans h.counts.2.1, k.counts.2.2.trans h.counts.2.2⟩
  classMap := k.classMap.trans h.classMap
  urgencyMap := k.urgencyMap.trans h.urgencyMap
  noticePriority := k.noticePriority.trans h.noticePriority
  mode := k.mode.trans h.mode
  ownAddress := k.ownAddress.trans h.ownAddress
  noticeAddress := k.noticeAddress.trans h.noticeAddress
  handed := k.handed.trans h.handed
  fresh := k.fresh.trans h.fresh

theorem reports_setNotices (p : Part) (n : List PendEntry) : Reports p (p.setNotices n) := by
  constructor <;> intros <;> first | rfl | exact ⟨rfl, rfl, rfl⟩

theorem reports_record (p : Part) (c n s x) : Reports p (p.record c n s x) := by
  constructor <;> intros <;> first | rfl | exact ⟨rfl, rfl, rfl⟩

/-- A change of the control line's queues and transmitter. -/
theorem reports_setControl (p : Part) (q : PerClass (List OutFrame)) (s : Option OutFrame) :
    Reports p (p.setLine .control { p.line .control with queues := q, sending := s }) := by
  constructor <;> intros <;> first
    | rfl
    | (rename_i l h; rw [Part.setLine_line, if_neg h])
    | (rw [Part.setLine_line, if_pos rfl]; exact ⟨rfl, rfl, rfl⟩)

theorem reports_append (p : Part) (c : Cls) (f : OutFrame) : Reports p (p.append .control c f) :=
  reports_setControl _ _ _

theorem reports_queueParts (o : List PendEntry) (r : Bool) (fs : List Frame) (p : Part) :
    Reports p (p.queueParts o r fs).1 := by
  induction fs generalizing p with
  | nil => exact .refl p
  | cons f fs ih =>
    simp only [Part.queueParts]
    split
    · exact (reports_append _ _ _).trans (ih _)
    · exact .refl p

theorem reports_offerPlace (p : Part) (c : Cls) : Reports p (p.offerPlace .control c) := by
  unfold Part.offerPlace
  rw [if_pos rfl]
  split
  · exact .refl p
  · split
    · exact .refl p
    · exact ((reports_append _ _ _).trans (reports_queueParts _ _ _ _)).trans (reports_setNotices _ _)

theorem reports_pump (p : Part) : Reports p (p.pump .control) := by
  unfold Part.pump
  dsimp only
  split
  · exact .refl p
  · split
    · exact .refl p
    · exact (reports_setControl _ _ _).trans (reports_offerPlace _ _)

theorem reports_enqueue (p : Part) (c : Cls) (f : OutFrame) : Reports p (p.enqueue .control c f) :=
  (reports_append _ _ _).trans (reports_pump _)

theorem reports_discardOldest (p : Part) : Reports p p.discardOldest := by
  unfold Part.discardOldest
  split
  · exact .refl p
  · refine Reports.trans ?_ (reports_record _ _ _ _ _)
    constructor <;> intros <;> first | rfl | exact ⟨rfl, rfl, rfl⟩

theorem reports_joinPending (p : Part) (e : PendEntry) : Reports p (p.joinPending e) := by
  unfold Part.joinPending
  dsimp only
  split
  · exact reports_setNotices _ _
  · exact (reports_discardOldest _).trans (reports_setNotices _ _)

theorem reports_postFrames (code : Nat) (restart : Bool) (l : List Frame) (p : Part) :
    Reports p (p.postFrames code restart l) := by
  induction l generalizing p with
  | nil => exact .refl p
  | cons f l ih =>
    unfold Part.postFrames
    dsimp only
    split
    · exact (reports_enqueue _ _ _).trans (ih _)
    · exact reports_joinPending _ _

theorem reports_notice (p : Part) (c : NoticeCode) (l : List Item) : Reports p (p.notice c l) := reports_postFrames _ _ _ _

theorem reports_reply (p : Part) (m : Mgmt) (a : Answer) (r : Bool) : Reports p (p.reply m a r) :=
  reports_postFrames _ _ _ _

end Sys2Proof.Machine
end

