-- ==== Sys2Proof/Laws/KeepsSequencer.lean ====
section
/-! SUPPORT. The operations of Sequencer, Closure and Sensing keep what `Keeps` states. -/

namespace Sys2Proof.Machine

/-! ## Orders to the field lines -/

theorem Part.append_line (p : Part) (l : Line) (c : Cls) (f : OutFrame) {k : Line} (h : k ≠ l) :
    (p.append l c f).line k = p.line k := by
  show (p.setLine l _).line k = _
  rw [Part.setLine_line, if_neg h]

theorem Part.orderQueued_line (p : Part) (v : Nat) (k : OrderKind) (l : Line) : (p.orderQueued v k).line l = p.line l := by
  unfold Part.orderQueued
  split
  · rfl
  · split
    · rfl
    · split <;> rfl

theorem Part.queueParts_line (o : List PendEntry) (r : Bool) (fs : List Frame) (p : Part) {k : Line} (h : k ≠ .control) :
    (p.queueParts o r fs).1.line k = p.line k := by
  induction fs generalizing p with
  | nil => rfl
  | cons f fs ih => simp only [Part.queueParts]; split <;> simp [ih, Part.append_line _ _ _ _ h]

theorem Part.offerPlace_line (p : Part) (l : Line) (c : Cls) {k : Line} (h : k ≠ l) :
    (p.offerPlace l c).line k = p.line k := by
  unfold Part.offerPlace
  split
  · subst_vars
    split
    · rfl
    · split
      · rfl
      · exact (Part.queueParts_line _ _ _ _ h).trans (Part.append_line _ _ _ _ h)
  · split
    · split
      · rfl
      · dsimp only
        split
        · rw [Part.orderQueued_line, Part.append_line _ _ _ _ h]; rfl
        · rw [Part.append_line _ _ _ _ h]; rfl
    · rfl

theorem Part.pump_line (p : Part) (l : Line) {k : Line} (h : k ≠ l) : (p.pump l).line k = p.line k := by
  unfold Part.pump
  dsimp only
  split
  · rfl
  · split
    · rfl
    · rw [Part.offerPlace_line _ _ _ h, Part.setLine_line, if_neg h]

theorem Part.enqueue_line (p : Part) (l : Line) (c : Cls) (f : OutFrame) {k : Line} (h : k ≠ l) :
    (p.enqueue l c f).line k = p.line k := by
  unfold Part.enqueue
  rw [Part.pump_line _ _ h, Part.append_line _ _ _ _ h]

theorem keeps_enqueueAll (c : Cls) (f : OutFrame) (ls : List Line) (p : Part) (hn : ls.Nodup)
    (h : ∀ l ∈ ls, p.hasPlace l c = true) : Keeps p (ls.foldl (fun q l => q.enqueue l c f) p) := by
  induction ls generalizing p with
  | nil => exact .refl p
  | cons l ls ih =>
    obtain ⟨hl, hn⟩ := List.nodup_cons.1 hn
    refine (keeps_enqueue p l c f (h l (by simp))).trans (ih _ hn fun k hk => ?_)
    have : k ≠ l := fun e => hl (e ▸ hk)
    simpa [Part.hasPlace, Part.enqueue_line _ _ _ _ this] using h k (by simp [hk])

theorem keeps_freshen (p : Part) : Keeps p p.freshen :=
  .ofLight rfl rfl rfl rfl rfl rfl rfl ⟨rfl, rfl, rfl⟩ ⟨rfl, rfl, rfl⟩ rfl fun b =>
    ⟨b.lines, b.notices, b.trace, b.counters, b.tag, b.next, b.frames⟩

theorem keeps_freshenOrder (p : Part) (c : StepCtx) : Keeps p (p.freshenOrder c) := by
  unfold Part.freshenOrder; exact .iteB (keeps_freshen p) (.refl p)

theorem keeps_offerOrder (p : Part) (v : Nat) (k : OrderKind) (f : Frame) (ls : List Line) (hn : ls.Nodup) :
    Keeps p (p.offerOrder v k f ls) := by
  unfold Part.offerOrder
  dsimp only
  have h := keeps_enqueueAll (p.classOf f) ⟨f, false⟩ (ls.filter fun l => p.hasPlace l (p.classOf f)) p
    (hn.filter _) fun l hl => (List.mem_filter.1 hl).2
  refine .iteB (h.trans (keeps_orderQueued _ _ _)) (h.trans (keeps_setSeqFrames _ _ fun hf e he => ?_))
  rcases List.mem_append.1 he with he | he
  · exact hf e he
  · simp only [List.mem_singleton] at he; subst he; exact hn.filter _

theorem Part.linesTo_nodup (p : Part) (a : Nat) : (p.linesTo a).Nodup := by
  unfold Part.linesTo
  split
  · decide
  · split
    · decide
    · split
      · exact List.nodup_nil
      · split
        · simp
        · decide

theorem keeps_sendOrder (p : Part) (fail : Part → Part) (v : Nat) (x : Valve) (k : OrderKind) (f : Frame)
    (hf : ∀ q, Keeps q (fail q)) : Keeps p (p.sendOrder fail v x k f) := by
  unfold Part.sendOrder
  split
  · exact hf p
  · exact keeps_offerOrder _ _ _ _ _ (p.linesTo_nodup _)

/-! ## Ends and failures -/

section
variable {grants : Part → Part} (hg : ∀ q, Keeps q (grants q))
include hg

theorem keeps_failStep (p : Part) (v : Nat) (why : Failure) : Keeps p (p.failStep grants v why) := by
  unfold Part.failStep
  split
  · exact .refl p
  · dsimp only
    have k := fun n s x => ((keeps_record p .stepFailed n s x).trans (keeps_endContext _ v)).trans (hg _)
    split
    · exact (k _ _ _).trans (Keeps.foldl (fun q r => .ite (keeps_planChanged _ _ _) (.refl _)) _ _)
    · exact ((k _ _ _).trans (Keeps.foldl (fun q r => keeps_endTouched _ _ _ _) _ _)).trans (keeps_record _ _ _ _ _)

theorem keeps_finishRun (p : Part) (v : Nat) : Keeps p (p.finishRun grants v) := by
  unfold Part.finishRun
  split
  · exact .refl p
  · dsimp only
    have k := (keeps_endContext p v).trans (hg _)
    split
    · exact k.trans (Keeps.foldl (fun q r => keeps_testVerify _ _) _ _)
    · exact k.trans (Keeps.foldl (fun q r => keeps_endTouched _ _ _ _) _ _)

theorem keeps_limitRun (p : Part) (v rise : Nat) : Keeps p (p.limitRun grants v rise) := by
  unfold Part.limitRun
  split
  · exact .refl p
  · dsimp only
    have k := fun n s x => ((keeps_record p .surgeLimit n s x).trans (keeps_endContext _ v)).trans (hg _)
    split
    · exact (k _ _ _).trans (Keeps.foldl (fun q r => .ite (keeps_hold _ _ _ _) (.refl _)) _ _)
    · exact (k _ _ _).trans (Keeps.foldl (fun q r => keeps_endTouched _ _ _ _) _ _)

/-! ## Calculation points -/

omit hg in
theorem succTag_range {n : Nat} (h : 1 ≤ n ∧ n ≤ 255) : 1 ≤ succTag n ∧ succTag n ≤ 255 := by
  unfold succTag; split <;> omega

omit hg in
theorem keeps_takeTag (p : Part) (h : p.isActive = true) :
    Keeps p { p with seq := { p.seq with tag := succTag p.seq.tag } } where
  config _ := by constructor <;> intros <;> rfl
  silent a := by rw [h] at a; cases a
  canonical c := { c with }
  bounded b := { b with tag := by unfold succTag; have := b.tag; dsimp only; split <;> omega }
  slots _ h := h
  incidents _ := incidentsKept_congr rfl rfl rfl
  stations _ h := ⟨h.within, h.distinct⟩
  hold _ := holdLaw_congr (fun _ => rfl) rfl

omit hg in
@[simp] theorem Part.freshenOrder_seq (p : Part) (c : StepCtx) : (p.freshenOrder c).seq = p.seq := by
  unfold Part.freshenOrder; split <;> rfl

omit hg in
theorem Part.freshenOrder_isActive (p : Part) (c : StepCtx) : (p.freshenOrder c).isActive = p.isActive := by
  unfold Part.freshenOrder; split <;> rfl

omit hg in
theorem Part.freshenOrder_context (p : Part) (c : StepCtx) (v : Nat) : (p.freshenOrder c).context? v = p.context? v := by
  simp [Part.context?]

theorem keeps_formMove (p : Part) (v : Nat) (x : Valve) (c : StepCtx) (t n : Nat) (ha : p.isActive = true)
    (hc : p.context? v = some c) : Keeps p (p.formMove grants v x c t n) := by
  unfold Part.formMove
  dsimp only
  refine .trans ?_ (keeps_sendOrder _ _ _ _ _ _ fun q => keeps_failStep hg q v .unreachable)
  refine .trans ?_ (keeps_putContext _ v c _ ?_ rfl)
  · refine .trans ?_ (keeps_adjustValve _ v _ fun _ => rfl)
    refine .trans (keeps_freshenOrder p c) ?_
    have := keeps_takeTag (p.freshenOrder c) (by rw [Part.freshenOrder_isActive, ha])
    simpa using this
  · simpa [Part.context?] using hc

theorem keeps_formQuery (p : Part) (v : Nat) (x : Valve) (c : StepCtx) (hc : p.context? v = some c) :
    Keeps p (p.formQuery grants v x c) := by
  unfold Part.formQuery
  dsimp only
  refine .trans ?_ (keeps_sendOrder _ _ _ _ _ _ fun q => keeps_failStep hg q v .unreachable)
  refine .trans (keeps_freshenOrder p c) (keeps_putContext _ v c _ ?_ rfl)
  rw [Part.freshenOrder_context]; exact hc

omit hg in
@[simp] theorem Part.record_context (p : Part) (c n s x) (v : Nat) : (p.record c n s x).context? v = p.context? v := rfl

theorem keeps_nextStep (p : Part) (v : Nat) (x : Valve) (c : StepCtx) (o : Nat) (ha : p.isActive = true)
    (hc : p.context? v = some c) : Keeps p (p.nextStep grants v x c o) := by
  unfold Part.nextStep
  split
  · exact .refl p
  · split
    · exact keeps_finishRun hg p v
    · exact keeps_formMove hg p v x c _ _ ha hc
    · exact (keeps_record p _ _ _ _).trans (keeps_formMove hg _ v x c _ _ ha hc)
    · exact keeps_limitRun hg p v _

omit hg in
theorem Part.runTest_proceed {p : Part} {c : StepCtx} (h : p.runTest c = .proceed) : p.isActive = true := by
  unfold Part.runTest at h
  split at h
  · rename_i h'; exact (Bool.and_eq_true _ _ ▸ h').1
  · split at h <;> cases h

theorem keeps_calcPoint (p : Part) (v : Nat) : Keeps p (p.calcPoint grants v) := by
  unfold Part.calcPoint
  split
  · rename_i c x hc _
    split
    · exact ((keeps_endContext p v).trans (hg _)).trans (Keeps.foldl (fun q r => keeps_endTouched _ _ _ _) _ _)
    · split
      · exact keeps_putContext p v c _ hc rfl
      · exact (keeps_endContext p v).trans (hg _)
      · rename_i h
        have ha := Part.runTest_proceed h
        split
        · exact keeps_nextStep hg p v x c _ ha hc
        · exact keeps_nextStep hg p v x c _ ha hc
        · exact keeps_formQuery hg p v x c hc
  · exact .refl p

theorem keeps_startStep (p : Part) (v : Nat) : Keeps p (p.startStep grants v) := by
  unfold Part.startStep
  split
  · rename_i c x hc _
    exact .ite (keeps_formQuery hg p v x c hc) (keeps_calcPoint hg p v)
  · exact .refl p

end

/-! ## Grants -/

theorem keeps_dropWaiting (p : Part) (w : WaitEntry) : Keeps p (p.dropWaiting w) := keeps_setWaiting _ _

@[simp] theorem Part.rehold_seq (p : Part) (a b : List Nat) : (p.rehold a b).seq = p.seq := by
  have h1 : ∀ (l : List Nat) (q : Part), (l.foldl (fun q v => q.addHold v) q).seq = q.seq := fun l => by
    induction l with
    | nil => exact fun _ => rfl
    | cons a l ih => exact fun q => (ih _).trans rfl
  have h2 : ∀ (l : List Nat) (q : Part), (l.foldl (fun q v => q.dropHold v) q).seq = q.seq := fun l => by
    induction l with
    | nil => exact fun _ => rfl
    | cons a l ih => exact fun q => (ih _).trans rfl
  exact (h2 _ _).trans (h1 _ _)

@[simp] theorem Part.rehold_watch (p : Part) (a b : List Nat) : (p.rehold a b).watch = p.watch := by
  have h1 : ∀ (l : List Nat) (q : Part), (l.foldl (fun q v => q.addHold v) q).watch = q.watch := fun l => by
    induction l with
    | nil => exact fun _ => rfl
    | cons a l ih => exact fun q => (ih _).trans rfl
  have h2 : ∀ (l : List Nat) (q : Part), (l.foldl (fun q v => q.dropHold v) q).watch = q.watch := fun l => by
    induction l with
    | nil => exact fun _ => rfl
    | cons a l ih => exact fun q => (ih _).trans rfl
  exact (h2 _ _).trans (h1 _ _)

@[simp] theorem Part.putIncident_seq (p : Part) (r : Nat) (i : Incident) : (p.putIncident r i).seq = p.seq :=
  Part.rehold_seq _ _ _

@[simp] theorem Part.putIncident_watch (p : Part) (r : Nat) (i : Incident) : (p.putIncident r i).watch = p.watch :=
  Part.rehold_watch _ _ _

theorem Part.moveIncident_seq (p : Part) (r : Nat) (st : IncState) (f : Incident → Incident) :
    (p.moveIncident r st f).seq = p.seq ∧ (p.moveIncident r st f).watch = p.watch := by
  unfold Part.moveIncident
  split
  · exact ⟨rfl, rfl⟩
  · dsimp only
    constructor <;> (repeat' split) <;> simp

theorem Part.hold_seq (p : Part) (r : Nat) (h : HeldReason) (v : Option Nat) :
    (p.hold r h v).seq = p.seq ∧ (p.hold r h v).watch = p.watch := by
  unfold Part.hold
  split
  · exact ⟨(reports_notice _ _ _).seq.trans (Part.moveIncident_seq _ _ _ _).1,
      (reports_notice _ _ _).watch.trans (Part.moveIncident_seq _ _ _ _).2⟩
  · exact ⟨rfl, rfl⟩

theorem Part.touch_seq (p : Part) (r v : Nat) (o : Option Nat) :
    (p.touch r v o).seq = p.seq ∧ (p.touch r v o).watch = p.watch := by
  unfold Part.touch
  split
  · exact ⟨rfl, rfl⟩
  · split
    · exact ⟨rfl, rfl⟩
    · exact ⟨Part.putIncident_seq _ _ _, Part.putIncident_watch _ _ _⟩

/-- `grantTo` keeps, and leaves the contexts and the zones. -/
theorem keeps_grantTo (v : Nat) (o : Option Nat) (w : WaitEntry) (a : Part × List Nat) :
    Keeps a.1 (Part.grantTo v o w a).1 ∧ (Part.grantTo v o w a).1.seq.contexts = a.1.seq.contexts ∧
      (Part.grantTo v o w a).1.watch = a.1.watch := by
  unfold Part.grantTo
  split
  · exact ⟨.refl _, rfl, rfl⟩
  · rename_i i hi
    split
    · rename_i hc
      refine ⟨keeps_touch _ _ _ _ fun j hj => ?_, ?_, ?_⟩
      · rw [hi] at hj; cases hj; exact hc
      · have := congrArg Sequencer.contexts (Part.touch_seq a.1 w.record v o).1
        exact this
      · exact (Part.touch_seq a.1 w.record v o).2
    · exact ⟨keeps_hold _ _ _ _, congrArg Sequencer.contexts (Part.hold_seq _ _ _ _).1, (Part.hold_seq _ _ _ _).2⟩

theorem keeps_grantAll (v : Nat) (o : Option Nat) (ws : List WaitEntry) (a : Part × List Nat) :
    Keeps a.1 (ws.foldl (fun a e => Part.grantTo v o e a) a).1 ∧
      (ws.foldl (fun a e => Part.grantTo v o e a) a).1.seq.contexts = a.1.seq.contexts ∧
      (ws.foldl (fun a e => Part.grantTo v o e a) a).1.watch = a.1.watch := by
  induction ws generalizing a with
  | nil => exact ⟨.refl _, rfl, rfl⟩
  | cons w ws ih =>
    obtain ⟨h1, h2, h3⟩ := keeps_grantTo v o w a
    obtain ⟨i1, i2, i3⟩ := ih (Part.grantTo v o w a)
    exact ⟨h1.trans i1, i2.trans h2, i3.trans h3⟩

theorem freeSlot_congr {p q : Part} (h : q.seq.contexts = p.seq.contexts) (k : q.watch = p.watch) (z : Nat) :
    q.freeSlot z = p.freeSlot z := by
  unfold Part.freeSlot Part.slotsHeld Part.zone; rw [h, k]

theorem keeps_grant {grants : Part → Part} (hg : ∀ q, Keeps q (grants q)) (p : Part) (w : WaitEntry)
    (hc : p.context? w.valve = none) (hs : p.freeSlot w.zone = true) : Keeps p (p.grant grants w) := by
  unfold Part.grant
  split
  · exact keeps_dropWaiting _ _
  · split
    · unfold Part.grantClosing
      dsimp only
      obtain ⟨h1, h2, h3⟩ := keeps_grantAll w.valve (Valve.opening ‹Valve›) (p.grantsOf w.zone w.valve)
        (p.setWaiting (p.seq.waiting.filter fun e => !(p.grantsOf w.zone w.valve).contains e), [])
      replace h1 := (keeps_setWaiting p _).trans h1
      split
      · exact h1
      · refine h1.trans ((keeps_newContext _ _ _ ?_ ?_).trans (keeps_startStep hg _ _))
        · exact (congrArg (fun t => Table.look t w.valve) h2).trans hc
        · rw [freeSlot_congr (p := p) h2 h3]; exact hs
    · unfold Part.grantRestoring
      dsimp only
      refine .ite ((keeps_dropWaiting _ _).trans (keeps_endTouched _ _ _ _))
        (((keeps_dropWaiting _ _).trans (keeps_newContext _ _ _ ?_ ?_)).trans (keeps_startStep hg _ _))
      · exact hc
      · exact hs

theorem mem_insertBy {α : Type} (f : α → α → Bool) (a b : α) (l : List α) :
    b ∈ insertBy f a l ↔ b = a ∨ b ∈ l := by
  induction l with
  | nil => simp [insertBy]
  | cons c l ih => simp only [insertBy]; split <;> simp [ih, or_left_comm]

theorem mem_sortBy {α : Type} (f : α → α → Bool) (b : α) (l : List α) : b ∈ sortBy f l ↔ b ∈ l := by
  have h : ∀ (l acc : List α), b ∈ l.foldl (fun acc a => insertBy f a acc) acc ↔ b ∈ acc ∨ b ∈ l := fun l => by
    induction l with
    | nil => simp
    | cons a l ih => intro acc; rw [List.foldl_cons, ih, mem_insertBy, List.mem_cons]; tauto
  rw [sortBy, h]; simp

theorem insertBy_length {α : Type} (f : α → α → Bool) (a : α) (l : List α) : (insertBy f a l).length = l.length + 1 := by
  induction l with
  | nil => rfl
  | cons c l ih => simp only [insertBy]; split <;> simp [ih]

theorem sortBy_length {α : Type} (f : α → α → Bool) (l : List α) : (sortBy f l).length = l.length := by
  have h : ∀ (l acc : List α), (l.foldl (fun acc a => insertBy f a acc) acc).length = acc.length + l.length := fun l => by
    induction l with
    | nil => simp
    | cons a l ih => intro acc; rw [List.foldl_cons, ih, insertBy_length, List.length_cons]; omega
  rw [sortBy, h]; simp

/-- What a granted entry is: waiting, eligible, in a zone with a free slot. -/
theorem Part.nextGrant_spec {p : Part} {w : WaitEntry} (h : p.nextGrant = some w) :
    w ∈ p.seq.waiting ∧ p.eligible w = true ∧ p.freeSlot w.zone = true := by
  unfold Part.nextGrant at h
  split at h
  · cases h
  · obtain ⟨z, hz, h⟩ := List.exists_of_findSome?_eq_some h
    split at h
    · rename_i hs
      have h1 := List.find?_some h
      have h2 := List.mem_of_find?_eq_some h
      rw [Part.zoneList, mem_sortBy, List.mem_filter] at h2
      have hz' := of_decide_eq_true h2.2
      exact ⟨h2.1, h1, hz' ▸ hs⟩
    · cases h

theorem Part.eligible_spec {p : Part} {w : WaitEntry} (h : p.eligible w = true) :
    p.isActive = true ∧ p.context? w.valve = none ∧ p.stateOf w.record = some w.run.goal := by
  simp only [Part.eligible, Bool.and_eq_true, Option.isNone_iff_eq_none, decide_eq_true_eq] at h
  exact ⟨h.1.1, h.1.2, h.2⟩

theorem keeps_settle (n : Nat) (p : Part) : Keeps p (p.settle n) := by
  induction n generalizing p with
  | zero => exact .refl p
  | succ n ih =>
    unfold Part.settle
    split
    · exact (keeps_calcPoint ih _ _).trans (ih _)
    · split
      · rename_i w hw
        obtain ⟨_, h2, h3⟩ := Part.nextGrant_spec hw
        exact (keeps_grant ih p w (Part.eligible_spec h2).2.1 h3).trans (ih _)
      · exact .refl p

theorem keeps_settled (p : Part) : Keeps p p.settled := keeps_settle _ _

/-! ## Positions, echoes and expiries -/

theorem keeps_learnPrior (p : Part) (v o : Nat) (l : List Nat) : Keeps p (p.learnPrior v o l) := by
  unfold Part.learnPrior
  refine Keeps.foldl (fun q r => ?_) _ _
  split
  · rename_i i hi
    refine keeps_putIncident q r i _ hi ⟨rfl, fun h => ⟨h.number, h.repeats, h.area, h.boundary, ?_⟩⟩
    simpa using h.touched
  · exact .refl q

@[simp] theorem Part.learnPrior_seq (p : Part) (v o : Nat) (l : List Nat) : (p.learnPrior v o l).seq = p.seq := by
  unfold Part.learnPrior
  induction l generalizing p with
  | nil => rfl
  | cons a l ih =>
    rw [List.foldl_cons, ih]
    split <;> simp

section
variable {grants : Part → Part} (hg : ∀ q, Keeps q (grants q))
include hg

theorem keeps_queryAnswered (p : Part) (v o : Nat) (c : StepCtx) (hc : p.context? v = some c) :
    Keeps p (p.queryAnswered grants v o c) := by
  unfold Part.queryAnswered
  refine .trans ?_ (keeps_calcPoint hg _ _)
  refine .trans (keeps_learnPrior p v o _) (keeps_putContext _ v c _ ?_ rfl)
  simpa [Part.context?] using hc

theorem keeps_stepReached (p : Part) (v : Nat) (x : Valve) (c : StepCtx) (t : Nat) (hc : p.context? v = some c) :
    Keeps p (p.stepReached grants v x c t) := by
  unfold Part.stepReached
  dsimp only
  have k1 : Keeps p (p.adjustValve v fun y => { y with moveTag := none }) := keeps_adjustValve _ _ _ fun _ => rfl
  have hc' : (p.adjustValve v fun y => { y with moveTag := none }).context? v = some c := hc
  have k2 := fun d (h : d.zone = c.zone) => k1.trans (keeps_putContext _ v c d hc' h)
  split
  · exact ((k2 _ (by rfl)).trans (keeps_endContext _ _)).trans (hg _)
  · split
    · exact (k2 _ (by rfl)).trans (keeps_finishRun hg _ _)
    · split
      · exact k2 _ (by rfl)
      · exact k2 _ (by rfl)

theorem keeps_takePosition (p : Part) (v o : Nat) : Keeps p (p.takePosition grants v o) := by
  unfold Part.takePosition
  split
  · rename_i c x hc _
    split
    · exact keeps_queryAnswered hg p v o c hc
    · exact .iteB (keeps_stepReached hg p v x c _ hc) (.refl p)
    · exact .refl p
  · exact .refl p

end

theorem keeps_failWith (p : Part) (v : Nat) (o : Operability) (w : Failure) : Keeps p (p.failWith v o w) := by
  unfold Part.failWith
  exact ((keeps_writeOper p v o).trans (keeps_failStep keeps_settled _ _ _)).trans (keeps_announceAll _ _)

theorem keeps_takeEcho (p : Part) (v t n : Nat) : Keeps p (p.takeEcho v t n) := by
  unfold Part.takeEcho
  split
  · exact .refl p
  · refine .ite (.ite (keeps_failWith _ _ _ _) (.ite (keeps_failWith _ _ _ _) (.refl p))) (keeps_counters p _ ?_)
    exact fun b => ⟨b.1, b.2.1, b.2.2.1, b.2.2.2.1, b.2.2.2.2.1, raise_le b.2.2.2.2.2.1, b.2.2.2.2.2.2⟩

theorem keeps_travelExpired (p : Part) (v : Nat) : Keeps p (p.travelExpired v) := by
  unfold Part.travelExpired
  split
  · exact .refl p
  · exact .iteB (keeps_failWith _ _ _ _) (keeps_failStep keeps_settled _ _ _)

theorem keeps_formPoll (p : Part) (v : Nat) (x : Valve) (c : StepCtx) : Keeps p (p.formPoll v x c) := by
  unfold Part.formPoll
  dsimp only
  exact (keeps_freshenOrder p c).trans
    (keeps_sendOrder _ _ _ _ _ _ fun q => keeps_failStep keeps_settled q v .unreachable)

theorem keeps_pollExpired (p : Part) (v : Nat) : Keeps p (p.pollExpired v) := by
  unfold Part.pollExpired
  split
  · dsimp only
    refine .iteB (.trans ?_ (keeps_formPoll _ _ _ _)) ?_
    all_goals exact keeps_adjustContext p v _ fun _ => rfl
  · exact .refl p

/-! ## Closure -/

theorem keeps_crewNotice (p : Part) (n v : Nat) (d : CrewDir) : Keeps p (p.crewNotice n v d) := keeps_notice _ _ _

theorem keeps_askCrew (p : Part) (q : CrewReq) (n : Nat) : Keeps p (p.askCrew q n) :=
  (keeps_setCrew _ _).trans (keeps_crewNotice _ _ _ _)

theorem keeps_dropCrew (p : Part) (q : CrewReq) : Keeps p (p.dropCrew q) := keeps_setCrew _ _

theorem keeps_adjustBoundary (p : Part) (r : Nat) : Keeps p (p.adjustBoundary r) := by
  unfold Part.adjustBoundary
  split
  · exact .refl p
  · exact ((Keeps.foldl (f := fun q v => Part.leaveServes r v q) (fun q v => keeps_leaveServes q r v) _ _).trans
      (keeps_setWaiting _ _)).trans (keeps_setCrew _ _)

theorem Part.touch_context (p : Part) (r v : Nat) (o : Option Nat) (w : Nat) :
    (p.touch r v o).context? w = p.context? w := by simp [Part.context?, (Part.touch_seq p r v o).1]

theorem keeps_joinRun (p : Part) (r v : Nat) (i : Incident) (c : StepCtx) (hi : p.incident? r = some i)
    (hc : p.context? v = some c) : Keeps p (p.joinRun r v i c) := by
  unfold Part.joinRun
  split
  · rename_i ht
    dsimp only
    have k := fun d (h : d.zone = c.zone) =>
      (keeps_touch p r v c.grantOpening fun j hj => by rw [hi] at hj; cases hj; exact ht).trans
        (keeps_putContext _ v c d ((Part.touch_context _ _ _ _ _).trans hc) h)
    exact .ite (((k _ (by rfl)).trans (keeps_setWaiting _ _)).trans (keeps_calcPoint Keeps.refl _ _))
      ((k _ (by rfl)).trans (keeps_setWaiting _ _))
  · exact keeps_hold _ _ _ _

theorem keeps_askClose (p : Part) (r v : Nat) (i : Incident) (x : Valve) (hi : p.incident? r = some i) :
    Keeps p (p.askClose r v i x) := by
  unfold Part.askClose
  split
  · rename_i ht
    exact (keeps_touch p r v _ fun j hj => by rw [hi] at hj; cases hj; exact ht).trans (keeps_askCrew _ _ _)
  · exact keeps_hold _ _ _ _

theorem keeps_addWaiting (p : Part) (z v r : Nat) (run : Run) : Keeps p (p.addWaiting z v r run) := by
  unfold Part.addWaiting; exact .iteB (.refl p) (keeps_setWaiting _ _)

theorem keeps_handEntry (p : Part) (r v : Nat) : Keeps p (p.handEntry r v) := by
  unfold Part.handEntry
  split
  · rename_i i x hi _
    split
    · exact .iteB (.refl p) (keeps_askClose p r v i x hi)
    · split
      · rename_i c hc
        exact .iteB (.ite (keeps_calcPoint Keeps.refl _ _) (.refl p))
          (.ite (keeps_joinRun p r v i c hi hc) (keeps_addWaiting _ _ _ _ _))
      · exact keeps_addWaiting _ _ _ _ _
  · exact .refl p

theorem keeps_handOver (p : Part) (r : Nat) : Keeps p (p.handOver r) := by
  unfold Part.handOver
  split
  · exact ((Keeps.foldl (f := fun q v => Part.handEntry r v q) (fun q v => keeps_handEntry q r v) _ _).trans
      (keeps_settled _)).trans (keeps_testVerify _ _)
  · exact .refl p

theorem keeps_closeDone (p : Part) (q : CrewReq) : Keeps p (p.closeDone q) := by
  unfold Part.closeDone; exact .iteB ((keeps_dropCrew _ _).trans (keeps_testVerify _ _)) (.refl p)

theorem keeps_restoreDone (p : Part) (t : Nat) (q : CrewReq) : Keeps p (p.restoreDone t q) := by
  unfold Part.restoreDone; exact .iteB ((keeps_dropCrew _ _).trans (keeps_endTouched _ _ _ _)) (.refl p)

theorem keeps_crewSeized (p : Part) (q : CrewReq) : Keeps p (p.crewSeized q) := by
  unfold Part.crewSeized
  refine .iteB ?_ (.refl p)
  dsimp only
  have k := fun n s x => (keeps_dropCrew p q).trans (keeps_record _ .stepFailed n s x)
  exact .iteB ((keeps_dropCrew _ _).trans (keeps_endTouched _ _ _ _))
    (.ite ((k _ _ _).trans (keeps_planChanged _ _ _)) (k _ _ _))

theorem keeps_matchCrew (p : Part) (v : Nat) (r : CrewResult) : Keeps p (p.matchCrew v r) := by
  unfold Part.matchCrew
  dsimp only
  split
  · exact (Keeps.foldl (fun q c => keeps_closeDone q c) _ _).trans (Keeps.foldl (fun q c => keeps_restoreDone q 0 c) _ _)
  · exact Keeps.foldl (fun q c => keeps_restoreDone q 100 c) _ _
  · exact Keeps.foldl (fun q c => keeps_crewSeized q c) _ _

theorem keeps_testBreach (p : Part) (v : Nat) (x : Valve) (o : Nat) : Keeps p (p.testBreach v x o) := by
  unfold Part.testBreach
  refine .iteB (Keeps.foldl (fun q r => ?_) _ _) (.refl p)
  split
  · exact .iteB (keeps_hold _ _ _ _) (.refl q)
  · exact .refl q

theorem keeps_holdOverridden (p : Part) (v : Nat) : Keeps p (p.holdOverridden v) := by
  unfold Part.holdOverridden
  refine Keeps.foldl (fun q r => ?_) _ _
  split
  · exact .iteB (keeps_hold _ _ _ _) (.refl q)
  · exact .refl q

theorem keeps_overrideValve (p : Part) (t v : Nat) : Keeps p (p.overrideValve t v) := by
  unfold Part.overrideValve
  exact (((((keeps_writeOper p v _).trans (keeps_endContext _ _)).trans (keeps_setWaiting _ _)).trans
    (keeps_setCrew _ _)).trans (keeps_holdOverridden _ _)).trans (keeps_record _ _ _ _ _)

theorem keeps_overrideAll (p : Part) (t : Nat) (vs : List Nat) : Keeps p (p.overrideAll t vs) := by
  unfold Part.overrideAll
  exact (Keeps.foldl (f := fun q v => Part.overrideValve t v q) (fun q v => keeps_overrideValve q t v) _ _).trans
    (keeps_announceAll _ _)

theorem keeps_reverseContext (p : Part) (r v : Nat) : Keeps p (p.reverseContext r v) := by
  unfold Part.reverseContext
  split
  · exact .refl p
  · rename_i c hc
    dsimp only
    have k := fun d (h : d.zone = c.zone) => keeps_putContext p v c d hc h
    exact .iteB (.ite (.iteB ((k _ (by rfl)).trans (keeps_calcPoint Keeps.refl _ _)) (k _ (by rfl))) (k _ (by rfl)))
      (.refl p)

theorem keeps_dispatchEntry (p : Part) (r n v : Nat) : Keeps p (p.dispatchEntry r n v) := by
  unfold Part.dispatchEntry
  split
  · split
    · exact .refl p
    · refine .iteB (.refl p) (.ite (keeps_endTouched _ _ _ _) (.ite (keeps_endTouched _ _ _ _) ?_))
      split
      · exact keeps_addWaiting _ _ _ _ _
      · exact .iteB (.refl p) (keeps_askCrew _ _ _)
  · exact .refl p

theorem keeps_dispatchRestore (p : Part) (r : Nat) : Keeps p (p.dispatchRestore r) := by
  unfold Part.dispatchRestore
  split
  · exact .refl p
  · exact ((((keeps_setWaiting p _).trans (Keeps.foldl (fun q v => keeps_reverseContext q r v) _ _)).trans
      (keeps_setCrew _ _)).trans (Keeps.foldl (fun q v => keeps_dispatchEntry q r _ v) _ _)).trans (keeps_settled _)

/-! ## Samples and items of a report -/

theorem keeps_putSensor (p : Part) (k : Nat) (x y : Sensor) (hx : p.sensor? k = some x) (h : y.unheard = x.unheard) :
    Keeps p (p.putSensor k y) where
  config _ := by
    constructor <;> intros <;> try rfl
    rename_i w
    simp only [Part.sensor?, Part.putSensor_watch_sensors, Table.look_put]
    split
    · subst_vars; rw [Part.sensor?] at hx; simp [hx, h]
    · rfl
  silent a := ⟨a, rfl⟩
  canonical c := { c with sensors := Table.wf_put _ _ c.sensors }
  bounded := bounded_congr rfl rfl rfl rfl rfl rfl fun _ h => h
  slots _ h := h
  incidents _ := incidentsKept_congr rfl rfl rfl
  stations _ h := ⟨h.within, h.distinct⟩
  hold _ := holdLaw_congr (fun _ => rfl) rfl

theorem keeps_traceSuspect (p : Part) (x : Suspect) : Keeps p (p.traceSuspect x) := keeps_record _ _ _ _ _

theorem keeps_countFlow (p : Part) (z : Nat) (x : Sensor) (v : Nat) : Keeps p (p.countFlow z x v).1 := by
  unfold Part.countFlow
  dsimp only
  have k := fun n => keeps_putZone p z { p.zone z with counter := n } (by rfl)
  split
  · exact .refl p
  · split
    · split
      · split
        · exact k _
        · split
          · dsimp only
            refine .trans ?_ (keeps_traceSuspect _ _)
            exact .ite (k _) ((k _).trans (keeps_freshen _))
          · exact k _
      · exact .refl p
    · exact k _

theorem keeps_earlyTest (p : Part) (k : Nat) (x : Sensor) (r : Nat) : Keeps p (p.earlyTest k x r) := by
  unfold Part.earlyTest
  split
  · exact .iteB (keeps_giveVerdict _ _ _ _) (.refl p)
  · exact .refl p

theorem keeps_verifySample (p : Part) (k : Nat) (x : Sensor) : Keeps p (p.verifySample k x) :=
  Keeps.foldl (f := Part.earlyTest k x) (fun q r => keeps_earlyTest q k x r) _ _

theorem keeps_windowExpired (p : Part) (r : Nat) : Keeps p (p.windowExpired r) := by
  unfold Part.windowExpired
  split
  · exact .refl p
  · refine .ite ?_ (.refl p)
    split
    · exact keeps_giveVerdict _ _ _ _
    · exact keeps_giveNotTight _ _

theorem Sensor.unheard_countOn (x : Sensor) (s : CountSide) (e : Excursion) : (x.countOn s e).unheard = x.unheard := by
  unfold Sensor.countOn
  dsimp only
  generalize (if x.side = .none ∨ x.side = s then x.countdown - 1 else x.persist - 1) = n
  split <;> rfl

theorem Sensor.unheard_sampled (x : Sensor) (v n : Nat) : (x.sampled v n).unheard = x.unheard := by
  have h : (x.excurse v).unheard = x.unheard := by
    unfold Sensor.excurse
    split
    · exact Sensor.unheard_countOn _ _ _
    · split
      · exact Sensor.unheard_countOn _ _ _
      · rfl
  rw [← h]; rfl

theorem keeps_samplePressure (p : Part) (k : Nat) (x : Sensor) (v : Nat) (hx : p.sensor? k = some x) :
    Keeps p (p.samplePressure k x v) := by
  unfold Part.samplePressure
  dsimp only
  have h1 := fun s => keeps_putSensor (p.traceSuspect s) k x (x.sampled v p.now) hx (x.unheard_sampled _ _)
  have h2 := keeps_putSensor p k x (x.sampled v p.now) hx (x.unheard_sampled _ _)
  split
  · exact (((keeps_traceSuspect p _).trans (h1 _)).trans (keeps_verifySample _ _ _)).trans (keeps_routeSuspect _ _ _)
  · exact h2.trans (keeps_verifySample _ _ _)

theorem keeps_sampleFlow (p : Part) (k : Nat) (x : Sensor) (v : Nat) (hx : p.sensor? k = some x) :
    Keeps p (p.sampleFlow k x v) := by
  unfold Part.sampleFlow
  dsimp only
  have h := (keeps_putSensor p k x (x.sampled v p.now) hx (x.unheard_sampled _ _)).trans
    (keeps_countFlow (p.putSensor k (x.sampled v p.now)) x.place x v)
  split
  · exact h.trans (keeps_routeSuspect _ _ _)
  · exact h

theorem keeps_applyPosition (p : Part) (v : Nat) (x : Valve) (n : Nat) (hx : p.valve? v = some x) :
    Keeps p (p.applyPosition v x n) := by
  unfold Part.applyPosition
  dsimp only
  refine .trans ?_ (keeps_settled _)
  refine .trans ?_ (keeps_announceAll _ _)
  refine .trans ?_ (keeps_testBreach _ _ _ _)
  refine .trans ?_ (keeps_takePosition keeps_settled _ _ _)
  exact keeps_putValve p v x _ hx rfl

theorem keeps_offerItem (p : Part) (a : Nat) (i : Item) : Keeps p (p.offerItem a i) := by
  unfold Part.offerItem
  split
  · exact .refl p
  · split
    · exact .refl p
    · rename_i x hx
      refine .iteB (.refl p) (.ite (.trans ?_ (keeps_settled _)) (.ite (.trans ?_ (keeps_settled _)) (.refl p)))
      · exact keeps_samplePressure p _ x _ hx
      · exact keeps_sampleFlow p _ x _ hx
  · split
    · exact .refl p
    · rename_i x hx
      exact .iteB (.refl p) (.ite (keeps_applyPosition p _ x _ hx)
        (.ite ((keeps_takeEcho _ _ _ _).trans (keeps_settled _)) (.refl p)))

theorem keeps_offerItems (p : Part) (a : Nat) (l : List Item) : Keeps p (p.offerItems a l) :=
  Keeps.foldl (f := fun q i => Part.offerItem a i q) (fun q i => keeps_offerItem q a i) _ _

end Sys2Proof.Machine
end

