-- ==== Sys2Proof/Laws/Announce.lean ====
section
/-! SUPPORT. What announcing a disturbance leaves: the tables, the sequencer, the Station Table and every record but for
its STATE, HELD_REASON and VERDICT. -/

namespace Sys2Proof.Machine

/-- A record but for STATE, HELD_REASON and VERDICT. -/
def Incident.lists (i : Incident) : Incident := { i with state := .planWait, heldReason := none, verdict := none }

/-- From `p` to `q` nothing differs but the planner, the STATE, HELD_REASON and VERDICT of records, verification windows
that stopped, and what notices touch. -/
structure Replans (p q : Part) : Prop where
  now : q.now = p.now
  net : q.net = p.net
  watch : q.watch = p.watch
  incidents : ∀ r, (q.incident? r).map Incident.lists = (p.incident? r).map Incident.lists
  next : q.inc.next = p.inc.next
  seq : q.seq = p.seq
  ver : ∀ r, Table.look q.ver r = Table.look p.ver r ∨ Table.look q.ver r = none
  stations : q.stations = p.stations
  lines : ∀ l, l ≠ .control → q.line l = p.line l
  classMap : q.trunk.classMap = p.trunk.classMap
  urgencyMap : q.trunk.urgencyMap = p.trunk.urgencyMap
  noticePriority : q.trunk.noticePriority = p.trunk.noticePriority
  mode : q.mgmt.mode = p.mgmt.mode
  ownAddress : q.mgmt.ownAddress = p.mgmt.ownAddress
  noticeAddress : q.mgmt.noticeAddress = p.mgmt.noticeAddress
  handed : q.mgmt.handed = p.mgmt.handed
  fresh : q.mgmt.fresh = p.mgmt.fresh

theorem Replans.refl (p : Part) : Replans p p := by constructor <;> intros <;> first | rfl | exact .inl rfl

theorem Replans.trans {p q r : Part} (h : Replans p q) (k : Replans q r) : Replans p r where
  now := k.now.trans h.now
  net := k.net.trans h.net
  watch := k.watch.trans h.watch
  incidents n := (k.incidents n).trans (h.incidents n)
  next := k.next.trans h.next
  seq := k.seq.trans h.seq
  ver n := by rcases k.ver n with e | e
              · rcases h.ver n with f | f
                · exact .inl (e.trans f)
                · exact .inr (e.trans f)
              · exact .inr e
  stations := k.stations.trans h.stations
  lines l a := (k.lines l a).trans (h.lines l a)
  classMap := k.classMap.trans h.classMap
  urgencyMap := k.urgencyMap.trans h.urgencyMap
  noticePriority := k.noticePriority.trans h.noticePriority
  mode := k.mode.trans h.mode
  ownAddress := k.ownAddress.trans h.ownAddress
  noticeAddress := k.noticeAddress.trans h.noticeAddress
  handed := k.handed.trans h.handed
  fresh := k.fresh.trans h.fresh

theorem Reports.replans {p q : Part} (h : Reports p q) : Replans p q where
  now := h.now
  net := h.net
  watch := h.watch
  incidents r := by simp [Part.incident?, h.inc]
  next := by rw [h.inc]
  seq := h.seq
  ver r := .inl (by rw [h.ver])
  stations := h.stations
  lines := h.lines
  classMap := h.classMap
  urgencyMap := h.urgencyMap
  noticePriority := h.noticePriority
  mode := h.mode
  ownAddress := h.ownAddress
  noticeAddress := h.noticeAddress
  handed := h.handed
  fresh := h.fresh

theorem replans_record (p : Part) (c n s x) : Replans p (p.record c n s x) := (reports_record p c n s x).replans

theorem Part.rehold_same (p : Part) (l : List Nat) : p.rehold l l = p := by
  have : (l.filter fun v => !l.contains v) = [] := by
    rw [List.filter_eq_nil_iff]; intro a ha; simp [ha]
  unfold Part.rehold; rw [this]; rfl

theorem replans_putIncident (p : Part) (r : Nat) (i j : Incident) (hi : p.incident? r = some i) (h : j.lists = i.lists) :
    Replans p (p.putIncident r j) := by
  have e : p.countedBy r = j.counted := by
    have a : j.boundary = i.boundary := by have := congrArg Incident.boundary h; simpa [Incident.lists] using this
    have b : j.touched = i.touched := by have := congrArg Incident.touched h; simpa [Incident.lists] using this
    simp [Part.countedBy, hi, Incident.counted, a, b]
  unfold Part.putIncident
  rw [e, Part.rehold_same]
  constructor <;> intros <;> try first | rfl | exact .inl rfl
  rename_i k
  simp only [Part.incident?, Table.look_put]
  split
  · rename_i e; subst e; exact (congrArg some h).trans (congrArg (Option.map Incident.lists) hi).symm
  · rfl

theorem replans_removeVerify (p : Part) (r : Nat) : Replans p (p.removeVerify r) := by
  constructor <;> intros <;> try first | rfl | exact .inl rfl
  rename_i k
  simp only [Part.removeVerify, Table.look_remove]
  split
  · exact .inr rfl
  · exact .inl rfl

theorem Replans.ite {c : Prop} [Decidable c] {p a b : Part} (ha : Replans p a) (hb : Replans p b) :
    Replans p (if c then a else b) := by split <;> assumption

theorem replans_moveIncident (p : Part) (r : Nat) (st : IncState) (f : Incident → Incident)
    (hf : ∀ i, (f i).lists = i.lists) : Replans p (p.moveIncident r st f) := by
  unfold Part.moveIncident
  split
  · exact .refl p
  · rename_i i hi
    have k := replans_putIncident p r i (f (i.enter st)) hi ((hf _).trans rfl)
    have k2 : Replans p (if st = .verifying then p.putIncident r (f (i.enter st))
        else (p.putIncident r (f (i.enter st))).removeVerify r) := .ite k (k.trans (replans_removeVerify _ _))
    exact .ite k2 (k2.trans (replans_record _ _ _ _ _))

theorem replans_setPlanQueue (p : Part) (q : List PlanEntry) : Replans p (p.setPlanQueue q) := by
  constructor <;> intros <;> first | rfl | exact .inl rfl

theorem replans_setPlan (p : Part) (w : Option Workspace) : Replans p (p.setPlan w) := by
  constructor <;> intros <;> first | rfl | exact .inl rfl

theorem replans_grantPlan (p : Part) : Replans p p.grantPlan := by
  unfold Part.grantPlan
  split
  · split
    · exact ((replans_setPlanQueue p _).trans (replans_moveIncident _ _ _ _ fun _ => rfl)).trans (replans_setPlan _ _)
    · exact replans_setPlanQueue _ _
  · exact .refl p

theorem replans_enterPlanner (p : Part) (r : Nat) : Replans p (p.enterPlanner r) := by
  unfold Part.enterPlanner
  split
  · exact (replans_setPlanQueue _ _).trans (replans_grantPlan _)
  · exact .refl p

theorem replans_planChanged (p : Part) (r : Nat) (s : Subject) : Replans p (p.planChanged r s) := by
  unfold Part.planChanged
  split
  · refine Replans.trans ?_ (reports_notice _ _ _).replans
    exact Replans.trans (replans_moveIncident p r .planWait id fun _ => rfl) (replans_enterPlanner _ _)
  · exact .refl p

theorem replans_hold (p : Part) (r : Nat) (h : HeldReason) (v : Option Nat) : Replans p (p.hold r h v) := by
  unfold Part.hold
  split
  · refine Replans.trans ?_ (reports_notice _ _ _).replans
    exact Replans.trans (replans_setPlanQueue p _) (replans_moveIncident _ _ _ _ fun _ => rfl)
  · exact .refl p

theorem replans_markPlan (p : Part) (x : Subject) : Replans p (p.markPlan x) := by
  unfold Part.markPlan
  split
  · exact .refl p
  · split
    · exact .refl p
    · split
      · exact replans_setPlan _ _
      · exact .refl p

theorem replans_testIncident (p : Part) (d : Disturb) (r : Nat) : Replans p (p.testIncident d r) := by
  unfold Part.testIncident
  split
  · split
    · exact replans_planChanged _ _ _
    · exact .refl p
  · exact .refl p

theorem Replans.foldl {α : Type} {f : Part → α → Part} (hf : ∀ q a, Replans q (f q a)) (l : List α) (p : Part) :
    Replans p (l.foldl f p) := by
  induction l generalizing p with
  | nil => exact .refl p
  | cons a l ih => exact (hf p a).trans (ih _)

/-- What announcing a disturbance leaves. -/
theorem replans_announce (p : Part) (d : Disturb) : Replans p (p.announce d) :=
  (replans_markPlan _ _).trans (Replans.foldl (f := Part.testIncident d) (fun q r => replans_testIncident q d r) _ _)

/-- What announcing disturbances leaves. -/
theorem replans_announceAll (p : Part) (ds : List Disturb) : Replans p (p.announceAll ds) :=
  Replans.foldl (f := fun q d => Part.announce d q) (fun q d => replans_announce q d) _ _

end Sys2Proof.Machine
end

