-- ==== Sys2Proof/Laws/KeepsCommands.lean ====
section
/-! SUPPORT. The commands that configure nothing keep what `Keeps` states. -/

namespace Sys2Proof.Machine

/-! ## RESTART and the end of a command -/

theorem Sensor.unheard_unheard (x : Sensor) : x.unheard.unheard = x.unheard := rfl

theorem restartZones_zone {t : Table Zone} (h : t.wf = true) (z : Nat) :
    ((Table.look (restartZones t) z).getD Zone.powerOn) = ((t.look z).getD Zone.powerOn).restarted := by
  unfold restartZones
  rw [Table.look_filter (Table.wf_mapAll _ h), Table.look_mapAll']
  cases t.look z with
  | none => rfl
  | some x =>
    simp only [Option.map_some, Option.filter]
    split
    · rfl
    · rename_i hx
      simp only [decide_eq_true_eq, ne_eq, not_not] at hx
      simp [hx]

theorem LineState.restarted_bounded (l : LineState) (h : l.bounded) : l.restarted.bounded :=
  ⟨fun c => by cases c <;> simp [LineState.restarted, PerClass.get], h.2⟩

theorem PerLine.get_map {α β : Type} (g : α → β) (q : PerLine α) (l : Line) : (q.map g).get l = g (q.get l) := by
  cases l <;> rfl

theorem keeps_restart (p : Part) : Keeps p p.restart := by
  refine .trans ?_ (keeps_record _ _ _ _ _)
  exact
  { config := fun c => by
      constructor <;> intros <;> try rfl
      · rename_i v
        simp only [Part.valve?, Table.look_mapAll', Option.map_map]
        rfl
      · rename_i k
        simp only [Part.sensor?, Table.look_mapAll', Option.map_map]
        rfl
      · rename_i z
        simp only [Part.zone, restartZones_zone c.zones]
        rfl
      · rename_i n
        show (Table.look (restartStations p.stations.entries) n).bind Station.loadedOnly = _
        rw [restartStations, Table.look_mapAll', Table.look_filter c.entries]
        cases p.stations.entries.look n with
        | none => rfl
        | some e => by_cases h : e.kind = .configured <;> simp [Option.filter, Station.loadedOnly, h]
    silent := fun _ => ⟨rfl, rfl⟩
    canonical := fun c => by
      constructor
      · exact c.segments
      · exact Table.wf_mapAll _ c.valves
      · exact c.materials
      · exact c.vclasses
      · exact c.channels
      · exact Table.wf_mapAll _ c.sensors
      · exact Table.wf_filter _ (Table.wf_mapAll _ c.zones)
      · show Table.wf (restartStations p.stations.entries) = true
        unfold restartStations
        exact Table.wf_mapAll _ (Table.wf_filter _ c.entries)
      · rfl
      · rfl
      · rfl
    bounded := fun b => by
      refine ⟨fun l => ?_, by simp, by simp, b.counters, b.tag, b.next, by simp⟩
      simp only [Part.line, PerLine.get_map]
      exact LineState.restarted_bounded _ (b.lines l)
    slots := fun _ _ z => by simp [Part.slotsHeld]
    incidents := fun _ k => ⟨fun r i h => by simp [Part.incident?, Table.look] at h,
      fun r r' i i' h => by simp [Part.incident?, Table.look] at h, k.next, fun w h => by simp at h⟩
    stations := fun c k => by
      have e : ∀ n x, Table.look (restartStations p.stations.entries) n = some x →
          ∃ y, p.stations.entries.look n = some y ∧ y.address = x.address := by
        intro n x h
        rw [restartStations, Table.look_mapAll', Table.look_filter c.entries] at h
        cases hy : p.stations.entries.look n with
        | none => rw [hy] at h; cases h
        | some y =>
          rw [hy] at h
          simp only [Option.filter] at h
          split at h
          · cases h; exact ⟨y, rfl, rfl⟩
          · cases h
      refine ⟨fun n x h => ?_, fun n n' x x' h h' a => ?_⟩
      · obtain ⟨y, hy, _⟩ := e n x h; exact k.within n y hy
      · obtain ⟨y, hy, ay⟩ := e n x h
        obtain ⟨y', hy', ay'⟩ := e n' x' h'
        exact k.distinct n n' y y' hy hy' (by rw [ay, ay', a])
    hold := fun _ _ v x hx => by
      simp only [Part.valve?, Table.look_mapAll'] at hx
      obtain ⟨y, _, rfl⟩ := Option.map_eq_some_iff.1 hx
      rfl }

theorem keeps_concluded (p : Part) : Keeps p p.concluded := by
  unfold Part.concluded; exact .iteB (keeps_restart p) (.refl p)

theorem keeps_run (p : Part) (f : Part → Part) (h : Keeps p (f p)) : Keeps p (p.run f) :=
  (h.trans (keeps_settled _)).trans (keeps_concluded _)

/-- A change of the Management Unit's handed orders, pending RESTART and free-value counter. -/
theorem keeps_mgmt (p : Part) (m : Management) (h : m.mode = p.mgmt.mode ∧ m.ownAddress = p.mgmt.ownAddress ∧
    m.noticeAddress = p.mgmt.noticeAddress) (n : m.notices = p.mgmt.notices) : Keeps p { p with mgmt := m } :=
  .ofLight rfl rfl rfl rfl rfl rfl rfl ⟨rfl, rfl, rfl⟩ h rfl fun b =>
    ⟨b.lines, n ▸ b.notices, b.trace, b.counters, b.tag, b.next, b.frames⟩

theorem keeps_dropHanded (p : Part) (i : Instr) : Keeps p (p.dropHanded i) := by
  unfold Part.dropHanded; exact .ite (keeps_mgmt p _ ⟨rfl, rfl, rfl⟩ rfl) (.refl p)

theorem keeps_takeOrder (p : Part) (i : Instr) (m : Mgmt) (body : Part → Part × Answer) (b : Bool)
    (h : ∀ q, Keeps q (body q).1) : Keeps p (p.takeOrder i m body b) :=
  ((((keeps_dropHanded p i).trans (h _)).trans (keeps_settled _)).trans (keeps_reply _ _ _ _)).trans (keeps_concluded _)

/-! ## Line events -/

theorem keeps_countFrame (p : Part) (l : Line) : Keeps p (p.countFrame l) :=
  keeps_setLine p l _ fun b => ⟨(b.lines l).1, raise_le (b.lines l).2.1, (b.lines l).2.2.1, (b.lines l).2.2.2⟩

theorem keeps_dropFrame (p : Part) (l : Line) : Keeps p (p.dropFrame l) :=
  keeps_setLine p l _ fun b => ⟨(b.lines l).1, (b.lines l).2.1, raise_le (b.lines l).2.2.1, (b.lines l).2.2.2⟩

/-- An entry of the same number and address. -/
theorem firm_putStation (p : Part) (n : Nat) (x y : Station) (hx : Table.look p.stations.entries n = some x)
    (h : y.address = x.address) : Firm p (p.putStation n y) where
  silent a := ⟨a, rfl⟩
  canonical c := { c with entries := Table.wf_put _ _ c.entries }
  bounded := bounded_congr rfl rfl rfl rfl rfl rfl fun _ h => h
  slots _ h := h
  incidents _ := incidentsKept_congr rfl rfl rfl
  hold _ := holdLaw_congr (fun _ => rfl) rfl
  stations _ k := by
    have e : ∀ m, Table.look (Table.put p.stations.entries n y) m = if m = n then some y else p.stations.entries.look m :=
      fun m => Table.look_put _ _ _ _
    refine ⟨fun m z a => ?_, fun m m' z z' a b c => ?_⟩
    · rw [Part.putStation_stations_entries, e] at a
      split at a
      · subst_vars; exact k.within _ _ hx
      · exact k.within _ _ a
    · rw [Part.putStation_stations_entries, e] at a b
      split at a <;> split at b
      · subst_vars; rfl
      · cases a; subst_vars; exact k.distinct _ _ _ _ hx b (h ▸ c)
      · cases b; subst_vars; exact k.distinct _ _ _ _ a hx (c.trans h)
      · exact k.distinct _ _ _ _ a b c

/-- The configuration stands where an entry of the same loaded fields is written, or of none over none. -/
theorem configuredAs_putStation (p : Part) (n : Nat) (y : Station)
    (h : y.loadedOnly = (Table.look p.stations.entries n).bind Station.loadedOnly) : (p.putStation n y).configuredAs p := by
  constructor <;> intros <;> try rfl
  rename_i m
  rw [Part.putStation_stations_entries, Table.look_put]
  split
  · subst_vars; simpa using h
  · rfl

theorem keeps_putStation (p : Part) (n : Nat) (x y : Station) (hx : Table.look p.stations.entries n = some x)
    (h : y.address = x.address) (hl : y.loadedOnly = x.loadedOnly) : Keeps p (p.putStation n y) :=
  (firm_putStation p n x y hx h).keeps fun _ => configuredAs_putStation p n y (by rw [hx]; exact hl)

/-- A new entry of a free number, of an address no entry has. -/
theorem firm_newStation (p : Part) (n : Nat) (y : Station) (hn : n < 512)
    (h : ∀ m x, Table.look p.stations.entries m = some x → x.address ≠ y.address) : Firm p (p.putStation n y) where
  silent a := ⟨a, rfl⟩
  canonical c := { c with entries := Table.wf_put _ _ c.entries }
  bounded := bounded_congr rfl rfl rfl rfl rfl rfl fun _ h => h
  slots _ h := h
  incidents _ := incidentsKept_congr rfl rfl rfl
  hold _ := holdLaw_congr (fun _ => rfl) rfl
  stations _ k := by
    have e : ∀ m, Table.look (Table.put p.stations.entries n y) m = if m = n then some y else p.stations.entries.look m :=
      fun m => Table.look_put _ _ _ _
    refine ⟨fun m z a => ?_, fun m m' z z' a b c => ?_⟩
    · rw [Part.putStation_stations_entries, e] at a
      split at a
      · subst_vars; exact hn
      · exact k.within _ _ a
    · rw [Part.putStation_stations_entries, e] at a b
      split at a <;> split at b
      · subst_vars; rfl
      · cases a; exact absurd c.symm (h _ _ b)
      · cases b; exact absurd c (h _ _ a)
      · exact k.distinct _ _ _ _ a b c

theorem firm_removeStation (p : Part) (n : Nat) : Firm p (p.removeStation n) where
  silent a := ⟨a, rfl⟩
  canonical c := { c with entries := Table.wf_remove _ c.entries }
  bounded := bounded_congr rfl rfl rfl rfl rfl rfl fun _ h => h
  slots _ h := h
  incidents _ := incidentsKept_congr rfl rfl rfl
  hold _ := holdLaw_congr (fun _ => rfl) rfl
  stations _ k := by
    have e : ∀ m x, Table.look (Table.remove p.stations.entries n) m = some x → p.stations.entries.look m = some x := by
      intro m x h
      rw [Table.look_remove] at h
      split at h
      · cases h
      · exact h
    exact ⟨fun m z a => k.within _ _ (e _ _ a), fun m m' z z' a b => k.distinct _ _ _ _ (e _ _ a) (e _ _ b)⟩

theorem keeps_removeStation (p : Part) (n : Nat)
    (h : ∀ x, Table.look p.stations.entries n = some x → x.kind = .learned) : Keeps p (p.removeStation n) :=
  (firm_removeStation p n).keeps fun _ => by
    constructor <;> intros <;> try rfl
    rename_i m
    show (Table.look (Table.remove p.stations.entries n) m).bind Station.loadedOnly = _
    rw [Table.look_remove]
    split
    · subst_vars
      cases hx : Table.look p.stations.entries m with
      | none => rfl
      | some x => simp [Station.loadedOnly, h x hx]
    · rfl

theorem Part.station_none {p : Part} {a : Nat} (h : p.station? a = none) (m : Nat) (x : Station)
    (hx : Table.look p.stations.entries m = some x) : x.address ≠ a := by
  have := List.find?_eq_none.1 h _ (Table.mem_of_look hx)
  simpa using this

theorem Part.station_some {p : Part} {a n : Nat} {e : Station} (h : p.station? a = some (n, e)) :
    (n, e) ∈ p.stations.entries ∧ e.address = a :=
  ⟨List.mem_of_find?_eq_some h, by simpa using List.find?_some h⟩

/-- An entry found by its address, written again under its number. -/
theorem firm_putFound (p : Part) (a n : Nat) (e y : Station) (h : p.station? a = some (n, e)) (hy : y.address = e.address) :
    Firm p (p.putStation n y) := by
  obtain ⟨hm, _⟩ := Part.station_some h
  have key : p.canonical → Firm p (p.putStation n y) := fun c =>
    firm_putStation p n e y (Table.look_of_mem c.entries hm) hy
  exact
  { silent := fun a => ⟨a, rfl⟩
    canonical := fun c => (key c).canonical c
    bounded := bounded_congr rfl rfl rfl rfl rfl rfl fun _ h => h
    slots := fun c => (key c).slots c
    incidents := fun c => (key c).incidents c
    stations := fun c => (key c).stations c
    hold := fun _ => holdLaw_congr (fun _ => rfl) rfl }

theorem keeps_putFound (p : Part) (a n : Nat) (e y : Station) (h : p.station? a = some (n, e)) (hy : y.address = e.address)
    (hl : y.loadedOnly = e.loadedOnly) : Keeps p (p.putStation n y) :=
  (firm_putFound p a n e y h hy).keeps fun c =>
    configuredAs_putStation p n y (by rw [Table.look_of_mem c.entries (Part.station_some h).1]; exact hl)

theorem keeps_touchStation (p : Part) (a n : Nat) (e : Station) (l : Line) (h : p.station? a = some (n, e)) :
    Keeps p (p.touchStation n e l) := by
  unfold Part.touchStation
  dsimp only
  have k : Keeps p (p.putStation n { e with age := .touched, heard := some p.now, line := some l }) :=
    keeps_putFound p a n e _ h rfl rfl
  have k2 : Keeps p (if e.age = .silent then
      ((p.putStation n { e with age := .touched, heard := some p.now, line := some l }).stationNotice p e.address).stationTrace
        .stationHeard e.address (some (lineNum l))
      else p.putStation n { e with age := .touched, heard := some p.now, line := some l }) :=
    .ite ((k.trans (keeps_stationNotice _ _ _)).trans (keeps_stationTrace _ _ _ _)) k
  exact .ite (k2.trans (keeps_stationTrace _ _ _ _)) k2

theorem Part.freeEntry_spec {p : Part} {n : Nat} (h : p.freeEntry = some n) : n < 512 := (Table.firstFree_spec h).1

theorem keeps_learnStation (p : Part) (n a : Nat) (l : Line) (hn : p.freeEntry = some n) (h : p.station? a = none) :
    Keeps p (p.learnStation n a l) := by
  unfold Part.learnStation
  dsimp only
  refine .trans (.trans ?_ (keeps_stationNotice _ _ _)) (keeps_stationTrace _ _ _ _)
  refine (firm_newStation p n _ (Part.freeEntry_spec hn) fun m x hx => Part.station_none h m x hx).keeps fun _ => ?_
  exact configuredAs_putStation p n _ (by rw [(Table.firstFree_spec hn).2]; rfl)

theorem keeps_stationDrop (p : Part) (f : Counters → Counters) (h : p.counters.bounded → (f p.counters).bounded) :
    Keeps p (p.stationDrop f).1 := by
  unfold Part.stationDrop
  split
  · exact keeps_counters p _ h
  · exact .refl p

theorem Counters.bounded_secure {c : Counters} (b : c.bounded) : c.secureDrop.bounded :=
  ⟨raise_le b.1, b.2⟩
theorem Counters.bounded_blocked {c : Counters} (b : c.bounded) : c.blockedDrop.bounded :=
  ⟨b.1, raise_le b.2.1, b.2.2⟩
theorem Counters.bounded_learn {c : Counters} (b : c.bounded) : c.learnFailure.bounded :=
  ⟨b.1, b.2.1, raise_le b.2.2.1, b.2.2.2⟩
theorem Counters.bounded_unknown {c : Counters} (b : c.bounded) : c.unknownReject.bounded :=
  ⟨b.1, b.2.1, b.2.2.1, raise_le b.2.2.2.1, b.2.2.2.2⟩

theorem keeps_examineSource (p : Part) (l : Line) (a : Nat) : Keeps p (p.examineSource l a).1 := by
  unfold Part.examineSource
  split
  · exact keeps_counters p _ Counters.bounded_unknown
  · split
    · rename_i n e h
      split
      · exact keeps_stationDrop p _ Counters.bounded_blocked
      · split
        · exact keeps_stationDrop p _ Counters.bounded_secure
        · exact keeps_touchStation p a n e l h
    · rename_i h
      split
      · exact keeps_stationDrop p _ Counters.bounded_unknown
      · split
        · rename_i n hn
          exact keeps_learnStation p n a l hn h
        · exact keeps_counters p _ Counters.bounded_learn

theorem keeps_fieldFrame (p : Part) (l : Line) (f : Frame) (k : FrameKind) : Keeps p (p.fieldFrame l f k) := by
  unfold Part.fieldFrame
  refine .ite (keeps_dropFrame _ _) ?_
  dsimp only
  have h := keeps_examineSource p l f.src.toNat
  split
  · exact h
  · exact h.trans (keeps_passFrame _ _ _)
  · exact .ite ((h.trans (keeps_passFrame _ _ _)).trans (keeps_offerItems _ _ _)) (h.trans (keeps_passFrame _ _ _))

theorem keeps_routeDown (p : Part) (f : Frame) : Keeps p (p.routeDown f) := by
  unfold Part.routeDown
  split
  · exact keeps_counters p _ Counters.bounded_blocked
  · exact Keeps.foldl (f := fun q l => Part.passFrame l f q) (fun q l => keeps_passFrame q l f) _ _

theorem keeps_orderHeld (p : Part) (f : Frame) (v : Nat) (b : Bool) : Keeps p (p.orderHeld f v b) :=
  (keeps_notice _ _ _).trans (keeps_record _ _ _ _ _)

theorem keeps_controlOrder (p : Part) (f : Frame) : Keeps p (p.controlOrder f) := by
  unfold Part.controlOrder
  have h := keeps_routeDown p f
  split
  · exact h
  · exact .iteB (.iteB (h.trans (keeps_overrideAll _ _ _)) h)
      (.iteB (keeps_orderHeld _ _ _ _) (.iteB (h.trans (keeps_orderHeld _ _ _ _)) h))

theorem keeps_controlFrame (p : Part) (f : Frame) (k : FrameKind) : Keeps p (p.controlFrame f k) := by
  unfold Part.controlFrame
  exact .ite (.ite (keeps_mgmt p _ ⟨rfl, rfl, rfl⟩ rfl) (keeps_dropFrame _ _))
    (.ite (keeps_controlOrder _ _) (keeps_routeDown _ _))

theorem keeps_receive (p : Part) (l : Line) (b : List Byte) : Keeps p (p.receive l b) := by
  unfold Part.receive
  dsimp only
  split
  · exact (keeps_countFrame _ _).trans (keeps_dropFrame _ _)
  · exact .ite ((keeps_countFrame _ _).trans (keeps_controlFrame _ _ _))
      ((keeps_countFrame _ _).trans (keeps_fieldFrame _ _ _ _))

theorem keeps_transmitEnd (p : Part) (l : Line) : Keeps p (p.transmitEnd l) := by
  unfold Part.transmitEnd
  dsimp only
  split
  · exact .refl p
  · have k : Keeps p (p.setLine l { p.line l with sending := none }) := keeps_setLine p l _ fun b => b.lines l
    exact .trans (.iteB (k.trans (keeps_restart _)) k) (keeps_pump _ _)

/-! ## Timers -/

theorem keeps_advanceTo (p : Part) (t : Nat) : Keeps p (p.advanceTo t) where
  config _ := by constructor <;> intros <;> rfl
  silent a := ⟨a, rfl⟩
  canonical c := { c with }
  bounded := bounded_congr rfl rfl rfl rfl rfl rfl fun _ h => h
  slots _ h := h
  incidents _ := incidentsKept_congr rfl rfl rfl
  stations _ h := ⟨h.within, h.distinct⟩
  hold _ := holdLaw_congr (fun _ => rfl) rfl

theorem firm_freeStation (p : Part) (n a : Nat) : Firm p (p.freeStation n a) :=
  ((firm_removeStation _ _).trans (keeps_stationNotice _ _ _).firm).trans (keeps_stationTrace _ _ _ _).firm

theorem keeps_freeStation (p : Part) (n a : Nat)
    (h : ∀ x, Table.look p.stations.entries n = some x → x.kind = .learned) : Keeps p (p.freeStation n a) :=
  ((keeps_removeStation _ _ h).trans (keeps_stationNotice _ _ _)).trans (keeps_stationTrace _ _ _ _)

theorem keeps_ageEntry (p : Part) (n : Nat) : Keeps p (p.ageEntry n) := by
  unfold Part.ageEntry
  split
  · exact .refl p
  · rename_i e he
    split
    · exact keeps_putStation p n e _ he rfl rfl
    · refine .trans ?_ (keeps_stationTrace _ _ _ _)
      refine .trans ?_ (keeps_stationNotice _ _ _)
      exact keeps_putStation p n e _ he rfl rfl
    · rename_i hk
      exact keeps_freeStation _ _ _ fun x hx => by rw [he] at hx; cases hx; exact hk
    · exact .refl p

theorem keeps_setAging (p : Part) (n : Nat) : Keeps p { p with stations := { p.stations with agingDue := n } } where
  config _ := by constructor <;> intros <;> rfl
  silent a := ⟨a, rfl⟩
  canonical c := { c with }
  bounded := bounded_congr rfl rfl rfl rfl rfl rfl fun _ h => h
  slots _ h := h
  incidents _ := incidentsKept_congr rfl rfl rfl
  stations _ h := ⟨h.within, h.distinct⟩
  hold _ := holdLaw_congr (fun _ => rfl) rfl

theorem keeps_ageStations (p : Part) : Keeps p p.ageStations := by
  unfold Part.ageStations
  exact (Keeps.foldl (f := Part.ageEntry) (fun q n => keeps_ageEntry q n) _ _).trans (keeps_setAging _ _)

theorem keeps_agingExpiry (p : Part) : Keeps p p.agingExpiry := (keeps_advanceTo _ _).trans (keeps_ageStations _)

theorem keeps_freshnessExpiry (p : Part) (k : Nat) : Keeps p (p.freshnessExpiry k) := by
  unfold Part.freshnessExpiry
  split
  · exact .refl p
  · rename_i x hx
    split
    · exact (keeps_advanceTo _ _).trans (keeps_putSensor _ k x _ hx rfl)
    · exact .refl p

theorem keeps_travelExpiry (p : Part) (v : Nat) : Keeps p (p.travelExpiry v) := by
  unfold Part.travelExpiry
  split
  · exact (keeps_advanceTo _ _).trans (keeps_travelExpired _ _)
  · exact .refl p

theorem keeps_queryExpiry (p : Part) (v : Nat) : Keeps p (p.queryExpiry v) := by
  unfold Part.queryExpiry
  split
  · exact (keeps_advanceTo _ _).trans (keeps_failStep keeps_settled _ _ _)
  · exact .refl p

theorem keeps_pollExpiry (p : Part) (v : Nat) : Keeps p (p.pollExpiry v) := by
  unfold Part.pollExpiry
  split
  · exact (keeps_advanceTo _ _).trans (keeps_pollExpired _ _)
  · exact .refl p

theorem keeps_dwellExpiry (p : Part) (v : Nat) : Keeps p (p.dwellExpiry v) := by
  unfold Part.dwellExpiry
  split
  · refine .trans ?_ (keeps_calcPoint keeps_settled _ _)
    exact (keeps_advanceTo _ _).trans (keeps_adjustContext _ _ _ fun _ => rfl)
  · exact .refl p

theorem keeps_verifyExpiry (p : Part) (r : Nat) : Keeps p (p.verifyExpiry r) := by
  unfold Part.verifyExpiry
  split
  · exact (keeps_advanceTo _ _).trans (keeps_windowExpired _ _)
  · exact .refl p

theorem keeps_wrapTime (p : Part) : Keeps p p.wrapTime := by
  unfold Part.wrapTime
  refine (keeps_advanceTo p p.trace.wrapDue).trans ?_
  refine .ofLight rfl rfl rfl rfl rfl rfl rfl ⟨rfl, rfl, rfl⟩ ⟨rfl, rfl, rfl⟩ (Recorder.join_policy _ _) fun h => ?_
  exact ⟨h.lines, h.notices, Recorder.join_length _ _ h.trace, h.counters, h.tag, h.next, h.frames⟩

/-! ## Planner steps -/

/-- The workspace stays within what a plan may commit. -/
def Workspace.fits (w : Workspace) : Prop := w.area.length ≤ 64 ∧ w.boundary.length ≤ 48

theorem Workspace.fits_cross (p : Part) (far : Nat) (w : Workspace) (h : w.fits) : (p.cross far w).fits := by
  unfold Part.cross
  split
  · exact h
  · split
    · exact h
    · split
      · exact ⟨by simp only [List.length_append, List.length_singleton]; omega, h.2⟩
      · exact h

theorem Workspace.fits_bound (v : Nat) (a : Action) (w : Workspace) (h : w.fits) : (w.bound v a).fits := by
  unfold Workspace.bound
  split
  · exact ⟨h.1, by simp only [List.length_append, List.length_singleton]; omega⟩
  · exact h

theorem Workspace.fits_classify (p : Part) (v : Nat) (x : Valve) (g : Nat) (w : Workspace) (h : w.fits) :
    (p.classify v x g w).fits := by
  unfold Part.classify
  split
  · exact h
  · split
    · exact fits_cross _ _ _ h
    · split
      · exact fits_bound _ _ _ h
      · split
        · exact fits_bound _ _ _ h
        · exact fits_cross _ _ _ h

theorem Workspace.fits_endSearch (p : Part) (w : Workspace) (h : w.fits) : (p.endSearch w).fits :=
  ⟨h.1, by
    simp only [Part.endSearch, sortBy_length]
    exact (List.length_filter_le _ _).trans h.2⟩

theorem Workspace.fits_endedSearch (p : Part) (w : Workspace) (h : w.fits) : (p.endedSearch w).fits := by
  unfold Part.endedSearch
  split
  · exact fits_endSearch _ _ h
  · exact h

theorem Workspace.fits_examineWork (p : Part) (w : Workspace) (h : w.fits) : (p.examineWork w).fits := by
  unfold Part.examineWork
  split
  · dsimp only
    refine fits_endedSearch _ _ ?_
    split
    · exact fits_classify _ _ _ _ _ h
    · exact h
  · exact fits_endSearch _ _ h

theorem keeps_areaExamine (p : Part) : Keeps p p.areaExamine := by
  unfold Part.areaExamine
  split
  · rename_i w hw
    exact .ite (keeps_setPlan _ _ fun h x hx => by cases hx; exact Workspace.fits_examineWork p w (h w hw)) (.refl p)
  · exact .refl p

theorem Workspace.fits_reachWork (p : Part) (g v : Nat) (w : Workspace) (h : w.fits) : (p.reachWork g v w).fits := by
  unfold Part.reachWork
  split
  · exact h
  · split
    · exact h
    · split
      · exact h
      · exact h

theorem Workspace.fits_endedWalk (p : Part) (w : Workspace) (h : w.fits) : (p.endedWalk w).fits := by
  unfold Part.endedWalk
  split
  · exact h
  · exact h

theorem keeps_walkReach (p : Part) : Keeps p p.walkReach := by
  unfold Part.walkReach
  split
  · rename_i w hw
    refine .ite ?_ (.refl p)
    split
    · exact keeps_setPlan _ _ fun h x hx => by cases hx; exact Workspace.fits_endedWalk p w (h w hw)
    · exact keeps_setPlan _ _ fun h x hx => by
        cases hx; exact Workspace.fits_endedWalk _ _ (Workspace.fits_reachWork _ _ _ _ (h w hw))
  · exact .refl p

theorem keeps_enterCommitted (p : Part) (r : Nat) (i : Incident) : Keeps p (p.enterCommitted r i) := by
  unfold Part.enterCommitted
  dsimp only
  have k := fun st l => (keeps_moveIncident p r st id fun i => .refl i).trans (keeps_notice _ .planCommitted l)
  split
  · exact ((k _ _).trans (keeps_notice _ _ _)).trans (keeps_adjustBoundary _ _)
  · exact ((k _ _).trans (keeps_adjustBoundary _ _)).trans (keeps_handOver _ _)
  · exact ((k _ _).trans (keeps_adjustBoundary _ _)).trans (keeps_enterVerifying _ _)

theorem keeps_noPlan (p : Part) : Keeps p (p.setPlan none) := keeps_setPlan _ _ fun _ x hx => by cases hx

/-- The plan's record is written with the plan's own lists, and the workspace given up. -/
theorem keeps_commitRecord (p : Part) (w : Workspace) (i j : Incident) (hp : p.plan.plan = some w)
    (hi : p.incident? w.record = some i) (hn : j.number = i.number)
    (h : w.fits → i.bounded → j.bounded) : Keeps p ((p.setPlan none).putIncident w.record j) := by
  have e : (p.setPlan none).putIncident w.record j = (p.putIncident w.record j).setPlan none := by
    have f : ∀ (l : List Nat) (q : Part), (l.foldl (fun q v => q.addHold v) (q.setPlan none)) =
        (l.foldl (fun q v => q.addHold v) q).setPlan none := fun l => by
      induction l with
      | nil => exact fun _ => rfl
      | cons a l ih => exact fun q => ih (q.addHold a)
    have g : ∀ (l : List Nat) (q : Part), (l.foldl (fun q v => q.dropHold v) (q.setPlan none)) =
        (l.foldl (fun q v => q.dropHold v) q).setPlan none := fun l => by
      induction l with
      | nil => exact fun _ => rfl
      | cons a l ih => exact fun q => ih (q.dropHold a)
    unfold Part.putIncident Part.rehold
    rw [← g, ← f]
    rfl
  rw [e]
  exact (keeps_putLike p w.record i j hi fun k => ⟨hn, h (k.workspace w hp)⟩).trans (keeps_noPlan _)

theorem keeps_installPlan (p : Part) (w : Workspace) (i : Incident) (c : Nat) (prot : List Nat)
    (hp : p.plan.plan = some w) (hi : p.incident? w.record = some i) :
    Keeps p ((p.setPlan none).installPlan w i c prot) := by
  unfold Part.installPlan
  dsimp only
  split
  · exact (keeps_noPlan p).trans (keeps_hold _ _ _ _)
  · rename_i h
    refine .trans ?_ (keeps_enterCommitted _ _ _)
    refine keeps_commitRecord p w i _ hp hi rfl fun hw b => ⟨b.number, b.repeats, hw.1, hw.2, ?_⟩
    simp only [List.length_map, List.length_append]; omega

theorem keeps_planDisturbed (p : Part) (r : Nat) (i : Incident) (x : Subject) (hi : p.incident? r = some i) :
    Keeps p (p.planDisturbed r i x) := by
  unfold Part.planDisturbed
  dsimp only
  have k : Keeps p (p.putIncident r { i with restarts := i.restarts + 1 }) :=
    keeps_putIncident p r i _ hi ⟨rfl, fun h => ⟨h.number, h.repeats, h.area, h.boundary, h.touched⟩⟩
  exact .ite ((k.trans (keeps_record _ _ _ _ _)).trans (keeps_toPlanWait _ _ _ fun i => .refl i))
    ((k.trans (keeps_record _ _ _ _ _)).trans (keeps_hold _ _ _ _))

theorem keeps_takeResult (p : Part) (w : Workspace) (res : PlanResult) (hp : p.plan.plan = some w) :
    Keeps p ((p.setPlan none).takeResult w res) := by
  unfold Part.takeResult
  have k := keeps_noPlan p
  split
  · rename_i i hi
    refine .ite ?_ (k.trans (keeps_record _ _ _ _ _))
    split
    · exact keeps_installPlan p w i _ _ hp hi
    · exact k.trans (keeps_hold _ _ _ _)
    · exact k.trans (keeps_hold _ _ _ _)
    · exact k.trans (keeps_planDisturbed _ _ i _ hi)
  · exact k.trans (keeps_record _ _ _ _ _)

theorem keeps_completePlan (p : Part) : Keeps p p.completePlan := by
  unfold Part.completePlan
  split
  · exact .refl p
  · rename_i w hw
    split
    · exact .refl p
    · exact (keeps_takeResult p w _ hw).trans (keeps_grantPlan _)

end Sys2Proof.Machine
end

