-- ==== Sys2Proof/Laws/KeepsOrders.lean ====
section
/-! SUPPORT. What the management orders keep: those that configure nothing keep what `Keeps` states, the others keep the
invariants of the stores. -/

namespace Sys2Proof.Machine

/-! ## Orders taken -/

theorem sound_takeOrder (p : Part) (i : Instr) (m : Mgmt) (body : Part → Part × Answer) (b : Bool)
    (h : ∀ q, Sound q (body q).1) : Sound p (p.takeOrder i m body b) :=
  ((((keeps_dropHanded p i).firm.toSound.trans (h _)).trans (keeps_settled _).firm.toSound).trans
    (keeps_reply _ _ _ _).firm.toSound).trans (keeps_concluded _).firm.toSound

theorem stable_takeOrder (p : Part) (i : Instr) (m : Mgmt) (body : Part → Part × Answer) (b : Bool)
    (h : ∀ q, Stable q (body q).1) : Stable p (p.takeOrder i m body b) :=
  ((((keeps_dropHanded p i).firm.toStable.trans (h _)).trans (keeps_settled _).firm.toStable).trans
    (keeps_reply _ _ _ _).firm.toStable).trans (keeps_concluded _).firm.toStable

theorem hold_takeOrder (p : Part) (i : Instr) (m : Mgmt) (body : Part → Part × Answer) (b : Bool) (c : p.canonical)
    (hs : ∀ q, Sound q (body q).1) (h : (p.dropHanded i).canonical → (p.dropHanded i).holdLaw →
      (body (p.dropHanded i)).1.holdLaw) (k : p.holdLaw) : (p.takeOrder i m body b).holdLaw := by
  have c1 := (keeps_dropHanded p i).canonical c
  have k1 := h c1 ((keeps_dropHanded p i).hold c k)
  have r : Keeps (body (p.dropHanded i)).1 (p.takeOrder i m body b) :=
    (((keeps_settled _).trans (keeps_reply _ _ _ _)).trans (keeps_concluded _))
  exact r.hold ((hs _).canonical c1) k1

theorem firm_takeOrder (p : Part) (i : Instr) (m : Mgmt) (body : Part → Part × Answer) (b : Bool)
    (h : ∀ q, Firm q (body q).1) : Firm p (p.takeOrder i m body b) :=
  ((((keeps_dropHanded p i).firm.trans (h _)).trans (keeps_settled _).firm).trans (keeps_reply _ _ _ _).firm).trans
    (keeps_concluded _).firm

/-- An order that examines by tests does what it does when it is taken. -/
theorem firm_examine (tests : List (Bool × Result)) (take : Part → Part × Answer) (p : Part)
    (h : firstRefusal tests = none → Firm p (take p).1) : Firm p (examine tests take p).1 := by
  unfold examine
  split
  · exact .refl p
  · rename_i e; exact h e

theorem keeps_examine (tests : List (Bool × Result)) (take : Part → Part × Answer) (p : Part)
    (h : Keeps p (take p).1) : Keeps p (examine tests take p).1 := by
  unfold examine
  split
  · exact .refl p
  · exact h

/-- No test of a sequence applies. -/
theorem firstRefusal_none {tests : List (Bool × Result)} (h : firstRefusal tests = none) (e : Bool × Result)
    (he : e ∈ tests) : e.1 = false := by
  induction tests with
  | nil => cases he
  | cons a l ih =>
    obtain ⟨b, r⟩ := a
    simp only [firstRefusal] at h
    split at h
    · cases h
    · rename_i hb
      rcases List.mem_cons.1 he with rfl | he
      · simpa using hb
      · exact ih h he

/-! ## Loads and clears -/

/-- A change of the Network Table alone, but for the law of the hold counts. -/
theorem stable_net (p : Part) (n : Network)
    (h : p.canonical → Table.wf n.segments = true ∧ Table.wf n.valves = true ∧ Table.wf n.materials = true ∧
      Table.wf n.vclasses = true ∧ Table.wf n.channels = true) : Stable p { p with net := n } where
  canonical c := by
    obtain ⟨h1, h2, h3, h4, h5⟩ := h c
    exact { c with segments := h1, valves := h2, materials := h3, vclasses := h4, channels := h5 }
  bounded := bounded_congr rfl rfl rfl rfl rfl rfl fun _ h => h
  slots _ h := h
  incidents _ := incidentsKept_congr rfl rfl rfl
  stations _ h := ⟨h.within, h.distinct⟩
  silent a := ⟨a, rfl⟩

/-- A change of the Network Table alone; of one that leaves the hold counts, the law goes over. -/
theorem firm_net (p : Part) (n : Network)
    (h : p.canonical → Table.wf n.segments = true ∧ Table.wf n.valves = true ∧ Table.wf n.materials = true ∧
      Table.wf n.vclasses = true ∧ Table.wf n.channels = true)
    (hv : p.canonical → p.holdLaw → Part.holdLaw { p with net := n } := by
      exact fun _ => holdLaw_congr (fun _ => rfl) rfl) : Firm p { p with net := n } :=
  { stable_net p n h with hold := hv }

theorem firm_putSegment (p : Part) (g : Nat) (x : Segment) : Firm p (p.putSegment g x) :=
  firm_net p _ fun c => ⟨Table.wf_put _ _ c.segments, c.valves, c.materials, c.vclasses, c.channels⟩
theorem firm_removeSegment (p : Part) (g : Nat) : Firm p (p.removeSegment g) :=
  firm_net p _ fun c => ⟨Table.wf_remove _ c.segments, c.valves, c.materials, c.vclasses, c.channels⟩
theorem stable_putValve (p : Part) (v : Nat) (x : Valve) : Stable p (p.putValve v x) :=
  stable_net p _ fun c => ⟨c.segments, Table.wf_put _ _ c.valves, c.materials, c.vclasses, c.channels⟩
theorem firm_putValve (p : Part) (v : Nat) (x : Valve) (h : p.canonical → p.holdLaw → x.holdCount = p.holders v) :
    Firm p (p.putValve v x) :=
  firm_net p _ (fun c => ⟨c.segments, Table.wf_put _ _ c.valves, c.materials, c.vclasses, c.channels⟩)
    fun c k w y hy => by
      rw [Part.valve?] at hy
      simp only [Table.look_put] at hy
      split at hy
      · cases hy; subst_vars; exact h c k
      · exact k w y hy
theorem firm_removeValve (p : Part) (v : Nat) : Firm p (p.removeValve v) :=
  firm_net p _ (fun c => ⟨c.segments, Table.wf_remove _ c.valves, c.materials, c.vclasses, c.channels⟩)
    fun _ k w y hy => by
      rw [Part.valve?] at hy
      simp only [Table.look_remove] at hy
      split at hy
      · cases hy
      · exact k w y hy
theorem firm_putMaterial (p : Part) (k : Nat) (x : Material) : Firm p (p.putMaterial k x) :=
  firm_net p _ fun c => ⟨c.segments, c.valves, Table.wf_put _ _ c.materials, c.vclasses, c.channels⟩
theorem firm_removeMaterial (p : Part) (k : Nat) : Firm p (p.removeMaterial k) :=
  firm_net p _ fun c => ⟨c.segments, c.valves, Table.wf_remove _ c.materials, c.vclasses, c.channels⟩
theorem firm_putVClass (p : Part) (k : Nat) (x : ValveClass) : Firm p (p.putVClass k x) :=
  firm_net p _ fun c => ⟨c.segments, c.valves, c.materials, Table.wf_put _ _ c.vclasses, c.channels⟩
theorem firm_removeVClass (p : Part) (k : Nat) : Firm p (p.removeVClass k) :=
  firm_net p _ fun c => ⟨c.segments, c.valves, c.materials, Table.wf_remove _ c.vclasses, c.channels⟩
theorem firm_putChannel (p : Part) (a n : Nat) (x : ChanTarget) : Firm p (p.putChannel a n x) :=
  firm_net p _ fun c => ⟨c.segments, c.valves, c.materials, c.vclasses, Table.wf_put _ _ c.channels⟩
theorem firm_removeChannel (p : Part) (a n : Nat) : Firm p (p.removeChannel a n) :=
  firm_net p _ fun c => ⟨c.segments, c.valves, c.materials, c.vclasses, Table.wf_remove _ c.channels⟩

theorem Firm.foldl {α : Type} {f : Part → α → Part} (hf : ∀ q a, Firm q (f q a)) (l : List α) (p : Part) :
    Firm p (l.foldl f p) := by
  induction l generalizing p with
  | nil => exact .refl p
  | cons a l ih => exact (hf p a).trans (ih _)

theorem firm_loadSegment (p : Part) (g z : Word) (so pr : Byte) (st rf : Word) :
    Firm p (p.loadSegment g z so pr st rf).1 := by
  unfold Part.loadSegment
  dsimp only
  split
  · refine firm_examine _ _ _ fun _ => ?_
    dsimp only
    exact .trans (firm_putSegment _ _ _) (keeps_announce _ _).firm
  · exact .refl p

theorem firm_clearSegment (p : Part) (g : Word) : Firm p (p.clearSegment g).1 := by
  unfold Part.clearSegment
  dsimp only
  split
  · exact .refl p
  · refine firm_examine _ _ _ fun _ => ?_
    dsimp only
    exact .trans (firm_removeSegment _ _) (keeps_announce _ _).firm

theorem firm_loadMaterial (p : Part) (k s r : Word) : Firm p (p.loadMaterial k s r).1 := by
  unfold Part.loadMaterial
  split
  · exact .refl p
  · exact firm_putMaterial _ _ _

theorem firm_clearMaterial (p : Part) (k : Word) : Firm p (p.clearMaterial k).1 :=
  firm_examine _ _ _ fun _ => firm_removeMaterial _ _

theorem firm_loadVClass (p : Part) (k n : Word) (c : List Word) (b : List Byte) (t a d q : Word) :
    Firm p (p.loadVClass k n c b t a d q).1 := by
  unfold Part.loadVClass
  dsimp only
  split
  · exact .refl p
  · exact firm_putVClass _ _ _

theorem firm_clearVClass (p : Part) (k : Word) : Firm p (p.clearVClass k).1 :=
  firm_examine _ _ _ fun _ => firm_removeVClass _ _

theorem firm_unlist (p : Part) (v g : Nat) : Firm p (p.unlist v g) := by
  unfold Part.unlist
  split
  · exact firm_putSegment _ _ _
  · exact .refl p

theorem firm_enlist (p : Part) (v g : Nat) : Firm p (p.enlist v g) := by
  unfold Part.enlist
  split
  · exact firm_putSegment _ _ _
  · exact .refl p

theorem firm_unindex (p : Part) (x : Valve) : Firm p (p.unindex x) := by
  unfold Part.unindex
  split
  · exact firm_removeChannel _ _ _
  · exact .refl p

theorem firm_index (p : Part) (v : Nat) (x : Valve) : Firm p (p.index v x) := by
  unfold Part.index
  split
  · exact firm_putChannel _ _ _ _
  · exact .refl p

theorem Part.unlist_valves (p : Part) (v g : Nat) : (p.unlist v g).net.valves = p.net.valves ∧ (p.unlist v g).inc = p.inc := by
  unfold Part.unlist; split <;> exact ⟨rfl, rfl⟩
theorem Part.enlist_valves (p : Part) (v g : Nat) : (p.enlist v g).net.valves = p.net.valves ∧ (p.enlist v g).inc = p.inc := by
  unfold Part.enlist; split <;> exact ⟨rfl, rfl⟩
theorem Part.unindex_valves (p : Part) (x : Valve) : (p.unindex x).net.valves = p.net.valves ∧ (p.unindex x).inc = p.inc := by
  unfold Part.unindex; split <;> exact ⟨rfl, rfl⟩
theorem Part.index_valves (p : Part) (v : Nat) (x : Valve) : (p.index v x).net.valves = p.net.valves ∧ (p.index v x).inc = p.inc := by
  unfold Part.index; split <;> exact ⟨rfl, rfl⟩

/-- The lists and the index as a load of a valve leaves them, before its record is written. -/
def Part.relisted (v : Nat) (old : Option Valve) (new : Valve) (p : Part) : Part :=
  let q := (listLosses old new).foldl (Part.unlist v) p
  let q := (listGains old new).foldl (Part.enlist v) q
  (match old with
    | some o => q.unindex o
    | none => q).index v new

theorem firm_relisted (p : Part) (v : Nat) (old : Option Valve) (new : Valve) : Firm p (p.relisted v old new) := by
  unfold Part.relisted
  dsimp only
  have k := (Firm.foldl (f := Part.unlist v) (fun q g => firm_unlist q v g) (listLosses old new) p).trans
    (Firm.foldl (f := Part.enlist v) (fun q g => firm_enlist q v g) (listGains old new) _)
  cases old with
  | none => exact k.trans (firm_index _ _ _)
  | some o => exact (k.trans (firm_unindex _ _)).trans (firm_index _ _ _)

theorem Part.relisted_valves (p : Part) (v : Nat) (old : Option Valve) (new : Valve) :
    (p.relisted v old new).net.valves = p.net.valves ∧ (p.relisted v old new).inc = p.inc := by
  have f : ∀ (g : Part → Nat → Part) (_ : ∀ q n, (g q n).net.valves = q.net.valves ∧ (g q n).inc = q.inc) (l : List Nat) (q : Part),
      (l.foldl g q).net.valves = q.net.valves ∧ (l.foldl g q).inc = q.inc := fun g hg l => by
    induction l with
    | nil => exact fun q => ⟨rfl, rfl⟩
    | cons a l ih => exact fun q => ⟨(ih _).1.trans (hg q a).1, (ih _).2.trans (hg q a).2⟩
  unfold Part.relisted
  dsimp only
  have a := f (Part.unlist v) (fun q n => Part.unlist_valves q v n) (listLosses old new) p
  generalize (listLosses old new).foldl (Part.unlist v) p = q at a ⊢
  have b := f (Part.enlist v) (fun q n => Part.enlist_valves q v n) (listGains old new) q
  generalize (listGains old new).foldl (Part.enlist v) q = r at b ⊢
  have c : r.net.valves = p.net.valves ∧ r.inc = p.inc := ⟨b.1.trans a.1, b.2.trans a.2⟩
  cases old with
  | none => exact ⟨(Part.index_valves _ _ _).1.trans c.1, (Part.index_valves _ _ _).2.trans c.2⟩
  | some o =>
    exact ⟨(Part.index_valves _ _ _).1.trans ((Part.unindex_valves _ _).1.trans c.1),
      (Part.index_valves _ _ _).2.trans ((Part.unindex_valves _ _).2.trans c.2)⟩

theorem Part.writeValve_eq (p : Part) (v : Nat) (old : Option Valve) (new : Valve) :
    p.writeValve v old new = match old with
      | some o => ((p.relisted v old new).putValve v { new with operability := o.operability }).writeOper v new.operability
      | none => (p.relisted v old new).putValve v new := by cases old <;> rfl

theorem stable_writeValve (p : Part) (v : Nat) (old : Option Valve) (new : Valve) : Stable p (p.writeValve v old new) := by
  rw [Part.writeValve_eq]
  have k := (firm_relisted p v old new).toStable
  split
  · exact (k.trans (stable_putValve _ _ _)).trans (keeps_writeOper _ _ _).firm.toStable
  · exact k.trans (stable_putValve _ _ _)

/-- A load of a valve that is loaded, or that no record holds. -/
theorem firm_writeValve (p : Part) (v : Nat) (old : Option Valve) (new : Valve) (ho : p.valve? v = old)
    (hs : ∀ o, old = some o → new.holdCount = o.holdCount) (hn : old = none → new.holdCount = p.holders v) :
    Firm p (p.writeValve v old new) := by
  rw [Part.writeValve_eq]
  have k := firm_relisted p v old new
  obtain ⟨e1, e2⟩ := Part.relisted_valves p v old new
  have eh : (p.relisted v old new).holders v = p.holders v := by rw [Part.holders, Part.holders, e2]
  have ev : (p.relisted v old new).valve? v = p.valve? v := by rw [Part.valve?, Part.valve?, e1]
  split
  · rename_i o
    refine (k.trans (firm_putValve _ _ _ fun _ h => ?_)).trans (keeps_writeOper _ _ _).firm
    exact (hs o rfl).trans (h v o (ev.trans ho))
  · exact k.trans (firm_putValve _ _ _ fun _ _ => (hn rfl).trans eh.symm)

theorem stable_loadValve (p : Part) (v a b : Word) (kd no : Byte) (st : Word) (ch pe ma vc op : Byte) (ve di : Word) :
    Stable p (p.loadValve v a b kd no st ch pe ma vc op ve di).1 := by
  unfold Part.loadValve
  dsimp only
  split
  · exact (Firm.refl p).toStable
  · split
    · exact (Firm.refl p).toStable
    · unfold examine
      split
      · exact (Firm.refl p).toStable
      · unfold Part.takeValve
        dsimp only
        exact .trans (stable_writeValve _ _ _ _) (keeps_announceAll _ _).firm.toStable

theorem firm_loadValve (p : Part) (v a b : Word) (kd no : Byte) (st : Word) (ch pe ma vc op : Byte) (ve di : Word)
    (h : p.valve? v.toNat = none → p.holders v.toNat = 0) :
    Firm p (p.loadValve v a b kd no st ch pe ma vc op ve di).1 := by
  unfold Part.loadValve
  dsimp only
  split
  · exact .refl p
  · split
    · exact .refl p
    · refine firm_examine _ _ _ fun _ => ?_
      unfold Part.takeValve
      dsimp only
      refine .trans (firm_writeValve p v.toNat _ _ rfl (fun o ho => ?_) fun ho => ?_) (keeps_announceAll _ _).firm
      · rw [ho]; rfl
      · rw [ho]; exact (h ho).symm

theorem firm_clearValve (p : Part) (v : Word) : Firm p (p.clearValve v).1 := by
  unfold Part.clearValve
  dsimp only
  split
  · exact .refl p
  · rename_i x _
    refine firm_examine _ _ _ fun _ => ?_
    dsimp only
    exact (((Firm.foldl (f := Part.unlist v.toNat) (fun q g => firm_unlist q v.toNat g) x.segments p).trans
      (firm_unindex _ _)).trans (firm_removeValve _ _)).trans (keeps_announceAll _ _).firm

/-- A change of the sensor records alone. -/
theorem firm_sensors (p : Part) (t : Table Sensor) (h : p.canonical → Table.wf t = true) :
    Firm p { p with watch := { p.watch with sensors := t } } where
  canonical c := { c with sensors := h c }
  bounded := bounded_congr rfl rfl rfl rfl rfl rfl fun _ h => h
  slots _ h := h
  incidents _ := incidentsKept_congr rfl rfl rfl
  stations _ h := ⟨h.within, h.distinct⟩
  hold _ := holdLaw_congr (fun _ => rfl) rfl
  silent a := ⟨a, rfl⟩

theorem firm_putSensor (p : Part) (k : Nat) (x : Sensor) : Firm p (p.putSensor k x) :=
  firm_sensors p _ fun c => Table.wf_put _ _ c.sensors
theorem firm_removeSensor (p : Part) (k : Nat) : Firm p (p.removeSensor k) :=
  firm_sensors p _ fun c => Table.wf_remove _ c.sensors

theorem firm_loadSensor (p : Part) (k st : Word) (ch kd : Byte) (pl lo hi : Word) (pe : Byte) (dr wi : Word) :
    Firm p (p.loadSensor k st ch kd pl lo hi pe dr wi).1 := by
  unfold Part.loadSensor
  dsimp only
  split
  · exact .refl p
  · refine firm_examine _ _ _ fun _ => ?_
    refine Firm.trans ?_ (firm_putChannel _ _ _ _)
    split
    · exact (firm_removeChannel _ _ _).trans (firm_putSensor _ _ _)
    · exact firm_putSensor _ _ _

theorem firm_clearSensor (p : Part) (k : Word) : Firm p (p.clearSensor k).1 := by
  unfold Part.clearSensor
  dsimp only
  split
  · exact .refl p
  · split
    · exact .refl p
    · exact (firm_removeChannel _ _ _).trans (firm_removeSensor _ _)

/-- A zone record whose SLOTS the valves in motion respect. -/
theorem firm_putZone (p : Part) (z : Nat) (x : Zone) (h : p.slotsKept → p.slotsHeld z ≤ x.slots) :
    Firm p (p.putZone z x) where
  canonical c := { c with
    zones := by
      show Table.wf (if x = Zone.powerOn then Table.remove p.watch.zones z else Table.put p.watch.zones z x) = true
      split
      · exact Table.wf_remove _ c.zones
      · exact Table.wf_put _ _ c.zones }
  bounded := bounded_congr rfl rfl rfl rfl rfl rfl fun _ h => h
  slots _ k w := by
    have e : (p.putZone z x).zone w = if w = z then x else p.zone w := by
      by_cases hx : x = Zone.powerOn
      · subst hx
        simp only [Part.zone, Part.putZone, if_true, Table.look_remove]
        split <;> rfl
      · simp only [Part.zone, Part.putZone, if_neg hx, Table.look_put]
        split <;> rfl
    rw [e]
    split
    · subst_vars; exact h k
    · exact k w
  incidents _ := incidentsKept_congr rfl rfl rfl
  stations _ h := ⟨h.within, h.distinct⟩
  hold _ := holdLaw_congr (fun _ => rfl) rfl
  silent a := ⟨a, rfl⟩

theorem Part.slotsBusy_false {p : Part} {z n : Nat} (h : p.slotsBusy z n = false) (k : p.slotsKept) :
    p.slotsHeld z ≤ n := by
  have := k z
  simp only [Part.slotsBusy, Bool.and_eq_false_iff, decide_eq_false_iff_not, ne_eq, not_not] at h
  omega

theorem firm_loadZone (p : Part) (z : Word) (t s : Byte) (m : Word) (sa u : Byte) (w d : Word) :
    Firm p (p.loadZone z t s m sa u w d).1 := by
  unfold Part.loadZone
  dsimp only
  split
  · exact .refl p
  · refine firm_examine _ _ _ fun h => firm_putZone _ _ _ fun k => ?_
    exact Part.slotsBusy_false (firstRefusal_none h (p.slotsBusy z.toNat (clampTo 1 4 s.toNat), .busy) (by simp)) k

theorem firm_clearZone (p : Part) (z : Word) : Firm p (p.clearZone z).1 :=
  firm_examine _ _ _ fun h => firm_putZone _ _ _ fun k =>
    Part.slotsBusy_false (firstRefusal_none h (p.slotsBusy z.toNat Zone.powerOn.slots, .busy) (by simp)) k

theorem firm_zoneMode (p : Part) (z m : Word) : Firm p (p.zoneMode z m).1 := by
  unfold Part.zoneMode
  dsimp only
  split
  · exact .refl p
  · rename_i x _
    split
    · exact .refl p
    · have k : Firm p (p.putZone z.toNat { p.zone z.toNat with mode := x }) := firm_putZone _ _ _ fun k => k _
      split
      · exact k.trans (keeps_releaseLatch _ _).firm
      · exact k

/-! ## Settings -/

theorem firm_setMaps (p : Part) (c u : List Byte) (n : Byte) : Firm p (p.setMaps c u n).1 := by
  unfold Part.setMaps
  split
  · split
    · exact .refl p
    · exact ⟨⟨⟨fun c => { c with }, bounded_congr rfl rfl rfl rfl rfl rfl fun _ h => h, fun _ h => h,
        fun _ => incidentsKept_congr rfl rfl rfl, fun _ h => ⟨h.within, h.distinct⟩⟩, fun a => ⟨a, rfl⟩⟩,
        fun _ => holdLaw_congr (fun _ => rfl) rfl⟩
  · exact .refl p

theorem firm_setNoticeAddress (p : Part) (a : Word) : Firm p (p.setNoticeAddress a).1 := by
  unfold Part.setNoticeAddress
  split
  · exact .refl p
  · exact ⟨⟨⟨fun c => { c with }, bounded_congr rfl rfl rfl rfl rfl rfl fun _ h => h, fun _ h => h,
      fun _ => incidentsKept_congr rfl rfl rfl, fun _ h => ⟨h.within, h.distinct⟩⟩, fun a => ⟨a, rfl⟩⟩,
        fun _ => holdLaw_congr (fun _ => rfl) rfl⟩

theorem firm_setStationMode (p : Part) (m i : Word) : Firm p (p.setStationMode m i).1 := by
  unfold Part.setStationMode
  split
  · exact .refl p
  · exact ⟨⟨⟨fun c => { c with }, bounded_congr rfl rfl rfl rfl rfl rfl fun _ h => h, fun _ h => h,
      fun _ => incidentsKept_congr rfl rfl rfl, fun _ h => ⟨h.within, h.distinct⟩⟩, fun a => ⟨a, rfl⟩⟩,
        fun _ => holdLaw_congr (fun _ => rfl) rfl⟩

theorem firm_setTracePolicy (p : Part) (x : Word) : Firm p (p.setTracePolicy x).1 := by
  unfold Part.setTracePolicy
  split
  · exact ⟨⟨⟨fun c => { c with }, bounded_congr rfl rfl rfl rfl rfl rfl fun _ h => h, fun _ h => h,
      fun _ => incidentsKept_congr rfl rfl rfl, fun _ h => ⟨h.within, h.distinct⟩⟩, fun a => ⟨a, rfl⟩⟩,
        fun _ => holdLaw_congr (fun _ => rfl) rfl⟩
  · exact .refl p

/-! ## The orders on stations -/

theorem firm_createStation (p : Part) (n : Nat) (e : Station) (hn : n < 512)
    (h : ∀ m x, Table.look p.stations.entries m = some x → x.address ≠ e.address) : Firm p (p.createStation n e) :=
  (firm_newStation p n e hn h).trans (keeps_stationNotice _ _ _).firm

theorem firm_reloadStation (p : Part) (a n : Nat) (e y : Station) (h : p.station? a = some (n, e))
    (hy : y.address = e.address) : Firm p (p.reloadStation n e y) := by
  unfold Part.reloadStation
  dsimp only
  have k := firm_putFound p a n e y h hy
  split
  · exact k
  · exact (k.trans (keeps_stationNotice _ _ _).firm).trans (keeps_stationTrace _ _ _ _).firm

theorem Part.oldestLearned_mem {p : Part} {n : Nat} {e : Station} (h : p.oldestLearned = some (n, e)) :
    (n, e) ∈ p.stations.entries := by
  have key : ∀ (l : List (Nat × Station)) (b : Option (Nat × Station)) x,
      l.foldl (fun best e =>
        if e.2.kind = .learned then
          match best with
          | none => some e
          | some b => if e.2.heard.getD 0 < b.2.heard.getD 0 then some e else best
        else best) b = some x → x ∈ l ∨ b = some x := by
    intro l
    induction l with
    | nil => intro b x h; exact .inr h
    | cons a l ih =>
      intro b x h
      rcases ih _ _ h with h | h
      · exact .inl (List.mem_cons_of_mem _ h)
      · dsimp only at h
        split at h
        · split at h
          · cases h; exact .inl (List.mem_cons_self ..)
          · split at h
            · cases h; exact .inl (List.mem_cons_self ..)
            · exact .inr h
        · exact .inr h
  rcases key _ _ _ h with h | h
  · exact h
  · cases h

/-- An entry freed, and its number used for an address that no other entry has. -/
theorem firm_replaceStation (p : Part) (n : Nat) (e y : Station) (hm : (n, e) ∈ p.stations.entries)
    (h : ∀ m x, Table.look p.stations.entries m = some x → x.address ≠ y.address) :
    Firm p ((p.freeStation n e.address).createStation n y) := by
  refine .trans (q := (p.freeStation n e.address).putStation n y) ?_ (keeps_stationNotice _ _ _).firm
  have k := firm_freeStation p n e.address
  have s : (p.freeStation n e.address).stations = (p.removeStation n).stations := by
    unfold Part.freeStation Part.stationTrace Part.stationNotice
    split
    · exact (replans_record _ _ _ _ _).stations.trans (replans_announceAll _ _).stations
    · exact (replans_announceAll _ _).stations
  exact
  { silent := fun a => k.silent a
    canonical := fun c => { k.canonical c with entries := Table.wf_put _ _ (k.canonical c).entries }
    bounded := fun b =>
      bounded_congr (p := p.freeStation n e.address) rfl rfl rfl rfl rfl rfl (fun _ h => h) (k.bounded b)
    slots := fun c a => k.slots c a
    incidents := fun c a => incidentsKept_congr (p := p.freeStation n e.address) rfl rfl rfl (k.incidents c a)
    hold := fun c a => holdLaw_congr (p := p.freeStation n e.address) (fun _ => rfl) rfl (k.hold c a)
    stations := fun c a => by
      have en : ∀ m, Table.look ((p.freeStation n e.address).putStation n y).stations.entries m =
          if m = n then some y else Table.look p.stations.entries m := fun m => by
        rw [Part.putStation_stations_entries, Table.look_put, s]
        split
        · rfl
        · rename_i hm'
          exact Table.look_remove_ne _ hm'
      refine ⟨fun m x hx => ?_, fun m m' x x' hx hx' he => ?_⟩
      · rw [en] at hx
        split at hx
        · subst_vars; exact a.within _ _ (Table.look_of_mem c.entries hm)
        · exact a.within _ _ hx
      · rw [en] at hx hx'
        split at hx <;> split at hx'
        · subst_vars; rfl
        · cases hx; exact absurd he.symm (h _ _ hx')
        · cases hx'; exact absurd he (h _ _ hx)
        · exact a.distinct _ _ _ _ hx hx' he }

theorem firm_loadStation (p : Part) (a : Word) (s b : Byte) (l : Word) : Firm p (p.loadStation a s b l).1 := by
  unfold Part.loadStation
  dsimp only
  split
  · split
    · exact .refl p
    · split
      · rename_i n e h
        exact firm_reloadStation p a.toNat n e _ h rfl
      · rename_i h
        have hs := fun m x hx => Part.station_none h m x hx
        split
        · rename_i n hn
          exact firm_createStation p n _ (Part.freeEntry_spec hn) hs
        · split
          · rename_i n e he
            exact firm_replaceStation p n e _ (Part.oldestLearned_mem he) hs
          · exact .refl p
  · exact .refl p

theorem firm_clearStation (p : Part) (a : Word) : Firm p (p.clearStation a).1 := by
  unfold Part.clearStation
  dsimp only
  split
  · exact .refl p
  · split
    · exact .refl p
    · exact firm_freeStation _ _ _

/-! ## The orders that configure nothing -/

theorem keeps_usedWords (p : Part) : Keeps p p.usedWords := keeps_mgmt p _ ⟨rfl, rfl, rfl⟩ rfl

theorem keeps_entryAnswer (p : Part) {α : Type} (x : Option α) (f : α → List Item) : Keeps p (p.entryAnswer x f).1 := by
  unfold Part.entryAnswer
  split
  · exact keeps_usedWords p
  · exact .refl p

theorem keeps_ranged (p : Part) (c : Prop) [Decidable c] (a : Part × Answer) (h : Keeps p a.1) :
    Keeps p (if c then refuse .badArgument p else a).1 := by
  split
  · exact .refl p
  · exact h

theorem keeps_readEntry (p : Part) (t i : Word) : Keeps p (p.readEntry t i).1 := by
  unfold Part.readEntry
  dsimp only
  split <;> first | exact keeps_ranged _ _ _ (keeps_entryAnswer _ _ _) | exact .refl p

theorem keeps_suspendZones (p : Part) (b : Bool) : Keeps p (p.suspendZones b) :=
  Keeps.foldl (f := fun q z => Part.putZone z { q.zone z with suspended := b } q)
    (fun q z => keeps_putZone q z _ (by rfl)) _ _

theorem keeps_suspendAll (p : Part) : Keeps p p.suspendAll.1 := keeps_suspendZones p true

theorem keeps_resumeAll (p : Part) : Keeps p p.resumeAll.1 := by
  unfold Part.resumeAll
  dsimp only
  generalize List.range 64 = l
  refine (keeps_suspendZones p false).trans ?_
  generalize p.suspendZones false = q
  exact Keeps.foldl (f := fun (q : Part) z => if (q.zone z).mode = .inhibit then q else q.releaseLatch z)
    (fun q z => .ite (.refl q) (keeps_releaseLatch q z)) l q

theorem keeps_clearLatch (p : Part) (z : Word) : Keeps p (p.clearLatch z).1 := by
  unfold Part.clearLatch
  dsimp only
  split
  · exact .refl p
  · split
    · exact .refl p
    · exact (keeps_putZone _ _ _ (by rfl)).trans (keeps_record _ _ _ _ _)

theorem keeps_declare (p : Part) (g u : Word) : Keeps p (p.declare g u).1 := by
  unfold Part.declare
  dsimp only
  split
  · exact .refl p
  · split
    · exact .refl p
    · split
      · exact .refl p
      · split
        · exact keeps_absorb _ _ _ _
        · split
          · exact .refl p
          · exact keeps_openIncident _ _ _ _

theorem keeps_onIncident (p : Part) (n : Nat) (take : Nat → Incident → Part → Part × Answer)
    (h : ∀ r i, Keeps p (take r i p).1) : Keeps p (p.onIncident n take).1 := by
  unfold Part.onIncident
  split
  · exact .refl p
  · split
    · exact .refl p
    · exact h _ _

theorem keeps_confirm (p : Part) (n : Nat) : Keeps p (p.onIncident n Part.confirm).1 := by
  refine keeps_onIncident p n _ fun r i => ?_
  unfold Part.confirm
  split
  · exact .iteB ((keeps_moveIncident _ _ _ _ fun _ => .refl _).trans (keeps_handOver _ _)) (keeps_enterVerifying _ _)
  · exact .refl p

theorem keeps_cancel (p : Part) (n : Nat) : Keeps p (p.onIncident n Part.cancel).1 := by
  refine keeps_onIncident p n _ fun r i => ?_
  unfold Part.cancel
  split
  · exact keeps_freeIncident _ _ _
  · exact .refl p

theorem keeps_restore (p : Part) (n : Nat) : Keeps p (p.onIncident n Part.restore).1 := by
  refine keeps_onIncident p n _ fun r i => ?_
  unfold Part.restore
  split
  · exact .refl p
  · split
    · exact keeps_freeIncident _ _ _
    · refine ((keeps_withdraw p r).trans (keeps_moveIncident _ _ _ _ fun i => ?_)).trans (keeps_dispatchRestore _ _)
      exact ⟨rfl, fun h => ⟨h.number, h.repeats, h.area, by simp [Incident.giveUp], h.touched⟩⟩

theorem keeps_resume (p : Part) (n : Nat) : Keeps p (p.onIncident n Part.resume).1 := by
  refine keeps_onIncident p n _ fun r i => ?_
  unfold Part.resume
  split
  · exact keeps_toPlanWait _ _ _ fun i => ⟨rfl, fun h => ⟨h.number, h.repeats, h.area, h.boundary, h.touched⟩⟩
  · exact .refl p

theorem keeps_widened (p : Part) (r : Nat) (vs : List Nat) : Keeps p (p.widened r vs) := by
  unfold Part.widened
  dsimp only
  have k : Keeps p (vs.foldl (fun q v => Part.writeOper v .passing q) p) :=
    Keeps.foldl (fun q v => keeps_writeOper q v .passing) _ _
  exact (k.trans (keeps_announceAll _ _)).trans (keeps_toPlanWait _ _ _ fun _ => .refl _)

theorem keeps_widenOrder (p : Part) (n c : Word) (ids : List Word) : Keeps p (p.widenOrder n c ids).1 := by
  unfold Part.widenOrder
  split
  · exact .refl p
  · refine keeps_onIncident p _ _ fun r i => ?_
    exact keeps_examine _ _ _ (keeps_widened _ _ _)

theorem keeps_crewReported (p : Part) (v : Nat) (x : Valve) (r : CrewResult) (hx : p.valve? v = some x) :
    Keeps p (p.crewReported v x r) := by
  unfold Part.crewReported
  split
  · dsimp only
    refine .trans ?_ (keeps_announceAll _ _)
    refine .trans ?_ (keeps_matchCrew _ _ _)
    exact keeps_putValve p v x _ hx rfl
  · dsimp only
    refine .trans ?_ (keeps_announceAll _ _)
    refine .trans ?_ (keeps_testBreach _ _ _ _)
    refine .trans ?_ (keeps_matchCrew _ _ _)
    exact keeps_putValve p v x _ hx rfl
  · dsimp only
    refine .trans ?_ (keeps_announceAll _ _)
    exact .trans (keeps_writeOper _ _ _) (keeps_matchCrew _ _ _)

theorem keeps_crewReport (p : Part) (v r : Word) : Keeps p (p.crewReport v r).1 := by
  unfold Part.crewReport
  dsimp only
  split
  · exact .refl p
  · split
    · exact .refl p
    · split
      · exact .refl p
      · rename_i x hx
        split
        · exact .refl p
        · exact keeps_crewReported p _ x _ hx

theorem keeps_valveState (p : Part) (v o : Word) : Keeps p (p.valveState v o).1 := by
  unfold Part.valveState
  dsimp only
  split
  · exact .refl p
  · split
    · exact .refl p
    · split
      · exact .refl p
      · split
        · exact .refl p
        · exact keeps_setOper _ _ _

theorem keeps_readTrace (p : Part) (n : Word) : Keeps p (p.readTrace n).1 := by
  unfold Part.readTrace
  split
  · exact .refl p
  · refine .ofLight rfl rfl rfl rfl rfl rfl rfl ⟨rfl, rfl, rfl⟩ ⟨rfl, rfl, rfl⟩ rfl fun b => ?_
    refine ⟨b.lines, b.notices, ?_, b.counters, b.tag, b.next, b.frames⟩
    have := b.trace
    simp only [List.length_drop]; omega

theorem keeps_readStatus (p : Part) : Keeps p p.readStatus.1 := keeps_usedWords p

theorem keeps_readIncident (p : Part) (n : Word) : Keeps p (p.readIncident n).1 := by
  unfold Part.readIncident
  dsimp only
  split
  · exact .refl p
  · split <;> exact .refl p

theorem keeps_clearCounters (p : Part) : Keeps p p.clearCounters.1 := by
  refine .ofLight rfl rfl rfl rfl rfl rfl rfl ⟨rfl, rfl, rfl⟩ ⟨rfl, rfl, rfl⟩ rfl fun b => ?_
  refine ⟨fun l => ?_, b.notices, b.trace, ?_, b.tag, b.next, b.frames⟩
  · show ((p.trunk.lines.map LineState.uncounted).get l).bounded
    rw [PerLine.get_map]
    exact ⟨(b.lines l).1, Nat.zero_le _, Nat.zero_le _, Nat.zero_le _⟩
  · show Counters.zero.bounded
    simp [Counters.bounded, Counters.zero]

/-! ## SET_MODE -/

theorem keeps_testHalted (p : Part) (v : Nat) : Keeps p (p.testHalted v) := by
  unfold Part.testHalted
  split
  · exact .ite (keeps_calcPoint .refl _ _) (.refl p)
  · exact .refl p

theorem keepsU_enqueueAll (c : Cls) (f : OutFrame) (ls : List Line) (p : Part) :
    KeepsU p (ls.foldl (fun q l => q.enqueue l c f) p) := by
  induction ls generalizing p with
  | nil => exact (Keeps.refl p).unbounded
  | cons l ls ih => exact (keepsU_enqueue p l c f).trans (ih _)

theorem keeps_requeue (p : Part) (o : SeqFrame) : Keeps p (p.requeue o) := by
  unfold Part.requeue
  split
  · exact .refl p
  · rename_i e hm
    have hm : e ∈ p.seq.frames := List.mem_of_find?_eq_some hm
    dsimp only
    generalize hc : p.classOf e.frame = c
    generalize hr : (e.lines.filter fun l => !p.hasPlace l c) = rest
    generalize ho : (if rest.isEmpty then p.seq.frames.filter fun f => f ≠ e
      else p.seq.frames.map fun f => if f = e then { e with lines := rest } else f) = others
    have hoth : (∀ g ∈ p.seq.frames, g.lines.Nodup) → ∀ g ∈ others, g.lines.Nodup := by
      intro h g hg
      rw [← ho] at hg
      split at hg
      · exact h g (List.mem_of_mem_filter hg)
      · obtain ⟨g', hg', rfl⟩ := List.mem_map.1 hg
        split
        · rw [← hr]; exact (h e hm).filter _
        · exact h g' hg'
    have k1 := keeps_setSeqFrames p others hoth
    have k2 : Keeps p ((e.lines.filter fun l => p.hasPlace l c).foldl (fun q l => q.enqueue l c ⟨e.frame, false⟩)
        (p.setSeqFrames others)) := by
      refine KeepsU.bound (k1.unbounded.trans (keepsU_enqueueAll _ _ _ _)) fun b => ?_
      refine (keeps_enqueueAll c _ _ _ ((b.frames e hm).filter _) fun l hl => ?_).bounded (k1.bounded b)
      exact (List.mem_filter.1 hl).2
    exact .iteB (k2.trans (keeps_orderQueued _ _ _)) k2

theorem keeps_takeUp (p : Part) : Keeps p p.takeUp := by
  unfold Part.takeUp
  dsimp only
  have k : Keeps p ((Table.keys p.offerRecords.seq.contexts).foldl Part.testHalted p.offerRecords) :=
    (keeps_offerRecords p).trans (Keeps.foldl (f := Part.testHalted) keeps_testHalted _ _)
  generalize hq : (Table.keys p.offerRecords.seq.contexts).foldl Part.testHalted p.offerRecords = q at k ⊢
  exact k.trans (Keeps.foldl (f := Part.requeue) keeps_requeue _ _)

theorem sound_writeMode (p : Part) (m : PartMode) : Sound p (p.writeMode m) := by
  refine Sound.trans ?_ (keeps_record _ _ _ _ _).firm.toSound
  exact ⟨fun c => { c with }, bounded_congr rfl rfl rfl rfl rfl rfl fun _ h => h, fun _ h => h,
    fun _ => incidentsKept_congr rfl rfl rfl, fun _ h => ⟨h.within, h.distinct⟩⟩

theorem writeMode_configured (p : Part) (m : PartMode) (c : p.canonical) : (p.writeMode m).configuredAs p := by
  refine .trans (q := { p with mgmt := { p.mgmt with mode := m } }) (by constructor <;> intros <;> rfl) ?_
  exact (keeps_record _ _ _ _ _).config { c with }

theorem sound_setMode (p : Part) (m : Word) : Sound p (p.setMode m).1 := by
  unfold Part.setMode
  split
  · exact (Firm.refl p).toSound
  · split
    · exact (Firm.refl p).toSound
    · split
      · exact sound_writeMode _ _
      · split
        · exact (Firm.refl p).toSound
        · have k := (keeps_takeUp (p.writeMode .active)).firm.toSound
          generalize (p.writeMode .active).takeUp = q at k ⊢
          exact (sound_writeMode p .active).trans k

theorem setMode_configured (p : Part) (m : Word) (c : p.canonical) : (p.setMode m).1.configuredAs p := by
  unfold Part.setMode
  split
  · exact .refl p
  · split
    · exact .refl p
    · split
      · exact writeMode_configured _ _ c
      · split
        · exact .refl p
        · have k := (keeps_takeUp (p.writeMode .active)).config ((sound_writeMode p .active).canonical c)
          generalize (p.writeMode .active).takeUp = q at k ⊢
          exact (writeMode_configured p .active c).trans k

theorem setMode_hold (p : Part) (m : Word) (c : p.canonical) (h : p.holdLaw) : (p.setMode m).1.holdLaw := by
  have w : ∀ x, (p.writeMode x).holdLaw := fun x =>
    (keeps_record _ _ _ _ _).hold { c with } (holdLaw_congr (q := { p with mgmt := { p.mgmt with mode := x } })
      (fun _ => rfl) rfl h)
  unfold Part.setMode
  split
  · exact h
  · split
    · exact h
    · split
      · exact w _
      · split
        · exact h
        · have k := (keeps_takeUp (p.writeMode .active)).hold ((sound_writeMode p .active).canonical c) (w .active)
          generalize (p.writeMode .active).takeUp = q at k ⊢
          exact k

end Sys2Proof.Machine
end

