-- ==== Sys2Proof/Laws/KeepsStep.lean ====
section
/-! SUPPORT. What a step of the machine keeps, command by command. -/

namespace Sys2Proof.Machine

@[simp] theorem State.onPart_part (f : Part → Part) (s : State) : (s.onPart f).part = f s.part := rfl
@[simp] theorem State.onPart_pending (f : Part → Part) (s : State) : (s.onPart f).pending = s.pending := rfl

/-! ## The clock -/

theorem keeps_whenDue (p : Part) (t : Option Nat) (f : Part → Part) (h : ∀ q, Keeps q (f q)) : Keeps p (p.whenDue t f) := by
  unfold Part.whenDue; exact .iteB (keeps_run p f (h p)) (.refl p)

theorem keeps_tickContext (p : Part) (v : Nat) : Keeps p (p.tickContext v) := by
  unfold Part.tickContext
  dsimp only
  refine .trans ?_ (keeps_whenDue _ _ _ fun q => keeps_dwellExpiry q v)
  refine .trans ?_ (keeps_whenDue _ _ _ fun q => keeps_pollExpiry q v)
  refine .trans ?_ (keeps_whenDue _ _ _ fun q => keeps_queryExpiry q v)
  exact keeps_whenDue _ _ _ fun q => keeps_travelExpiry q v

theorem keeps_nextTenth (p : Part) : Keeps p { p with now := p.now + 1 } where
  config _ := by constructor <;> intros <;> rfl
  silent a := ⟨a, rfl⟩
  canonical c := { c with }
  bounded := bounded_congr rfl rfl rfl rfl rfl rfl fun _ h => h
  slots _ h := h
  incidents _ := incidentsKept_congr rfl rfl rfl
  stations _ h := ⟨h.within, h.distinct⟩
  hold _ := holdLaw_congr (fun _ => rfl) rfl

theorem keeps_tick (p : Part) : Keeps p p.tick := by
  unfold Part.tick
  dsimp only
  refine .trans ?_ (Keeps.foldl (f := Part.tickVerify) (fun q r => keeps_whenDue _ _ _ fun q => keeps_verifyExpiry q r) _ _)
  refine .trans ?_ (Keeps.foldl (f := Part.tickContext) keeps_tickContext _ _)
  refine .trans ?_ (Keeps.foldl (f := Part.tickSensor) (fun q k => keeps_whenDue _ _ _ fun q => keeps_freshnessExpiry q k) _ _)
  refine .trans ?_ (keeps_whenDue _ _ _ keeps_agingExpiry)
  exact .trans (keeps_nextTenth p) (keeps_whenDue _ _ _ keeps_wrapTime)

theorem keeps_idle (s : State) : Keeps s.part s.idle.part := by
  unfold State.idle
  split
  · exact .refl _
  · exact keeps_tick _

/-! ## Power-on -/

theorem powerOn_canonical (n : Nat) : (Part.powerOn n).canonical := by constructor <;> rfl

theorem LineState.idle_bounded : LineState.idle.bounded :=
  ⟨fun c => by cases c <;> simp [LineState.idle, PerClass.get], Nat.zero_le _, Nat.zero_le _, Nat.zero_le _⟩

theorem powerOn_bounded (n : Nat) : (Part.powerOn n).bounded := by
  refine ⟨fun l => ?_, by simp [Part.powerOn], by simp [Part.powerOn], by simp [Part.powerOn, Counters.bounded],
    by simp [Part.powerOn], by simp [Part.powerOn], by simp [Part.powerOn]⟩
  cases l <;> exact LineState.idle_bounded

theorem powerOn_slotsKept (n : Nat) : (Part.powerOn n).slotsKept := fun z => by simp [Part.slotsHeld, Part.powerOn]

theorem powerOn_incidentsKept (n : Nat) : (Part.powerOn n).incidentsKept :=
  ⟨fun r i h => by simp [Part.powerOn, Part.incident?] at h, fun r r' i i' h => by simp [Part.powerOn, Part.incident?] at h,
    by simp [Part.powerOn], fun w h => by simp [Part.powerOn] at h⟩

theorem powerOn_stationsKept (n : Nat) : (Part.powerOn n).stationsKept :=
  ⟨fun r i h => by simp [Part.powerOn] at h, fun r r' i i' h => by simp [Part.powerOn] at h⟩

theorem sound_powerOn (p : Part) (n : Nat) : Sound p (Part.powerOn n) :=
  ⟨fun _ => powerOn_canonical n, fun _ => powerOn_bounded n, fun _ _ => powerOn_slotsKept n,
    fun _ _ => powerOn_incidentsKept n, fun _ _ => powerOn_stationsKept n⟩

/-! ## Every command -/

/-- Every command keeps the invariants of the stores. -/
theorem exec_sound (i : Instr) (s t : State) (h : exec i s = .next t) : Sound s.part t.part := by
  cases i <;> simp only [exec, execPowerOn, execFrameReceived, execFrameTransmitEnd, execAgingExpiry, execFreshnessExpiry,
    execTravelTimerExpiry, execQueryTimerExpiry, execPollExpiry, execDwellEnd, execVerifyWindowExpiry,
    execTimeWrap, execAreaSearchExamine, execSupplyWalkReach, execPlanComplete, execLoadSegment, execLoadValve,
    execLoadMaterialClass, execLoadValveClass, execLoadSensor, execLoadZone, execLoadStation, execClearSegment,
    execClearValve, execClearMaterialClass, execClearValveClass, execClearSensor, execClearZone, execClearStation,
    execReadEntry, execSetMode, execZoneMode, execSuspendAll, execResumeAll, execClearLatch, execSetMaps,
    execSetNoticeAddress, execSetStationMode, execSetTracePolicy, execDeclare, execConfirm, execCancel,
    execRestore, execResume, execWiden, execCrewReport, execValveState, execReadTrace, execReadStatus,
    execReadIncident, execClearCounters, execRestart, execBadOrder, Host.Outcome.next.injEq] at h <;> subst h <;>
    rw [State.onPart_part]
  case powerOn => exact sound_powerOn _ _
  case frameReceived => exact (keeps_run _ _ (keeps_receive _ _ _)).firm.toSound
  case frameTransmitEnd => exact (keeps_run _ _ (keeps_transmitEnd _ _)).firm.toSound
  case agingExpiry => exact (keeps_run _ _ (keeps_agingExpiry _)).firm.toSound
  case freshnessExpiry => exact (keeps_run _ _ (keeps_freshnessExpiry _ _)).firm.toSound
  case travelTimerExpiry => exact (keeps_run _ _ (keeps_travelExpiry _ _)).firm.toSound
  case queryTimerExpiry => exact (keeps_run _ _ (keeps_queryExpiry _ _)).firm.toSound
  case pollExpiry => exact (keeps_run _ _ (keeps_pollExpiry _ _)).firm.toSound
  case dwellEnd => exact (keeps_run _ _ (keeps_dwellExpiry _ _)).firm.toSound
  case verifyWindowExpiry => exact (keeps_run _ _ (keeps_verifyExpiry _ _)).firm.toSound
  case timeWrap => exact (keeps_run _ _ (keeps_wrapTime _)).firm.toSound
  case areaSearchExamine => exact (keeps_run _ _ (keeps_areaExamine _)).firm.toSound
  case supplyWalkReach => exact (keeps_run _ _ (keeps_walkReach _)).firm.toSound
  case planComplete => exact (keeps_run _ _ (keeps_completePlan _)).firm.toSound
  case loadSegment => exact (firm_takeOrder _ _ _ _ _ fun q => firm_loadSegment q _ _ _ _ _ _).toSound
  case loadValve => exact (stable_takeOrder _ _ _ _ _ fun q => stable_loadValve q _ _ _ _ _ _ _ _ _ _ _ _ _).toSound
  case loadMaterialClass => exact (firm_takeOrder _ _ _ _ _ fun q => firm_loadMaterial q _ _ _).toSound
  case loadValveClass => exact (firm_takeOrder _ _ _ _ _ fun q => firm_loadVClass q _ _ _ _ _ _ _ _).toSound
  case loadSensor => exact (firm_takeOrder _ _ _ _ _ fun q => firm_loadSensor q _ _ _ _ _ _ _ _ _ _).toSound
  case loadZone => exact (firm_takeOrder _ _ _ _ _ fun q => firm_loadZone q _ _ _ _ _ _ _ _).toSound
  case loadStation => exact (firm_takeOrder _ _ _ _ _ fun q => firm_loadStation q _ _ _ _).toSound
  case clearSegment => exact (firm_takeOrder _ _ _ _ _ fun q => firm_clearSegment q _).toSound
  case clearValve => exact (firm_takeOrder _ _ _ _ _ fun q => firm_clearValve q _).toSound
  case clearMaterialClass => exact (firm_takeOrder _ _ _ _ _ fun q => firm_clearMaterial q _).toSound
  case clearValveClass => exact (firm_takeOrder _ _ _ _ _ fun q => firm_clearVClass q _).toSound
  case clearSensor => exact (firm_takeOrder _ _ _ _ _ fun q => firm_clearSensor q _).toSound
  case clearZone => exact (firm_takeOrder _ _ _ _ _ fun q => firm_clearZone q _).toSound
  case clearStation => exact (firm_takeOrder _ _ _ _ _ fun q => firm_clearStation q _).toSound
  case readEntry => exact (keeps_takeOrder _ _ _ _ _ fun q => keeps_readEntry q _ _).firm.toSound
  case setMode => exact sound_takeOrder _ _ _ _ _ fun q => sound_setMode q _
  case zoneMode => exact (firm_takeOrder _ _ _ _ _ fun q => firm_zoneMode q _ _).toSound
  case suspendAll m => exact (keeps_takeOrder s.part (.suspendAll m) m Part.suspendAll false keeps_suspendAll).firm.toSound
  case resumeAll m =>
    exact (keeps_takeOrder s.part (.resumeAll m) m Part.resumeAll false keeps_resumeAll).firm.toSound
  case clearLatch => exact (keeps_takeOrder _ _ _ _ _ fun q => keeps_clearLatch q _).firm.toSound
  case setMaps => exact (firm_takeOrder _ _ _ _ _ fun q => firm_setMaps q _ _ _).toSound
  case setNoticeAddress => exact (firm_takeOrder _ _ _ _ _ fun q => firm_setNoticeAddress q _).toSound
  case setStationMode => exact (firm_takeOrder _ _ _ _ _ fun q => firm_setStationMode q _ _).toSound
  case setTracePolicy => exact (firm_takeOrder _ _ _ _ _ fun q => firm_setTracePolicy q _).toSound
  case declare => exact (keeps_takeOrder _ _ _ _ _ fun q => keeps_declare q _ _).firm.toSound
  case confirm => exact (keeps_takeOrder _ _ _ _ _ fun q => keeps_confirm q _).firm.toSound
  case cancel => exact (keeps_takeOrder _ _ _ _ _ fun q => keeps_cancel q _).firm.toSound
  case restore => exact (keeps_takeOrder _ _ _ _ _ fun q => keeps_restore q _).firm.toSound
  case resume => exact (keeps_takeOrder _ _ _ _ _ fun q => keeps_resume q _).firm.toSound
  case widen => exact (keeps_takeOrder _ _ _ _ _ fun q => keeps_widenOrder q _ _ _).firm.toSound
  case crewReport => exact (keeps_takeOrder _ _ _ _ _ fun q => keeps_crewReport q _ _).firm.toSound
  case valveState => exact (keeps_takeOrder _ _ _ _ _ fun q => keeps_valveState q _ _).firm.toSound
  case readTrace => exact (keeps_takeOrder _ _ _ _ _ fun q => keeps_readTrace q _).firm.toSound
  case readStatus m => exact (keeps_takeOrder s.part (.readStatus m) m Part.readStatus false keeps_readStatus).firm.toSound
  case readIncident => exact (keeps_takeOrder _ _ _ _ _ fun q => keeps_readIncident q _).firm.toSound
  case clearCounters m => exact (keeps_takeOrder s.part (.clearCounters m) m Part.clearCounters false keeps_clearCounters).firm.toSound
  case restart m =>
    exact (keeps_takeOrder s.part (.restart m) m (fun p => (p, .bare .ok)) true fun q => .refl q).firm.toSound
  case badOrder m =>
    exact (keeps_takeOrder s.part (.badOrder m) m (refuse .badOrder) false fun q => .refl q).firm.toSound

/-- A command other than POWER_ON and SET_MODE leaves a TRANSPARENT part so, and its tag counter with it. -/
theorem exec_silent (i : Instr) (s t : State) (h : exec i s = .next t) (hp : ∀ n, i ≠ .powerOn n)
    (hm : ∀ m w, i ≠ .setMode m w) (a : s.part.isActive = false) : t.part.isActive = false ∧ t.part.seq.tag = s.part.seq.tag := by
  cases i <;> simp only [exec, execPowerOn, execFrameReceived, execFrameTransmitEnd, execAgingExpiry, execFreshnessExpiry,
    execTravelTimerExpiry, execQueryTimerExpiry, execPollExpiry, execDwellEnd, execVerifyWindowExpiry,
    execTimeWrap, execAreaSearchExamine, execSupplyWalkReach, execPlanComplete, execLoadSegment, execLoadValve,
    execLoadMaterialClass, execLoadValveClass, execLoadSensor, execLoadZone, execLoadStation, execClearSegment,
    execClearValve, execClearMaterialClass, execClearValveClass, execClearSensor, execClearZone, execClearStation,
    execReadEntry, execSetMode, execZoneMode, execSuspendAll, execResumeAll, execClearLatch, execSetMaps,
    execSetNoticeAddress, execSetStationMode, execSetTracePolicy, execDeclare, execConfirm, execCancel,
    execRestore, execResume, execWiden, execCrewReport, execValveState, execReadTrace, execReadStatus,
    execReadIncident, execClearCounters, execRestart, execBadOrder, Host.Outcome.next.injEq] at h <;> subst h <;>
    rw [State.onPart_part]
  case powerOn n => exact absurd rfl (hp n)
  case frameReceived => exact (keeps_run _ _ (keeps_receive _ _ _)).silent a
  case frameTransmitEnd => exact (keeps_run _ _ (keeps_transmitEnd _ _)).silent a
  case agingExpiry => exact (keeps_run _ _ (keeps_agingExpiry _)).silent a
  case freshnessExpiry => exact (keeps_run _ _ (keeps_freshnessExpiry _ _)).silent a
  case travelTimerExpiry => exact (keeps_run _ _ (keeps_travelExpiry _ _)).silent a
  case queryTimerExpiry => exact (keeps_run _ _ (keeps_queryExpiry _ _)).silent a
  case pollExpiry => exact (keeps_run _ _ (keeps_pollExpiry _ _)).silent a
  case dwellEnd => exact (keeps_run _ _ (keeps_dwellExpiry _ _)).silent a
  case verifyWindowExpiry => exact (keeps_run _ _ (keeps_verifyExpiry _ _)).silent a
  case timeWrap => exact (keeps_run _ _ (keeps_wrapTime _)).silent a
  case areaSearchExamine => exact (keeps_run _ _ (keeps_areaExamine _)).silent a
  case supplyWalkReach => exact (keeps_run _ _ (keeps_walkReach _)).silent a
  case planComplete => exact (keeps_run _ _ (keeps_completePlan _)).silent a
  case loadSegment => exact (firm_takeOrder _ _ _ _ _ fun q => firm_loadSegment q _ _ _ _ _ _).silent a
  case loadValve => exact (stable_takeOrder _ _ _ _ _ fun q => stable_loadValve q _ _ _ _ _ _ _ _ _ _ _ _ _).silent a
  case loadMaterialClass => exact (firm_takeOrder _ _ _ _ _ fun q => firm_loadMaterial q _ _ _).silent a
  case loadValveClass => exact (firm_takeOrder _ _ _ _ _ fun q => firm_loadVClass q _ _ _ _ _ _ _ _).silent a
  case loadSensor => exact (firm_takeOrder _ _ _ _ _ fun q => firm_loadSensor q _ _ _ _ _ _ _ _ _ _).silent a
  case loadZone => exact (firm_takeOrder _ _ _ _ _ fun q => firm_loadZone q _ _ _ _ _ _ _ _).silent a
  case loadStation => exact (firm_takeOrder _ _ _ _ _ fun q => firm_loadStation q _ _ _ _).silent a
  case clearSegment => exact (firm_takeOrder _ _ _ _ _ fun q => firm_clearSegment q _).silent a
  case clearValve => exact (firm_takeOrder _ _ _ _ _ fun q => firm_clearValve q _).silent a
  case clearMaterialClass => exact (firm_takeOrder _ _ _ _ _ fun q => firm_clearMaterial q _).silent a
  case clearValveClass => exact (firm_takeOrder _ _ _ _ _ fun q => firm_clearVClass q _).silent a
  case clearSensor => exact (firm_takeOrder _ _ _ _ _ fun q => firm_clearSensor q _).silent a
  case clearZone => exact (firm_takeOrder _ _ _ _ _ fun q => firm_clearZone q _).silent a
  case clearStation => exact (firm_takeOrder _ _ _ _ _ fun q => firm_clearStation q _).silent a
  case readEntry => exact (keeps_takeOrder _ _ _ _ _ fun q => keeps_readEntry q _ _).silent a
  case setMode m w => exact absurd rfl (hm m w)
  case zoneMode => exact (firm_takeOrder _ _ _ _ _ fun q => firm_zoneMode q _ _).silent a
  case suspendAll m => exact (keeps_takeOrder s.part (.suspendAll m) m Part.suspendAll false keeps_suspendAll).silent a
  case resumeAll m =>
    exact (keeps_takeOrder s.part (.resumeAll m) m Part.resumeAll false keeps_resumeAll).silent a
  case clearLatch => exact (keeps_takeOrder _ _ _ _ _ fun q => keeps_clearLatch q _).silent a
  case setMaps => exact (firm_takeOrder _ _ _ _ _ fun q => firm_setMaps q _ _ _).silent a
  case setNoticeAddress => exact (firm_takeOrder _ _ _ _ _ fun q => firm_setNoticeAddress q _).silent a
  case setStationMode => exact (firm_takeOrder _ _ _ _ _ fun q => firm_setStationMode q _ _).silent a
  case setTracePolicy => exact (firm_takeOrder _ _ _ _ _ fun q => firm_setTracePolicy q _).silent a
  case declare => exact (keeps_takeOrder _ _ _ _ _ fun q => keeps_declare q _ _).silent a
  case confirm => exact (keeps_takeOrder _ _ _ _ _ fun q => keeps_confirm q _).silent a
  case cancel => exact (keeps_takeOrder _ _ _ _ _ fun q => keeps_cancel q _).silent a
  case restore => exact (keeps_takeOrder _ _ _ _ _ fun q => keeps_restore q _).silent a
  case resume => exact (keeps_takeOrder _ _ _ _ _ fun q => keeps_resume q _).silent a
  case widen => exact (keeps_takeOrder _ _ _ _ _ fun q => keeps_widenOrder q _ _ _).silent a
  case crewReport => exact (keeps_takeOrder _ _ _ _ _ fun q => keeps_crewReport q _ _).silent a
  case valveState => exact (keeps_takeOrder _ _ _ _ _ fun q => keeps_valveState q _ _).silent a
  case readTrace => exact (keeps_takeOrder _ _ _ _ _ fun q => keeps_readTrace q _).silent a
  case readStatus m => exact (keeps_takeOrder s.part (.readStatus m) m Part.readStatus false keeps_readStatus).silent a
  case readIncident => exact (keeps_takeOrder _ _ _ _ _ fun q => keeps_readIncident q _).silent a
  case clearCounters m => exact (keeps_takeOrder s.part (.clearCounters m) m Part.clearCounters false keeps_clearCounters).silent a
  case restart m =>
    exact (keeps_takeOrder s.part (.restart m) m (fun p => (p, .bare .ok)) true fun q => .refl q).silent a
  case badOrder m =>
    exact (keeps_takeOrder s.part (.badOrder m) m (refuse .badOrder) false fun q => .refl q).silent a

/-- A command keeps the law of the hold counts, but for a first load of a valve that a record holds. -/
theorem exec_hold (i : Instr) (s t : State) (h : exec i s = .next t)
    (hl : ∀ m v a b kd no st ch pe ma vc op ve di, i = .loadValve m v a b kd no st ch pe ma vc op ve di →
      s.part.valve? v.toNat = none → s.part.holders v.toNat = 0)
    (c : s.part.canonical) (k : s.part.holdLaw) : t.part.holdLaw := by
  cases i <;> simp only [exec, execPowerOn, execFrameReceived, execFrameTransmitEnd, execAgingExpiry, execFreshnessExpiry,
    execTravelTimerExpiry, execQueryTimerExpiry, execPollExpiry, execDwellEnd, execVerifyWindowExpiry,
    execTimeWrap, execAreaSearchExamine, execSupplyWalkReach, execPlanComplete, execLoadSegment, execLoadValve,
    execLoadMaterialClass, execLoadValveClass, execLoadSensor, execLoadZone, execLoadStation, execClearSegment,
    execClearValve, execClearMaterialClass, execClearValveClass, execClearSensor, execClearZone, execClearStation,
    execReadEntry, execSetMode, execZoneMode, execSuspendAll, execResumeAll, execClearLatch, execSetMaps,
    execSetNoticeAddress, execSetStationMode, execSetTracePolicy, execDeclare, execConfirm, execCancel,
    execRestore, execResume, execWiden, execCrewReport, execValveState, execReadTrace, execReadStatus,
    execReadIncident, execClearCounters, execRestart, execBadOrder, Host.Outcome.next.injEq] at h <;> subst h <;>
    rw [State.onPart_part]
  case powerOn => exact fun v x hx => by simp [Part.powerOn, Part.valve?] at hx
  case frameReceived => exact (keeps_run _ _ (keeps_receive _ _ _)).hold c k
  case frameTransmitEnd => exact (keeps_run _ _ (keeps_transmitEnd _ _)).hold c k
  case agingExpiry => exact (keeps_run _ _ (keeps_agingExpiry _)).hold c k
  case freshnessExpiry => exact (keeps_run _ _ (keeps_freshnessExpiry _ _)).hold c k
  case travelTimerExpiry => exact (keeps_run _ _ (keeps_travelExpiry _ _)).hold c k
  case queryTimerExpiry => exact (keeps_run _ _ (keeps_queryExpiry _ _)).hold c k
  case pollExpiry => exact (keeps_run _ _ (keeps_pollExpiry _ _)).hold c k
  case dwellEnd => exact (keeps_run _ _ (keeps_dwellExpiry _ _)).hold c k
  case verifyWindowExpiry => exact (keeps_run _ _ (keeps_verifyExpiry _ _)).hold c k
  case timeWrap => exact (keeps_run _ _ (keeps_wrapTime _)).hold c k
  case areaSearchExamine => exact (keeps_run _ _ (keeps_areaExamine _)).hold c k
  case supplyWalkReach => exact (keeps_run _ _ (keeps_walkReach _)).hold c k
  case planComplete => exact (keeps_run _ _ (keeps_completePlan _)).hold c k
  case loadSegment => exact (firm_takeOrder _ _ _ _ _ fun q => firm_loadSegment q _ _ _ _ _ _).hold c k
  case loadValve m v a b kd no st ch pe ma vc op ve di =>
    refine hold_takeOrder s.part _ m (Part.loadValve v a b kd no st ch pe ma vc op ve di) false c
      (fun q => (stable_loadValve q _ _ _ _ _ _ _ _ _ _ _ _ _).toSound) (fun c1 k1 => ?_) k
    refine (firm_loadValve _ v a b kd no st ch pe ma vc op ve di fun hn => ?_).hold c1 k1
    have hv : ∀ i, (s.part.dropHanded i).valve? v.toNat = s.part.valve? v.toNat := fun i => by
      unfold Part.dropHanded; split <;> rfl
    have hh : ∀ i, (s.part.dropHanded i).holders v.toNat = s.part.holders v.toNat := fun i => by
      unfold Part.dropHanded; split <;> rfl
    rw [hv] at hn
    rw [hh]
    exact hl _ _ _ _ _ _ _ _ _ _ _ _ _ _ rfl hn
  case loadMaterialClass => exact (firm_takeOrder _ _ _ _ _ fun q => firm_loadMaterial q _ _ _).hold c k
  case loadValveClass => exact (firm_takeOrder _ _ _ _ _ fun q => firm_loadVClass q _ _ _ _ _ _ _ _).hold c k
  case loadSensor => exact (firm_takeOrder _ _ _ _ _ fun q => firm_loadSensor q _ _ _ _ _ _ _ _ _ _).hold c k
  case loadZone => exact (firm_takeOrder _ _ _ _ _ fun q => firm_loadZone q _ _ _ _ _ _ _ _).hold c k
  case loadStation => exact (firm_takeOrder _ _ _ _ _ fun q => firm_loadStation q _ _ _ _).hold c k
  case clearSegment => exact (firm_takeOrder _ _ _ _ _ fun q => firm_clearSegment q _).hold c k
  case clearValve => exact (firm_takeOrder _ _ _ _ _ fun q => firm_clearValve q _).hold c k
  case clearMaterialClass => exact (firm_takeOrder _ _ _ _ _ fun q => firm_clearMaterial q _).hold c k
  case clearValveClass => exact (firm_takeOrder _ _ _ _ _ fun q => firm_clearVClass q _).hold c k
  case clearSensor => exact (firm_takeOrder _ _ _ _ _ fun q => firm_clearSensor q _).hold c k
  case clearZone => exact (firm_takeOrder _ _ _ _ _ fun q => firm_clearZone q _).hold c k
  case clearStation => exact (firm_takeOrder _ _ _ _ _ fun q => firm_clearStation q _).hold c k
  case readEntry => exact (keeps_takeOrder _ _ _ _ _ fun q => keeps_readEntry q _ _).hold c k
  case setMode m w =>
    exact hold_takeOrder s.part _ m (Part.setMode w) false c (fun q => sound_setMode q w) (fun c k => setMode_hold _ w c k) k
  case zoneMode => exact (firm_takeOrder _ _ _ _ _ fun q => firm_zoneMode q _ _).hold c k
  case suspendAll m => exact (keeps_takeOrder s.part (.suspendAll m) m Part.suspendAll false keeps_suspendAll).hold c k
  case resumeAll m =>
    exact (keeps_takeOrder s.part (.resumeAll m) m Part.resumeAll false keeps_resumeAll).hold c k
  case clearLatch => exact (keeps_takeOrder _ _ _ _ _ fun q => keeps_clearLatch q _).hold c k
  case setMaps => exact (firm_takeOrder _ _ _ _ _ fun q => firm_setMaps q _ _ _).hold c k
  case setNoticeAddress => exact (firm_takeOrder _ _ _ _ _ fun q => firm_setNoticeAddress q _).hold c k
  case setStationMode => exact (firm_takeOrder _ _ _ _ _ fun q => firm_setStationMode q _ _).hold c k
  case setTracePolicy => exact (firm_takeOrder _ _ _ _ _ fun q => firm_setTracePolicy q _).hold c k
  case declare => exact (keeps_takeOrder _ _ _ _ _ fun q => keeps_declare q _ _).hold c k
  case confirm => exact (keeps_takeOrder _ _ _ _ _ fun q => keeps_confirm q _).hold c k
  case cancel => exact (keeps_takeOrder _ _ _ _ _ fun q => keeps_cancel q _).hold c k
  case restore => exact (keeps_takeOrder _ _ _ _ _ fun q => keeps_restore q _).hold c k
  case resume => exact (keeps_takeOrder _ _ _ _ _ fun q => keeps_resume q _).hold c k
  case widen => exact (keeps_takeOrder _ _ _ _ _ fun q => keeps_widenOrder q _ _ _).hold c k
  case crewReport => exact (keeps_takeOrder _ _ _ _ _ fun q => keeps_crewReport q _ _).hold c k
  case valveState => exact (keeps_takeOrder _ _ _ _ _ fun q => keeps_valveState q _ _).hold c k
  case readTrace => exact (keeps_takeOrder _ _ _ _ _ fun q => keeps_readTrace q _).hold c k
  case readStatus m => exact (keeps_takeOrder s.part (.readStatus m) m Part.readStatus false keeps_readStatus).hold c k
  case readIncident => exact (keeps_takeOrder _ _ _ _ _ fun q => keeps_readIncident q _).hold c k
  case clearCounters m => exact (keeps_takeOrder s.part (.clearCounters m) m Part.clearCounters false keeps_clearCounters).hold c k
  case restart m =>
    exact (keeps_takeOrder s.part (.restart m) m (fun p => (p, .bare .ok)) true fun q => .refl q).hold c k
  case badOrder m =>
    exact (keeps_takeOrder s.part (.badOrder m) m (refuse .badOrder) false fun q => .refl q).hold c k

/-- An order whose body leaves the configuration. -/
theorem takeOrder_configured (p : Part) (i : Instr) (m : Mgmt) (body : Part → Part × Answer) (b : Bool)
    (h : ∀ q, q.canonical → (body q).1.configuredAs q) (k : ∀ q, Sound q (body q).1) (c : p.canonical) :
    (p.takeOrder i m body b).configuredAs p := by
  have c1 := (keeps_dropHanded p i).canonical c
  have r : Keeps (body (p.dropHanded i)).1 (p.takeOrder i m body b) :=
    (((keeps_settled _).trans (keeps_reply _ _ _ _)).trans (keeps_concluded _))
  exact (((keeps_dropHanded p i).config c).trans (h _ c1)).trans (r.config ((k _).canonical c1))

/-- A command that configures nothing leaves the configuration. -/
theorem exec_configured (i : Instr) (s t : State) (h : exec i s = .next t) (g : i.configures = false)
    (c : s.part.canonical) : t.part.configuredAs s.part := by
  cases i <;> simp only [exec, execPowerOn, execFrameReceived, execFrameTransmitEnd, execAgingExpiry, execFreshnessExpiry,
    execTravelTimerExpiry, execQueryTimerExpiry, execPollExpiry, execDwellEnd, execVerifyWindowExpiry,
    execTimeWrap, execAreaSearchExamine, execSupplyWalkReach, execPlanComplete, execLoadSegment, execLoadValve,
    execLoadMaterialClass, execLoadValveClass, execLoadSensor, execLoadZone, execLoadStation, execClearSegment,
    execClearValve, execClearMaterialClass, execClearValveClass, execClearSensor, execClearZone, execClearStation,
    execReadEntry, execSetMode, execZoneMode, execSuspendAll, execResumeAll, execClearLatch, execSetMaps,
    execSetNoticeAddress, execSetStationMode, execSetTracePolicy, execDeclare, execConfirm, execCancel,
    execRestore, execResume, execWiden, execCrewReport, execValveState, execReadTrace, execReadStatus,
    execReadIncident, execClearCounters, execRestart, execBadOrder, Host.Outcome.next.injEq] at h <;> subst h <;>
    rw [State.onPart_part]
  case powerOn => cases g
  case frameReceived => exact (keeps_run _ _ (keeps_receive _ _ _)).config c
  case frameTransmitEnd => exact (keeps_run _ _ (keeps_transmitEnd _ _)).config c
  case agingExpiry => exact (keeps_run _ _ (keeps_agingExpiry _)).config c
  case freshnessExpiry => exact (keeps_run _ _ (keeps_freshnessExpiry _ _)).config c
  case travelTimerExpiry => exact (keeps_run _ _ (keeps_travelExpiry _ _)).config c
  case queryTimerExpiry => exact (keeps_run _ _ (keeps_queryExpiry _ _)).config c
  case pollExpiry => exact (keeps_run _ _ (keeps_pollExpiry _ _)).config c
  case dwellEnd => exact (keeps_run _ _ (keeps_dwellExpiry _ _)).config c
  case verifyWindowExpiry => exact (keeps_run _ _ (keeps_verifyExpiry _ _)).config c
  case timeWrap => exact (keeps_run _ _ (keeps_wrapTime _)).config c
  case areaSearchExamine => exact (keeps_run _ _ (keeps_areaExamine _)).config c
  case supplyWalkReach => exact (keeps_run _ _ (keeps_walkReach _)).config c
  case planComplete => exact (keeps_run _ _ (keeps_completePlan _)).config c
  case loadSegment => cases g
  case loadValve => cases g
  case loadMaterialClass => cases g
  case loadValveClass => cases g
  case loadSensor => cases g
  case loadZone => cases g
  case loadStation => cases g
  case clearSegment => cases g
  case clearValve => cases g
  case clearMaterialClass => cases g
  case clearValveClass => cases g
  case clearSensor => cases g
  case clearZone => cases g
  case clearStation => cases g
  case readEntry => exact (keeps_takeOrder _ _ _ _ _ fun q => keeps_readEntry q _ _).config c
  case setMode m x => exact takeOrder_configured s.part _ m (Part.setMode x) false (fun q => setMode_configured q x) (fun q => sound_setMode q x) c
  case zoneMode => cases g
  case suspendAll m => exact (keeps_takeOrder s.part (.suspendAll m) m Part.suspendAll false keeps_suspendAll).config c
  case resumeAll m =>
    exact (keeps_takeOrder s.part (.resumeAll m) m Part.resumeAll false keeps_resumeAll).config c
  case clearLatch => exact (keeps_takeOrder _ _ _ _ _ fun q => keeps_clearLatch q _).config c
  case setMaps => cases g
  case setNoticeAddress => cases g
  case setStationMode => cases g
  case setTracePolicy => cases g
  case declare => exact (keeps_takeOrder _ _ _ _ _ fun q => keeps_declare q _ _).config c
  case confirm => exact (keeps_takeOrder _ _ _ _ _ fun q => keeps_confirm q _).config c
  case cancel => exact (keeps_takeOrder _ _ _ _ _ fun q => keeps_cancel q _).config c
  case restore => exact (keeps_takeOrder _ _ _ _ _ fun q => keeps_restore q _).config c
  case resume => exact (keeps_takeOrder _ _ _ _ _ fun q => keeps_resume q _).config c
  case widen => exact (keeps_takeOrder _ _ _ _ _ fun q => keeps_widenOrder q _ _ _).config c
  case crewReport => exact (keeps_takeOrder _ _ _ _ _ fun q => keeps_crewReport q _ _).config c
  case valveState => exact (keeps_takeOrder _ _ _ _ _ fun q => keeps_valveState q _ _).config c
  case readTrace => exact (keeps_takeOrder _ _ _ _ _ fun q => keeps_readTrace q _).config c
  case readStatus m => exact (keeps_takeOrder s.part (.readStatus m) m Part.readStatus false keeps_readStatus).config c
  case readIncident => exact (keeps_takeOrder _ _ _ _ _ fun q => keeps_readIncident q _).config c
  case clearCounters m => exact (keeps_takeOrder s.part (.clearCounters m) m Part.clearCounters false keeps_clearCounters).config c
  case restart m =>
    exact (keeps_takeOrder s.part (.restart m) m (fun p => (p, .bare .ok)) true fun q => .refl q).config c
  case badOrder m =>
    exact (keeps_takeOrder s.part (.badOrder m) m (refuse .badOrder) false fun q => .refl q).config c

end Sys2Proof.Machine
end

