-- ==== Sys2Proof/Laws/Answers.lean ====
section
/-! SUPPORT. What a reply or notice adds to the frames on their way up, and what taking an order or an event comes to when
nothing else stands ready. -/

namespace Sys2Proof.Machine

/-! ## The frames on their way up -/

theorem Part.line_setNotices (p : Part) (n : List PendEntry) (l : Line) : (p.setNotices n).line l = p.line l := rfl

theorem PerLine.set_set {α : Type} (q : PerLine α) (l : Line) (a b : α) : (q.set l a).set l b = q.set l b := by
  cases l <;> rfl

/-- A change of the control line's queues and transmitter does not show. -/
theorem Part.silenced_setControl (p : Part) (q : PerClass (List OutFrame)) (s : Option OutFrame) :
    (p.setLine .control { p.line .control with queues := q, sending := s }).silenced = p.silenced := rfl

theorem Part.silenced_setNotices (p : Part) (n : List PendEntry) : (p.setNotices n).silenced = p.silenced := rfl

/-- A frame joins the end of a class's frames. -/
theorem queues_append_perm (q : PerClass (List OutFrame)) (s : List OutFrame) (c : Cls) (f : OutFrame) :
    let r := q.set c (q.get c ++ [f])
    (s ++ r.c3 ++ r.c2 ++ r.c1 ++ r.c0).Perm ((s ++ q.c3 ++ q.c2 ++ q.c1 ++ q.c0) ++ [f]) := by
  have m (a b c : List OutFrame) (f : OutFrame) : (a ++ [f] ++ b ++ c).Perm (a ++ b ++ c ++ [f]) := by
    simp only [List.append_assoc]
    refine List.Perm.append_left _ ?_
    rw [← List.append_assoc b]
    exact List.perm_append_comm
  cases c <;> simp only [PerClass.set, PerClass.get]
  · simp
  · simpa using m (s ++ q.c3 ++ q.c2 ++ q.c1) q.c0 [] f
  · simpa using m (s ++ q.c3 ++ q.c2) q.c1 q.c0 f
  · simpa using m (s ++ q.c3) (q.c2 ++ q.c1) q.c0 f

theorem Part.frames_append (p : Part) (c : Cls) (f : OutFrame) :
    ((p.append .control c f).line .control).frames.Perm ((p.line .control).frames ++ [f]) :=
  queues_append_perm (p.line .control).queues (p.line .control).sending.toList c f

theorem Part.outbox_append (p : Part) (c : Cls) (f : OutFrame) :
    (p.append .control c f).outbox.Perm (p.outbox ++ [f]) := by
  unfold Part.outbox
  refine ((Part.frames_append p c f).append_right _).trans ?_
  simp only [List.append_assoc, Part.append_mgmt]
  exact List.Perm.append_left _ List.perm_append_comm

/-- The later parts of a reply are queued or left, none lost. -/
theorem Part.frames_queueParts (o : List PendEntry) (r : Bool) (fs : List Frame) (p : Part) :
    (((p.queueParts o r fs).1.line .control).frames ++ (p.queueParts o r fs).2.map fun f => (⟨f, r⟩ : OutFrame)).Perm
      ((p.line .control).frames ++ fs.map fun f => (⟨f, r⟩ : OutFrame)) := by
  induction fs generalizing p with
  | nil => exact .refl _
  | cons f fs ih =>
    simp only [Part.queueParts]
    split
    · refine (ih _).trans (((Part.frames_append p _ _).append_right _).trans ?_)
      simp
    · exact .refl _

theorem Part.outbox_offerPlace (p : Part) (c : Cls) : (p.offerPlace .control c).outbox.Perm p.outbox := by
  unfold Part.offerPlace
  rw [if_pos rfl]
  split
  · exact .refl _
  · rename_i a e b h
    split
    · exact .refl _
    · rename_i f fs he
      obtain ⟨hl, -, -⟩ := findNotice_some h
      have k := (Part.frames_queueParts (a ++ b) e.restart fs (p.append .control c ⟨f, e.restart⟩)).trans
        ((Part.frames_append p c ⟨f, e.restart⟩).append_right _)
      dsimp only
      generalize (p.append .control c ⟨f, e.restart⟩).queueParts (a ++ b) e.restart fs = q at k ⊢
      unfold Part.outbox
      rw [Part.line_setNotices, Part.setNotices_mgmt_notices, hl]
      have e1 : e.outFrames = ⟨f, e.restart⟩ :: fs.map fun f => ⟨f, e.restart⟩ := by simp [PendEntry.outFrames, he]
      have e2 : (a ++ if q.2.isEmpty then b else { e with frames := q.2 } :: b).flatMap PendEntry.outFrames =
          a.flatMap PendEntry.outFrames ++ ((q.2.map fun f => ⟨f, e.restart⟩) ++ b.flatMap PendEntry.outFrames) := by
        split
        · rename_i hq
          rw [List.isEmpty_iff.1 hq]; simp
        · simp [PendEntry.outFrames]
      rw [e2, List.flatMap_append, List.flatMap_cons, e1]
      have m (x a y b : List OutFrame) : (x ++ (a ++ (y ++ b))).Perm (x ++ y ++ (a ++ b)) := by
        rw [List.append_assoc]
        refine List.Perm.append_left _ ?_
        rw [← List.append_assoc, ← List.append_assoc]
        exact List.perm_append_comm.append_right _
      refine (m _ _ _ _).trans ((k.append_right _).trans ?_)
      refine List.Perm.trans ?_ (m _ _ _ _).symm
      simp

theorem headOf_perm {q : PerClass (List OutFrame)} {c : Cls} {f : OutFrame} {r : List OutFrame}
    (h : headOf q = some (c, f, r)) :
    ([f] ++ (q.set c r).c3 ++ (q.set c r).c2 ++ (q.set c r).c1 ++ (q.set c r).c0) = q.c3 ++ q.c2 ++ q.c1 ++ q.c0 := by
  unfold headOf at h
  split at h <;> simp only [Option.some.injEq, Prod.mk.injEq, reduceCtorEq] at h <;>
    obtain ⟨rfl, rfl, rfl⟩ := h <;> simp [PerClass.set, *]

theorem Part.outbox_pump (p : Part) : (p.pump .control).outbox.Perm p.outbox := by
  unfold Part.pump
  dsimp only
  split
  · exact .refl _
  · rename_i hs
    split
    · exact .refl _
    · rename_i c f r h
      refine (Part.outbox_offerPlace _ _).trans ?_
      have e := headOf_perm h
      unfold Part.outbox
      refine List.Perm.append_right _ (List.Perm.of_eq ?_)
      rw [Part.setLine_line, if_pos rfl]
      unfold LineState.frames
      rw [hs]
      simpa using e

theorem Part.outbox_enqueue (p : Part) (c : Cls) (f : OutFrame) :
    (p.enqueue .control c f).outbox.Perm (p.outbox ++ [f]) :=
  (Part.outbox_pump _).trans (Part.outbox_append _ _ _)

/-! ## What does not show -/

theorem Part.silenced_append (p : Part) (c : Cls) (f : OutFrame) : (p.append .control c f).silenced = p.silenced := rfl

theorem Part.silenced_queueParts (o : List PendEntry) (r : Bool) (fs : List Frame) (p : Part) :
    (p.queueParts o r fs).1.silenced = p.silenced := by
  induction fs generalizing p with
  | nil => rfl
  | cons f fs ih => simp only [Part.queueParts]; split <;> simp [ih, Part.silenced_append]

theorem Part.silenced_offerPlace (p : Part) (c : Cls) : (p.offerPlace .control c).silenced = p.silenced := by
  unfold Part.offerPlace
  rw [if_pos rfl]
  split
  · rfl
  · split
    · rfl
    · exact (Part.silenced_setNotices _ _).trans ((Part.silenced_queueParts _ _ _ _).trans (Part.silenced_append _ _ _))

theorem Part.silenced_pump (p : Part) : (p.pump .control).silenced = p.silenced := by
  unfold Part.pump
  dsimp only
  split
  · rfl
  · split
    · rfl
    · exact (Part.silenced_offerPlace _ _).trans (Part.silenced_setControl _ _ _)

theorem Part.silenced_enqueue (p : Part) (c : Cls) (f : OutFrame) : (p.enqueue .control c f).silenced = p.silenced :=
  (Part.silenced_pump _).trans (Part.silenced_append _ _ _)

theorem Part.notices_offerPlace (p : Part) (c : Cls) :
    (p.offerPlace .control c).mgmt.notices.length ≤ p.mgmt.notices.length := by
  unfold Part.offerPlace
  rw [if_pos rfl]
  split
  · exact le_rfl
  · split
    · exact le_rfl
    · rename_i h _ _ _ _
      rw [Part.setNotices_mgmt_notices, (findNotice_some h).1]
      exact offered_length

theorem Part.notices_enqueue (p : Part) (c : Cls) (f : OutFrame) :
    (p.enqueue .control c f).mgmt.notices.length ≤ p.mgmt.notices.length := by
  unfold Part.enqueue Part.pump
  dsimp only
  split
  · exact le_rfl
  · split
    · exact le_rfl
    · exact Part.notices_offerPlace _ _

/-- What `silenced` holds is what does not differ. -/
theorem silenced_restartDue {p q : Part} (h : q.silenced = p.silenced) : q.mgmt.restartDue = p.mgmt.restartDue := by
  have := congrArg (fun x => x.mgmt.restartDue) h
  exact this

/-- Frames posted where the pending list has a place for an entry. -/
theorem Part.posted_postFrames (code : Nat) (b : Bool) (l : List Frame) (p : Part)
    (h : p.mgmt.notices.length < Config.pendingDepth) : p.posted (l.map fun f => ⟨f, b⟩) (p.postFrames code b l) := by
  induction l generalizing p with
  | nil => exact ⟨rfl, by simp [Part.postFrames]⟩
  | cons f l ih =>
    unfold Part.postFrames
    dsimp only
    split
    · obtain ⟨h1, h2⟩ := ih (p.enqueue .control (p.classOf f) ⟨f, b⟩)
        (lt_of_le_of_lt (Part.notices_enqueue _ _ _) h)
      refine ⟨h1.trans (Part.silenced_enqueue _ _ _), h2.trans ?_⟩
      refine ((Part.outbox_enqueue _ _ _).append_right _).trans ?_
      simp
    · unfold Part.joinPending
      rw [if_pos h]
      refine ⟨rfl, List.Perm.of_eq ?_⟩
      simp [Part.outbox, Part.line_setNotices, PendEntry.outFrames]

/-- A reply posted where the pending list has a place. -/
theorem Part.posted_reply (p : Part) (m : Mgmt) (a : Answer) (b : Bool)
    (h : p.mgmt.notices.length < Config.pendingDepth) : p.posted (p.replyFrames m a b) (p.reply m a b) :=
  Part.posted_postFrames _ _ _ _ h

/-- A notice posted where the pending list has a place. -/
theorem Part.posted_notice (p : Part) (c : NoticeCode) (l : List Item)
    (h : p.mgmt.notices.length < Config.pendingDepth) : p.posted (p.noticeFrames c l) (p.notice c l) :=
  Part.posted_postFrames _ _ _ _ h

/-! ## Taking a command where nothing else stands ready -/

theorem Part.settle_rest (n : Nat) (p : Part) (h : p.atRest) : p.settle n = p := by
  cases n with
  | zero => rfl
  | succ n => simp [Part.settle, h.1, h.2]

theorem Part.settled_rest (p : Part) (h : p.atRest) : p.settled = p := Part.settle_rest _ _ h

theorem Part.run_rest (f : Part → Part) (p : Part) (h : (f p).atRest) (hr : (f p).mgmt.restartDue = false) :
    p.run f = f p := by
  unfold Part.run Part.concluded
  rw [Part.settled_rest _ h, hr]; rfl

/-- A management order whose effects leave nothing ready, and a place for its reply. -/
theorem Part.takeOrder_rest (p : Part) (i : Instr) (m : Mgmt) (body : Part → Part × Answer) (b : Bool) (e : Part) (a : Answer)
    (he : body (p.dropHanded i) = (e, a)) (h : e.atRest) (hr : e.room 1) :
    p.takeOrder i m body b = e.reply m a b ∧ e.posted (e.replyFrames m a b) (p.takeOrder i m body b) := by
  have hn : e.mgmt.notices.length < Config.pendingDepth := by have := hr.1; omega
  have k := Part.posted_reply e m a b hn
  have e1 : p.takeOrder i m body b = e.reply m a b := by
    unfold Part.takeOrder Part.concluded
    dsimp only
    rw [he, Part.settled_rest _ h, silenced_restartDue k.1, hr.2]; rfl
  rw [e1]
  exact ⟨rfl, k⟩

/-- The same, of the state. -/
theorem State.replied_rest (s : State) (i : Instr) (m : Mgmt) (body : Part → Part × Answer) (b : Bool) (e : Part) (a : Answer)
    (he : body (s.part.dropHanded i) = (e, a)) (h : e.atRest) (hr : e.room 1) :
    s.replied e m a b (s.onPart (Part.takeOrder i m body b)) :=
  ⟨rfl, (Part.takeOrder_rest s.part i m body b e a he h hr).2⟩

/-- An order whose meaning is `takeOrder` of a body, where the body makes `e` and answers `a`. -/
theorem State.takes_rest {s : State} {i : Instr} {m : Mgmt} {body : Part → Part × Answer} {e : Part} {a : Answer}
    (hx : exec i s = .next (s.onPart (Part.takeOrder i m body false))) (he : body (s.part.dropHanded i) = (e, a))
    (h : e.quiet) : s.takes i m e a :=
  ⟨_, hx, State.replied_rest s i m body false e a he h.1 h.2⟩

/-- An event whose meaning is `run` of an effect. -/
theorem State.run_rest {s : State} {i : Instr} {f : Part → Part} {e : Part}
    (hx : exec i s = .next (s.onPart (Part.run f))) (he : f s.part = e) (h : e.still) :
    exec i s = .next { s with part := e } := by
  subst he
  rw [hx, State.onPart, Part.run_rest f s.part h.1 h.2]

end Sys2Proof.Machine
end

