-- ==== Sys2Proof/Laws/PerInstr.lean ====
section
/-! SUPPORT. One lemma for each command: the management frame of a well-formed order is read back as that order, and a
command that no frame carries has none. -/

namespace Sys2Proof

/-! ## Words, bytes and items -/

theorem wordOf_hi_lo (w : Word) : wordOf (Word.hi w) (Word.lo w) = w := by
  unfold wordOf Word.hi Word.lo
  ext i hi
  rw [BitVec.getElem_append]
  split
  · simp [BitVec.getElem_extractLsb', BitVec.getLsbD_eq_getElem, *]
  · rw [BitVec.getElem_extractLsb', BitVec.getLsbD_eq_getElem (by omega)]
    congr 1; omega

@[simp] theorem hi_wordOf (a b : Byte) : Word.hi (wordOf a b) = a := by
  unfold wordOf Word.hi
  exact BitVec.extractLsb'_append_eq_left

@[simp] theorem lo_wordOf (a b : Byte) : Word.lo (wordOf a b) = b := by
  unfold wordOf Word.lo
  exact BitVec.extractLsb'_append_eq_right

@[simp] theorem Item.ofWords_wordA (a b : Word) : (Item.ofWords a b).wordA = a := wordOf_hi_lo a
@[simp] theorem Item.ofWords_wordB (a b : Word) : (Item.ofWords a b).wordB = b := wordOf_hi_lo b
@[simp] theorem Item.ofWords_b0 (a b : Word) : (Item.ofWords a b).b0 = Word.hi a := rfl
@[simp] theorem Item.ofWords_b1 (a b : Word) : (Item.ofWords a b).b1 = Word.lo a := rfl
@[simp] theorem Item.ofWords_b2 (a b : Word) : (Item.ofWords a b).b2 = Word.hi b := rfl
@[simp] theorem Item.ofWords_b3 (a b : Word) : (Item.ofWords a b).b3 = Word.lo b := rfl
@[simp] theorem oneWord_wordA (a : Word) : (oneWord a).wordA = a := wordOf_hi_lo a
@[simp] theorem oneWord_b0 (a : Word) : (oneWord a).b0 = Word.hi a := rfl

/-- Words laid out two per item are read back, an even number of them. -/
theorem wordsOf_wordItems : ∀ l : List Word, l.length % 2 = 0 → wordsOf (wordItems l) = l
  | [], _ => rfl
  | [_], h => by simp at h
  | a :: b :: l, h => by
    have ih := wordsOf_wordItems l (by simp only [List.length_cons] at h; omega)
    simp only [wordItems, wordsOf, List.flatMap_cons, Item.ofWords_wordA, Item.ofWords_wordB] at ih ⊢
    simp [ih]

theorem wordItems_length : ∀ l : List Word, (wordItems l).length = (l.length + 1) / 2
  | [] => rfl
  | [_] => by simp [wordItems]
  | a :: b :: l => by simp only [wordItems, List.length_cons, wordItems_length l]; omega

/-- Items that are as many as their count says are read by their order code. -/
theorem orderOf_frameItems (m : Mgmt) (code : Word) (args : List Item) (h : args.length < 65536) :
    orderOf m (orderFrameItems code args) = (orderOfArgs m code.toNat args).getD (.badOrder m) := by
  have : (BitVec.ofNat 16 args.length).toNat = args.length := by simp; omega
  simp [orderFrameItems, orderOf, this]

end Sys2Proof

namespace Sys2Proof.Laws.Coded

/-- The management frame of a well-formed order is read back as that order (10.5, R172); a command that no frame carries
has none. -/
def Statement (i : Instr) : Prop :=
  match i.order with
  | some (m, items) => i.wellFormed = true → orderOf m items = i
  | none => True

theorem powerOn (strap : BitVec 4) : Statement (.powerOn strap) := trivial

theorem frameReceived (line : Line) (bytes : List Byte) : Statement (.frameReceived line bytes) := trivial

theorem frameTransmitEnd (line : Line) : Statement (.frameTransmitEnd line) := trivial

theorem agingExpiry : Statement (.agingExpiry) := trivial

theorem freshnessExpiry (sensor : Nat) : Statement (.freshnessExpiry sensor) := trivial

theorem travelTimerExpiry (valve : Nat) : Statement (.travelTimerExpiry valve) := trivial

theorem queryTimerExpiry (valve : Nat) : Statement (.queryTimerExpiry valve) := trivial

theorem pollExpiry (valve : Nat) : Statement (.pollExpiry valve) := trivial

theorem dwellEnd (valve : Nat) : Statement (.dwellEnd valve) := trivial

theorem verifyWindowExpiry (record : Nat) : Statement (.verifyWindowExpiry record) := trivial

theorem timeWrap : Statement (.timeWrap) := trivial

theorem areaSearchExamine : Statement (.areaSearchExamine) := trivial

theorem supplyWalkReach : Statement (.supplyWalkReach) := trivial

theorem planComplete : Statement (.planComplete) := trivial

theorem loadSegment (m : Mgmt) (segment zone : Word) (source prot : Byte) (static ref : Word) : Statement
    (.loadSegment m segment zone source prot static ref) := fun _ => by
  simp [orderOf_frameItems, orderOfArgs, orderOfMany]

theorem loadValve (m : Mgmt) (valve segA segB : Word) (kind normal : Byte) (station : Word) (channel overridePermitted
    material vclass operability : Byte) (velocity diameter : Word) : Statement (.loadValve m valve segA segB kind
    normal station channel overridePermitted material vclass operability velocity diameter) := fun _ => by
  simp [orderOf_frameItems, orderOfArgs, orderOfMany]

theorem loadMaterialClass (m : Mgmt) (cls speed rating : Word) : Statement (.loadMaterialClass m cls speed rating) :=
    fun _ => by
  simp [orderOf_frameItems, orderOfArgs, orderOfMany]

theorem loadValveClass (m : Mgmt) (cls profileCount : Word) (curve : List Word) (profile : List Byte) (t10 allowance
    dwell poll : Word) : Statement (.loadValveClass m cls profileCount curve profile t10 allowance dwell poll) := fun
    h => by
  obtain ⟨h1, h2⟩ : curve.length = 11 ∧ profile.length = 8 := by simpa [Instr.wellFormed] using h
  match curve, h1, profile, h2 with
  | [c0, c1, c2, c3, c4, c5, c6, c7, c8, c9, c10], _, [b0, b1, b2, b3, b4, b5, b6, b7], _ =>
    simp [orderOf_frameItems, orderOfArgs, orderOfMany, wordItems, byteItems, wordsOf, Item.bytes, oneWord]

theorem loadSensor (m : Mgmt) (sensor station : Word) (channel kind : Byte) (place bandLow bandHigh : Word) (persist :
    Byte) (drop window : Word) : Statement (.loadSensor m sensor station channel kind place bandLow bandHigh persist
    drop window) := fun _ => by
  simp [orderOf_frameItems, orderOfArgs, orderOfMany]

theorem loadZone (m : Mgmt) (zone : Word) (threshold slots : Byte) (margin : Word) (saturation urgency : Byte) (window
    drained : Word) : Statement (.loadZone m zone threshold slots margin saturation urgency window drained) := fun _
    => by
  simp [orderOf_frameItems, orderOfArgs, orderOfMany]

theorem loadStation (m : Mgmt) (address : Word) (secure blocked : Byte) (line : Word) : Statement (.loadStation m
    address secure blocked line) := fun _ => by
  simp [orderOf_frameItems, orderOfArgs, orderOfMany]

theorem clearSegment (m : Mgmt) (segment : Word) : Statement (.clearSegment m segment) := fun _ => by
  simp [orderOf_frameItems, orderOfArgs, orderOfOne]

theorem clearValve (m : Mgmt) (valve : Word) : Statement (.clearValve m valve) := fun _ => by
  simp [orderOf_frameItems, orderOfArgs, orderOfOne]

theorem clearMaterialClass (m : Mgmt) (cls : Word) : Statement (.clearMaterialClass m cls) := fun _ => by
  simp [orderOf_frameItems, orderOfArgs, orderOfOne]

theorem clearValveClass (m : Mgmt) (cls : Word) : Statement (.clearValveClass m cls) := fun _ => by
  simp [orderOf_frameItems, orderOfArgs, orderOfOne]

theorem clearSensor (m : Mgmt) (sensor : Word) : Statement (.clearSensor m sensor) := fun _ => by
  simp [orderOf_frameItems, orderOfArgs, orderOfOne]

theorem clearZone (m : Mgmt) (zone : Word) : Statement (.clearZone m zone) := fun _ => by
  simp [orderOf_frameItems, orderOfArgs, orderOfOne]

theorem clearStation (m : Mgmt) (address : Word) : Statement (.clearStation m address) := fun _ => by
  simp [orderOf_frameItems, orderOfArgs, orderOfOne]

theorem readEntry (m : Mgmt) (table id : Word) : Statement (.readEntry m table id) := fun _ => by
  simp [orderOf_frameItems, orderOfArgs, orderOfOne]

theorem setMode (m : Mgmt) (mode : Word) : Statement (.setMode m mode) := fun _ => by
  simp [orderOf_frameItems, orderOfArgs, orderOfOne]

theorem zoneMode (m : Mgmt) (zone mode : Word) : Statement (.zoneMode m zone mode) := fun _ => by
  simp [orderOf_frameItems, orderOfArgs, orderOfOne]

theorem suspendAll (m : Mgmt) : Statement (.suspendAll m) := fun _ => by
  simp [orderOf_frameItems, orderOfArgs, orderOfNone]

theorem resumeAll (m : Mgmt) : Statement (.resumeAll m) := fun _ => by
  simp [orderOf_frameItems, orderOfArgs, orderOfNone]

theorem clearLatch (m : Mgmt) (zone : Word) : Statement (.clearLatch m zone) := fun _ => by
  simp [orderOf_frameItems, orderOfArgs, orderOfOne]

theorem setMaps (m : Mgmt) (classMap urgencyMap : List Byte) (noticePriority : Byte) : Statement (.setMaps m classMap
    urgencyMap noticePriority) := fun h => by
  obtain ⟨h1, h2⟩ : classMap.length = 8 ∧ urgencyMap.length = 4 := by simpa [Instr.wellFormed] using h
  match classMap, h1, urgencyMap, h2 with
  | [c0, c1, c2, c3, c4, c5, c6, c7], _, [u0, u1, u2, u3], _ =>
    simp [orderOf_frameItems, orderOfArgs, orderOfMany, byteItems, Item.bytes]

theorem setNoticeAddress (m : Mgmt) (address : Word) : Statement (.setNoticeAddress m address) := fun _ => by
  simp [orderOf_frameItems, orderOfArgs, orderOfOne]

theorem setStationMode (m : Mgmt) (mode interval : Word) : Statement (.setStationMode m mode interval) := fun _ => by
  simp [orderOf_frameItems, orderOfArgs, orderOfOne]

theorem setTracePolicy (m : Mgmt) (policy : Word) : Statement (.setTracePolicy m policy) := fun _ => by
  simp [orderOf_frameItems, orderOfArgs, orderOfOne]

theorem declare (m : Mgmt) (segment urgency : Word) : Statement (.declare m segment urgency) := fun _ => by
  simp [orderOf_frameItems, orderOfArgs, orderOfOne]

theorem confirm (m : Mgmt) (number : Word) : Statement (.confirm m number) := fun _ => by
  simp [orderOf_frameItems, orderOfArgs, orderOfOne]

theorem cancel (m : Mgmt) (number : Word) : Statement (.cancel m number) := fun _ => by
  simp [orderOf_frameItems, orderOfArgs, orderOfOne]

theorem restore (m : Mgmt) (number : Word) : Statement (.restore m number) := fun _ => by
  simp [orderOf_frameItems, orderOfArgs, orderOfOne]

theorem resume (m : Mgmt) (number : Word) : Statement (.resume m number) := fun _ => by
  simp [orderOf_frameItems, orderOfArgs, orderOfOne]

theorem widen (m : Mgmt) (number count : Word) (ids : List Word) : Statement (.widen m number count ids) := fun h =>
    by
  obtain ⟨h1, h2, h3⟩ : 2 ≤ ids.length ∧ ids.length ≤ 8 ∧ ids.length % 2 = 0 := by simpa [Instr.wellFormed] using h
  have hl := wordItems_length ids
  rw [orderOf_frameItems _ _ _ (by simp only [List.length_cons]; omega)]
  obtain ⟨a, l, e⟩ : ∃ a l, wordItems ids = a :: l := by
    cases hw : wordItems ids with
    | nil => rw [hw] at hl; simp only [List.length_nil] at hl; omega
    | cons a l => exact ⟨a, l, rfl⟩
  have hw := wordsOf_wordItems ids h3
  rw [e] at hl hw ⊢
  have : 1 ≤ (a :: l).length ∧ (a :: l).length ≤ 4 := by simp only [List.length_cons] at hl ⊢; omega
  simp only [orderOfArgs, orderOfMany, List.length_cons] at this ⊢
  simp [this, hw]

theorem crewReport (m : Mgmt) (valve result : Word) : Statement (.crewReport m valve result) := fun _ => by
  simp [orderOf_frameItems, orderOfArgs, orderOfOne]

theorem valveState (m : Mgmt) (valve operability : Word) : Statement (.valveState m valve operability) := fun _ => by
  simp [orderOf_frameItems, orderOfArgs, orderOfOne]

theorem readTrace (m : Mgmt) (wanted : Word) : Statement (.readTrace m wanted) := fun _ => by
  simp [orderOf_frameItems, orderOfArgs, orderOfOne]

theorem readStatus (m : Mgmt) : Statement (.readStatus m) := fun _ => by
  simp [orderOf_frameItems, orderOfArgs, orderOfNone]

theorem readIncident (m : Mgmt) (number : Word) : Statement (.readIncident m number) := fun _ => by
  simp [orderOf_frameItems, orderOfArgs, orderOfOne]

theorem clearCounters (m : Mgmt) : Statement (.clearCounters m) := fun _ => by
  simp [orderOf_frameItems, orderOfArgs, orderOfNone]

theorem restart (m : Mgmt) : Statement (.restart m) := fun _ => by
  simp [orderOf_frameItems, orderOfArgs, orderOfNone]

theorem badOrder (m : Mgmt) : Statement (.badOrder m) := trivial

end Sys2Proof.Laws.Coded
end

