-- ==== Sys2Proof/Tests/Slice0.lean ====
section
/-! SUPPORT. Tests: the well-formedness checks, values the manual states, one small district, and for every statement with
hypotheses the states and operands that meet them (`witness_<statement>`, clause by clause). Every expected value is taken
from a rule of the manual or worked out by hand from one. -/

set_option Elab.async false

namespace Sys2Proof.Tests
open Sys2Proof Sys2Proof.Machine

/-! ## Ill-formed terms, one for each check of `WellFormed` -/

def mg : Mgmt := { source := 9#16, tag := 5#8 }

theorem test_wf_freshness : (Instr.freshnessExpiry 512).wellFormed = false ∧ (Instr.freshnessExpiry 511).wellFormed = true := by
  decide +kernel
theorem test_wf_travel :
    (Instr.travelTimerExpiry 4096).wellFormed = false ∧ (Instr.travelTimerExpiry 4095).wellFormed = true := by decide +kernel
theorem test_wf_query : (Instr.queryTimerExpiry 4096).wellFormed = false ∧ (Instr.queryTimerExpiry 4095).wellFormed = true := by
  decide +kernel
theorem test_wf_poll : (Instr.pollExpiry 4096).wellFormed = false ∧ (Instr.pollExpiry 4095).wellFormed = true := by decide +kernel
theorem test_wf_dwell : (Instr.dwellEnd 4096).wellFormed = false ∧ (Instr.dwellEnd 4095).wellFormed = true := by decide +kernel
theorem test_wf_window :
    (Instr.verifyWindowExpiry 8).wellFormed = false ∧ (Instr.verifyWindowExpiry 7).wellFormed = true := by decide +kernel
theorem test_wf_valveClass_curve :
    (Instr.loadValveClass mg 0 2 (List.replicate 10 0) (List.replicate 8 0) 1 5 1 0).wellFormed = false := by decide +kernel
theorem test_wf_valveClass_profile :
    (Instr.loadValveClass mg 0 2 (List.replicate 11 0) (List.replicate 7 0) 1 5 1 0).wellFormed = false := by decide +kernel
theorem test_wf_maps :
    (Instr.setMaps mg (List.replicate 7 0) (List.replicate 4 0) 0).wellFormed = false ∧
    (Instr.setMaps mg (List.replicate 8 0) (List.replicate 3 0) 0).wellFormed = false := by decide +kernel
theorem test_wf_widen :
    (Instr.widen mg 1 1 [3]).wellFormed = false ∧ (Instr.widen mg 1 1 []).wellFormed = false ∧
    (Instr.widen mg 1 9 (List.replicate 10 3)).wellFormed = false ∧ (Instr.widen mg 1 1 [3, 0]).wellFormed = true := by decide +kernel

/-! ## Values the manual states -/

/-- R180: the check value of the CRC over the bytes "123456789". -/
theorem test_crc : crc16 [0x31, 0x32, 0x33, 0x34, 0x35, 0x36, 0x37, 0x38, 0x39] = 0x29B1#16 := by decide +kernel

/-- 10.5, R180: the bytes of a CONFIRM order of incident 7 from source 9 with tag 5, its CRC 4BD worked out by hand. -/
theorem test_confirm_bytes :
    (readFrame [0xFF, 0x00, 0x00, 0x09, 0x60, 0x05, 0x02, 0x00, 0x41, 0x00, 0x01, 0x00, 0x07, 0x00, 0x00, 0x04, 0xBD]).map
      (fun f => (f.1.dst, f.2, f.1.order)) = some (0xFF00#16, .manage, .confirm mg 7) := by decide +kernel

/-- R28: the worked example of sensor 40 (band 250..700, PERSIST 3), sample after sample. -/
def sensor40 : Sensor :=
  { station := 100, channel := 2, kind := .pressure, place := 1, bandLow := 250, bandHigh := 700, persist := 3, drop := 150,
    window := 60, lastValue := some 500, lastTime := some 0, status := .fresh, countdown := 3, side := .none,
    excursion := .inBand, freshDue := some 600 }
def sensor40After (l : List Nat) : Nat × CountSide × Excursion :=
  let x := l.foldl Sensor.excurse sensor40
  (x.countdown, x.side, x.excursion)
theorem test_excursion_low : sensor40After [240] = (2, .low, .inBand) ∧ sensor40After [240, 235] = (1, .low, .inBand) ∧
    sensor40After [240, 235, 238] = (3, .low, .low) ∧ sensor40After [240, 235, 238, 232] = (2, .low, .low) := by decide +kernel
theorem test_excursion_turns : sensor40After [240, 235, 238, 232, 720] = (2, .high, .low) ∧
    sensor40After [240, 235, 238, 232, 720, 230] = (2, .low, .low) ∧
    sensor40After [240, 235, 238, 232, 720, 230, 250] = (3, .none, .inBand) := by decide +kernel

/-- Chapter 5: the valve class and the valve of the worked examples. -/
def class5 : ValveClass :=
  { curve := [0, 115, 245, 365, 475, 580, 675, 765, 845, 925, 1000], profile := [100, 50, 20, 0], t10 := 8, allowance := 30,
    dwell := 5, poll := 10 }
def input5 (opening final budget : Nat) (saturation : Saturation) : SurgeInput :=
  { opening := opening, final := final, cls := class5, wave := 1100, velocity := 1200, budget := budget,
    saturation := saturation }
theorem test_surge_closing : [100, 75, 50, 35, 20, 0].map (fun o => (input5 o 0 400 .refer).calc) =
    [.step 75 25, .step 50 25, .step 35 15, .step 20 15, .step 0 20, .final] := by decide +kernel
theorem test_surge_rises : [(100, 50), (100, 75), (75, 50), (50, 35), (35, 20), (20, 0)].map
    (fun e => predictedRise 1100 1200 (class5.change e.1 e.2)) = [555, 258, 297, 212, 231, 324] := by decide +kernel
theorem test_surge_return : [0, 20, 35, 50, 75].map (fun o => (input5 o 100 400 .refer).calc) =
    [.step 20 20, .step 35 15, .step 50 15, .step 75 25, .step 100 25] := by decide +kernel
theorem test_surge_rounding : class5.up 95 = 963 ∧ class5.down 95 = 962 := by decide +kernel
theorem test_surge_limit : (input5 10 0 10 .refer).calc = .limit 16 ∧ (input5 10 0 10 .clamp).calc = .clamped 9 16 := by decide +kernel
theorem test_surge_saturation : predictedRise 1400 3000 1000 = 4095 ∧ saturated 1400 3000 1000 = true ∧
    predictedRise 1400 3000 420 = 1764 ∧ predictedRise 1400 3000 195 = 819 := by decide +kernel
theorem test_travelTimeout : travelTimeout class5 25 = 54 ∧ travelTimeout class5 15 = 46 ∧ travelTimeout class5 20 = 46 := by
  decide +kernel

/-! ## A district: segments 0 (a source), 1 and 2, valve 0 (actuated, 0 to 1), valve 1 (manual, 1 to 2), two sensors -/

def valve0 : Valve :=
  { segA := 0, segB := some 1, kind := .actuated, station := 100, channel := 1, material := 0, vclass := 0, velocity := 1200,
    diameter := 300, normal := .opened, overridePermitted := true, initial := .operable, opening := some 100,
    positionTime := some 0, operability := .operable, holdCount := 0, moveTag := none }
def valve1 : Valve :=
  { valve0 with segA := 1, segB := some 2, kind := .manual, station := 0, channel := 0, opening := none, positionTime := none }
def segment (source prot : Bool) (valves : List Nat) : Segment :=
  { zone := 0, source := source, prot := prot, static := 500, ref := none, valves := valves }
def meter1 : Sensor := { sensor40 with channel := 3, kind := .flow, place := 0, bandLow := 0, bandHigh := 1800, persist := 1, countdown := 1 }
def station0 : Station :=
  { kind := .configured, address := 100, line := some .f0, secure := false, pinLine := none, blocked := false, age := .touched,
    heard := some 0 }
/-- The district of a TRANSPARENT part. -/
def district : Part :=
  { Part.powerOn 0 with
    net :=
      { segments := [(0, segment true false [0]), (1, segment false false [0, 1]), (2, segment false true [1])]
        valves := [(0, valve0), (1, valve1)], materials := [(0, ⟨1100, 1600⟩)], vclasses := [(0, class5)]
        channels := [(3201, .valve 0), (3202, .sensor 0), (3203, .sensor 1)] }
    watch := { sensors := [(0, sensor40), (1, meter1)], zones := [] }
    stations := { entries := [(0, station0)], mode := .learn, interval := 300, agingDue := 3000 } }
/-- The same part, ACTIVE. -/
def active : Part := { district with mgmt := { district.mgmt with mode := .active } }
/-- An incident on segment 1, with valve 0 CLOSE and valve 1 NONE on its boundary and valve 0 touched. -/
def incident (state : IncState) : Incident :=
  { number := 7, origin := .detected, burst := 1, zone := 0, urgency := 1, state := state, heldReason := none, repeats := 0,
    restarts := 0, area := [1], boundary := [⟨0, .close⟩, ⟨1, .none⟩], touched := [⟨0, some 100, .boundary⟩], collateral := 0,
    prot := [], verdict := none, opened := 0, restoreBegun := false, short := false }

/-! ## Rest, decided -/

def restB (p : Part) : Bool := p.nextHalted.isNone && p.nextGrant.isNone
def quietB (p : Part) : Bool := restB p && decide (p.mgmt.notices.length + 1 ≤ 8) && !p.mgmt.restartDue
def stillB (p : Part) : Bool := restB p && !p.mgmt.restartDue

theorem restB_iff (p : Part) : restB p = true ↔ p.atRest := by
  unfold restB Part.atRest; simp
/-- `quietB` decides `Part.quiet`: a witness below says `quietB p = true` for `p.quiet`. -/
theorem quietB_iff (p : Part) : quietB p = true ↔ p.quiet := by
  unfold quietB Part.quiet Part.room; rw [Bool.and_eq_true, Bool.and_eq_true, restB_iff]
  simp [Config.pendingDepth, and_assoc]
theorem stillB_iff (p : Part) : stillB p = true ↔ p.still := by
  unfold stillB Part.still; rw [Bool.and_eq_true, restB_iff]; simp

/-- Nothing is handed over in the states below: an order finds the part as it stands. -/
theorem test_dropHanded (i : Instr) (p : Part) (h : p.mgmt.handed = []) : p.dropHanded i = p := by
  unfold Part.dropHanded; rw [h]; rfl

/-- An order's effect is quiet, and its result is the one named: for each clause below. -/
def took (a : Part × Answer) : Bool × Result := (quietB a.1, a.2.result)
/-- The same of a list of orders. -/
def tookAll (l : List (Part × Answer)) : List Result := (l.filter fun a => quietB a.1).map fun a => a.2.result

/-- The district with an incident in record 3: valve 0 is held. -/
def withIncident (st : IncState) (p : Part) : Part :=
  { p with
    net := { p.net with valves := [(0, { valve0 with holdCount := 1 }), (1, valve1)] }
    inc := { records := [(3, incident st)], next := 8 } }

/-- `Part.canonical` and `Part.bounded`, decided. -/
def canonicalB (p : Part) : Bool :=
  Table.wf p.net.segments && Table.wf p.net.valves && Table.wf p.net.materials && Table.wf p.net.vclasses &&
    Table.wf p.net.channels && Table.wf p.watch.sensors && Table.wf p.watch.zones && Table.wf p.stations.entries &&
    Table.wf p.inc.records && Table.wf p.seq.contexts && Table.wf p.ver
theorem canonical_of {p : Part} (h : canonicalB p = true) : p.canonical := by
  simp only [canonicalB, Bool.and_eq_true] at h
  obtain ⟨⟨⟨⟨⟨⟨⟨⟨⟨⟨a, b⟩, c⟩, d⟩, e⟩, f⟩, g⟩, i⟩, j⟩, k⟩, l⟩ := h
  exact ⟨a, b, c, d, e, f, g, i, j, k, l⟩

def lineB (l : LineState) : Bool :=
  [Cls.c0, .c1, .c2, .c3].all (fun c => decide ((l.queues.get c).length ≤ 16)) &&
    decide (l.received ≤ 65535 ∧ l.crcDrops ≤ 65535 ∧ l.queueDrops ≤ 65535)
theorem line_of {l : LineState} (h : lineB l = true) : l.bounded := by
  simp only [lineB, Bool.and_eq_true, List.all_cons, List.all_nil, decide_eq_true_eq] at h
  exact ⟨fun c => by cases c <;> simp_all [Config.queueDepth], h.2⟩
def boundedB (p : Part) : Bool :=
  [Line.f0, .f1, .f2, .f3, .control].all (fun l => lineB (p.line l)) &&
    decide (p.mgmt.notices.length ≤ 8 ∧ p.trace.fifo.length ≤ 256 ∧ p.counters.secureDrops ≤ 65535 ∧
      p.counters.blockedDrops ≤ 65535 ∧ p.counters.learnFailures ≤ 65535 ∧ p.counters.unknownRejects ≤ 65535 ∧
      p.counters.latchDiscards ≤ 65535 ∧ p.counters.staleEchoes ≤ 65535 ∧ p.counters.noticesLost ≤ 65535) &&
    decide ((1 ≤ p.seq.tag ∧ p.seq.tag ≤ 255) ∧ (1 ≤ p.inc.next ∧ p.inc.next ≤ 255) ∧ ∀ f ∈ p.seq.frames, f.lines.Nodup)
theorem bounded_of {p : Part} (h : boundedB p = true) : p.bounded := by
  simp only [boundedB, Bool.and_eq_true, List.all_cons, List.all_nil, decide_eq_true_eq] at h
  obtain ⟨⟨⟨a, b, c, d, e, -⟩, n, t, k⟩, g, x, f⟩ := h
  exact ⟨fun l => by cases l <;> exact line_of (by assumption), n, t, k, g, x, f⟩

theorem district_canonical : district.canonical ∧ active.canonical := ⟨canonical_of (by decide +kernel), canonical_of (by decide +kernel)⟩
theorem district_bounded : district.bounded ∧ active.bounded := ⟨bounded_of (by decide +kernel), bounded_of (by decide +kernel)⟩

/-- A first load of a valve that no incident holds (log entry 38). -/
def load4095 : Instr := .loadValve mg 4095 0 1 1 0 0 0 1 0 0 0 1200 300

/-! ## Witnesses: the machine, frames and invariants -/

theorem witness_IdleStep :
    (State.reset.pending = [] ∧ State.reset.part.mgmt.handed = [] ∧
      State.reset.part.now + 1 < State.reset.part.trace.wrapDue ∧ State.reset.part.now + 1 < State.reset.part.stations.agingDue ∧
      State.reset.part.watch.sensors = [] ∧ State.reset.part.seq.contexts = [] ∧ State.reset.part.ver = []) ∧
    (⟨{ district with mgmt := { district.mgmt with handed := [.suspendAll mg] } }, []⟩ : State).part.mgmt.handed =
      [.suspendAll mg] := by decide +kernel

def longFrame : Frame :=
  { dst := 1#16, src := 100#16, ctl := 32#8, tag := 0#8, items := List.replicate 16 ⟨16#8, 1#8, 1#8, 44#8⟩, crc := 0#16 }
theorem witness_FramesReadBack : longFrame.items.length ≤ 16 ∧ longFrame.kind = some .report := by decide +kernel
theorem witness_UnfitFrames : longFrame.items.length ≤ 16 ∧ longFrame.crc ≠ crc16 longFrame.body ∧
    ({ longFrame with ctl := 0#8 } : Frame).kind = none ∧ ({ longFrame with ctl := 160#8 } : Frame).kind = none ∧
    (readFrame longFrame.sealed.bytes).isSome = true := by decide +kernel
theorem witness_OrdersReadBack : (Instr.widen mg 7 8 [0, 1, 2, 3, 4, 5, 6, 7]).wellFormed = true ∧
    ((Instr.widen mg 7 8 [0, 1, 2, 3, 4, 5, 6, 7]).order.map fun a => a.2.length) = some 6 ∧
    (Instr.suspendAll mg).wellFormed = true ∧ (Instr.suspendAll mg).order.isSome = true := by decide +kernel

theorem district_stations : district.stationsKept := by
  constructor
  · intro n e h; have := Table.mem_of_look h; simp [district] at this; omega
  · intro n n' e e' h h' _
    have a := Table.mem_of_look h; have b := Table.mem_of_look h'
    simp [district] at a b; omega
theorem district_holds : district.holdLaw := by
  intro v x h
  have := Table.mem_of_look h
  simp only [district, List.mem_cons, Prod.mk.injEq, List.not_mem_nil, or_false] at this
  rcases this with ⟨_, rfl⟩ | ⟨_, rfl⟩ <;> rfl
theorem witness_StepKeepsInvariants : (∃ t, Sys2Proof.Machine.step ⟨district, [.timeWrap]⟩ = .next t) ∧
    district.canonical ∧ district.bounded ∧ district.slotsKept ∧ district.incidentsKept ∧ district.stationsKept ∧
    district.holdLaw ∧ Instr.timeWrap.configures = false ∧ district.mgmt.mode = .transparent :=
  ⟨⟨_, rfl⟩, district_canonical.1, district_bounded.1, fun z => Nat.zero_le _,
    { within := fun r i h => by cases h
      distinct := fun r r' i i' h => by cases h
      next := by decide
      workspace := fun w h => by cases h },
    district_stations, district_holds, rfl, rfl⟩

theorem witness_StepKeepsHoldCounts : (∃ t, Sys2Proof.Machine.step ⟨district, [load4095]⟩ = .next t) ∧
    district.valve? 4095 = none ∧ district.holders 4095 = 0 ∧ district.canonical ∧ district.holdLaw :=
  ⟨⟨_, rfl⟩, rfl, rfl, district_canonical.1, district_holds⟩
theorem witness_OnlyOrdersConfigure : (∃ t, Sys2Proof.Machine.step ⟨district, [.setMode mg 1#16]⟩ = .next t) ∧
    (Instr.setMode mg 1#16).configures = false ∧ district.canonical := ⟨⟨_, rfl⟩, rfl, district_canonical.1⟩
theorem witness_TransparentTakesNoTag : (∃ t, Sys2Proof.Machine.step ⟨district, [.declare mg 1#16 0#16]⟩ = .next t) ∧
    (∀ n, (.declare mg 1#16 0#16 : Instr) ≠ .powerOn n) ∧ (∀ m w, (.declare mg 1#16 0#16 : Instr) ≠ .setMode m w) ∧
    district.mgmt.mode = .transparent := ⟨⟨_, rfl⟩, fun _ => (by simp), fun _ _ => (by simp), rfl⟩
theorem witness_TransparentStandsStill : (withIncident .closing district).mgmt.mode = .transparent := rfl

theorem witness_RecordSets : Table.wf [(0, true), (7, false)] = true := by decide

/-! ## Witnesses: segments, classes and valves -/

theorem witness_MaterialClassLoad : 7 < (8#16).toNat ∧ (7#16).toNat ≤ 7 ∧
    tookAll [Part.loadMaterial 8 200 600 district, Part.loadMaterial 7 200 600 district, Part.loadMaterial 7 1501 2500 district] =
      [.badArgument, .ok, .okClamped] := by decide +kernel

def curve5 : List Word := [0, 115, 245, 365, 475, 580, 675, 765, 845, 925, 1000]
def profile5 : List Byte := [100, 50, 20, 0, 0, 0, 0, 0]
theorem witness_ValveClassLoad :
    (Instr.loadValveClass mg 15 4 curve5 profile5 8 30 5 10).wellFormed = true ∧
    tookAll [Part.loadVClass 15 4 curve5 profile5 8 30 5 10 district, Part.loadVClass 16 4 curve5 profile5 8 30 5 10 district,
      Part.loadVClass 15 4 curve5.reverse profile5 8 30 5 10 district, Part.loadVClass 15 1 curve5 profile5 8 30 5 10 district,
      Part.loadVClass 15 4 curve5 profile5 121 30 5 10 district, Part.loadVClass 15 4 curve5 profile5 120 300 600 0 district] =
      [.ok, .badArgument, .badArgument, .badArgument, .okClamped, .ok] := by decide +kernel

def spare : Part :=
  { district with
    net := { district.net with materials := [(0, ⟨1100, 1600⟩), (7, ⟨200, 600⟩)], vclasses := [(0, class5), (15, class5)] } }
theorem witness_ClassClears :
    (∃ e ∈ spare.net.valves, e.2.material = 0) ∧ ¬(∃ e ∈ spare.net.valves, e.2.material = 7) ∧
    (∃ e ∈ spare.net.valves, e.2.vclass = 0) ∧ ¬(∃ e ∈ spare.net.valves, e.2.vclass = 15) ∧
    spare.material? 6 = none ∧ spare.material? 0 ≠ none ∧ spare.vclass? 14 = none ∧ spare.vclass? 0 ≠ none ∧
    tookAll [Part.clearMaterial 8 spare, Part.clearMaterial 6 spare, Part.clearMaterial 0 spare, Part.clearMaterial 7 spare] =
      [.badArgument, .noSuch, .referenced, .ok] ∧
    tookAll [Part.clearVClass 16 spare, Part.clearVClass 14 spare, Part.clearVClass 0 spare, Part.clearVClass 15 spare] =
      [.badArgument, .noSuch, .referenced, .ok] := by decide +kernel

theorem witness_SegmentLoad :
    (∃ e ∈ (withIncident .held active).inc.records, 1 ∈ e.2.area) ∧
    (∃ e ∈ (withIncident .held district).net.valves, e.2.segA = 0 ∧ 0 < e.2.holdCount) ∧
    tookAll [Part.loadSegment 2048 0 0 0 0 65535 district, Part.loadSegment 2047 64 0 0 0 65535 district,
      Part.loadSegment 2047 63 2 0 0 65535 district, Part.loadSegment 2047 63 0 2 0 65535 district,
      Part.loadSegment 2047 63 0 0 0 512 district, Part.loadSegment 1 0 0 0 0 65535 (withIncident .held active),
      Part.loadSegment 1 5 0 0 0 65535 (withIncident .held district), Part.loadSegment 0 5 0 0 0 65535 (withIncident .held district),
      Part.loadSegment 2047 63 1 1 4095 511 district, Part.loadSegment 1 0 0 0 4096 65535 (withIncident .held district)] =
      [.badArgument, .badArgument, .badArgument, .badArgument, .badArgument, .inUse, .referenced, .referenced, .ok, .okClamped] := by
  decide +kernel

def lone : Part := { district with net := { district.net with segments := district.net.segments ++ [(9, segment false false [])] } }
theorem witness_SegmentClear :
    (∃ e ∈ (withIncident .held active).inc.records, 1 ∈ e.2.area) ∧ lone.segment? 9 = some (segment false false []) ∧
    (∃ e ∈ lone.watch.sensors, e.2.kind = .pressure ∧ e.2.place = 1) ∧
    tookAll [Part.clearSegment 2048 district, Part.clearSegment 2047 district, Part.clearSegment 1 (withIncident .held active),
      Part.clearSegment 1 (withIncident .held district), Part.clearSegment 1 district, Part.clearSegment 2 district,
      Part.clearSegment 9 lone] =
      [.badArgument, .noSuch, .inUse, .referenced, .referenced, .referenced, .ok] := by decide +kernel

/-- LOAD_VALVE of the district's valve 0 with some of its operands named. -/
def load0 (p : Part) (valve : Word := 0) (segA : Word := 0) (segB : Word := 1) (kind : Byte := 0) (station : Word := 100)
    (channel : Byte := 1) (operability : Byte := 0) (velocity : Word := 1200) (diameter : Word := 300) : Part × Answer :=
  Part.loadValve valve segA segB kind 0 station channel 1 0 0 operability velocity diameter p
def crowded : Part := { district with net := { district.net with segments := [(0, segment true false (List.range 8)), (1, segment false false [])] } }
theorem witness_ValveLoad :
    tookAll [load0 district (valve := 4096), load0 district (segA := 2048), load0 district (segB := 2048), load0 district (segB := 0),
      load0 district (kind := 2), load0 district (operability := 3), load0 district (station := 0), load0 district (channel := 32)] =
      List.replicate 8 .badArgument ∧
    tookAll [load0 district (segA := 2047), load0 district (segB := 2047), load0 (withIncident .held active),
      load0 (withIncident .held district) (kind := 1), load0 (withIncident .held district) (valve := 5) (segA := 1) (segB := 65535)
        (station := 200), load0 district (valve := 4095), load0 crowded (valve := 4095) (station := 200)] =
      [.noSuch, .noSuch, .inUse, .referenced, .referenced, .duplicate, .listFull] ∧
    tookAll [load0 district, load0 district (velocity := 3001), load0 district (valve := 4095) (station := 200) (channel := 31),
      load0 district (diameter := 49)] = [.ok, .okClamped, .ok, .okClamped] := by decide +kernel

/-- Valve 0 of a part with HOLD_COUNT and MOVE_TAG as given. -/
def keeping (p : Part) (count : Nat) (tag : Option Nat) : Part :=
  { p with net := { p.net with valves := [(0, { valve0 with holdCount := count, moveTag := tag })] } }
theorem witness_ValveClear :
    tookAll [Part.clearValve 4096 district, Part.clearValve 4095 district, Part.clearValve 0 (withIncident .held active),
      Part.clearValve 1 (withIncident .held district), Part.clearValve 0 district, Part.clearValve 1 district,
      Part.clearValve 0 (keeping active 0 (some 1)), Part.clearValve 0 (keeping district 0 (some 255)),
      Part.clearValve 0 (keeping district 1 none), Part.clearValve 0 (keeping active 0 none)] =
      [.badArgument, .noSuch, .inUse, .referenced, .ok, .ok, .inUse, .referenced, .referenced, .ok] := by decide +kernel

theorem witness_ValveLoadWrites : district.canonical ∧ district.valve? 0 = some valve0 ∧ valve0.segB ≠ some valve0.segA ∧
    listLosses (some valve0) { valve0 with segA := 2 } = [0] ∧ listGains (some valve0) { valve0 with segA := 2 } = [2] :=
  ⟨district_canonical.1, by decide +kernel⟩

theorem witness_ValveState :
    district.valve? 0 = some valve0 ∧ valve0.moveTag = none ∧
    tookAll [Part.valveState 4096 0 district, Part.valveState 4095 0 district, Part.valveState 0 2 district,
      Part.valveState 0 0 district, Part.valveState 0 1 district, Part.valveState 1 4 (withIncident .confirmWait active),
      Part.valveState 0 1 { district with net := { district.net with valves := [(0, { valve0 with moveTag := some 1 })] } }] =
      [.badArgument, .noSuch, .badArgument, .ok, .ok, .ok, .busy] := by decide +kernel

theorem witness_CrewReport :
    (∀ k ∈ district.seq.crew, k.valve ≠ 1) ∧ (∀ e ∈ district.inc.records, ∀ b ∈ e.2.boundary, b.valve ≠ 1) ∧ valve1.kind = .manual ∧
    tookAll [Part.crewReport 4096 0 district, Part.crewReport 1 3 district, Part.crewReport 4095 0 district,
      Part.crewReport 0 0 district, Part.crewReport 1 0 district, Part.crewReport 1 1 district, Part.crewReport 1 2 district,
      Part.crewReport 1 2 (Part.valveState 1 1 district).1] =
      [.badArgument, .badArgument, .noSuch, .badArgument, .ok, .ok, .ok, .ok] := by decide +kernel

/-! ## Witnesses: sensors and zones -/

/-- LOAD_SENSOR of the district's sensor 0 with some of its operands named. -/
def loadS (p : Part) (sensor : Word := 0) (station : Word := 100) (channel : Byte := 2) (kind : Byte := 0) (place : Word := 1)
    (low : Word := 250) (high : Word := 700) (persist : Byte := 3) (window : Word := 60) : Part × Answer :=
  Part.loadSensor sensor station channel kind place low high persist 150 window p
def metered : Part :=
  { district with
    watch := { district.watch with sensors := (List.range 5).map fun k => (k, if k = 0 then sensor40 else meter1) } }
theorem witness_SensorLoad :
    tookAll [loadS district (sensor := 512), loadS district (kind := 2), loadS district (station := 65535),
      loadS district (channel := 32), loadS district (place := 2048), loadS district (kind := 1) (place := 64),
      loadS district (low := 701)] = List.replicate 7 .badArgument ∧
    tookAll [loadS district (place := 2047), loadS district (sensor := 511), loadS metered (sensor := 511) (channel := 31) (kind := 1) (place := 0),
      loadS district (persist := 0), loadS district (high := 4096), loadS district (window := 4), loadS district,
      loadS district (sensor := 511) (channel := 31), loadS district (persist := 15), loadS { district with now := 700 },
      loadS district (place := 2), loadS district (sensor := 511) (channel := 31) (kind := 1) (place := 63) (high := 65535)] =
      [.noSuch, .duplicate, .listFull, .okClamped, .okClamped, .okClamped, .ok, .ok, .ok, .ok, .ok, .ok] := by decide +kernel

theorem witness_SensorClear :
    tookAll [Part.clearSensor 512 district, Part.clearSensor 511 district, Part.clearSensor 1 district] =
      [.badArgument, .noSuch, .ok] := by decide +kernel

/-- A closing step of valve 0 from 100, DWELLING, and the slot of zone 0 it holds. -/
def ctx0 : StepCtx :=
  { zone := 0, run := .closing, serves := [3], grantOpening := some 100, reached := some 100, phase := .dwelling, target := none,
    span := 25, dropAfterStep := false, travelDue := none, queryDue := none, pollDue := none, pollStart := 0,
    dwellDue := some 50 }
def stepping (c : StepCtx) (p : Part) : Part :=
  { withIncident .closing p with seq := { p.seq with contexts := [(0, c)] } }
def loadZ (p : Part) (zone : Word) (threshold : Byte := 4) (slots : Byte := 2) (saturation : Byte := 1) (window : Word := 300) :
    Part × Answer :=
  Part.loadZone zone threshold slots 150 saturation 0 window 50 p
theorem witness_ZoneSettings :
    ((stepping ctx0 active).zone 0).slots = 2 ∧ (∃ e ∈ (stepping ctx0 active).seq.contexts, e.2.zone = 0) ∧
    tookAll [loadZ district 64, loadZ district 63 (saturation := 2), loadZ (stepping ctx0 active) 0 (slots := 3), loadZ district 63,
      loadZ (stepping ctx0 active) 0, loadZ district 63 (threshold := 63) (slots := 4), loadZ district 0 (threshold := 0),
      loadZ district 0 (slots := 5), loadZ district 0 (window := 29)] =
      [.badArgument, .badArgument, .busy, .ok, .ok, .ok, .okClamped, .okClamped, .okClamped] ∧
    tookAll [Part.clearZone 64 district, Part.clearZone 0 (loadZ (stepping ctx0 active) 0 (slots := 2)).1, Part.clearZone 63 district] =
      [.badArgument, .ok, .ok] := by decide +kernel
/-- R30: a zone of 3 slots with one in use is not cleared. -/
def threeSlots : Part :=
  { stepping ctx0 active with watch := { active.watch with zones := [(0, { Zone.powerOn with slots := 3 })] } }
theorem witness_ZoneSettings_busy : took (Part.clearZone 0 threeSlots) = (true, .busy) := by decide +kernel

def suspect1 : Suspect := { candidate := 1, cause := .sharpDrop, sensor := 0, raised := 0 }
/-- A part whose zone 0 is of a mode, suspended or not, with a suspect latched. -/
def latched (mode : ZoneMode) (suspended : Bool) (p : Part) : Part :=
  { p with
    watch := { p.watch with zones := [(0, { Zone.powerOn with mode := mode, suspended := suspended, latch := some suspect1 })] } }
theorem witness_ZoneModeOrder :
    tookAll [Part.zoneMode 64 0 district, Part.zoneMode 63 3 district, Part.zoneMode 63 0 district, Part.zoneMode 0 2 district,
      Part.zoneMode 0 0 (latched .inhibit false active), Part.zoneMode 0 1 (latched .inhibit false district),
      Part.zoneMode 0 2 (latched .confirm false active)] =
      [.badArgument, .badArgument, .ok, .ok, .ok, .ok, .ok] ∧
    (latched .inhibit false active).zone 0 = { Zone.powerOn with mode := .inhibit, latch := some suspect1 } := by decide +kernel

theorem witness_SuspendAndResume :
    tookAll [Part.suspendAll district, Part.resumeAll district, Part.resumeAll (latched .confirm true active),
      Part.resumeAll (latched .inhibit true active)] = [.ok, .ok, .ok, .ok] := by decide +kernel

theorem witness_ClearLatch :
    tookAll [Part.clearLatch 64 district, Part.clearLatch 63 district, Part.clearLatch 0 (latched .inhibit false active)] =
      [.badArgument, .ok, .ok] ∧ ((latched .inhibit false active).zone 0).latch = some suspect1 := by decide +kernel

/-- Eight incidents, on segments 10 to 17. -/
def eight : Incidents :=
  { records := (List.range 8).map fun r => (r, { incident .held with number := r + 1, area := [r + 10], boundary := [], touched := [] }),
    next := 9 }
theorem witness_SuspectRouting :
    district.canonical ∧ district.bounded ∧ active.canonical ∧ active.bounded ∧ active.segment? 9 = none ∧
    active.segment? 1 = some (segment false false [0, 1]) ∧ (∀ e ∈ active.inc.records, 1 ∉ e.2.area) ∧ active.incident? 0 = none ∧
    (withIncident .held active).incident? 3 = some (incident .held) ∧ 1 ∈ (incident .held).area ∧
    (∀ e ∈ (withIncident .held active).inc.records, e.1 = 3) ∧
    ((active.zone 0).mode ≠ .inhibit ∧ (active.zone 0).suspended = false ∧ active.mgmt.mode ≠ .transparent) ∧
    (((latched .inhibit false active).zone 0).mode = .inhibit ∧ ((latched .confirm true active).zone 0).suspended = true ∧
      district.mgmt.mode = .transparent) ∧
    (canonicalB (withIncident .held active) && boundedB (withIncident .held active) && canonicalB { active with inc := eight } &&
      boundedB { active with inc := eight } && canonicalB (latched .inhibit false active) &&
      boundedB (latched .confirm true active)) = true ∧
    (∀ r, r < 8 → ({ active with inc := eight } : Part).incident? r ≠ none) ∧ (∀ e ∈ eight.records, 1 ∉ e.2.area) :=
  ⟨district_canonical.1, district_bounded.1, district_canonical.2, district_bounded.2, by decide +kernel⟩

/-! ## Witnesses: stations, settings and RESTART -/

theorem witness_StationChanges : district.canonical ∧ (∃ e ∈ district.net.valves, e.2.kind = .actuated ∧ e.2.station = 100) ∧
    ¬(∃ e ∈ district.net.valves, e.2.kind = .actuated ∧ e.2.station = 7) ∧
    district.usable valve0 ≠ (district.removeStation 0).usable valve0 := ⟨district_canonical.1, by decide +kernel⟩

/-- A Station Table with its first `m` entries in use, all of one kind. -/
def crowdEntry (kind : StationKind) (n : Nat) : Station :=
  { station0 with kind := kind, address := n + 300, heard := some (n / 2) }
def crowd (kind : StationKind) (m : Nat) : Part :=
  { district with stations := { district.stations with entries := (List.range m).map fun n => (n, crowdEntry kind n) } }
theorem look_range {α : Type} (f : Nat → α) (m n : Nat) (h : n < m) :
    Table.look ((List.range m).map fun k => (k, f k)) n = some (f n) := by
  have w : ∀ l : List Nat, n ∈ l → Table.look (l.map fun k => (k, f k)) n = some (f n) := by
    intro l
    induction l with
    | nil => intro a; cases a
    | cons b l ih =>
      intro a
      by_cases e : b = n
      · subst e; simp [Table.look]
      · simp only [List.map_cons, Table.look, if_neg e]
        exact ih ((List.mem_cons.1 a).resolve_left (Ne.symm e))
  exact w _ (List.mem_range.2 h)
theorem crowd_look (kind : StationKind) (m n : Nat) (h : n < m) :
    Table.look (crowd kind m).stations.entries n = some (crowdEntry kind n) := look_range _ _ _ h
theorem crowd_mem (kind : StationKind) (m n : Nat) (e : Station) (h : Table.look (crowd kind m).stations.entries n = some e) :
    n < m ∧ e = crowdEntry kind n := by
  obtain ⟨k, hk, he⟩ := List.mem_map.1 (Table.mem_of_look h)
  obtain ⟨rfl, rfl⟩ := Prod.mk.inj he
  exact ⟨List.mem_range.1 hk, rfl⟩
theorem crowd_canonical (kind : StationKind) (m : Nat) : canonicalB (crowd kind m) = true := by
  have w : ∀ (f : Nat → Station) (m s : Nat), Table.wf ((List.range' s m).map fun k => (k, f k)) = true := by
    intro f m
    induction m with
    | zero => intro s; rfl
    | succ m ih =>
      intro s
      simp only [List.range'_succ, List.map_cons, Table.wf, Bool.and_eq_true, List.all_map, List.all_eq_true]
      exact ⟨fun x hx => by have := (List.mem_range'_1.1 hx).1; simp; omega, ih (s + 1)⟩
  have : Table.wf (crowd kind m).stations.entries = true := by
    have := w (crowdEntry kind) m 0
    rwa [← List.range_eq_range'] at this
  unfold canonicalB; rw [this]; rfl
theorem crowd_quiet (kind : StationKind) (m : Nat) : (crowd kind m).quiet := (quietB_iff _).1 rfl
theorem crowd_absent (kind : StationKind) (m a : Nat) (h : m + 300 ≤ a) : (crowd kind m).station? a = none := by
  refine List.find?_eq_none.2 fun e he => ?_
  obtain ⟨k, hk, rfl⟩ := List.mem_map.1 he
  have := List.mem_range.1 hk
  rw [Bool.not_eq_true, decide_eq_false_iff_not]
  exact (by omega : k + 300 ≠ a)
/-- The part that a load of 65,534 leaves where entry 0 is recycled. -/
def recycled (p : Part) : Part :=
  let f := ((p.removeStation 0).stationNotice p 300).stationTrace .stationFreed 300 none
  (f.putStation 0 { station0 with address := 65534, age := .untouched, heard := none }).stationNotice f 65534
theorem recycled_quiet (kind : StationKind) (m : Nat) : (recycled (crowd kind m)).quiet := (quietB_iff _).1 rfl
theorem witness_StationLoad :
    tookAll [Part.loadStation 0 0 0 0 district, Part.loadStation 65280 0 0 0 district, Part.loadStation 65535 0 0 0 district,
      Part.loadStation 100 2 0 0 district, Part.loadStation 100 0 2 0 district, Part.loadStation 100 0 0 4 district,
      Part.loadStation 100 1 0 65535 district] = List.replicate 7 .badArgument ∧
    tookAll [Part.loadStation 100 1 0 3 district, Part.loadStation 100 0 1 65535 district, Part.loadStation 1 0 1 3 district] =
      [.ok, .ok, .ok] ∧
    district.station? 1 = none ∧ Table.look district.stations.entries 1 = none ∧ (Table.look district.stations.entries 0).isSome = true := by
  decide +kernel
/-- R150: with no entry FREE, the entry heard longest ago is recycled, the lower numbered of two; with every entry CONFIGURED
none is. -/
theorem witness_StationLoad_full (kind : StationKind) : (crowd kind 512).canonical ∧
    (∀ n, n < 512 → Table.look (crowd kind 512).stations.entries n ≠ none) ∧ (crowd kind 512).station? 65534 = none ∧
    (∀ k c, Table.look (crowd .configured 512).stations.entries k = some c → c.kind ≠ .learned) ∧
    Table.look (crowd .learned 512).stations.entries 0 = some (crowdEntry .learned 0) ∧
    (∀ k c, Table.look (crowd .learned 512).stations.entries k = some c → c.kind = .learned →
      (crowdEntry .learned 0).heard.getD 0 < c.heard.getD 0 ∨ ((crowdEntry .learned 0).heard.getD 0 = c.heard.getD 0 ∧ 0 ≤ k)) ∧
    (crowd .configured 512).quiet ∧ (recycled (crowd .learned 512)).quiet := by
  refine ⟨canonical_of (crowd_canonical kind _), fun n h => by rw [crowd_look kind _ n h]; simp, crowd_absent _ _ _ (by omega),
    fun k c h => by rw [(crowd_mem .configured _ k c h).2]; simp [crowdEntry], crowd_look .learned _ 0 (by omega),
    fun k c h _ => ?_, crowd_quiet _ _, recycled_quiet _ _⟩
  rw [(crowd_mem .learned _ k c h).2]; simp [crowdEntry]; omega

theorem witness_StationClearAndMode :
    tookAll [Part.clearStation 0 district, Part.clearStation 65280 district, Part.clearStation 65535 district,
      Part.clearStation 65534 district, Part.clearStation 100 district] =
      [.badArgument, .badArgument, .badArgument, .noSuch, .ok] ∧
    tookAll [Part.setStationMode 2 300 district, Part.setStationMode 1 10 district, Part.setStationMode 0 3600 district,
      Part.setStationMode 1 9 district, Part.setStationMode 0 3601 district] =
      [.badArgument, .ok, .ok, .okClamped, .okClamped] := by decide +kernel

/-- Four entries: two of each kind, one not heard since the last expiry, and a SILENT one. -/
def aging : Part :=
  { district with
    stations := { district.stations with
      entries := [(0, station0), (1, { station0 with address := 101, kind := .learned, age := .untouched }),
        (2, { station0 with address := 102, age := .silent }), (511, { station0 with address := 103, age := .untouched })] } }
theorem witness_AgingExpiry : stillB aging.agingExpiry = true ∧ aging.agingExpiry.now = 3000 ∧
    aging.agingExpiry.stations.agingDue = 6000 ∧
    (aging.agingExpiry.stations.entries.map fun e => (e.1, e.2.age)) = [(0, .untouched), (2, .silent), (511, .silent)] := by
  decide +kernel

theorem witness_SetMode :
    tookAll [Part.setMode 2 district, Part.setMode 0 district, Part.setMode 1 active, Part.setMode 0 active,
      Part.setMode 1 (Part.powerOn 15), Part.setMode 1 district, Part.setMode 1 (latched .confirm false district)] =
      [.badArgument, .ok, .ok, .ok, .wrongState, .ok, .ok] ∧
    (∀ p ∈ [(Part.setMode 1 district).1, (Part.setMode 1 (latched .confirm false district)).1],
      p.seq.contexts = [] ∧ p.seq.frames = [] ∧ p.mgmt.mode = .active) ∧
    (Part.setMode 1 (latched .confirm false district)).1.inc.records.length = 1 ∧ (Part.powerOn 15).net.segments = [] := by
  decide +kernel

theorem witness_Settings :
    (Instr.setMaps mg [0, 0, 1, 1, 2, 2, 3, 3] [4, 5, 6, 7] 7).wellFormed = true ∧
    tookAll [Part.setNoticeAddress 0 district, Part.setNoticeAddress 65280 district, Part.setNoticeAddress 65535 district] =
      [.badArgument, .badArgument, .ok] ∧
    tookAll [Part.setMaps [0, 0, 1, 1, 2, 2, 3, 4] [4, 5, 6, 7] 6 district, Part.setMaps [0, 0, 1, 1, 2, 2, 3, 3] [4, 5, 6, 8] 6 district,
      Part.setMaps [0, 0, 1, 1, 2, 2, 3, 3] [4, 5, 6, 7] 8 district, Part.setMaps [0, 0, 1, 1, 2, 2, 3, 3] [4, 5, 6, 7] 7 district] =
      [.badArgument, .badArgument, .badArgument, .ok] ∧
    tookAll [Part.setTracePolicy 2 district, Part.setTracePolicy 1 district, Part.setTracePolicy 0 district,
      Part.clearCounters district] = [.badArgument, .ok, .ok, .ok] := by decide +kernel

/-- A frame of class 3, and a control line whose class 3 is full and whose transmitter works. -/
def busyLine (restart : Bool) (p : Part) : Part :=
  p.setLine .control
    { p.line .control with
      queues := ⟨[], [], [], List.replicate 16 ⟨longFrame, false⟩⟩, sending := some ⟨longFrame, restart⟩ }
def heap (n : Nat) : List PendEntry := List.replicate n { code := 3, frames := [longFrame], restart := false }
theorem witness_BadOrderReply : quietB district = true ∧ stillB (busyLine false (district.setNotices (heap 8))) = true ∧
    district.mgmt.notices = [] ∧ (district.line .control).sending = none ∧ (district.line .control).queues = ⟨[], [], [], []⟩ ∧
    16 ≤ (((busyLine false (district.setNotices (heap 8))).line .control).queues.get .c3).length ∧
    district.classOf { longFrame with ctl := controlByte .notice 6 } = .c3 ∧ (heap 7).length < 8 ∧
    heap 8 = { code := 3, frames := [longFrame], restart := false } :: heap 7 ∧ (heap 7).length = 7 := by decide +kernel

theorem witness_RestartOrder : district.quiet := (quietB_iff _).1 (by decide +kernel)
theorem witness_RestartTakesEffect :
    ((busyLine true (withIncident .held active)).line .control).sending = some ⟨longFrame, true⟩ := by decide +kernel

/-! ## Witnesses: derived statuses and the Surge Calculator -/

theorem witness_DerivedStatuses : district.canonical ∧ district.stationsKept ∧ valve0.countsAsClosed = false ∧
    ({ valve0 with opening := none, normal := .closed } : Valve).countsAsClosed = true ∧ district.usable valve0 = true ∧
    district.usable { valve0 with station := 7 } = false ∧ ({ valve0 with opening := some 0, operability := .seized } : Valve).standsShut = true ∧
    ({ valve0 with opening := some 0, operability := .passing } : Valve).standsShut = false :=
  ⟨district_canonical.1, district_stations, by decide +kernel⟩

theorem witness_SurgeArithmetic :
    let coef := fun k => class5.curve.getD k 0
    (∀ k, k ≤ 10 → class5.curve[k]? = some (coef k)) ∧ (∀ k, k < 10 → coef k ≤ coef (k + 1)) ∧ coef 0 = 0 ∧ coef 10 = 1000 := by
  decide +kernel

def flat : ValveClass := { class5 with curve := [0, 500, 500, 500, 500, 500, 500, 500, 500, 500, 1000] }
theorem witness_SurgeArithmetic_flat :
    (∀ k, k < 10 → (flat.curve.getD k 0) ≤ flat.curve.getD (k + 1) 0) ∧ flat.curve.getD 4 0 = flat.curve.getD 5 0 := by decide +kernel

theorem witness_SurgeStep :
    district.vclass? valve0.vclass = some class5 ∧ district.material? valve0.material = some ⟨1100, 1600⟩ ∧
    class5.profile.getLast? = some 0 ∧ class5.profile.Pairwise (· > ·) ∧
    (50 ∈ class5.profile ∧ 50 < 100 ∧ ∀ k ∈ class5.profile, k < 100 → k ≤ 50) ∧
    (50 ∈ class5.profile ∧ 20 < 50 ∧ 50 < 60 ∧ ∀ k ∈ class5.profile, 20 < k → k < 60 → 50 ≤ k) ∧
    (∀ b ∈ class5.profile, 50 < b → 60 ≤ b) ∧
    (input5 100 0 400 .refer).fits (input5 100 0 400 .refer).span = true ∧ (input5 10 0 10 .clamp).fits (input5 10 0 10 .clamp).span = false ∧
    (input5 10 0 10 .refer).fits (input5 10 0 10 .refer).span = false ∧ (input5 50 50 400 .refer).opening = (input5 50 50 400 .refer).final := by
  decide +kernel

/-! ## Witnesses: frames and their items -/

theorem witness_ExcursionMoves : sensor40.bandLow ≤ sensor40.bandHigh ∧ (249 < sensor40.bandLow ∧ sensor40.bandLow ≤ 250) ∧
    (700 ≤ sensor40.bandHigh ∧ sensor40.bandHigh < 701) ∧ meter1.persist = 1 ∧ meter1.countdown = 1 := by decide +kernel

/-- The district with the pressure sensor LOW, so that a high flow counts, and with a threshold of 1 in zone 0. -/
def lowDistrict (threshold : Nat) : Part :=
  { district with
    watch :=
      { sensors := [(0, { sensor40 with lastValue := some 240, excursion := .low }), (1, meter1)]
        zones := [(0, { Zone.powerOn with threshold := threshold })] } }
def travelling : StepCtx :=
  { ctx0 with phase := .travelling, target := some 75, dwellDue := none, travelDue := some 540, pollDue := some 100 }
/-- The closing step travels, its move not yet echoed. -/
def moving (c : StepCtx) (p : Part) : Part :=
  { stepping c p with
    net := { p.net with valves := [(0, { valve0 with holdCount := 1, moveTag := some 9 }), (1, valve1)] } }
theorem witness_ReportItems :
    district.channel? 100 0 = none ∧ district.channel? 100 2 = some (.sensor 0) ∧ district.channel? 100 3 = some (.sensor 1) ∧
    district.channel? 100 1 = some (.valve 0) ∧ (⟨20#8, 1#8, 0#8, 9#8⟩ : Item).b0.getLsbD 2 = true ∧
    (district.ver = [] ∧ sensor40.drop ≠ 0 ∧ sensor40.status = .fresh ∧ sensor40.lastValue = some 500 ∧ 350 + 150 ≤ 500 ∧ ¬351 + 150 ≤ 500) ∧
    ((district.offerItem 100 ⟨16#8, 1#8, 1#8, 94#8⟩).watch.zones ≠ [] ∧ (district.offerItem 100 ⟨16#8, 1#8, 1#8, 95#8⟩).watch.zones = []) ∧
    ([⟨16#8, 1#8, 1#8, 94#8⟩, ⟨16#8, 1#8, 1#8, 95#8⟩, ⟨24#8, 2#8, 7#8, 8#8⟩, ⟨24#8, 2#8, 7#8, 9#8⟩, ⟨8#8, 3#8, 0#8, 0#8⟩,
      ⟨8#8, 4#8, 9#8, 1#8⟩].all fun i => restB (district.offerItem 100 i)) = true ∧
    ([⟨24#8, 2#8, 7#8, 9#8⟩].all fun i => restB ((lowDistrict 1).offerItem 100 i) && restB ((lowDistrict 2).offerItem 100 i)) = true ∧
    (((lowDistrict 1).offerItem 100 ⟨24#8, 2#8, 7#8, 9#8⟩).trace.fifo.map TraceEntry.code) = [.suspect, .latched] ∧
    (((lowDistrict 2).offerItem 100 ⟨24#8, 2#8, 7#8, 9#8⟩).zone 0).counter = 1 := by decide +kernel
/-- R158: the move of valve 0 ends within two percentage points of its target, and an echo of its tag is taken. -/
theorem witness_ReportItems_moving :
    district.canonical ∧ (moving travelling active).context? 0 = some travelling ∧ canonicalB (moving travelling active) = true ∧
    district.vclass? 0 = some class5 ∧
    (∀ e ∈ ({ moving travelling active with inc := { active.inc with records := [] } } : Part).inc.records, ∀ b ∈ e.2.boundary, b.valve ≠ 0) ∧
    ([73, 77].all fun n => restB (({ moving travelling active with inc := active.inc } : Part).offerItem 100 ⟨8#8, 3#8, 0#8, n⟩)) = true ∧
    ([73, 77].map fun n => ((({ moving travelling active with inc := active.inc } : Part).offerItem 100
      ⟨8#8, 3#8, 0#8, n⟩).context? 0).map StepCtx.phase) = [some .dwelling, some .dwelling] ∧
    ((({ moving travelling active with inc := active.inc } : Part).offerItem 100 ⟨8#8, 3#8, 0#8, 72#8⟩).context? 0) = some travelling ∧
    restB (moving travelling active) = true ∧ district.bounded ∧
    (moving travelling active).offerItem 100 ⟨8#8, 4#8, 9#8, 0#8⟩ = moving travelling active := by
  refine ⟨district_canonical.1, ?_, ?_, ?_, ?_, ?_, ?_, ?_, ?_, district_bounded.1, ?_⟩ <;> decide +kernel

/-- A REPORT of station 100 to the notice address, and a frame of some source with no item. -/
def report (src : Word) (items : List Item) : Frame :=
  Frame.sealed { dst := 9#16, src := src, ctl := controlByte .report 3, tag := 0#8, items := items, crc := 0#16 }
def manageFrame : Frame :=
  Frame.sealed { dst := 65280#16, src := 9#16, ctl := controlByte .manage 3, tag := 5#8, items := [⟨0#8, 67#8, 0#8, 0#8⟩], crc := 0#16 }
/-- A part whose entry 0 is changed. -/
def entered (f : Station → Station) (p : Part) : Part :=
  { p with stations := { p.stations with entries := [(0, f station0)] } }
def rejecting (p : Part) : Part := { p with stations := { p.stations with mode := .rejectUnknown } }
theorem witness_FieldFrames :
    readFrame [1#8, 2#8] = none ∧ stillB (district.receive .f0 [1#8, 2#8]) = true ∧
    (readFrame (report 100#16 []).bytes).map Prod.snd = some .report ∧ (readFrame manageFrame.bytes).map Prod.snd = some .manage ∧
    manageFrame.dst.toNat = district.mgmt.ownAddress ∧ district.station? 1 = none ∧ Table.look district.stations.entries 1 = none ∧
    ([report 0#16 [], report 65535#16 [], report 65280#16 [], report 1#16 [], report 100#16 [⟨16#8, 1#8, 1#8, 244#8⟩], manageFrame].all fun f =>
      stillB (district.receive .f0 f.bytes)) = true := by decide +kernel
theorem witness_FieldFrames_stations :
    ([entered (fun e => { e with blocked := true }) active, entered (fun e => { e with blocked := true }) district,
      entered (fun e => { e with secure := true, pinLine := some .f1 }) active,
      entered (fun e => { e with secure := true, pinLine := some .f1 }) district, entered (fun e => { e with age := .silent, line := none }) district,
      entered (fun e => { e with line := some .f3 }) district, rejecting district, rejecting active].all fun p =>
      stillB (p.receive .f0 (report 100#16 []).bytes)) = true ∧
    ([rejecting district, rejecting active].all fun p => stillB (p.receive .f0 (report 1#16 []).bytes)) = true ∧
    ((rejecting active).receive .f0 (report 1#16 []).bytes).counters.unknownRejects = 1 ∧
    ((district.receive .f0 (report 1#16 []).bytes).station? 1).isSome = true ∧ active.bounded :=
  ⟨by decide +kernel, by decide +kernel, by decide +kernel, by decide +kernel, district_bounded.2⟩
/-- R143: a source that no entry holds, with the Station Table full. -/
theorem witness_FieldFrames_full (kind : StationKind) : (crowd kind 512).bounded ∧
    (crowd kind 512).station? 65534 = none ∧ (∀ n, n < 512 → Table.look (crowd kind 512).stations.entries n ≠ none) ∧
    (Part.passFrame .control longFrame { crowd kind 512 with counters := { (crowd kind 512).counters with learnFailures := 1 } }).still :=
  ⟨bounded_of rfl, crowd_absent _ _ _ (by omega), fun n h => by rw [crowd_look kind _ n h]; simp, (stillB_iff _).1 rfl⟩

/-- An ORDER of another source to station 100 that moves valve 0 (code 17), its override bit set or not. -/
def orderFrame (dst : Word) (marked : Bool) : Frame :=
  Frame.sealed
    { dst := dst, src := 9#16, ctl := controlByte .order 3 ||| (if marked then 2#8 else 0#8), tag := 4#8, items := [⟨8#8, 17#8, 0#8, 50#8⟩], crc := 0#16 }
def blockedPart : Part := entered (fun e => { e with blocked := true }) active
/-- Field line 0 with its class 3, 2, 1 and 0 full, the transmitter at work. -/
def jammed (p : Part) : Part :=
  let q := List.replicate 16 ⟨longFrame, false⟩
  p.setLine .f0 { p.line .f0 with queues := ⟨q, q, q, q⟩, sending := some ⟨longFrame, false⟩ }
theorem witness_ControlFrames :
    canonicalB (withIncident .held active) = true ∧ boundedB (withIncident .held active) = true ∧
    (readFrame (orderFrame 100#16 true).bytes).map Prod.snd = some .order ∧ (orderFrame 100#16 true).ctl.getLsbD 1 = true ∧
    (orderFrame 100#16 false).ctl.getLsbD 1 = false ∧ active.heldValves (orderFrame 100#16 true) = [] ∧
    (withIncident .held active).heldValves (orderFrame 100#16 true) = [0] ∧
    (withIncident .held active).heldValves (orderFrame 65535#16 true) = [0] ∧ active.station? 7 = none ∧
    ([[1#8, 2#8], manageFrame.bytes, (report 9#16 []).bytes, (orderFrame 100#16 true).bytes, (orderFrame 65535#16 false).bytes,
      (orderFrame 7#16 false).bytes].all fun b => stillB (active.receive .control b) && stillB (blockedPart.receive .control b)) = true := by
  decide +kernel
theorem witness_ControlFrames_held :
    ([withIncident .held active, withIncident .held district, jammed (withIncident .held active), jammed (withIncident .held district)].all fun p =>
      [orderFrame 100#16 true, orderFrame 100#16 false].all fun f => stillB (p.receive .control f.bytes)) = true ∧
    canonicalB (jammed (withIncident .held district)) = true ∧ boundedB (jammed (withIncident .held district)) = true ∧
    ((withIncident .held active).linesTo 100 = [.f0] ∧
      ((jammed (withIncident .held active)).line .f0).queues.c1.length = 16) ∧
    valve0.overridePermitted = true := by decide +kernel

theorem witness_QueuesAndTransmitters :
    ((jammed district).bounded ∧ 16 ≤ (((jammed district).line .f0).queues.get .c0).length) ∧
    ((district.line .f0).sending = none ∧ (district.line .f0).queues = ⟨[], [], [], []⟩ ∧ district.mgmt.notices = [] ∧ district.seq.frames = []) ∧
    (((busyLine false district).line .control).sending = some ⟨longFrame, false⟩ ∧
      ((busyLine false district).line .control).queues.get .c3 = ⟨longFrame, false⟩ :: List.replicate 15 ⟨longFrame, false⟩) ∧
    ([Cls.c0, .c1, .c2, .c3].all fun d => ((busyLine false district).line .control).queues.get d = [] || d.ctorIdx < 3 || d = .c3) = true ∧
    stillB ((busyLine false district).transmitEnd .control) = true ∧ stillB ((busyLine false (district.setNotices (heap 2))).transmitEnd .control) = true ∧
    district.classOf { longFrame with ctl := controlByte .notice 6 } = .c3 ∧
    stillB ((jammed district).transmitEnd .f0) = true :=
  ⟨⟨bounded_of (by decide +kernel), by decide +kernel⟩, by decide +kernel⟩
/-- R166: with nothing queued, a transmitter falls idle; R168: a waiting notice of the class served takes the place left. -/
theorem witness_QueuesAndTransmitters_served :
    (let p := district.setLine .f3 { district.line .f3 with sending := some ⟨longFrame, false⟩ }
     stillB (p.transmitEnd .f3) = true ∧ ((p.transmitEnd .f3).line .f3).sending = none) ∧
    (let n : PendEntry := { code := 3, frames := [{ longFrame with ctl := controlByte .notice 6 }], restart := false }
     let p := busyLine false (district.setNotices [n, n])
     stillB (p.transmitEnd .control) = true ∧ (p.transmitEnd .control).mgmt.notices = [n] ∧
       p.classOf { longFrame with ctl := controlByte .notice 6 } = .c3) := by decide +kernel

/-! ## Witnesses: time and timers -/

def entry0 : TraceEntry := { stamp := 0, code := .mode, incident := none, subject := none, value := none, loss := .none }
theorem witness_FreshnessAndTimeWrap :
    district.sensor? 0 = some sensor40 ∧ sensor40.freshDue = some 600 ∧ stillB (Part.freshnessExpiry 0 district) = true ∧
    (Part.freshnessExpiry 0 district).now = 600 ∧ district.sensor? 511 = none ∧ stillB district = true ∧
    stillB district.wrapTime = true ∧ district.wrapTime.now = 16777216 ∧
    (List.replicate 255 entry0).length < 256 ∧
    List.replicate 256 entry0 = List.replicate 255 entry0 ++ [entry0] ∧ (List.replicate 255 entry0).length = 255 ∧
    List.replicate 256 entry0 = entry0 :: entry0 :: List.replicate 254 entry0 ∧ (List.replicate 254 entry0).length = 254 := by
  decide +kernel

/-- The closing step of valve 0 waits for the answer to its QUERY. -/
def querying : StepCtx := { travelling with phase := .querying, target := none, travelDue := none, pollDue := none, queryDue := some 300 }
def silent (p : Part) : Part := entered (fun e => { e with age := .silent }) p
def pollingPart : Part := moving { travelling with pollStart := 5 } active
theorem witness_StepTimers :
    canonicalB pollingPart = true ∧ pollingPart.context? 0 = some { travelling with pollStart := 5 } ∧
    pollingPart.vclass? 0 = some class5 ∧
    ([travelling, querying, ctx0].all fun c => canonicalB (moving c active) && decide ((moving c active).context? 0 = some c)) = true ∧
    (travelling.travelDue = some 540 ∧ querying.queryDue = some 300 ∧ travelling.pollDue = some 100 ∧ ctx0.dwellDue = some 50) ∧
    stillB (Part.travelExpiry 0 (silent (moving travelling active))) = true ∧ stillB (Part.travelExpiry 0 (moving travelling active)) = true ∧
    ((Part.travelExpiry 0 (moving travelling active)).valve? 0).map Valve.operability = some .seized ∧
    stillB (Part.queryExpiry 0 (moving querying active)) = true := by decide +kernel
theorem witness_StepTimers_poll :
    (∀ t, valve0.positionTime = some t → t < 5) ∧ (∀ f ∈ pollingPart.seq.frames, ¬(f.valve = 0 ∧ f.kind = .poll)) ∧
    (((pollingPart.line .f0).sending = none ∧ (pollingPart.line .f0).queues = ⟨[], [], [], []⟩ ∧ pollingPart.mgmt.notices = [] ∧
      pollingPart.seq.frames = []) ∧ pollingPart.station? 100 = some (0, station0)) ∧
    ((∃ r ∈ travelling.serves, pollingPart.urgencyOf r = 1) ∧ ∀ r ∈ travelling.serves, pollingPart.urgencyOf r ≤ 1) ∧
    stillB (Part.pollExpiry 0 pollingPart) = true ∧ ((Part.pollExpiry 0 pollingPart).line .f0).sending ≠ none ∧
    stillB (Part.pollExpiry 0 (moving travelling district)) = true ∧
    ((Part.pollExpiry 0 (moving travelling district)).line .f0).sending = none :=
  ⟨fun t h => by cases h; decide, by decide +kernel⟩
/-- The pipe of valve 0 bears nothing, so that no closing step fits (R97). -/
def weak (p : Part) : Part := { p with net := { p.net with materials := [(0, ⟨1100, 200⟩)] } }
theorem witness_StepTimers_dwell :
    (∃ r ∈ ctx0.serves, (moving ctx0 active).stateOf r = some .closing) ∧ ctx0.reached = some 100 ∧
    ((moving ctx0 active).surgeInput valve0 100 0).map SurgeInput.calc = some (.step 50 50) ∧
    ((weak (moving ctx0 active)).surgeInput valve0 100 0).map SurgeInput.calc = some (.limit 11) ∧
    ([moving ctx0 district, moving ctx0 active, weak (moving ctx0 active)].all fun p => stillB (Part.dwellExpiry 0 p)) = true ∧
    ((Part.dwellExpiry 0 (moving ctx0 active)).line .f0).sending ≠ none ∧
    ((Part.dwellExpiry 0 (weak (moving ctx0 active))).incident? 3).map Incident.heldReason = some (some .surgeLimit) := by decide +kernel

/-- The incident's verification, with the pressure sensor and the inlet meter as given. -/
def verifying (a b : Sensor) : Part :=
  { withIncident .verifying active with
    ver := [(3, { number := 7, start := 0, length := 300, due := 3000 })]
    watch := { sensors := [(0, a), (1, b)], zones := [] } }
def stale40 : Sensor := sensor40.stale
def staleMeter : Sensor := meter1.stale
def highMeter : Sensor := { meter1 with excursion := .high }
def dry40 : Sensor := { sensor40 with lastValue := some 50 }
def damp40 : Sensor := { sensor40 with lastValue := some 51 }
theorem witness_VerifyWindow :
    ([verifying dry40 meter1, verifying damp40 meter1, verifying stale40 meter1, verifying stale40 staleMeter, verifying stale40 highMeter].all
      fun p => stillB (Part.verifyExpiry 3 p)) = true ∧
    (([verifying dry40 meter1, verifying damp40 meter1, verifying stale40 meter1, verifying stale40 staleMeter, verifying stale40 highMeter].map
      fun p => ((Part.verifyExpiry 3 p).incident? 3).map fun i => (i.state, i.verdict)) =
      [some (.isolated, some .tight), some (.notTight, none), some (.isolated, some .inflowOnly), some (.isolated, some .unverified),
        some (.notTight, none)]) ∧
    dry40.place ∈ (incident .verifying).area ∧ meter1.place ∉ (incident .verifying).area ∧
    (withIncident .closing active).incident? 3 = some (incident .closing) := by decide +kernel

/-! ## Witnesses: the Isolation Planner -/

def work : Workspace :=
  { record := 3, number := 7, phase := .areaSearch, area := [1], frontier := [1], taken := 1, todo := [], examined := [], boundary := [],
    reached := [], walk := [], result := none }
/-- The plan of incident 7 in flight, with the valves 0 and 1 as given. -/
def planned (w : Workspace) (a b : Valve) : Part :=
  { withIncident .planning active with
    net := { active.net with valves := [(0, a), (1, b)] }
    plan := { queue := [], plan := some w } }
def passing (x : Valve) : Valve := { x with operability := .passing }
def shut (x : Valve) : Valve := { x with opening := some 0 }
def atOne : Workspace := { work with frontier := [], todo := [1], examined := [0] }
theorem witness_AreaSearch :
    ((planned work valve0 valve1).nextValve work = some (1, [0, 1], []) ∧ (planned atOne valve0 valve1).nextValve atOne = some (1, [1], [])) ∧
    (planned { work with frontier := [], examined := [0, 1] } valve0 valve1).nextValve { work with frontier := [], examined := [0, 1] } = none ∧
    ([planned { work with frontier := [], examined := [0, 1] } valve0 valve1, planned work { valve0 with segB := none } valve1,
      planned work (passing valve0) valve1, planned { atOne with area := [1, 2] } valve0 (passing valve1), planned atOne valve0 (passing valve1),
      planned { atOne with area := 1 :: (List.range 63).map (· + 100) } valve0 (passing valve1),
      planned { work with boundary := List.replicate 48 ⟨9, .close⟩ } valve0 valve1, planned work (shut valve0) valve1, planned work valve0 valve1].all
      fun p => stillB p.areaExamine) = true ∧
    ([planned { work with frontier := [], examined := [0, 1] } valve0 valve1, planned work (passing valve0) valve1, planned atOne valve0 (passing valve1),
      planned { atOne with area := 1 :: (List.range 63).map (· + 100) } valve0 (passing valve1),
      planned { work with boundary := List.replicate 48 ⟨9, .close⟩ } valve0 valve1].map fun p => (p.areaExamine.plan.plan.map fun w => (w.phase, w.result))) =
      [some (.supplyWalk, none), some (.areaSearch, some .sourceInArea), some (.supplyWalk, none), some (.areaSearch, some .planTooLarge),
        some (.areaSearch, some .planTooLarge)] ∧
    (1 :: (List.range 63).map (· + 100)).length = 64 ∧ stillB active = true := by decide +kernel

def walking : Workspace := { work with phase := .supplyWalk, frontier := [], reached := [0], walk := [(0, 0)], boundary := [⟨1, .close⟩] }
theorem witness_SupplyWalk :
    ([planned { walking with walk := [] } valve0 valve1, planned walking { valve0 with segB := none } valve1, planned walking (shut valve0) valve1,
      planned walking valve0 valve1, planned { walking with reached := [0, 1], walk := [(1, 1)], boundary := [] } valve0 valve1,
      planned { walking with reached := [0, 1], walk := [(1, 0), (1, 1)] } valve0 valve1].all fun p => stillB p.walkReach && canonicalB p) = true ∧
    ((planned walking valve0 valve1).walkReach.plan.plan.map fun w => (w.reached, w.walk)) = some ([0, 1], [(1, 0), (1, 1)]) ∧
    ((planned { walking with walk := [] } valve0 valve1).walkReach.plan.plan.bind Workspace.result) = some (.commit 1 [2]) ∧
    (planned walking valve0 valve1).segment? 1 = some (segment false false [0, 1]) ∧ stillB active = true := by decide +kernel

/-- A plan that has ended, of an incident in a state, with a zone of a mode and touched entries. -/
def ended (st : IncState) (mode : ZoneMode) (touched : List TouchedEntry) (restarts : Nat) (w : Workspace) : Part :=
  { active with
    inc := { records := [(3, { incident st with touched := touched, restarts := restarts })], next := 8 }
    watch := { active.watch with zones := [(0, { Zone.powerOn with mode := mode })] }
    plan := { queue := [], plan := some w } }
def closes : Workspace := { walking with walk := [], boundary := [⟨0, .close⟩, ⟨1, .none⟩] }
def shuts : Workspace := { walking with walk := [], boundary := [⟨1, .none⟩] }
def touched64 : List TouchedEntry := (List.range 64).map fun v => ⟨v + 100, none, .boundary⟩
/-- Another incident holds valve 1. -/
def sharing (p : Part) : Part :=
  { p with
    inc := { p.inc with
      records := p.inc.records ++ [(5, { incident .held with number := 8, area := [2], boundary := [], touched := [⟨1, some 40, .boundary⟩] })] } }
theorem witness_PlanComplete :
    ([ended .held .auto [] 0 { closes with result := some (.commit 0 []) }, ended .planning .auto [] 0 { closes with number := 6, result := some (.commit 0 []) },
      ended .planning .auto [] 0 { closes with result := some .sourceInArea }, ended .planning .auto [] 0 { closes with result := some .planTooLarge },
      ended .planning .auto [] 2 { closes with result := some (.disturbed (.valve 0)) },
      ended .planning .auto [] 3 { closes with result := some (.disturbed (.valve 0)) },
      sharing (ended .planning .auto touched64 0 { shuts with result := some (.commit 0 []) }),
      ended .planning .auto touched64 0 { shuts with result := some (.commit 0 []) },
      ended .planning .auto [] 0 { closes with result := some (.commit 0 [2]) }, ended .planning .confirm [] 0 { closes with result := some (.commit 0 []) },
      ended .planning .auto [] 0 { closes with result := some (.commit 0 []) }, ended .planning .auto [] 0 { shuts with result := some (.commit 0 []) }].map
      fun p => (stillB p.completePlan, (p.completePlan.incident? 3).map Incident.state)) =
      [(true, some .held), (true, some .planning), (true, some .held), (true, some .held), (true, some .planning), (true, some .held),
        (true, some .held), (true, some .verifying), (true, some .confirmWait), (true, some .confirmWait), (true, some .closing),
        (true, some .verifying)] := by decide +kernel
/-- A walk with nothing to reach: segment 2 runs dry, and it is protected. -/
theorem witness_PlanComplete_emptyWalk :
    let p := ended .planning .auto [] 0 closes
    closes.result = none ∧ closes.phase = .supplyWalk ∧ closes.walk = [] ∧ canonicalB p = true ∧
    (Table.keys p.net.segments).filter (fun g => !closes.area.contains g && !closes.reached.contains g) = [2] ∧
    p.walkResult closes = .commit 1 [2] ∧ stillB p.completePlan = true := by decide +kernel
theorem witness_PlanComplete_joins :
    (let p := sharing (ended .planning .auto [] 0 shuts)
     p.incident? 5 = some { incident .held with number := 8, area := [2], boundary := [], touched := [⟨1, some 40, .boundary⟩] } ∧
       canonicalB p = true ∧ p.sharedJoins 3 (incident .planning) [⟨1, .none⟩] = [⟨1, some 40, .boundary⟩]) ∧
    (∀ e ∈ (ended .planning .auto [] 0 shuts).inc.records, e.1 ≠ 3 → e.2.touches 1 = false) ∧ (incident .planning).touches 0 = true ∧
    (∀ w, active.plan.plan = some w → w.result = none) ∧ stillB active = true ∧
    (let p := { sharing (withIncident .planWait active) with plan := { queue := [⟨5, 8⟩, ⟨3, 7⟩], plan := none } }
     p.urgencyOf 5 = 1 ∧ p.urgencyOf 3 = 1 ∧ p.incident? 5 ≠ none) :=
  by
  refine ⟨?_, ?_, ?_, fun w h => (by cases h), ?_⟩ <;> decide +kernel

/-! ## Witnesses: reading, and the operator's orders -/

theorem witness_ReadOrders :
    tookAll [Part.readTrace 0 district, Part.readTrace 1 district, Part.readTrace 16 district, Part.readTrace 17 district,
      Part.readStatus district, Part.readIncident 0 district, Part.readIncident 256 district, Part.readIncident 255 district,
      Part.readIncident 7 (withIncident .held active)] = [.badArgument, .ok, .ok, .okClamped, .ok, .badArgument, .badArgument, .noSuch, .ok] ∧
    tookAll [Part.readEntry 0 0 district, Part.readEntry 8 0 district, Part.readEntry 1 2048 district, Part.readEntry 2 4096 district,
      Part.readEntry 3 8 district, Part.readEntry 4 16 district, Part.readEntry 5 512 district, Part.readEntry 6 64 district,
      Part.readEntry 7 0 district, Part.readEntry 7 65280 district] = List.replicate 10 .badArgument ∧
    tookAll [Part.readEntry 1 2047 district, Part.readEntry 2 4095 district, Part.readEntry 3 7 district, Part.readEntry 4 15 district,
      Part.readEntry 5 511 district, Part.readEntry 7 65534 district] = List.replicate 6 .noSuch ∧
    tookAll [Part.readEntry 1 0 district, Part.readEntry 2 1 district, Part.readEntry 3 0 district, Part.readEntry 4 0 district,
      Part.readEntry 5 1 district, Part.readEntry 6 63 district, Part.readEntry 7 100 district] = List.replicate 7 .ok ∧
    canonicalB district = true ∧ district.byNumber 255 = none ∧ (withIncident .held active).byNumber 7 = some (3, incident .held) := by
  decide +kernel

theorem witness_Declare :
    canonicalB (withIncident .held active) = true ∧ canonicalB { active with inc := eight } = true ∧
    (let wide : Part := { active with inc := { records := [(3, { incident .held with burst := 2, area := [2, 1] })], next := 8 } }
     canonicalB wide = true ∧
     tookAll [Part.declare 2048 0 active, Part.declare 2047 0 active, Part.declare 1 0 (withIncident .held active), Part.declare 1 0 wide,
       Part.declare 2 0 { active with inc := eight }, Part.declare 2 3 active, Part.declare 2 4 active] =
       [.badArgument, .noSuch, .duplicate, .absorbed, .tableFull, .ok, .okClamped]) ∧
    (∀ r, r < 8 → ({ active with inc := eight } : Part).incident? r ≠ none) ∧ (incident .held).repeats ≤ 255 ∧
    active.incident? 0 = none ∧ active.segment? 2 = some (segment false true [1]) ∧
    (let p := { active with inc := { active.inc with next := 255, records := [(0, { incident .held with number := 255 })] } }
     1 ≤ p.inc.next ∧ p.inc.next ≤ 255 ∧ (p.inc.next + 0 - 1) % 255 + 1 = 255 ∧ p.nextNumber = 1) := by decide +kernel

/-- The incident with nothing touched, or with a restoration begun, or with nothing to close. -/
def untouched (st : IncState) : Part :=
  { active with inc := { records := [(3, { incident st with touched := [], boundary := [⟨1, .none⟩] })], next := 8 } }
def on (n : Nat) (f : Nat → Incident → Part → Part × Answer) (p : Part) : Part × Answer := Part.onIncident n f p
theorem witness_IncidentOrders :
    tookAll [on 0 Part.confirm active, on 256 Part.cancel active, on 255 Part.restore active, on 1 Part.resume active,
      Part.widenOrder 7 0 [] active, Part.widenOrder 7 9 (List.replicate 10 0) active, Part.widenOrder 7 1 [0] active,
      Part.widenOrder 255 1 [0, 0] active] =
      [.badArgument, .badArgument, .noSuch, .noSuch, .badArgument, .badArgument, .badArgument, .noSuch] ∧
    tookAll [on 7 Part.confirm (withIncident .held active), on 7 Part.confirm (withIncident .confirmWait active),
      on 7 Part.confirm (untouched .confirmWait), on 7 Part.cancel (withIncident .held active), on 7 Part.cancel (untouched .held),
      on 7 Part.restore (withIncident .restoring active), on 7 Part.restore (untouched .isolated), on 7 Part.restore (withIncident .isolated active),
      on 7 Part.resume (withIncident .closing active), on 7 Part.resume (withIncident .held active)] =
      [.wrongState, .ok, .ok, .wrongState, .ok, .wrongState, .ok, .ok, .wrongState, .ok] ∧
    tookAll [Part.widenOrder 7 1 [4096, 0] (withIncident .notTight active), Part.widenOrder 7 2 [0, 0] (withIncident .notTight active),
      Part.widenOrder 7 1 [0, 0] (withIncident .held active), Part.widenOrder 7 1 [4095, 0] (withIncident .notTight active),
      Part.widenOrder 7 2 [0, 1] (withIncident .isolated active)] = [.badArgument, .badArgument, .wrongState, .noSuch, .ok] ∧
    canonicalB active = true ∧ active.inc.records = [] ∧ (withIncident .held active).byNumber 7 = some (3, incident .held) ∧
    (∃ b ∈ (incident .held).boundary, b.action = .close) := by decide +kernel

theorem witness_Disturbances :
    active.plan.plan = none ∧ (planned work valve0 valve1).plan.plan = some work ∧ work.result = none ∧
    (∃ g ∈ work.area, Subject.segment 1 = Subject.segment g) ∧ ¬(∃ g ∈ work.area, Subject.segment 2 = Subject.segment g) ∧
    (withIncident .confirmWait active).incident? 3 = some (incident .confirmWait) ∧ 1 ∈ (incident .confirmWait).area ∧
    2 ∉ (incident .confirmWait).area ∧ (∃ b ∈ (incident .confirmWait).boundary, b.valve = 1) ∧
    (∀ b ∈ (incident .confirmWait).boundary, b.valve ≠ 4095) ∧ (withIncident .confirmWait active).valve? 4095 = none ∧
    (∃ b ∈ (incident .closing).boundary, b = ⟨0, .close⟩) ∧ active.usable { valve0 with operability := .seized } = false ∧
    (∃ b ∈ (incident .verifying).boundary, b = ⟨1, .none⟩) := by decide +kernel

/-! ## Witnesses: requests, runs, hand-overs and restorations -/

/-- A run of valve 0 as given, for incident 7 in a state. -/
def serve (c : StepCtx) (st : IncState) (p : Part) : Part :=
  { moving c p with inc := { records := [(3, incident st)], next := 8 } }
/-- Valve 0 and valve 1 as given. -/
def valved (a b : Valve) (p : Part) : Part := { p with net := { p.net with valves := [(0, a), (1, b)] } }
def crewed (l : List CrewReq) (p : Part) : Part := { p with seq := { p.seq with crew := l } }
def waited (l : List WaitEntry) (p : Part) : Part := { p with seq := { p.seq with waiting := l } }
def requests : List CrewReq := [⟨1, 3, false, .close⟩, ⟨1, 3, true, .opened⟩]
def held0 : Valve := { valve0 with holdCount := 1 }
def seized1 : Valve := { valve1 with operability := .seized }

theorem witness_CrewReport_asked :
    (let p := crewed requests (withIncident .closing active)
     tookAll [Part.crewReport 1 0 p, Part.crewReport 1 1 p, Part.crewReport 1 2 p, Part.crewReport 1 2 (valved held0 seized1 p)] =
       List.replicate 4 .ok ∧ ((Part.crewReport 1 2 p).1.incident? 3).map Incident.state = some .planning ∧
       ((Part.crewReport 1 0 p).1.seq.crew) = [⟨1, 3, true, .opened⟩]) ∧ valve1.kind = .manual ∧ seized1.operability = .seized := by
  decide +kernel

theorem witness_RestartOrder_pushed :
    (let e : PendEntry := { code := 0, frames := [longFrame], restart := true }
     let p := busyLine false (active.setNotices (e :: heap 7))
     restB p = true ∧ boundedB p = true ∧ 16 ≤ ((p.line .control).queues.get .c3).length ∧ p.mgmt.notices = e :: heap 7 ∧
       (heap 7).length = 7 ∧ e.restart = true) := by decide +kernel

theorem witness_ReportItems_windows :
    ([sensor40, { sensor40 with excursion := .low }].all fun x => ([⟨16#8, 1#8, 1#8, 94#8⟩, ⟨16#8, 1#8, 1#8, 95#8⟩].all fun i =>
      restB ((verifying x meter1).offerItem 100 i))) = true ∧ (verifying sensor40 meter1).ver ≠ [] ∧
    (let p := valved (shut held0) valve1 (withIncident .isolated active)
     restB (p.offerItem 100 ⟨8#8, 3#8, 0#8, 3#8⟩) = true ∧
       ((p.offerItem 100 ⟨8#8, 3#8, 0#8, 3#8⟩).incident? 3).map (fun i => (i.state, i.heldReason)) = some (.held, some .breach) ∧
       ((p.offerItem 100 ⟨8#8, 3#8, 0#8, 2#8⟩).incident? 3).map Incident.state = some .isolated) ∧
    ([Operability.local, .seized].all fun o => restB ((Part.writeOper 0 o (moving travelling active)).endContext 0)) = true ∧
    ([⟨8#8, 4#8, 9#8, 1#8⟩, ⟨8#8, 4#8, 9#8, 2#8⟩, ⟨8#8, 4#8, 8#8, 2#8⟩].all fun i =>
      restB ((moving travelling active).offerItem 100 i)) = true ∧ boundedB (moving travelling active) = true := by decide +kernel
theorem witness_ReportItems_taken :
    ([(querying, .closing, 40), ({ travelling with dropAfterStep := true }, .closing, 77), ({ travelling with target := some 0 }, .closing, 2),
      ({ travelling with run := .restoring, target := some 100 }, .restoring, 98), (travelling, .closing, 73), (travelling, .closing, 72)].map
      fun e : StepCtx × IncState × Nat =>
        (canonicalB (serve e.1 e.2.1 active), ((Part.takePosition id 0 e.2.2 (serve e.1 e.2.1 active)).context? 0).map StepCtx.phase)) =
      [(true, some .travelling), (true, none), (true, none), (true, none), (true, some .dwelling), (true, some .travelling)] ∧
    (active.context? 0 = none ∧ (serve travelling .closing active).vclass? 0 = some class5) ∧
    (incident .restoring).touched.find? (fun t => decide (t.valve = 0)) = some ⟨0, some 100, .boundary⟩ := by decide +kernel

theorem witness_ControlFrames_override :
    (let p := withIncident .isolated active
     p.incident? 3 = some (incident .isolated) ∧ (incident .isolated).holds 0 = true ∧ p.firstHolder 0 = 7 ∧
       ((p.overrideAll 4 [0]).incident? 3).map (fun i => (i.state, i.heldReason)) = some (.held, some .override) ∧
       ((p.overrideAll 4 [0]).valve? 0).map Valve.operability = some .local) := by decide +kernel

/-- A frame of the sequencer that waits for places on some lines, line 0 sending with its class 3 held by one more frame. -/
def queuing (kind : OrderKind) (ls : List Line) : Part :=
  let p := serve { travelling with phase := .pending } .closing active
  let p := p.setLine .f0 { p.line .f0 with queues := ⟨[], [], [], [⟨longFrame, false⟩]⟩, sending := some ⟨longFrame, false⟩ }
  { p with seq := { p.seq with frames := [{ valve := 0, kind := kind, frame := { longFrame with ctl := controlByte .order 7 }, lines := ls }] } }
theorem witness_Queues_field :
    (active.classOf { longFrame with ctl := controlByte .order 7 } = .c3 ∧ canonicalB (queuing .move [.f0]) = true) ∧
    ([queuing .move [.f0], queuing .query [.f0], queuing .poll [.f0], queuing .move [.f0, .f1]].map fun p =>
      (stillB (p.transmitEnd .f0), ((p.transmitEnd .f0).line .f0).queues.c3.length, (p.transmitEnd .f0).seq.frames.length,
        ((p.transmitEnd .f0).context? 0).map StepCtx.phase)) =
      [(true, 1, 0, some .travelling), (true, 1, 0, some .querying), (true, 1, 0, some .pending), (true, 1, 1, some .pending)] ∧
    stillB ({ queuing .move [.f0] with mgmt := district.mgmt }.transmitEnd .f0) = true ∧
    stillB ((queuing .move [.f1]).transmitEnd .f0) = true := by decide +kernel
theorem witness_Queues_parts :
    (let f := { longFrame with ctl := controlByte .notice 6 }
     let others : List PendEntry := [{ code := 3, frames := [f], restart := false }]
     district.classOf f = .c3 ∧ ((district.line .control).queues.get .c3).length < 16 ∧
       16 ≤ (((busyLine false district).line .control).queues.get .c3).length ∧ (district.queueParts [] false [f, f]).2 = [] ∧
       (district.queueParts others false [f, f]).2 = [f, f] ∧ ((busyLine false district).queueParts [] false [f]).2 = [f]) := by
  decide +kernel

def shutStation (p : Part) : Part := { p with stations := { p.stations with entries := [(0, { station0 with blocked := true })] } }
theorem witness_StepTimers_more :
    (let p := valved { held0 with operability := .seized, moveTag := some 9 } valve1 (moving travelling active)
     stillB (Part.travelExpiry 0 p) = true ∧ restB (p.endContext 0) = true) ∧
    (let p := shutStation pollingPart
     stillB (Part.pollExpiry 0 p) = true ∧ restB (p.endContext 0) = true ∧ (Part.pollExpiry 0 p).context? 0 = none) ∧
    stillB (Part.dwellExpiry 0 (serve { ctx0 with run := .restoring } .restoring active)) = true := by decide +kernel
/-- The calculation points, run by run: released, halted, ended, asked, final both ways, a step, a step clamped, a limit both ways. -/
def points : List Part :=
  [valved { held0 with holdCount := 2 } valve1 (serve { ctx0 with run := .restoring } .restoring active), serve ctx0 .closing district,
   serve ctx0 .isolated active, valved { held0 with opening := none } valve1 (serve { ctx0 with reached := none } .closing active),
   serve { ctx0 with reached := some 0 } .closing active, serve { ctx0 with run := .restoring, reached := some 100 } .restoring active,
   serve ctx0 .closing active,
   { weak (serve ctx0 .closing active) with watch := { active.watch with zones := [(0, { Zone.powerOn with saturation := .clamp })] } },
   weak (serve ctx0 .closing active), weak (serve { ctx0 with run := .restoring, reached := some 0 } .restoring active)]
theorem witness_StepTimers_points :
    (points.map fun p => ((p.calcPoint id 0).context? 0).map StepCtx.phase) =
      [none, some .halted, none, some .querying, none, none, some .travelling, some .travelling, none, none] ∧
    ((points.drop 4).map fun p => ((p.context? 0).bind fun c =>
      p.surgeInput held0 (c.reached.getD 100) (if c.run = .closing then 0 else 100)).map SurgeInput.calc) =
      [some .final, some .final, some (.step 50 50), some (.clamped 99 11), some (.limit 11), some (.limit 16)] := by decide +kernel
theorem witness_StepTimers_orders :
    (canonicalB (serve ctx0 .closing active) = true ∧ (∃ r ∈ ctx0.serves, (serve ctx0 .closing active).urgencyOf r = 1)) ∧
    (let p := shutStation (serve ctx0 .closing active)
     ((p.formMove id 0 held0 ctx0 75 25).context? 0 = none ∧ (p.formQuery id 0 held0 ctx0).context? 0 = none)) ∧
    (let p := jammed (serve ctx0 .closing active)
     ((p.formMove id 0 held0 ctx0 75 25).seq.frames.map SeqFrame.kind = [.move] ∧
       (p.formQuery id 0 held0 ctx0).seq.frames.map SeqFrame.kind = [.query])) := by decide +kernel

theorem witness_VerifyWindow_early :
    (([dry40, damp40].map fun x => ((Part.earlyTest 0 x (verifying x meter1) 3).incident? 3).map Incident.verdict) =
      [some (some .tight), some none]) ∧ (verifying dry40 meter1).now < 3000 ∧
    ((Part.earlyTest 0 { dry40 with place := 2 } (verifying dry40 meter1) 3).incident? 3).map Incident.state = some .verifying ∧
    Table.look (verifying dry40 meter1).ver 7 = none ∧
    ([valved (shut held0) (shut valve1) (withIncident .closing active), valved held0 (shut valve1) (withIncident .closing active),
      valved (shut held0) (shut valve1) (withIncident .held active)].map fun p => ((p.testVerify 3).incident? 3).map Incident.state) =
      [some .verifying, some .closing, some .held] := by decide +kernel

theorem witness_PlanComplete_adjust :
    ([(active.roleOf [1] [⟨0, .close⟩] 0), (active.roleOf [0, 1] [] 0), (active.roleOf [1] [] 0)] = [.boundary, .interior, .abandoned]) ∧
    (let p := sharing (serve { ctx0 with serves := [3, 5] } .closing active)
     canonicalB p = true ∧ [0].Pairwise (· < ·) ∧ ((p.adjustBoundary 5).context? 0).map StepCtx.serves = some [3] ∧
       (⟨0, .close⟩ : BoundaryEntry) ∉ [] ∧ ((p.leaveServes 6 0).context? 0) = p.context? 0) ∧
    ((Part.leaveServes 3 0 (serve travelling .closing active)).context? 0).map StepCtx.dropAfterStep = some true ∧
    (Part.leaveServes 3 0 (serve ctx0 .closing active)).context? 0 = none := by decide +kernel

/-- Incident 7, in CLOSING, closes the valves given; its touched list as given. -/
def handing (l : List BoundaryEntry) (t : List TouchedEntry) (p : Part) : Part :=
  { p with inc := { records := [(3, { incident .closing with boundary := l, touched := t })], next := 8 } }
theorem witness_PlanComplete_handOver :
    (let m : List BoundaryEntry := [⟨1, .close⟩]
     let a : List BoundaryEntry := [⟨0, .close⟩]
     let other : StepCtx := { ctx0 with serves := [5] }
     ([crewed requests (handing m [] active), valved valve0 (shut valve1) (handing m [] active), handing m touched64 active, handing m [] active].map
       fun p => (((p.handEntry 3 1).incident? 3).map Incident.state, (p.handEntry 3 1).seq.crew.length)) =
       [(some .closing, 2), (some .closing, 0), (some .held, 0), (some .closing, 1)] ∧
     ([handing a [] active, waited [⟨0, 0, 3, .closing⟩] (handing a [] active), handing a [] (serve { ctx0 with phase := .halted } .closing active),
       handing a [] (serve ctx0 .closing active), handing a [] (serve { other with run := .restoring } .closing active),
       handing a touched64 (serve other .closing active), handing a [] (serve other .closing active),
       handing a [] (serve { other with phase := .halted } .closing active)].map fun p =>
       ((p.handEntry 3 0).seq.waiting.length, ((p.handEntry 3 0).context? 0).map fun c => (c.serves, c.phase))) =
       [(1, none), (1, none), (0, some ([3], .travelling)), (0, some ([3], .dwelling)), (1, some ([5], .dwelling)),
         (0, some ([5], .dwelling)), (0, some ([5, 3], .dwelling)), (0, some ([5, 3], .travelling))]) ∧
    active.segment? valve0.segA = some (segment true false [0]) := by decide +kernel

/-- Two incidents that wait for a slot of zone 0. -/
def queue2 (st : IncState) : Part := waited [⟨0, 1, 5, .closing⟩, ⟨0, 0, 3, .closing⟩] (sharing (withIncident st active))
theorem witness_PlanComplete_grants :
    ((queue2 .closing).zoneList 0).map WaitEntry.record = [3, 5] ∧
    ((queue2 .closing).incident? 3 ≠ none ∧ (queue2 .closing).incident? 5 ≠ none) ∧
    (queue2 .closing).nextGrant = some ⟨0, 0, 3, .closing⟩ ∧ (queue2 .held).nextGrant = none ∧
    (let p := queue2 .closing
     p.nextHalted = none ∧ restB (p.grant id ⟨0, 0, 3, .closing⟩) = true ∧
       ((p.grant id ⟨0, 0, 3, .closing⟩).context? 0).map StepCtx.phase = some .travelling) ∧
    (let p := waited [⟨0, 0, 3, .closing⟩] (handing [⟨0, .close⟩] touched64 active)
     ((p.grant id ⟨0, 0, 3, .closing⟩).context? 0 = none ∧ ((p.grant id ⟨0, 0, 3, .closing⟩).incident? 3).map Incident.state = some .held)) ∧
    (let p := waited [⟨0, 0, 3, .restoring⟩] (withIncident .restoring active)
     ((p.grant id ⟨0, 0, 3, .restoring⟩).incident? 3 = none ∧
       ((valved { held0 with holdCount := 2 } valve1 p).grant id ⟨0, 0, 3, .restoring⟩).context? 0 = none)) ∧
    (let p := serve { ctx0 with phase := .halted } .closing active
     p.nextHalted = some 0 ∧ restB (p.calcPoint id 0) = true ∧ canonicalB p = true) := by decide +kernel
/-- A step that is ordered, and a grant that begins with a step or a QUERY, releases no slot, whatever the grants that would follow. -/
theorem witness_PlanComplete_settled (g : Part → Part) :
    (queue2 .closing).grant g ⟨0, 0, 3, .closing⟩ = (queue2 .closing).grant id ⟨0, 0, 3, .closing⟩ ∧
    (serve { ctx0 with phase := .halted } .closing active).calcPoint g 0 =
      (serve { ctx0 with phase := .halted } .closing active).calcPoint id 0 := ⟨rfl, rfl⟩

theorem witness_ReadOrders_status :
    (let p := { sharing (withIncident .planWait active) with plan := { queue := [⟨5, 8⟩, ⟨3, 7⟩], plan := none } }
     took (Part.readStatus p) = (true, .ok) ∧ [PlanEntry.mk 5 8, ⟨3, 7⟩].Pairwise (fun a b => p.urgencyOf b.record ≤ p.urgencyOf a.record) ∧
       p.plan.queue.filter (fun x => decide (p.urgencyOf x.record = 1)) = [⟨5, 8⟩, ⟨3, 7⟩]) ∧
    [1].Pairwise (· < ·) ∧ district.sensor? 1 = some meter1 ∧ meter1.kind = .flow ∧ sensor40.lastValue = some 500 ∧
    ({ sensor40 with lastValue := none } : Sensor).lastValue = none ∧ (district.zone 0).latch = none ∧
    ((latched .confirm false district).zone 0).latch = some suspect1 := by decide +kernel

theorem witness_IncidentOrders_freed :
    (let p := withIncident .restoring active
     p.incident? 3 = some (incident .restoring) ∧ ((p.freeIncident 3 .restored).incident? 3 = none ∧ (p.endTouched 3 0 true).incident? 3 = none) ∧
       ((p.removeIncident 3).valve? 0).map Valve.holdCount = some 0 ∧ (p.endTouched 3 1 false).incident? 3 = some (incident .restoring) ∧
       ((Part.endTouched 3 0 true (withIncident .held active)).incident? 3).map Incident.short = some true ∧
       (p.valve? 1 = some valve1 ∧ p.valve? 9 = none)) ∧
    ((latched .confirm false active).offerRecords.inc.records.length = 1 ∧ (latched .confirm false district).offerRecords = latched .confirm false district) ∧
    ((latched .confirm false active).zone 0).latch = some suspect1 ∧ (active.zone 0).latch = none := by decide +kernel
theorem witness_IncidentOrders_dispatch :
    ([serve { ctx0 with run := .restoring } .restoring active, serve { ctx0 with serves := [3, 5] } .restoring active,
      serve { ctx0 with phase := .halted } .restoring active, serve ctx0 .restoring active].map fun p =>
      ((Part.reverseContext 3 p 0).context? 0).map fun c => (c.run, c.serves)) =
      [some (.restoring, [3]), some (.closing, [5]), none, some (.restoring, [3])] ∧
    (let entry : TouchedEntry := ⟨1, some 0, .boundary⟩
     let manual := fun (t : TouchedEntry) => ({ active with
       inc := { records := [(3, { incident .restoring with boundary := [], touched := [t] })], next := 8 } } : Part)
     let at50 := valved { held0 with opening := some 50 } valve1 (withIncident .restoring active)
     (incident .restoring).touched = [] ++ ⟨0, some 100, .boundary⟩ :: [] ∧
     ([withIncident .held active, serve ctx0 .restoring active, waited [⟨0, 0, 3, .restoring⟩] at50, withIncident .restoring active,
       valved { held0 with holdCount := 2 } valve1 (withIncident .restoring active), at50].map fun p =>
       (((p.dispatchEntry 3 7 0).incident? 3).isSome, (p.dispatchEntry 3 7 0).seq.waiting.length)) =
       [(true, 0), (true, 0), (true, 1), (false, 0), (false, 0), (true, 1)] ∧
     ([crewed requests (manual entry), manual entry, manual { entry with prior := some 100 }].map fun p =>
       (p.dispatchEntry 3 7 1).seq.crew.map CrewReq.dir) = [[.close, .opened], [.close], [.opened]]) := by decide +kernel

theorem witness_Disturbances_announced :
    active.incident? 7 = none ∧ (withIncident .closing active).incident? 3 = some (incident .closing) ∧
    (Disturb.ofWrite (.segment 1)).subject = .segment 1 := by decide +kernel

end Sys2Proof.Tests
end

