-- ==== Sys2Proof/Proofs/NetworkClasses.lean ====
section
/-! PROOFS. What only the configuring commands change (O12), and the loads and clears of material and valve classes
(O17, O18, O19). -/

namespace Sys2Proof.Machine

/-! ## The step and the configuration -/

/-- Settles O12: a step is a command of the queue, which `exec_configured` covers, or an idle step. -/
theorem onlyOrdersConfigure : Obligations.OnlyOrdersConfigure := by
  intro s t h g c
  unfold step at h
  split at h
  · rename_i i rest hp
    exact exec_configured i { s with pending := rest } t h (g i (by rw [hp]; rfl)) c
  · cases h
    exact (keeps_idle s).config c

/-! ## Clamps, results and refusals -/

theorem clampTo_eq_max_min {lo hi : Nat} (n : Nat) (h : lo ≤ hi) : clampTo lo hi n = max lo (min n hi) := by
  unfold clampTo
  split
  · omega
  · split <;> omega

theorem clampTo_eq_self_iff {lo hi n : Nat} (h : lo ≤ hi) : clampTo lo hi n = n ↔ lo ≤ n ∧ n ≤ hi := by
  rw [clampTo_eq_max_min n h]; omega

/-- The result of a load is OK just where nothing was clamped. -/
theorem loaded_decide {b : Bool} {c : Prop} [Decidable c] (h : b = false ↔ c) :
    loaded b = if c then .ok else .okClamped := by
  unfold loaded
  cases b <;> simp_all

@[simp] theorem refuse_eq (r : Result) (p : Part) : refuse r p = (p, .bare r) := rfl

/-- The tests are taken in order: the first that applies refuses the order. -/
theorem examine_cons (b : Bool) (r : Result) (l : List (Bool × Result)) (take : Part → Part × Answer) (p : Part) :
    examine ((b, r) :: l) take p = if b then (p, .bare r) else examine l take p := by
  cases b <;> rfl

/-- An order that no test refuses is taken. -/
@[simp] theorem examine_nil (take : Part → Part × Answer) (p : Part) : examine [] take p = take p := rfl

/-! ## Material classes (R4) -/

theorem loadMaterial_out_of_range {cls : Word} (speed rating : Word) (p : Part) (h : 7 < cls.toNat) :
    p.loadMaterial cls speed rating = (p, .bare .badArgument) := if_pos h

theorem loadMaterial_taken {cls : Word} (speed rating : Word) (p : Part) (h : cls.toNat ≤ 7) :
    p.loadMaterial cls speed rating =
      (p.putMaterial cls.toNat ⟨max 200 (min speed.toNat 1500), max 600 (min rating.toNat 2500)⟩,
        .bare (if 200 ≤ speed.toNat ∧ speed.toNat ≤ 1500 ∧ 600 ≤ rating.toNat ∧ rating.toNat ≤ 2500 then .ok
          else .okClamped)) := by
  have hs := clampTo_eq_self_iff (n := speed.toNat) (show 200 ≤ 1500 by decide)
  have hr := clampTo_eq_self_iff (n := rating.toNat) (show 600 ≤ 2500 by decide)
  unfold Part.loadMaterial
  rw [if_neg (by omega), ← clampTo_eq_max_min _ (by decide), ← clampTo_eq_max_min _ (by decide)]
  refine Prod.ext rfl (congrArg Answer.bare (loaded_decide ?_))
  simp [hs, hr, and_assoc]

/-- Settles O17. -/
theorem materialClassLoad : Obligations.MaterialClassLoad := by
  intro m cls speed rating s i p hq
  refine ⟨fun h => ?_, fun h => ?_⟩
  · exact State.takes_rest rfl (loadMaterial_out_of_range speed rating p h) hq
  · exact State.takes_rest rfl (loadMaterial_taken speed rating p h) hq

/-- The tests of a CLEAR of a material class, in order. -/
theorem clearMaterial_eq (cls : Word) (p : Part) :
    p.clearMaterial cls =
      if 7 < cls.toNat then (p, .bare .badArgument)
      else if p.material? cls.toNat = none then (p, .bare .noSuch)
      else if ∃ e ∈ p.net.valves, e.2.material = cls.toNat then (p, .bare .referenced)
      else (p.removeMaterial cls.toNat, .bare .ok) := by
  simp only [Part.clearMaterial, examine_cons, examine_nil, decide_eq_true_eq, Option.isNone_iff_eq_none, List.any_eq_true]

/-! ## Valve classes (R5) -/

/-- A chain of a transitive relation holds of every pair. -/
theorem chained_iff_pairwise {rel : Nat → Nat → Bool} (trans : ∀ a b c, rel a b → rel b c → rel a c) (l : List Nat) :
    chained rel l = true ↔ l.Pairwise (fun a b => rel a b = true) := by
  induction l with
  | nil => simp [chained]
  | cons a l ih =>
    cases l with
    | nil => simp [chained]
    | cons b l =>
      have tail : (rel a b = true → (b :: l).Pairwise (fun a b => rel a b = true) →
          ∀ c ∈ b :: l, rel a c = true) := by
        intro hab hbl c hc
        rcases List.mem_cons.1 hc with rfl | hc
        · exact hab
        · exact trans a b c hab ((List.pairwise_cons.1 hbl).1 c hc)
      rw [chained, Bool.and_eq_true, ih, List.pairwise_cons (a := a)]
      exact ⟨fun ⟨hab, hbl⟩ => ⟨tail hab hbl, hbl⟩, fun ⟨hall, hbl⟩ => ⟨hall b List.mem_cons_self, hbl⟩⟩

theorem curveOk_iff (c : List Nat) :
    curveOk c = true ↔ c.length = 11 ∧ c.head? = some 0 ∧ c.getLast? = some 1000 ∧ c.Pairwise (· ≤ ·) := by
  have h := chained_iff_pairwise (rel := fun a b => decide (a ≤ b)) (by simpa using fun a b c => Nat.le_trans) c
  simp only [curveOk, Bool.and_eq_true, h, decide_eq_true_eq, and_assoc]

theorem profileOk_iff (c : List Nat) :
    profileOk c = true ↔
      2 ≤ c.length ∧ c.length ≤ 8 ∧ (∀ n ∈ c, n ≤ 100) ∧ c.Pairwise (· > ·) ∧ c.getLast? = some 0 := by
  have h := chained_iff_pairwise (rel := fun a b => decide (b < a))
    (by simpa using fun a b c (h : b < a) (k : c < b) => Nat.lt_trans k h) c
  simp only [profileOk, Bool.and_eq_true, h, decide_eq_true_eq, List.all_eq_true, and_assoc, gt_iff_lt]

theorem clampPoll_eq (n : Nat) : clampPoll n = if n = 0 then 0 else max 5 (min n 120) := by
  rw [clampPoll, clampTo_eq_max_min n (by decide)]

/-- The tests of R5 on the index, CURVE and PROFILE of a LOAD of a valve class. -/
def vclassFits (cls count : Word) (curve : List Word) (profile : List Byte) : Prop :=
  cls.toNat ≤ 15 ∧ curveOk (curve.map BitVec.toNat) = true ∧ count.toNat ≤ 8 ∧
    profileOk ((profile.take count.toNat).map BitVec.toNat) = true

theorem loadVClass_unfit {cls count : Word} {curve : List Word} {profile : List Byte} (t10 allowance dwell poll : Word)
    (p : Part) (h : ¬vclassFits cls count curve profile) :
    p.loadVClass cls count curve profile t10 allowance dwell poll = (p, .bare .badArgument) := by
  refine if_pos ?_
  by_contra k
  simp only [Bool.or_eq_true, decide_eq_true_eq, Bool.not_eq_true', not_or, not_lt, Bool.not_eq_false] at k
  obtain ⟨⟨⟨hcls, hcurve⟩, hcount⟩, hprofile⟩ := k
  exact h ⟨hcls, hcurve, hcount, hprofile⟩

/-- The class a LOAD writes, its four times clamped (R5). -/
def loadedVClass (count : Word) (curve : List Word) (profile : List Byte) (t10 allowance dwell poll : Word) : ValveClass :=
  { curve := curve.map BitVec.toNat, profile := (profile.take count.toNat).map BitVec.toNat,
    t10 := max 1 (min t10.toNat 120), allowance := max 5 (min allowance.toNat 300),
    dwell := max 1 (min dwell.toNat 600), poll := if poll.toNat = 0 then 0 else max 5 (min poll.toNat 120) }

theorem loadVClass_fit {cls count : Word} {curve : List Word} {profile : List Byte} (t10 allowance dwell poll : Word)
    (p : Part) (h : vclassFits cls count curve profile) :
    let x := loadedVClass count curve profile t10 allowance dwell poll
    p.loadVClass cls count curve profile t10 allowance dwell poll =
      (p.putVClass cls.toNat x,
        .bare (if x.t10 = t10.toNat ∧ x.allowance = allowance.toNat ∧ x.dwell = dwell.toNat ∧ x.poll = poll.toNat then .ok
          else .okClamped)) := by
  intro x
  obtain ⟨hcls, hcurve, hcount, hprofile⟩ := h
  have fit : ¬(decide (15 < cls.toNat) || !curveOk (curve.map BitVec.toNat) || decide (8 < count.toNat) ||
      !profileOk ((profile.take count.toNat).map BitVec.toNat)) = true := by
    rw [hcurve, hprofile]
    simp [hcls, hcount]
  have hx : x =
      { curve := curve.map BitVec.toNat, profile := (profile.take count.toNat).map BitVec.toNat,
        t10 := clampTo 1 120 t10.toNat, allowance := clampTo 5 300 allowance.toNat,
        dwell := clampTo 1 600 dwell.toNat, poll := clampPoll poll.toNat } := by
    simp only [x, loadedVClass, clampPoll_eq, clampTo_eq_max_min _ (show 1 ≤ 120 by decide),
      clampTo_eq_max_min _ (show 5 ≤ 300 by decide), clampTo_eq_max_min _ (show 1 ≤ 600 by decide)]
  refine (if_neg fit).trans ?_
  rw [hx]
  refine Prod.ext rfl (congrArg Answer.bare (loaded_decide ?_))
  simp [and_assoc]

/-- Settles O18. -/
theorem valveClassLoad : Obligations.ValveClassLoad := by
  intro m cls count curve profile t10 allowance dwell poll s i p c b good x wellFormed hq
  have hlen : profile.length = 8 := by
    have : curve.length = 11 ∧ profile.length = 8 := by simpa [i, Instr.wellFormed] using wellFormed
    exact this.2
  have fits_iff : vclassFits cls count curve profile ↔ good := by
    have hb : count.toNat ≤ 8 → b.length = count.toNat := fun h => by simp [b, hlen, h]
    unfold vclassFits
    rw [curveOk_iff, profileOk_iff]
    refine and_congr_right fun _ => and_congr_right fun _ => ?_
    constructor
    · rintro ⟨hcount, h2, -, hrest⟩
      exact ⟨hb hcount ▸ h2, hcount, hrest⟩
    · rintro ⟨h2, hcount, hrest⟩
      exact ⟨hcount, (hb hcount).symm ▸ h2, (hb hcount).symm ▸ hcount, hrest⟩
  refine ⟨fun h => ?_, fun h => ?_⟩
  · exact State.takes_rest rfl (loadVClass_unfit t10 allowance dwell poll p (mt fits_iff.1 h)) hq
  · exact State.takes_rest rfl (loadVClass_fit t10 allowance dwell poll p (fits_iff.2 h)) hq

/-- The tests of a CLEAR of a valve class, in order. -/
theorem clearVClass_eq (cls : Word) (p : Part) :
    p.clearVClass cls =
      if 15 < cls.toNat then (p, .bare .badArgument)
      else if p.vclass? cls.toNat = none then (p, .bare .noSuch)
      else if ∃ e ∈ p.net.valves, e.2.vclass = cls.toNat then (p, .bare .referenced)
      else (p.removeVClass cls.toNat, .bare .ok) := by
  simp only [Part.clearVClass, examine_cons, examine_nil, decide_eq_true_eq, Option.isNone_iff_eq_none, List.any_eq_true]

/-- Settles O19. -/
theorem classClears : Obligations.ClassClears := by
  constructor
  · intro m cls s i p named hq
    have takes {e : Part} {a : Answer} (he : p.clearMaterial cls = (e, a)) (hq : e.quiet) : s.takes i m e a :=
      State.takes_rest rfl he hq
    rw [clearMaterial_eq] at takes
    refine ⟨fun h => ?_, fun h hfree => ?_, fun h hloaded hnamed => ?_, fun h hloaded hnamed => ?_⟩
    · exact takes (if_pos h) hq
    · exact takes (by rw [if_neg (by omega), if_pos hfree]) hq
    · exact takes (by rw [if_neg (by omega), if_neg hloaded, if_pos hnamed]) hq
    · exact takes (by rw [if_neg (by omega), if_neg hloaded, if_neg hnamed]) hq
  · intro m cls s i p named hq
    have takes {e : Part} {a : Answer} (he : p.clearVClass cls = (e, a)) (hq : e.quiet) : s.takes i m e a :=
      State.takes_rest rfl he hq
    rw [clearVClass_eq] at takes
    refine ⟨fun h => ?_, fun h hfree => ?_, fun h hloaded hnamed => ?_, fun h hloaded hnamed => ?_⟩
    · exact takes (if_pos h) hq
    · exact takes (by rw [if_neg (by omega), if_pos hfree]) hq
    · exact takes (by rw [if_neg (by omega), if_neg hloaded, if_pos hnamed]) hq
    · exact takes (by rw [if_neg (by omega), if_neg hloaded, if_neg hnamed]) hq

end Sys2Proof.Machine
end

