-- ==== Sys2Proof/Proofs/SegmentOrders.lean ====
section
/-! PROOFS. The loads and clears of segments (O20, O21). -/

namespace Sys2Proof.Machine

/-! ## Flags, optional ids and the part's mode -/

theorem flagOf_eq (b : Byte) : flagOf b = if 1 < b.toNat then none else some (decide (b = 1#8)) := by
  unfold flagOf
  split_ifs <;> first | rfl | (simp; bv_omega) | bv_omega

theorem optionalId_eq (w : Word) : optionalId w = if w = 65535#16 then none else some w.toNat := rfl

theorem isActive_iff (p : Part) : p.isActive = true ↔ p.mgmt.mode = .active := decide_eq_true_iff

theorem isActive_eq_false_iff (p : Part) : p.isActive = false ↔ p.mgmt.mode = .transparent := by
  unfold Part.isActive
  cases p.mgmt.mode <;> simp

/-! ## Use by an incident (R18) -/

theorem segmentInUse_iff (p : Part) (g : Nat) : p.segmentInUse g = true ↔ ∃ e ∈ p.inc.records, g ∈ e.2.area := by
  simp [Part.segmentInUse]

theorem holdsValveOf_iff (p : Part) (g : Nat) :
    p.holdsValveOf g = true ↔ ∃ e ∈ p.net.valves, e.2.segA = g ∧ 0 < e.2.holdCount := by
  simp [Part.holdsValveOf]

theorem hasSensorOn_iff (p : Part) (g : Nat) :
    p.hasSensorOn g = true ↔ ∃ e ∈ p.watch.sensors, e.2.kind = .pressure ∧ e.2.place = g := by
  simp [Part.hasSensorOn]

/-! ## LOAD_SEGMENT (R2, R18) -/

/-- Test 1 of R2, with the flag codes of the order. -/
def segmentArgsBad (segment zone : Word) (source prot : Byte) (ref : Word) : Prop :=
  2047 < segment.toNat ∨ 63 < zone.toNat ∨ 1 < source.toNat ∨ 1 < prot.toNat ∨ (ref ≠ 65535#16 ∧ 511 < ref.toNat)

/-- The record a LOAD of a segment writes, with the valve list it keeps (R2). -/
def segmentOfLoad (zone : Word) (source prot : Byte) (static ref : Word) (valves : List Nat) : Segment :=
  { zone := zone.toNat, source := decide (source = 1#8), prot := decide (prot = 1#8), static := min static.toNat 4095,
    ref := optionalId ref, valves := valves }

/-- The load would change the ZONE of a loaded segment (R18). -/
def Part.rezones (p : Part) (g zone : Nat) : Bool := (p.segment? g).any fun x => decide (x.zone ≠ zone)

theorem rezones_iff (p : Part) (g zone : Nat) :
    p.rezones g zone = true ↔ ∃ x, p.segment? g = some x ∧ x.zone ≠ zone := by
  simp [Part.rezones, Option.any_eq_true]

theorem segmentLoadUse_eq (p : Part) (g zone : Nat) :
    p.segmentLoadUse g zone =
      [(p.isActive && p.segmentInUse g, .inUse),
       (!p.isActive && p.segmentInUse g && p.rezones g zone, .referenced),
       (p.rezones g zone && p.holdsValveOf g, .referenced)] := by
  unfold Part.segmentLoadUse Part.rezones
  cases p.segment? g <;> rfl

theorem refOutOfRange_iff (ref : Word) : 511 < (optionalId ref).getD 0 ↔ ref ≠ 65535#16 ∧ 511 < ref.toNat := by
  rw [optionalId_eq]
  split_ifs with h <;> simp [h]

theorem loadSegment_bad {segment zone : Word} {source prot : Byte} {ref : Word} (static : Word) (p : Part)
    (h : segmentArgsBad segment zone source prot ref) :
    p.loadSegment segment zone source prot static ref = (p, .bare .badArgument) := by
  unfold Part.loadSegment
  simp only [flagOf_eq]
  by_cases hs : 1 < source.toNat
  · simp [hs]
  · by_cases hp : 1 < prot.toNat
    · simp [hs, hp]
    · have hbad : (2047 < segment.toNat ∨ 63 < zone.toNat) ∨ 511 < (optionalId ref).getD 0 := by
        rw [refOutOfRange_iff]
        rcases h with h | h | h | h | h
        · exact .inl (.inl h)
        · exact .inl (.inr h)
        · exact absurd h hs
        · exact absurd h hp
        · exact .inr h
      simp [hs, hp, examine_cons, hbad]

theorem loadSegment_fit {segment zone : Word} {source prot : Byte} {ref : Word} (static : Word) (p : Part)
    (h : ¬segmentArgsBad segment zone source prot ref) :
    p.loadSegment segment zone source prot static ref =
      examine (p.segmentLoadUse segment.toNat zone.toNat)
        (fun p =>
          ((p.putSegment segment.toNat (segmentOfLoad zone source prot static ref
              (((p.segment? segment.toNat).map Segment.valves).getD []))).announce (.ofWrite (.segment segment.toNat)),
            .bare (if static.toNat ≤ 4095 then .ok else .okClamped))) p := by
  obtain ⟨hg, hz, hs, hp, hr⟩ : ¬2047 < segment.toNat ∧ ¬63 < zone.toNat ∧ ¬1 < source.toNat ∧ ¬1 < prot.toNat ∧
      ¬511 < (optionalId ref).getD 0 := by
    rw [refOutOfRange_iff]; simpa only [segmentArgsBad, not_or] using h
  have hstatic : loaded (decide (4095 < static.toNat)) = if static.toNat ≤ 4095 then .ok else .okClamped :=
    loaded_decide (by simp)
  simp [Part.loadSegment, flagOf_eq, hs, hp, examine_cons, hg, hz, hr, hstatic, segmentOfLoad]

/-- Settles O20. -/
theorem segmentLoad : Obligations.SegmentLoad := by
  intro m segment zone source prot static ref s i p g bad used rezoned holding x e
  have hactive := isActive_iff p
  have hused : p.segmentInUse segment.toNat = true ↔ used := segmentInUse_iff p g
  have hrezoned : p.rezones segment.toNat zone.toNat = true ↔ rezoned := rezones_iff p g zone.toNat
  have hholding : p.holdsValveOf segment.toNat = true ↔ holding := holdsValveOf_iff p g
  have hx : segmentOfLoad zone source prot static ref (((p.segment? segment.toNat).map Segment.valves).getD []) = x := by
    simp only [x, g, segmentOfLoad]
    cases p.segment? g <;> rfl
  have takes {e : Part} {a : Answer} (he : p.loadSegment segment zone source prot static ref = (e, a)) (hq : e.quiet) :
      s.takes i m e a := State.takes_rest rfl he hq
  have fit (h : ¬bad) := loadSegment_fit (segment := segment) (zone := zone) (source := source) (prot := prot)
    (ref := ref) static p h
  simp only [segmentLoadUse_eq, examine_cons, examine_nil, Bool.and_eq_true, Bool.not_eq_true', ← Bool.not_eq_true,
    hactive, hused, hrezoned, hholding] at fit
  refine ⟨fun h hq => ?_, fun h hinUse hq => ?_, fun h hinUse href hq => ?_, fun h hinUse href hq => ?_⟩
  · exact takes (loadSegment_bad static p h) hq
  · exact takes ((fit h).trans (if_pos hinUse)) hq
  · refine takes ((fit h).trans ?_) hq
    rw [if_neg hinUse]
    obtain ⟨hz, hu | hh⟩ := href
    · rw [if_pos ⟨⟨fun ha => hinUse ⟨ha, hu⟩, hu⟩, hz⟩]
    · split
      · rfl
      · rw [if_pos ⟨hz, hh⟩]
  · refine takes ((fit h).trans ?_) hq
    rw [if_neg hinUse, if_neg (fun k => href ⟨k.2, .inl k.1.2⟩), if_neg (fun k => href ⟨k.1, .inr k.2⟩), hx]
    rfl

/-! ## CLEAR_SEGMENT (R3, R18) -/

theorem clearSegment_free {segment : Word} {p : Part} (h : p.segment? segment.toNat = none) :
    p.clearSegment segment = (p, .bare (if 2047 < segment.toNat then .badArgument else .noSuch)) := by
  simp [Part.clearSegment, h]

theorem clearSegment_loaded {segment : Word} {p : Part} {x : Segment} (h : p.segment? segment.toNat = some x) :
    p.clearSegment segment =
      if 2047 < segment.toNat then (p, .bare .badArgument)
      else if p.segmentInUse segment.toNat = true then (p, .bare (if p.mgmt.mode = .active then .inUse else .referenced))
      else if x.valves ≠ [] ∨ p.hasSensorOn segment.toNat = true then (p, .bare .referenced)
      else ((p.removeSegment segment.toNat).announce (.ofWrite (.segment segment.toNat)), .bare .ok) := by
  simp [Part.clearSegment, h, examine_cons, isActive_iff]

/-- Settles O21. -/
theorem segmentClear : Obligations.SegmentClear := by
  intro m segment s i p g used metered e
  have hused : p.segmentInUse g = true ↔ used := segmentInUse_iff p g
  have hmetered : p.hasSensorOn g = true ↔ metered := hasSensorOn_iff p g
  have takes {e : Part} {a : Answer} (he : p.clearSegment segment = (e, a)) (hq : e.quiet) : s.takes i m e a :=
    State.takes_rest rfl he hq
  refine ⟨fun h hq => ?_, fun h hfree hq => ?_, fun x h hx => ?_⟩
  · cases hx : p.segment? g with
    | none => exact takes ((clearSegment_free hx).trans (by rw [if_pos h])) hq
    | some x => exact takes ((clearSegment_loaded hx).trans (if_pos h)) hq
  · exact takes ((clearSegment_free hfree).trans (by rw [if_neg (by omega)])) hq
  · have taken := clearSegment_loaded hx
    rw [if_neg (by omega)] at taken
    simp only [g, hused, hmetered] at taken hused hmetered
    refine ⟨fun hu hq => ?_, fun hu hk hq => ?_, fun hu hv hm hq => ?_⟩
    · exact takes (taken.trans (if_pos hu)) hq
    · exact takes (taken.trans ((if_neg hu).trans (if_pos hk))) hq
    · exact takes (taken.trans ((if_neg hu).trans (if_neg (by simp [hv, hm])))) hq

end Sys2Proof.Machine
end

