-- ==== Sys2Proof/Proofs/ValveStates.lean ====
section
/-! PROOFS. The derived statuses (O43), the changes of a station entry (O34), and VALVE_STATE (O25) with the writing of an
OPERABILITY. -/

namespace Sys2Proof.Machine

/-! ## Derived statuses (R16, R17, R71) -/

theorem countsAsClosed_iff (x : Valve) :
    x.countsAsClosed = true ↔ x.opening = some 0 ∨ (x.opening = none ∧ x.normal = .closed) := by
  unfold Valve.countsAsClosed
  cases x.opening <;> simp

theorem standsShut_iff (x : Valve) :
    x.standsShut = true ↔ x.countsAsClosed = true ∧ (x.operability = .operable ∨ x.operability = .seized) := by
  simp [Valve.standsShut]

/-- The entry of an address is the one that the table finds, for no other in-use entry has the address (R142). -/
theorem station?_iff {p : Part} (c : p.canonical) (k : p.stationsKept) (address n : Nat) (e : Station) :
    p.station? address = some (n, e) ↔ Table.look p.stations.entries n = some e ∧ e.address = address := by
  unfold Part.station?
  constructor
  · intro h
    refine ⟨Table.look_of_mem c.entries (List.mem_of_find?_eq_some h), ?_⟩
    simpa using List.find?_some h
  · rintro ⟨hn, ha⟩
    obtain ⟨⟨n', e'⟩, hf⟩ : ∃ r, p.stations.entries.find? (fun e => decide (e.2.address = address)) = some r := by
      rw [← Option.isSome_iff_exists, List.find?_isSome]
      exact ⟨(n, e), Table.mem_of_look hn, by simpa using ha⟩
    have hn' := Table.look_of_mem c.entries (List.mem_of_find?_eq_some hf)
    have ha' : e'.address = address := by simpa using List.find?_some hf
    obtain rfl := k.distinct n n' e e' hn hn' (ha.trans ha'.symm)
    rw [hf, Option.some.inj (hn.symm.trans hn')]

theorem heard_iff {p : Part} (c : p.canonical) (k : p.stationsKept) (address : Nat) :
    p.heard address = true ↔ ∃ n e, Table.look p.stations.entries n = some e ∧ e.address = address ∧
      (e.age = .touched ∨ e.age = .untouched) ∧ e.blocked = false := by
  have age (a : Age) : a ≠ .silent ↔ a = .touched ∨ a = .untouched := by cases a <;> simp
  unfold Part.heard
  cases h : p.station? address with
  | none =>
    refine ⟨fun f => absurd f (by simp), ?_⟩
    rintro ⟨n, e, hn, ha, -, -⟩
    rw [(station?_iff c k address n e).2 ⟨hn, ha⟩] at h
    cases h
  | some r =>
    obtain ⟨n, e⟩ := r
    obtain ⟨hn, ha⟩ := (station?_iff c k address n e).1 h
    simp only [Bool.and_eq_true, decide_eq_true_eq, Bool.not_eq_true', age]
    refine ⟨fun ⟨hage, hb⟩ => ⟨n, e, hn, ha, hage, hb⟩, ?_⟩
    rintro ⟨n', e', hn', ha', hage, hb⟩
    obtain rfl := k.distinct n n' e e' hn hn' (ha.trans ha'.symm)
    obtain rfl := Option.some.inj (hn.symm.trans hn')
    exact ⟨hage, hb⟩

/-- Settles O43. -/
theorem derivedStatuses : Obligations.DerivedStatuses := by
  intro p x c k
  refine ⟨countsAsClosed_iff x, ?_, ?_⟩
  · simp only [Part.usable, Bool.and_eq_true, Bool.or_eq_true, decide_eq_true_eq, heard_iff c k]
  · rw [standsShut_iff, countsAsClosed_iff]

/-! ## Changes of a station entry (R20, R149) -/

theorem Table.wf_iff_keys_pairwise {α : Type} (t : Table α) : t.wf = true ↔ (Table.keys t).Pairwise (· < ·) := by
  induction t with
  | nil => simp [Table.wf, Table.keys]
  | cons e t ih =>
    obtain ⟨i, a⟩ := e
    rw [Table.wf_cons, ih]
    simp [Table.keys]

/-- The numbers of the records of a canonical table that meet a test. -/
theorem Table.mem_keys_filter {α : Type} {t : Table α} (h : t.wf = true) (f : Nat × α → Bool) (k : Nat) :
    k ∈ Table.keys (t.filter f) ↔ ∃ a, t.look k = some a ∧ f (k, a) = true := by
  simp only [Table.keys, List.mem_map, List.mem_filter, Prod.exists, exists_and_right, exists_eq_right,
    Table.mem_iff_look h]

theorem hostedBy_iff (x : Valve) (address : Nat) :
    x.hostedBy address = true ↔ x.kind = .actuated ∧ x.station = address := by
  simp [Valve.hostedBy]

theorem hosts_iff (p : Part) (address : Nat) :
    p.hosts address = true ↔ ∃ e ∈ p.net.valves, e.2.kind = .actuated ∧ e.2.station = address := by
  simp only [Part.hosts, List.any_eq_true, hostedBy_iff]

/-- Announcing a disturbance for each of a list of valves. -/
theorem announceAll_map (p : Part) {α : Type} (f : α → Disturb) (l : List α) :
    p.announceAll (l.map f) = l.foldl (fun q a => q.announce (f a)) p := List.foldl_map

/-- Settles O34: the valves told are those that `usableChanges` lists. -/
theorem stationChanges : Obligations.StationChanges := by
  intro before p address c
  refine ⟨⟨before.usableChanges p address, announceAll_map p Disturb.ofStation _, ?_, fun v => ?_⟩, fun code value => ?_⟩
  · exact (Table.wf_iff_keys_pairwise _).1 (Table.wf_filter _ c.valves)
  · rw [Part.usableChanges, Table.mem_keys_filter c.valves]
    simp only [Part.valve?, Bool.and_eq_true, hostedBy_iff, decide_eq_true_eq, and_assoc]
  · intro hosted
    have h : p.hosts address = true ↔ hosted := hosts_iff p address
    exact ⟨fun k => if_pos (h.2 k), fun k => if_neg (mt h.1 k)⟩

/-! ## Writing an OPERABILITY (R10) -/

theorem writeOper_same {p : Part} {v : Nat} {x : Valve} (hx : p.valve? v = some x) : p.writeOper v x.operability = p := by
  simp [Part.writeOper, hx]

theorem writeOper_changed {p : Part} {v : Nat} {x : Valve} {o : Operability} (hx : p.valve? v = some x)
    (h : x.operability ≠ o) :
    p.writeOper v o =
      (p.putValve v { x with operability := o }).record .operability none (some (.valve v)) (some o.num) := by
  simp [Part.writeOper, hx, h]

@[simp] theorem valve?_record (p : Part) (c n s x) (v : Nat) : (p.record c n s x).valve? v = p.valve? v := rfl

theorem valve?_putValve (p : Part) (v w : Nat) (x : Valve) :
    (p.putValve v x).valve? w = if w = v then some x else p.valve? w := Table.look_put _ _ _ _

@[simp] theorem valve?_putValve_self (p : Part) (v : Nat) (x : Valve) : (p.putValve v x).valve? v = some x :=
  Table.look_put_self _ _ _

/-- The OPERABILITY that is written stands. -/
theorem operOf_writeOper {p : Part} {v : Nat} {x : Valve} (hx : p.valve? v = some x) (o : Operability) :
    (p.writeOper v o).operOf v = some o := by
  by_cases h : x.operability = o
  · subst h; simp [writeOper_same hx, Part.operOf, hx]
  · simp [writeOper_changed hx h, Part.operOf]

@[simp] theorem announceAll_nil (p : Part) : p.announceAll [] = p := rfl

@[simp] theorem announceAll_singleton (p : Part) (d : Disturb) : p.announceAll [d] = p.announce d := by
  simp only [Part.announceAll, List.foldl_cons, List.foldl_nil]

/-- A write of an OPERABILITY is announced just where the value differs. -/
theorem operChange_writeOper {p : Part} {v : Nat} {x : Valve} (hx : p.valve? v = some x) (o : Operability) :
    p.operChange (p.writeOper v o) v = if x.operability = o then [] else [.ofOper v] := by
  rw [Part.operChange, operOf_writeOper hx]
  simp [Part.operOf, hx]

theorem setOper_same {p : Part} {v : Nat} {x : Valve} (hx : p.valve? v = some x) : p.setOper v x.operability = p := by
  rw [Part.setOper, operChange_writeOper hx, writeOper_same hx, if_pos rfl, announceAll_nil]

theorem setOper_changed {p : Part} {v : Nat} {x : Valve} {o : Operability} (hx : p.valve? v = some x)
    (h : x.operability ≠ o) :
    p.setOper v o =
      ((p.putValve v { x with operability := o }).record .operability none (some (.valve v)) (some o.num)).announce
        (.ofOper v) := by
  rw [Part.setOper, operChange_writeOper hx, writeOper_changed hx h, if_neg h, announceAll_singleton]

/-! ## VALVE_STATE (R11) -/

/-- The value of a VALVE_STATE order's code 0, 1 or 4. -/
def stateOfCode (w : Word) : Operability :=
  if w = 0#16 then .operable else if w = 1#16 then .seized else .outOfService

theorem stateOperabilityOf_eq (w : Word) :
    stateOperabilityOf w = if w.toNat ∈ [0, 1, 4] then some (stateOfCode w) else none := by
  have toNat (k : Nat) (hk : k < 65536) : w.toNat = k ↔ w = BitVec.ofNat 16 k := by
    rw [← BitVec.toNat_inj]; simp [Nat.mod_eq_of_lt hk]
  simp only [List.mem_cons, List.not_mem_nil, or_false, toNat 0 (by decide), toNat 1 (by decide), toNat 4 (by decide)]
  unfold stateOperabilityOf stateOfCode
  split_ifs <;> simp_all

/-- The tests of a VALVE_STATE order of a code in its set. -/
theorem valveState_eq (valve operability : Word) (p : Part) :
    p.valveState valve operability =
      if 4095 < valve.toNat ∨ operability.toNat ∉ [0, 1, 4] then (p, .bare .badArgument)
      else match p.valve? valve.toNat with
        | none => (p, .bare .noSuch)
        | some x => if x.moveTag.isSome then (p, .bare .busy) else (p.setOper valve.toNat (stateOfCode operability), .bare .ok) := by
  unfold Part.valveState
  rw [stateOperabilityOf_eq]
  by_cases ho : operability.toNat ∈ [0, 1, 4]
  · simp only [ho, if_true, not_true_eq_false, or_false]; rfl
  · simp only [ho, if_false, not_false_eq_true, or_true, if_true, refuse_eq]

/-- Settles O25. -/
theorem valveState : Obligations.ValveState := by
  intro m valve operability s i p v bad o
  have takes {e : Part} {a : Answer} (he : p.valveState valve operability = (e, a)) (hq : e.quiet) : s.takes i m e a :=
    State.takes_rest rfl he hq
  rw [valveState_eq] at takes
  refine ⟨fun h hq => takes (if_pos h) hq, fun h hfree hq => ?_, fun x h hx => ?_⟩
  · exact takes (by rw [if_neg h, hfree]) hq
  · intro w e
    rw [if_neg h, hx] at takes
    refine ⟨fun htag hq => ?_, fun htag hsame hq => ?_, fun htag hnew hq => ?_⟩
    · exact takes (if_pos (by simpa [Option.isSome_iff_ne_none] using htag)) hq
    · refine takes ?_ hq
      have hset : p.setOper v o = p := hsame ▸ setOper_same hx
      simp only [htag, Option.isSome_none, Bool.false_eq_true, if_false]
      exact congrArg (·, Answer.bare .ok) hset
    · refine takes ?_ hq
      simp only [htag, Option.isSome_none, Bool.false_eq_true, if_false]
      exact congrArg (·, Answer.bare .ok) (setOper_changed hx hnew)

end Sys2Proof.Machine
end

