-- ==== Sys2Proof/Proofs/ValveOrders.lean ====
section
/-! PROOFS. The loads and clears of valves: the tests of R8 and R9 in their order (O22, O23). -/

namespace Sys2Proof.Machine

/-! ## Use of a valve (R18) -/

theorem bounds_iff (i : Incident) (v : Nat) : i.bounds v = true ↔ ∃ b ∈ i.boundary, b.valve = v := by
  simp [Incident.bounds]

theorem touches_iff (i : Incident) (v : Nat) : i.touches v = true ↔ ∃ t ∈ i.touched, t.valve = v := by
  simp [Incident.touches]

theorem valveInUse_iff (p : Part) (v : Nat) :
    p.valveInUse v = true ↔
      ∃ e ∈ p.inc.records, (∃ b ∈ e.2.boundary, b.valve = v) ∨ ∃ t ∈ e.2.touched, t.valve = v := by
  simp only [Part.valveInUse, List.any_eq_true, Bool.or_eq_true, bounds_iff, touches_iff]

/-- Some segment of a list is in use. -/
theorem any_segmentInUse_iff (p : Part) (l : List Nat) :
    l.any p.segmentInUse = true ↔ ∃ e ∈ p.inc.records, ∃ g ∈ l, g ∈ e.2.area := by
  simp only [List.any_eq_true, segmentInUse_iff]
  exact ⟨fun ⟨g, hg, e, he, h⟩ => ⟨e, he, g, hg, h⟩, fun ⟨e, he, g, hg, h⟩ => ⟨g, hg, e, he, h⟩⟩

/-! ## CLEAR_VALVE (R9) -/

theorem clearKept_iff (p : Part) (v : Nat) (x : Valve) :
    p.clearKept v x = true ↔
      (∃ e ∈ p.inc.records, (∃ b ∈ e.2.boundary, b.valve = v) ∨ (∃ t ∈ e.2.touched, t.valve = v) ∨
        ∃ g ∈ x.segments, g ∈ e.2.area) ∨ 0 < x.holdCount ∨ x.moveTag ≠ none := by
  simp only [Part.clearKept, Bool.or_eq_true, decide_eq_true_eq, valveInUse_iff, any_segmentInUse_iff,
    Option.isSome_iff_ne_none, or_assoc]
  rw [← or_assoc]
  refine or_congr_left ⟨?_, ?_⟩
  · rintro (⟨e, he, h | h⟩ | ⟨e, he, h⟩)
    · exact ⟨e, he, .inl h⟩
    · exact ⟨e, he, .inr (.inl h)⟩
    · exact ⟨e, he, .inr (.inr h)⟩
  · rintro ⟨e, he, h | h | h⟩
    · exact .inl ⟨e, he, .inl h⟩
    · exact .inl ⟨e, he, .inr h⟩
    · exact .inr ⟨e, he, h⟩

theorem clearValve_free {valve : Word} {p : Part} (h : p.valve? valve.toNat = none) :
    p.clearValve valve = (p, .bare (if 4095 < valve.toNat then .badArgument else .noSuch)) := by
  simp [Part.clearValve, h]

theorem clearValve_loaded {valve : Word} {p : Part} {x : Valve} (h : p.valve? valve.toNat = some x) :
    p.clearValve valve =
      if 4095 < valve.toNat then (p, .bare .badArgument)
      else if p.clearKept valve.toNat x = true then (p, .bare (if p.mgmt.mode = .active then .inUse else .referenced))
      else
        ((((x.segments.foldl (Part.unlist valve.toNat) p).unindex x).removeValve valve.toNat).announceAll
          (.ofWrite (.valve valve.toNat) :: x.segments.map fun g => .ofWrite (.segment g)), .bare .ok) := by
  simp only [Part.clearValve, h, examine_cons, examine_nil, isActive_iff, decide_eq_true_eq]

theorem unindex_eq (x : Valve) (p : Part) :
    p.unindex x = if x.kind = .actuated then p.removeChannel x.station x.channel else p := by
  unfold Part.unindex
  cases x.kind <;> rfl

/-- Settles O23. -/
theorem valveClear : Obligations.ValveClear := by
  intro m valve s i p v
  have takes {e : Part} {a : Answer} (he : p.clearValve valve = (e, a)) (hq : e.quiet) : s.takes i m e a :=
    State.takes_rest rfl he hq
  refine ⟨fun h hq => ?_, fun h hfree hq => ?_, fun x h hx => ?_⟩
  · cases hx : p.valve? v with
    | none => exact takes ((clearValve_free hx).trans (by rw [if_pos h])) hq
    | some x => exact takes ((clearValve_loaded hx).trans (if_pos h)) hq
  · exact takes ((clearValve_free hfree).trans (by rw [if_neg (by omega)])) hq
  · intro segments used kept l e
    have hkept : p.clearKept v x = true ↔ kept := clearKept_iff p v x
    have taken := clearValve_loaded hx
    rw [if_neg (by omega), unindex_eq] at taken
    refine ⟨fun hk hq => ?_, fun hk hq => ?_⟩
    · exact takes (taken.trans (if_pos (hkept.2 hk))) hq
    · exact takes (taken.trans (if_neg (mt hkept.1 hk))) hq

/-! ## The codes of a LOAD_VALVE (R8) -/

/-- A field of two codes is read by its code, 0 or 1. -/
theorem twoCodes_eq {α : Type} (b : Byte) (x y : α) :
    (if b = 0#8 then some x else if b = 1#8 then some y else none) =
      if 1 < b.toNat then none else some (if b = 0#8 then x else y) := by
  have h : 1 < b.toNat ↔ b ≠ 0#8 ∧ b ≠ 1#8 := by bv_omega
  split_ifs <;> simp_all

/-- The initial OPERABILITY of a load's code 0, 1, 2 or 4. -/
def operOfCode (b : Byte) : Operability :=
  if b = 0#8 then .operable else if b = 1#8 then .seized else if b = 2#8 then .passing else .outOfService

theorem loadOperabilityOf_eq (b : Byte) :
    loadOperabilityOf b = if b.toNat ∈ [0, 1, 2, 4] then some (operOfCode b) else none := by
  have toNat (k : Nat) (hk : k < 256) : b.toNat = k ↔ b = BitVec.ofNat 8 k := by
    rw [← BitVec.toNat_inj]; simp [Nat.mod_eq_of_lt hk]
  simp only [List.mem_cons, List.not_mem_nil, or_false, toNat 0 (by decide), toNat 1 (by decide), toNat 2 (by decide),
    toNat 4 (by decide)]
  unfold loadOperabilityOf operOfCode
  split_ifs <;> simp_all

/-- The enumerated fields of a load whose codes lie in their sets. -/
theorem valveCodes_eq (kind normal permitted operability : Byte) :
    valveCodes kind normal permitted operability =
      if 1 < kind.toNat ∨ 1 < normal.toNat ∨ 1 < permitted.toNat ∨ operability.toNat ∉ [0, 1, 2, 4] then none
      else some
        { kind := if kind = 0#8 then .actuated else .manual, normal := if normal = 0#8 then .opened else .closed,
          permitted := decide (permitted = 1#8), operability := operOfCode operability } := by
  unfold valveCodes valveKindOf normalOf
  rw [twoCodes_eq, twoCodes_eq, flagOf_eq, loadOperabilityOf_eq]
  by_cases hk : 1 < kind.toNat
  · simp [hk]
  by_cases hn : 1 < normal.toNat
  · simp [hk, hn]
  by_cases hp : 1 < permitted.toNat
  · simp [hk, hn, hp]
  by_cases ho : operability.toNat ∈ [0, 1, 2, 4]
  · simp only [hk, hn, hp, ho, if_true, if_false, or_self, not_true_eq_false]
  · simp only [hk, hn, hp, ho, if_true, if_false, not_false_eq_true, or_true]

/-! ## The tests of a LOAD_VALVE (R8, R18) -/

theorem valveArgsBad_iff (v segA : Nat) (segB : Word) (kind : ValveKind) (station channel material vclass : Nat) :
    valveArgsBad v segA (optionalId segB) kind station channel material vclass = true ↔
      4095 < v ∨ 2047 < segA ∨ (segB ≠ 65535#16 ∧ (2047 < segB.toNat ∨ segB.toNat = segA)) ∨ 7 < material ∨
        15 < vclass ∨ (kind = .actuated ∧ (station = 0 ∨ station = 65535 ∨ 31 < channel)) := by
  unfold valveArgsBad
  rw [optionalId_eq]
  by_cases h : segB = 65535#16 <;>
    simp only [h, if_true, if_false, Bool.or_eq_true, Bool.and_eq_true, decide_eq_true_eq, ne_eq, not_true_eq_false,
      not_false_eq_true, false_and, true_and, false_or, Bool.false_eq_true, or_assoc]

theorem valveRefsFree_iff (p : Part) (x : Valve) :
    p.valveRefsFree x = true ↔
      p.segment? x.segA = none ∨ (∃ g ∈ x.segB, p.segment? g = none) ∨ p.material? x.material = none ∨
        p.vclass? x.vclass = none := by
  simp [Part.valveRefsFree, Valve.segments, or_assoc]

/-- The load would change SEGMENT_A, SEGMENT_B or KIND of a loaded valve (R18). -/
def Valve.rebuilds (old : Option Valve) (new : Valve) : Bool :=
  old.any fun o => o.segA ≠ new.segA || o.segB ≠ new.segB || o.kind ≠ new.kind

theorem rebuilds_iff (old : Option Valve) (new : Valve) :
    Valve.rebuilds old new = true ↔ ∃ o, old = some o ∧ (o.segA ≠ new.segA ∨ o.segB ≠ new.segB ∨ o.kind ≠ new.kind) := by
  simp [Valve.rebuilds, Option.any_eq_true, or_assoc]

theorem valveLoadUse_eq (p : Part) (v : Nat) (old : Option Valve) (new : Valve) :
    p.valveLoadUse v old new =
      [(p.isActive && (p.valveInUse v || (listLosses old new ++ listGains old new).any p.segmentInUse), .inUse),
       (!p.isActive && ((p.valveInUse v && Valve.rebuilds old new) ||
          (listLosses old new ++ listGains old new).any p.segmentInUse), .referenced)] := by
  unfold Part.valveLoadUse Valve.rebuilds
  cases old <;> rfl

theorem pairTaken_iff (p : Part) (v : Nat) (x : Valve) :
    p.pairTaken v x = true ↔
      x.kind = .actuated ∧ ∃ t, p.channel? x.station x.channel = some t ∧ t ≠ .valve v := by
  unfold Part.pairTaken
  cases p.channel? x.station x.channel <;> simp

theorem listFull_iff (p : Part) (g : Nat) :
    p.listFull g = true ↔ ∃ y, p.segment? g = some y ∧ 8 ≤ y.valves.length := by
  unfold Part.listFull
  cases p.segment? g <;> simp

/-! ## LOAD_VALVE (R8) -/

section
variable (valve segA segB : Word) (kind normal : Byte) (station : Word)
  (channel permitted material vclass operability : Byte) (velocity diameter : Word)

/-- Test 1 of R8. -/
def valveLoadBad : Prop :=
  4095 < valve.toNat ∨ 2047 < segA.toNat ∨ (segB ≠ 65535#16 ∧ (2047 < segB.toNat ∨ segB = segA)) ∨ 1 < kind.toNat ∨
    1 < normal.toNat ∨ 1 < permitted.toNat ∨ operability.toNat ∉ [0, 1, 2, 4] ∨ 7 < material.toNat ∨ 15 < vclass.toNat ∨
    (kind = 0#8 ∧ (station = 0#16 ∨ station = 65535#16 ∨ 31 < channel.toNat))

/-- The record of a first load (R7, R8). -/
def valveOfLoad : Valve :=
  { segA := segA.toNat, segB := optionalId segB, kind := if kind = 0#8 then .actuated else .manual,
    station := if kind = 0#8 then station.toNat else 0, channel := if kind = 0#8 then channel.toNat else 0,
    material := material.toNat, vclass := vclass.toNat, velocity := min velocity.toNat 3000,
    diameter := max 50 (min diameter.toNat 1600), normal := if normal = 0#8 then .opened else .closed,
    overridePermitted := decide (permitted = 1#8), initial := operOfCode operability, opening := none,
    positionTime := none, operability := operOfCode operability, holdCount := 0, moveTag := none }

theorem kindOfCode_actuated_iff : (if kind = 0#8 then ValveKind.actuated else .manual) = .actuated ↔ kind = 0#8 := by
  split_ifs <;> simp_all

/-- Test 1 of R8 is made by the codes and by `valveArgsBad`. -/
theorem valveLoadBad_iff :
    valveLoadBad valve segA segB kind normal station channel permitted material vclass operability ↔
      (1 < kind.toNat ∨ 1 < normal.toNat ∨ 1 < permitted.toNat ∨ operability.toNat ∉ [0, 1, 2, 4]) ∨
        valveArgsBad valve.toNat segA.toNat (optionalId segB) (if kind = 0#8 then .actuated else .manual) station.toNat
          channel.toNat material.toNat vclass.toNat = true := by
  have h0 : station.toNat = 0 ↔ station = 0#16 := by bv_omega
  have h1 : station.toNat = 65535 ↔ station = 65535#16 := by bv_omega
  have regroup (a b c d e f g h i j : Prop) :
      a ∨ b ∨ c ∨ d ∨ e ∨ f ∨ g ∨ h ∨ i ∨ j ↔ (d ∨ e ∨ f ∨ g) ∨ a ∨ b ∨ c ∨ h ∨ i ∨ j := by tauto
  rw [valveArgsBad_iff, kindOfCode_actuated_iff, h0, h1, BitVec.toNat_inj]
  exact regroup _ _ _ _ _ _ _ _ _ _

theorem loadValve_bad (p : Part)
    (h : valveLoadBad valve segA segB kind normal station channel permitted material vclass operability) :
    p.loadValve valve segA segB kind normal station channel permitted material vclass operability velocity diameter =
      (p, .bare .badArgument) := by
  unfold Part.loadValve
  rw [valveCodes_eq]
  rw [valveLoadBad_iff] at h
  by_cases hc : 1 < kind.toNat ∨ 1 < normal.toNat ∨ 1 < permitted.toNat ∨ operability.toNat ∉ [0, 1, 2, 4]
  · rw [if_pos hc]; rfl
  · rw [if_neg hc]; exact if_pos (h.resolve_left hc)

theorem loadValve_fit (p : Part)
    (h : ¬valveLoadBad valve segA segB kind normal station channel permitted material vclass operability) :
    let old := p.valve? valve.toNat
    let new := Valve.keepRunning old (valveOfLoad segA segB kind normal station channel permitted material vclass
      operability velocity diameter)
    p.loadValve valve segA segB kind normal station channel permitted material vclass operability velocity diameter =
      examine
        ([(p.valveRefsFree new, .noSuch)] ++ p.valveLoadUse valve.toNat old new ++
          [(p.pairTaken valve.toNat new, .duplicate), ((listGains old new).any p.listFull, .listFull)])
        (Part.takeValve valve.toNat old new
          (if velocity.toNat ≤ 3000 ∧ 50 ≤ diameter.toNat ∧ diameter.toNat ≤ 1600 then .ok else .okClamped)) p := by
  intro old new
  rw [valveLoadBad_iff, not_or] at h
  obtain ⟨hcodes, hargs⟩ := h
  have hvelocity : new.velocity = min velocity.toNat 3000 := by simp only [new]; cases old <;> rfl
  have hdiameter : new.diameter = max 50 (min diameter.toNat 1600) := by simp only [new]; cases old <;> rfl
  have hresult : loaded (new.velocity ≠ velocity.toNat || new.diameter ≠ diameter.toNat) =
      if velocity.toNat ≤ 3000 ∧ 50 ≤ diameter.toNat ∧ diameter.toNat ≤ 1600 then .ok else .okClamped := by
    refine loaded_decide ?_
    rw [hvelocity, hdiameter]
    simp only [Bool.or_eq_false_iff, decide_eq_false_iff_not, not_not]
    omega
  rw [← hresult]
  unfold Part.loadValve
  rw [valveCodes_eq, if_neg hcodes]
  refine (if_neg hargs).trans ?_
  simp only [clampTo_eq_max_min _ (show 50 ≤ 1600 by decide), kindOfCode_actuated_iff]
  rfl

end

/-- Settles O22. -/
theorem valveLoad : Obligations.ValveLoad := by
  intro m valve segA segB kind normal station channel permitted material vclass operability velocity diameter s i p v
    actuated bad free old x changed used lists rebuilt inUse referenced taken full q e
  have takes {e : Part} {a : Answer}
      (he : p.loadValve valve segA segB kind normal station channel permitted material vclass operability velocity diameter =
        (e, a)) (hq : e.quiet) : s.takes i m e a := State.takes_rest rfl he hq
  have hnew : Valve.keepRunning old (valveOfLoad segA segB kind normal station channel permitted material vclass
      operability velocity diameter) = x := by
    simp only [x]
    cases old <;> rfl
  have hfree : p.valveRefsFree x = true ↔ free := by
    rw [valveRefsFree_iff]
    simp only [x, free]
    by_cases hb : segB = 65535#16 <;> simp [hb]
  have hinUse : (p.isActive = true ∧ (p.valveInUse v = true ∨ changed.any p.segmentInUse = true)) ↔ inUse := by
    rw [isActive_iff, valveInUse_iff, any_segmentInUse_iff]
  have hreferenced : (p.isActive = false ∧
      (p.valveInUse v = true ∧ Valve.rebuilds old x = true ∨ changed.any p.segmentInUse = true)) ↔ referenced := by
    rw [isActive_eq_false_iff, valveInUse_iff, any_segmentInUse_iff, rebuilds_iff]
  have htaken : p.pairTaken v x = true ↔ taken := by
    rw [pairTaken_iff]
    simp only [x, taken, actuated, kindOfCode_actuated_iff]
    exact and_congr_right fun h => by rw [if_pos h, if_pos h]
  have hfull : (listGains old x).any p.listFull = true ↔ full := by
    simp only [List.any_eq_true, listFull_iff, full]
  have fit (h : ¬bad) := loadValve_fit valve segA segB kind normal station channel permitted material vclass operability
    velocity diameter p h
  simp only [show p.valve? valve.toNat = old from rfl, hnew, valveLoadUse_eq, List.cons_append, List.nil_append,
    examine_cons, examine_nil, Bool.and_eq_true, Bool.or_eq_true, Bool.not_eq_true'] at fit
  simp only [show valve.toNat = v from rfl, show listLosses old x ++ listGains old x = changed from rfl, hfree, hinUse,
    hreferenced, htaken, hfull] at fit
  refine ⟨fun h hq => ?_, fun h hf hq => ?_, fun h hf hu hq => ?_, fun h hf hr hq => ?_, fun h hf hu hr ht hq => ?_,
    fun h hf hu hr ht hl hq => ?_, fun h hf hu hr ht hl hq => ?_⟩
  · exact takes (loadValve_bad _ _ _ _ _ _ _ _ _ _ _ _ _ p h) hq
  · exact takes ((fit h).trans (if_pos hf)) hq
  · exact takes ((fit h).trans (by rw [if_neg hf, if_pos hu])) hq
  · have hu : ¬inUse := fun k => absurd (k.1.symm.trans hr.1) (by simp)
    exact takes ((fit h).trans (by rw [if_neg hf, if_neg hu, if_pos hr])) hq
  · exact takes ((fit h).trans (by rw [if_neg hf, if_neg hu, if_neg hr, if_pos ht])) hq
  · exact takes ((fit h).trans (by rw [if_neg hf, if_neg hu, if_neg hr, if_neg ht, if_pos hl])) hq
  · exact takes ((fit h).trans (by rw [if_neg hf, if_neg hu, if_neg hr, if_neg ht, if_neg hl]; rfl)) hq

end Sys2Proof.Machine
end

