-- ==== Sys2Proof/Proofs/ValveWrites.lean ====
section
/-! PROOFS. What a taken load of a valve writes and announces (O24). -/

namespace Sys2Proof.Machine

/-! ## The valve lists (R12) -/

theorem segment?_putSegment (p : Part) (g k : Nat) (x : Segment) :
    (p.putSegment g x).segment? k = if k = g then some x else p.segment? k := Table.look_put _ _ _ _

/-- Only the segments differ. -/
def Part.relists (p q : Part) : Prop := q = { p with net := { p.net with segments := q.net.segments } }

theorem Part.relists.refl (p : Part) : p.relists p := rfl

theorem Part.relists.trans {p q r : Part} (h : p.relists q) (k : q.relists r) : p.relists r := by
  unfold Part.relists at *
  rw [k, h]

theorem relists_foldl {f : Part → Nat → Part} (hf : ∀ (p : Part) g, p.relists (f p g)) (l : List Nat) (p : Part) :
    p.relists (l.foldl f p) := by
  induction l generalizing p with
  | nil => exact .refl p
  | cons g l ih => exact (hf p g).trans (ih _)

theorem relists_unlist (v : Nat) (p : Part) (g : Nat) : p.relists (p.unlist v g) := by
  unfold Part.unlist
  split <;> rfl

theorem relists_enlist (v : Nat) (p : Part) (g : Nat) : p.relists (p.enlist v g) := by
  unfold Part.enlist
  split <;> rfl

theorem segment?_unlist (v : Nat) (p : Part) (g k : Nat) :
    (p.unlist v g).segment? k =
      (p.segment? k).map fun y => if k = g then { y with valves := y.valves.filter fun w => w ≠ v } else y := by
  unfold Part.unlist
  by_cases hk : k = g
  · subst hk
    cases h : p.segment? k <;> simp [segment?_putSegment, h]
  · cases h : p.segment? g <;> simp [segment?_putSegment, hk]

theorem segment?_enlist (v : Nat) (p : Part) (g k : Nat) :
    (p.enlist v g).segment? k =
      (p.segment? k).map fun y => if k = g then { y with valves := y.valves ++ [v] } else y := by
  unfold Part.enlist
  by_cases hk : k = g
  · subst hk
    cases h : p.segment? k <;> simp [segment?_putSegment, h]
  · cases h : p.segment? g <;> simp [segment?_putSegment, hk]

/-- Taking a valve off a list twice is taking it off once. -/
theorem segment?_unlist_foldl (v : Nat) (l : List Nat) (p : Part) (k : Nat) :
    (l.foldl (Part.unlist v) p).segment? k =
      (p.segment? k).map fun y => if k ∈ l then { y with valves := y.valves.filter fun w => w ≠ v } else y := by
  induction l generalizing p with
  | nil => simp
  | cons g l ih =>
    rw [List.foldl_cons, ih, segment?_unlist, Option.map_map]
    congr 1
    funext y
    by_cases hk : k = g <;> by_cases hl : k ∈ l <;> simp [hk, hl]

theorem segment?_enlist_foldl (v : Nat) {l : List Nat} (h : l.Nodup) (p : Part) (k : Nat) :
    (l.foldl (Part.enlist v) p).segment? k =
      (p.segment? k).map fun y => if k ∈ l then { y with valves := y.valves ++ [v] } else y := by
  induction l generalizing p with
  | nil => simp
  | cons g l ih =>
    obtain ⟨hg, hl⟩ := List.nodup_cons.1 h
    rw [List.foldl_cons, ih hl, segment?_enlist, Option.map_map]
    congr 1
    funext y
    by_cases hk : k = g
    · subst hk; simp [hg]
    · simp [hk]

theorem nodup_segments {x : Valve} (h : x.segB ≠ some x.segA) : x.segments.Nodup := by
  unfold Valve.segments
  cases hb : x.segB with
  | none => simp
  | some b =>
    rw [hb] at h
    simpa using fun e => h (congrArg some e.symm)

/-- Where a valve's load leaves its id in the lists (R12). -/
theorem segment?_listed (v : Nat) (old : Option Valve) {new : Valve} (h : new.segB ≠ some new.segA) (p : Part) (g : Nat) :
    ((listGains old new).foldl (Part.enlist v) ((listLosses old new).foldl (Part.unlist v) p)).segment? g =
      (p.segment? g).map fun y =>
        { y with valves :=
            if g ∈ listLosses old new then y.valves.filter (fun w => w ≠ v)
            else if g ∈ listGains old new then y.valves ++ [v] else y.valves } := by
  have hdisjoint : g ∈ listLosses old new → g ∉ listGains old new := by
    unfold listLosses listGains
    simp only [List.mem_filter, Bool.not_eq_true', List.contains_iff_mem, ← Bool.not_eq_true]
    exact fun hloss hgain => hloss.2 hgain.1
  have hnodup : (listGains old new).Nodup := (nodup_segments h).filter _
  rw [segment?_enlist_foldl v hnodup, segment?_unlist_foldl, Option.map_map]
  congr 1
  funext y
  by_cases hloss : g ∈ listLosses old new
  · simp [hloss, hdisjoint hloss]
  · by_cases hgain : g ∈ listGains old new <;> simp [hloss, hgain]

/-! ## The channel index (R13) -/

/-- Only the channel index differs. -/
def Part.reindexes (p q : Part) : Prop := q = { p with net := { p.net with channels := q.net.channels } }

theorem reindexes_unindex (x : Valve) (p : Part) : p.reindexes (p.unindex x) := by
  unfold Part.unindex
  split <;> rfl

theorem reindexes_index (v : Nat) (x : Valve) (p : Part) : p.reindexes (p.index v x) := by
  unfold Part.index
  split <;> rfl

theorem channels_unindex (x : Valve) (p : Part) (k : Nat) :
    Table.look (p.unindex x).net.channels k =
      if x.kind = .actuated ∧ k = chanKey x.station x.channel then none else Table.look p.net.channels k := by
  unfold Part.unindex
  cases x.kind
  · simpa using Table.look_remove _ _ _
  · simp

theorem channels_index (v : Nat) (x : Valve) (p : Part) (k : Nat) :
    Table.look (p.index v x).net.channels k =
      if x.kind = .actuated ∧ k = chanKey x.station x.channel then some (.valve v) else Table.look p.net.channels k := by
  unfold Part.index
  cases x.kind
  · simpa using Table.look_put _ _ _ _
  · simp

/-! ## The writes of a load (R8) -/

/-- The lists and the index of a load, before its record is written. -/
def Part.moveValve (v : Nat) (old : Option Valve) (new : Valve) (p : Part) : Part :=
  let l := (listGains old new).foldl (Part.enlist v) ((listLosses old new).foldl (Part.unlist v) p)
  (old.elim l l.unindex).index v new

theorem writeValve_eq (v : Nat) (old : Option Valve) (new : Valve) (p : Part) :
    p.writeValve v old new =
      match old with
      | some o => ((p.moveValve v old new).putValve v { new with operability := o.operability }).writeOper v new.operability
      | none => (p.moveValve v old new).putValve v new := by
  cases old <;> rfl

/-- Lists and index move, and nothing else. -/
theorem moveValve_frame (v : Nat) (old : Option Valve) (new : Valve) (p : Part) :
    p.moveValve v old new =
      { p with net :=
          { p.net with
            segments := (p.moveValve v old new).net.segments, channels := (p.moveValve v old new).net.channels } } := by
  have hl : p.relists ((listGains old new).foldl (Part.enlist v) ((listLosses old new).foldl (Part.unlist v) p)) :=
    (relists_foldl (relists_unlist v) _ _).trans (relists_foldl (relists_enlist v) _ _)
  unfold Part.moveValve
  generalize (listGains old new).foldl (Part.enlist v) ((listLosses old new).foldl (Part.unlist v) p) = l at hl ⊢
  have hu : l.reindexes (old.elim l l.unindex) := by
    cases old with
    | none => rfl
    | some o => exact reindexes_unindex o l
  dsimp only
  generalize old.elim l l.unindex = u at hu ⊢
  have hi := reindexes_index v new u
  generalize u.index v new = w at hi ⊢
  unfold Part.relists at hl
  unfold Part.reindexes at hu hi
  rw [hi, hu, hl]

theorem moveValve_segment? (v : Nat) (old : Option Valve) (new : Valve) (p : Part) (g : Nat) :
    (p.moveValve v old new).segment? g =
      ((listGains old new).foldl (Part.enlist v) ((listLosses old new).foldl (Part.unlist v) p)).segment? g := by
  have unindexed (x : Valve) (l : Part) : (l.unindex x).segment? g = l.segment? g := by
    rw [reindexes_unindex x l]; rfl
  unfold Part.moveValve
  dsimp only
  rw [reindexes_index]
  cases old with
  | none => rfl
  | some o => exact unindexed o _

theorem moveValve_channels (v : Nat) (old : Option Valve) (new : Valve) (p : Part) (k : Nat) :
    Table.look (p.moveValve v old new).net.channels k =
      if new.kind = .actuated ∧ k = chanKey new.station new.channel then some (.valve v)
      else if ∃ o ∈ old, o.kind = .actuated ∧ k = chanKey o.station o.channel then none
      else Table.look p.net.channels k := by
  have hl : p.relists ((listGains old new).foldl (Part.enlist v) ((listLosses old new).foldl (Part.unlist v) p)) :=
    (relists_foldl (relists_unlist v) _ _).trans (relists_foldl (relists_enlist v) _ _)
  have hc := congrArg (fun q : Part => q.net.channels) hl
  unfold Part.moveValve
  dsimp only at hc ⊢
  rw [channels_index, ← hc]
  cases old with
  | none => simp
  | some o => simp [channels_unindex]

theorem Table.put_put {α : Type} (t : Table α) (k : Nat) (a b : α) : Table.put (Table.put t k a) k b = Table.put t k b := by
  induction t with
  | nil => simp [Table.put]
  | cons e t ih =>
    obtain ⟨i, c⟩ := e
    simp only [Table.put]
    split_ifs with h1 h2
    · simp [Table.put]
    · simp [Table.put]
    · simp [Table.put, h1, h2, ih]

theorem putValve_putValve (p : Part) (v : Nat) (x y : Valve) : (p.putValve v x).putValve v y = p.putValve v y := by
  simp only [Part.putValve, Table.put_put]

/-- The record stands beside lists and index, and a changed OPERABILITY is traced (R8, R10). -/
theorem writeValve_moved (v : Nat) (old : Option Valve) (new : Valve) (p : Part) :
    p.writeValve v old new =
      if ∃ o ∈ old, o.operability ≠ new.operability then
        ((p.moveValve v old new).putValve v new).record .operability none (some (.valve v)) (some new.operability.num)
      else (p.moveValve v old new).putValve v new := by
  rw [writeValve_eq]
  cases old with
  | none => simp
  | some o =>
    simp only [Option.mem_def, Option.some.injEq, exists_eq_left', ne_eq, ite_not]
    split_ifs with h
    · rw [h]
      exact writeOper_same (valve?_putValve_self _ _ _)
    · rw [writeOper_changed (x := { new with operability := o.operability }) (valve?_putValve_self _ _ _) h,
        putValve_putValve]

/-! ## The disturbances of a load (R19) -/

/-- A derived value of a loaded valve differs from the new one. -/
theorem loadedAndDiffers_iff {α : Type} [DecidableEq α] (old : Option Valve) (f : Valve → α) (a : α) :
    (old.isSome && decide (old.map f ≠ some a)) = true ↔ ∃ o ∈ old, f o ≠ a := by
  cases old <;> simp

/-- Settles O24. -/
theorem valveLoadWrites : Obligations.ValveLoadWrites := by
  intro p v x old q names before c _ hx
  have hq : q = if ∃ o ∈ old, o.operability ≠ x.operability then
        ((p.moveValve v old x).putValve v x).record .operability none (some (.valve v)) (some x.operability.num)
      else (p.moveValve v old x).putValve v x := writeValve_moved v old x p
  have hframe := moveValve_frame v old x p
  have hnow : (p.moveValve v old x).now = p.now := by rw [hframe]
  have htrace : (p.moveValve v old x).trace = p.trace := by rw [hframe]
  have hnet : q.net = ((p.moveValve v old x).putValve v x).net := by rw [hq]; split_ifs <;> rfl
  have hvalve (w : Nat) : q.valve? w = if w = v then some x else p.valve? w := by
    have : q.valve? w = ((p.moveValve v old x).putValve v x).valve? w := by simp only [Part.valve?, hnet]
    rw [this, valve?_putValve, hframe]
    rfl
  have hself : q.valve? v = some x := by rw [hvalve, if_pos rfl]
  refine ⟨hself, fun w hw => by rw [hvalve, if_neg hw], fun g => ?_, fun k => ?_, ?_, ?_, ?_, ?_, ?_⟩
  · rw [← segment?_listed v old hx p g, ← moveValve_segment?]
    simp only [Part.segment?, hnet, Part.putValve_net_segments]
  · rw [hnet]
    exact moveValve_channels v old x p k
  · rw [hq]
    split_ifs
    · simp only [Part.record, Part.putValve_trace, Part.putValve_now, hnow, htrace]
    · exact htrace
  · rw [hq]
    split_ifs
    · simp only [Part.record, Part.putValve]
      rw [hframe]
    · simp only [Part.putValve]
      rw [hframe]
  · simp only [listLosses, List.contains_eq_mem, ← decide_not]
    rfl
  · simp only [listGains, List.contains_eq_mem, ← decide_not]
    rfl
  · refine ⟨_, rfl, rfl, rfl, ?_, ?_, rfl⟩
    · have hoper : q.operOf v = some x.operability := congrArg (Option.map Valve.operability) hself
      rw [hoper]
      exact loadedAndDiffers_iff old Valve.operability x.operability
    · have hclosed : q.closedOf v = some x.countsAsClosed := congrArg (Option.map Valve.countsAsClosed) hself
      rw [hclosed]
      exact loadedAndDiffers_iff old Valve.countsAsClosed x.countsAsClosed

end Sys2Proof.Machine
end

