-- ==== Sys2Proof/Proofs/Disturbed.lean ====
section
/-! PROOFS. What a disturbance does to the plan in flight and to an incident (O60). -/

namespace Sys2Proof.Machine

/-! ## The plan in flight (R81 to R84) -/

theorem marks_iff (w : Workspace) (x : Subject) :
    w.marks x = true ↔ w.phase = .supplyWalk ∨ (∃ v ∈ w.examined, x = .valve v) ∨ ∃ g ∈ w.area, x = .segment g := by
  unfold Workspace.marks
  cases w.phase <;> cases x <;> simp

theorem markPlan_idle {p : Part} (h : p.plan.plan = none) (x : Subject) : p.markPlan x = p := by
  simp [Part.markPlan, h]

theorem markPlan_planning {p : Part} {w : Workspace} (h : p.plan.plan = some w) (x : Subject) :
    p.markPlan x = if w.result = none ∧ w.marks x = true then p.setPlan (some { w with result := some (.disturbed x) })
      else p := by
  unfold Part.markPlan
  rw [h]
  dsimp only
  cases hr : w.result with
  | none => simp
  | some r => simp

/-! ## One incident record (R53, R54) -/

theorem testIncident_free {p : Part} {r : Nat} (h : p.incident? r = none) (d : Disturb) : p.testIncident d r = p := by
  simp [Part.testIncident, h]

theorem testIncident_inUse {p : Part} {r : Nat} {i : Incident} (h : p.incident? r = some i) (d : Disturb) :
    p.testIncident d r = if p.unsettles i d = true then p.planChanged r d.subject else p := by
  simp [Part.testIncident, h]

theorem closes_iff (i : Incident) (v : Nat) : i.closes v = true ↔ ⟨v, .close⟩ ∈ i.boundary := by
  simp only [Incident.closes, List.any_eq_true, Bool.and_eq_true, decide_eq_true_eq]
  exact ⟨fun ⟨⟨_, _⟩, hb, rfl, rfl⟩ => hb, fun h => ⟨_, h, rfl, rfl⟩⟩

theorem relies_iff (i : Incident) (v : Nat) : i.relies v = true ↔ ⟨v, .none⟩ ∈ i.boundary := by
  simp only [Incident.relies, List.any_eq_true, Bool.and_eq_true, decide_eq_true_eq]
  exact ⟨fun ⟨⟨_, _⟩, hb, rfl, rfl⟩ => hb, fun h => ⟨_, h, rfl, rfl⟩⟩

theorem names_iff (x : Valve) (g : Nat) : x.names g = true ↔ x.segA = g ∨ x.segB = some g := by
  simp [Valve.names]

theorem touchesPlan_segment (p : Part) (i : Incident) (g : Nat) :
    p.touchesPlan i (.segment g) = true ↔ g ∈ i.area := by
  simp [Part.touchesPlan]

theorem touchesPlan_valve (p : Part) (i : Incident) (v : Nat) :
    p.touchesPlan i (.valve v) = true ↔
      (∃ b ∈ i.boundary, b.valve = v) ∨ (∃ t ∈ i.touched, t.valve = v) ∨
        ∃ x, p.valve? v = some x ∧ (x.segA ∈ i.area ∨ ∃ b ∈ i.area, x.segB = some b) := by
  have area (x : Valve) : (i.area.any fun g => x.names g) = true ↔ x.segA ∈ i.area ∨ ∃ b ∈ i.area, x.segB = some b := by
    simp only [List.any_eq_true, names_iff, and_or_left, exists_or, exists_eq_right']
  cases h : p.valve? v with
  | none => simp [Part.touchesPlan, bounds_iff, touches_iff, h]
  | some x =>
    simp only [Part.touchesPlan, Bool.or_eq_true, bounds_iff, touches_iff, h, area, or_assoc, Option.some.injEq,
      exists_eq_left']

theorem losesValve_iff {p : Part} {i : Incident} {d : Disturb} {v : Nat} {x : Valve} (hd : d.subject = .valve v)
    (hx : p.valve? v = some x) :
    p.losesValve i d = true ↔
      (d.oper = true ∨ d.station = true) ∧ ⟨v, .close⟩ ∈ i.boundary ∧ x.opening ≠ some 0 ∧ p.usable x = false := by
  simp [Part.losesValve, hd, hx, closes_iff, and_assoc]

theorem leaksValve_iff {p : Part} {i : Incident} {d : Disturb} {v : Nat} {x : Valve} (hd : d.subject = .valve v)
    (hx : p.valve? v = some x) :
    p.leaksValve i d = true ↔
      d.closed = true ∧ ⟨v, .none⟩ ∈ i.boundary ∧ (x.opening = some 1 ∨ x.opening = some 2) := by
  simp [Part.leaksValve, hd, hx, relies_iff, and_assoc]

/-- Only a disturbance of a valve takes a valve from an incident in CLOSING or VERIFYING. -/
theorem losesValve_segment {p : Part} {i : Incident} {d : Disturb} {g : Nat} (hd : d.subject = .segment g) :
    p.losesValve i d = false := by
  simp [Part.losesValve, hd]

theorem leaksValve_segment {p : Part} {i : Incident} {d : Disturb} {g : Nat} (hd : d.subject = .segment g) :
    p.leaksValve i d = false := by
  simp [Part.leaksValve, hd]

theorem unsettles_confirmWait {i : Incident} (h : i.state = .confirmWait) (p : Part) (d : Disturb) :
    p.unsettles i d = p.touchesPlan i d.subject := by
  simp [Part.unsettles, h]

theorem unsettles_closing {i : Incident} (h : i.state = .closing) (p : Part) (d : Disturb) :
    p.unsettles i d = (p.losesValve i d || p.leaksValve i d) := by
  simp [Part.unsettles, h]

theorem unsettles_verifying {i : Incident} (h : i.state = .verifying) (p : Part) (d : Disturb) :
    p.unsettles i d = p.leaksValve i d := by
  simp [Part.unsettles, h]

theorem unsettles_other {i : Incident} (h1 : i.state ≠ .confirmWait) (h2 : i.state ≠ .closing) (h3 : i.state ≠ .verifying)
    (p : Part) (d : Disturb) : p.unsettles i d = false := by
  unfold Part.unsettles
  split <;> simp_all

/-! ## The return to PLAN_WAIT and the hold (R50, R53, R54, R56) -/

theorem adjustAll_inc (l : List Nat) (f : Valve → Valve) (p : Part) :
    (l.foldl (fun q v => q.adjustValve v f) p).inc = p.inc := by
  induction l generalizing p with
  | nil => rfl
  | cons v l ih => rw [List.foldl_cons, ih]; rfl

@[simp] theorem rehold_inc (p : Part) (old new : List Nat) : (p.rehold old new).inc = p.inc :=
  (adjustAll_inc _ _ _).trans (adjustAll_inc _ _ _)

theorem incident?_putIncident (p : Part) (r : Nat) (i : Incident) : (p.putIncident r i).incident? r = some i := by
  rw [Part.incident?, Part.putIncident, rehold_inc]
  exact Table.look_put_self _ _ _

/-- A record whose counted lists stand is written with no change of a HOLD_COUNT. -/
theorem putIncident_counted {p : Part} {r : Nat} {i j : Incident} (hi : p.incident? r = some i) (h : j.counted = i.counted) :
    p.putIncident r j = { p with inc := { p.inc with records := Table.put p.inc.records r j } } := by
  have hc : p.countedBy r = j.counted := by rw [Part.countedBy, hi, h]
  rw [Part.putIncident, hc, Part.rehold_same]

/-- A record moves to a state other than VERIFYING, its lists standing. -/
theorem moveIncident_eq {p : Part} {r : Nat} {i : Incident} (hi : p.incident? r = some i) {st : IncState}
    (hst : st ≠ .verifying) {f : Incident → Incident} (hf : (f (i.enter st)).counted = i.counted) :
    p.moveIncident r st f =
      let q := ({ p with inc := { p.inc with records := Table.put p.inc.records r (f (i.enter st)) } }).removeVerify r
      if i.state = st then q else q.record .state (some i.number) none (some st.num) := by
  unfold Part.moveIncident
  rw [hi]
  dsimp only
  rw [if_neg hst, putIncident_counted hi hf]

theorem incident?_moveIncident {p : Part} {r : Nat} {i : Incident} (hi : p.incident? r = some i) (st : IncState)
    (f : Incident → Incident) : (p.moveIncident r st f).incident? r = some (f (i.enter st)) := by
  have h := incident?_putIncident p r (f (i.enter st))
  unfold Part.moveIncident
  rw [hi]
  dsimp only
  split_ifs <;> exact h

theorem planChanged_inUse {p : Part} {r : Nat} {i : Incident} (hi : p.incident? r = some i) (x : Subject) :
    p.planChanged r x =
      (((p.moveIncident r .planWait id).setPlanQueue
        ((p.moveIncident r .planWait id).plan.queue ++ [⟨r, i.number⟩])).grantPlan).notice .planChanged
        (subjectItems i.number x) := by
  unfold Part.planChanged Part.toPlanWait Part.enterPlanner
  rw [hi, incident?_moveIncident hi]
  rfl

theorem hold_inUse {p : Part} {r : Nat} {i : Incident} (hi : p.incident? r = some i) (why : HeldReason) (v : Option Nat) :
    p.hold r why v =
      ((p.withdraw r).moveIncident r .held fun x => { x with heldReason := some why }).notice .held
        [item (w16 i.number) (w16 why.num), item (optionalWord v) 0#16] := by
  unfold Part.hold
  rw [hi]

/-- Settles O60. -/
theorem disturbances : Obligations.Disturbances := by
  refine ⟨fun p x => ⟨fun h => markPlan_idle h x, fun w hw => ?_⟩, fun p d r i hi => ?_, fun p r i x hi => ?_, fun p d => ?_⟩
  · intro meets
    have hmeets : w.marks x = true ↔ meets := marks_iff w x
    have hmark := markPlan_planning hw x
    simp only [hmeets] at hmark
    refine ⟨fun h => hmark.trans (if_neg ?_), fun hr hm => hmark.trans (if_pos ⟨hr, hm⟩)⟩
    rintro ⟨hr, hm⟩
    exact h.elim (fun k => k hr) (fun k => k hm)
  · intro back stays
    have htest := testIncident_inUse hi d
    have hback (h : p.unsettles i d = true) : back := htest.trans (if_pos h)
    have hstays (h : ¬p.unsettles i d = true) : stays := htest.trans (if_neg h)
    refine ⟨fun hs g hd => ?_, fun hs v hd => ?_, fun v x hd hx => ?_, fun h1 h2 h3 => ?_⟩
    · rw [unsettles_confirmWait hs, hd, touchesPlan_segment] at hback hstays
      exact ⟨hback, hstays⟩
    · rw [unsettles_confirmWait hs, hd, touchesPlan_valve] at hback hstays
      exact ⟨hback, hstays⟩
    · intro lost leaks
      have hlost : p.losesValve i d = true ↔ lost := by
        rw [losesValve_iff hd hx]; simp only [lost, exists_eq_right]
      have hleaks : p.leaksValve i d = true ↔ leaks := by
        rw [leaksValve_iff hd hx]; simp only [leaks, exists_eq_right]
      refine ⟨fun hs => ?_, fun hs => ?_⟩
      · rw [unsettles_closing hs, Bool.or_eq_true, hlost, hleaks] at hback hstays
        exact ⟨hback, fun h1 h2 => hstays (not_or.2 ⟨h1, h2⟩)⟩
      · rw [unsettles_verifying hs, hleaks] at hback hstays
        exact ⟨hback, hstays⟩
    · exact hstays (by simp [unsettles_other h1 h2 h3])
  · intro moved queued held named
    have hchanged : p.planChanged r x =
        (queued (moved .planWait p)).notice .planChanged (subjectItems i.number x) := by
      rw [planChanged_inUse hi, moveIncident_eq hi (by simp) rfl]
      rfl
    have hheld (why : HeldReason) (v : Option Nat) : p.hold r why v =
        (held why p).notice .held [item (w16 i.number) (w16 why.num), item (optionalWord v) 0#16] := by
      rw [hold_inUse hi, moveIncident_eq (p := p.withdraw r) hi (by simp) rfl]
      rfl
    refine ⟨fun g hx => ?_, fun v hx => ?_, fun why v => hheld why (some v), fun why => hheld why none⟩
    · rw [hchanged, hx]; rfl
    · rw [hchanged, hx]; rfl
  · refine ⟨rfl, fun r h => testIncident_free h d, fun r i g hi hd hs => ?_⟩
    rw [testIncident_inUse hi, if_neg]
    rcases hs with hs | hs
    · simp [unsettles_closing hs, losesValve_segment hd, leaksValve_segment hd]
    · simp [unsettles_verifying hs, leaksValve_segment hd]

end Sys2Proof.Machine
end

