-- ==== Sys2Proof/Proofs/CrewReports.lean ====
section
/-! PROOFS. CREW_REPORT (O26): its results, the requests it ends, and the breach test. -/

namespace Sys2Proof.Machine

/-! ## Breach (R124) -/

theorem stoodClosed_iff (x : Valve) :
    x.stoodClosed = true ↔ x.opening = some 0 ∨ x.opening = some 1 ∨ x.opening = some 2 ∨
      (x.opening = none ∧ x.normal = .closed) := by
  simp only [Valve.stoodClosed, Bool.or_eq_true, countsAsClosed_iff]
  cases x.opening with
  | none => simp
  | some o =>
    simp only [decide_eq_true_eq, Option.some.injEq, reduceCtorEq, false_and, or_false]
    omega

/-- The breach test of one record. -/
def Part.breachRecord (v : Nat) (q : Part) (r : Nat) : Part :=
  match q.incident? r with
  | some i => if q.breached r v i = true then q.hold r .breach (some v) else q
  | none => q

theorem testBreach_eq (p : Part) (v : Nat) (x : Valve) (o : Nat) :
    p.testBreach v x o =
      if x.stoodClosed = true ∧ 2 < o then incidentRecords.foldl (Part.breachRecord v) p else p := by
  simp only [Part.testBreach, Bool.and_eq_true, decide_eq_true_eq]
  rfl

theorem breached_iff (p : Part) (r v : Nat) (i : Incident) :
    p.breached r v i = true ↔
      (i.state = .closing ∨ i.state = .verifying ∨ i.state = .isolated) ∧
        (⟨v, .none⟩ ∈ i.boundary ∨ (⟨v, .close⟩ ∈ i.boundary ∧ ∀ c, p.context? v = some c → r ∉ c.serves)) := by
  have served : p.servedBy v r = false ↔ ∀ c, p.context? v = some c → r ∉ c.serves := by
    unfold Part.servedBy
    cases p.context? v <;> simp
  simp only [Part.breached, Bool.and_eq_true, Bool.or_eq_true, decide_eq_true_eq, Bool.not_eq_true', relies_iff, closes_iff,
    served, or_assoc]

/-- No record on whose boundary the valve stands: no breach. -/
theorem testBreach_unrelied {p : Part} {v : Nat} (h : ∀ e ∈ p.inc.records, ∀ b ∈ e.2.boundary, b.valve ≠ v) (x : Valve)
    (o : Nat) : p.testBreach v x o = p := by
  have unbreached (r : Nat) : p.breachRecord v r = p := by
    unfold Part.breachRecord
    cases hi : p.incident? r with
    | none => rfl
    | some i =>
      have hb := h (r, i) (Table.mem_of_look hi)
      refine if_neg fun hbreach => ?_
      obtain ⟨-, hrelies | hcloses⟩ := (breached_iff p r v i).1 hbreach
      · exact hb _ hrelies rfl
      · exact hb _ hcloses.1 rfl
  rw [testBreach_eq]
  split
  · exact List.foldl_fixed' unbreached _
  · rfl

/-! ## The change of the closed status (R15, R16) -/

/-- The closed status of a written opening. -/
theorem closedChange_putOpening {p : Part} {v : Nat} {x : Valve} (hx : p.valve? v = some x) (o : Nat) (t : Option Nat) :
    p.closedChange (p.putValve v { x with opening := some o, positionTime := t }) v =
      if x.countsAsClosed = decide (o = 0) then [] else [.ofClosed v] := by
  have before : p.closedOf v = some x.countsAsClosed := congrArg (Option.map Valve.countsAsClosed) hx
  have after : (p.putValve v { x with opening := some o, positionTime := t }).closedOf v = some (decide (o = 0)) := by
    simp [Part.closedOf, Valve.countsAsClosed]
  rw [Part.closedChange, before, after]
  simp only [Option.some.injEq]

theorem announceAll_ite (p : Part) (c : Prop) [Decidable c] (d : Disturb) :
    p.announceAll (if c then [] else [d]) = if c then p else p.announce d := by
  split_ifs <;> simp

/-! ## CREW_REPORT (R15, R123) -/

/-- The result of a CREW_REPORT's code 0, 1 or 2. -/
def crewResultOfCode (w : Word) : CrewResult := if w = 0#16 then .closed else if w = 1#16 then .opened else .seized

theorem crewResultOf_eq (w : Word) : crewResultOf w = if 2 < w.toNat then none else some (crewResultOfCode w) := by
  have h : 2 < w.toNat ↔ w ≠ 0#16 ∧ w ≠ 1#16 ∧ w ≠ 2#16 := by bv_omega
  unfold crewResultOf crewResultOfCode
  split_ifs <;> simp_all

theorem crewReport_eq (valve result : Word) (p : Part) :
    p.crewReport valve result =
      if 4095 < valve.toNat ∨ 2 < result.toNat then (p, .bare .badArgument)
      else match p.valve? valve.toNat with
        | none => (p, .bare .noSuch)
        | some x =>
          if x.kind = .actuated then (p, .bare .badArgument)
          else (p.crewReported valve.toNat x (crewResultOfCode result), .bare .ok) := by
  unfold Part.crewReport
  rw [crewResultOf_eq]
  by_cases h : 2 < result.toNat
  · simp only [h, if_true, or_true, refuse_eq]
  · simp only [h, if_false, or_false]; rfl

/-- The requests of a valve, in the order they were raised. -/
def Part.crewOf (p : Part) (v : Nat) : List CrewReq := p.seq.crew.filter fun k => decide (k.valve = v)

theorem crewReported_closed {p : Part} {v : Nat} {x : Valve} (hx : p.valve? v = some x) :
    p.crewReported v x .closed =
      let e := (p.crewOf v).foldl (Part.restoreDone 0)
        ((p.crewOf v).foldl Part.closeDone (p.putValve v { x with opening := some 0, positionTime := some p.now }))
      if x.countsAsClosed = decide (0 = 0) then e else e.announce (.ofClosed v) := by
  rw [Part.crewReported, closedChange_putOpening hx, announceAll_ite]
  rfl

theorem crewReported_opened {p : Part} {v : Nat} {x : Valve} (hx : p.valve? v = some x) :
    p.crewReported v x .opened =
      let e := ((p.crewOf v).foldl (Part.restoreDone 100)
        (p.putValve v { x with opening := some 100, positionTime := some p.now })).testBreach v x 100
      if x.countsAsClosed = decide (100 = 0) then e else e.announce (.ofClosed v) := by
  rw [Part.crewReported, closedChange_putOpening hx, announceAll_ite]
  rfl

theorem crewReported_seized_same {p : Part} {v : Nat} {x : Valve} (hx : p.valve? v = some x) (h : x.operability = .seized) :
    p.crewReported v x .seized = (p.crewOf v).foldl Part.crewSeized p := by
  have hw : p.writeOper v .seized = p := h ▸ writeOper_same hx
  have hc := operChange_writeOper hx .seized
  rw [hw, if_pos h] at hc
  rw [Part.crewReported, hw, hc, announceAll_nil]
  rfl

theorem crewReported_seized_new {p : Part} {v : Nat} {x : Valve} (hx : p.valve? v = some x) (h : x.operability ≠ .seized) :
    p.crewReported v x .seized =
      ((p.crewOf v).foldl Part.crewSeized
        ((p.putValve v { x with operability := .seized }).record .operability none (some (.valve v)) (some 1))).announce
        (.ofOper v) := by
  rw [Part.crewReported, operChange_writeOper hx, if_neg h, announceAll_singleton, writeOper_changed hx h]
  rfl

/-! ## What a report does to one request (R123) -/

theorem closeDone_eq (q : Part) (k : CrewReq) :
    q.closeDone k = if k ∈ q.seq.crew ∧ k.restore = false then (q.dropCrew k).testVerify k.record else q := by
  simp only [Part.closeDone, Bool.and_eq_true, List.contains_iff_mem, Bool.not_eq_true']

theorem restoreDone_eq (n : Nat) (q : Part) (k : CrewReq) :
    q.restoreDone n k =
      if k ∈ q.seq.crew ∧ k.restore = true ∧ q.requestTarget k = n then
        (q.dropCrew k).endTouched k.record k.valve false
      else q := by
  simp only [Part.restoreDone, Bool.and_eq_true, List.contains_iff_mem, decide_eq_true_eq, and_assoc]

theorem crewSeized_eq (q : Part) (k : CrewReq) :
    q.crewSeized k =
      if k ∈ q.seq.crew then
        if k.restore = true then (q.dropCrew k).endTouched k.record k.valve true
        else
          let s := (q.dropCrew k).record .stepFailed (q.numberOf k.record) (some (.valve k.valve)) (some 0)
          if s.stateOf k.record = some .closing then s.planChanged k.record (.valve k.valve) else s
      else q := by
  simp only [Part.crewSeized, List.contains_iff_mem]
  rfl

theorem finalTarget_eq (prior : Option Nat) (x : Valve) :
    finalTarget prior x = prior.getD (if x.normal = .closed then 0 else 100) := by
  cases prior <;> rfl

theorem requestTarget_eq (q : Part) (k : CrewReq) :
    q.requestTarget k =
      match (q.incident? k.record).bind fun j => j.touched.find? fun t => decide (t.valve = k.valve), q.valve? k.valve with
      | some t, some y => t.prior.getD (if y.normal = .closed then 0 else 100)
      | _, _ => if k.dir = .close then 0 else 100 := by
  unfold Part.requestTarget
  split <;> simp_all [finalTarget_eq]

/-- Settles O26: the four reports, the requests of the valve taken one by one; where there are none the folds are empty. -/
theorem crewReport : Obligations.CrewReport := by
  intro m valve result s i p v bad
  have takes {e : Part} {a : Answer} (he : p.crewReport valve result = (e, a)) (hq : e.quiet) : s.takes i m e a :=
    State.takes_rest rfl he hq
  rw [crewReport_eq] at takes
  refine ⟨fun h hq => takes (if_pos h) hq, fun h hfree hq => takes (by rw [if_neg h, hfree]) hq, fun x h hx => ?_⟩
  intro w c asked drop target shut back lost unasked unrelied
  rw [if_neg h, hx] at takes
  have reported (hk : x.kind = .manual) {res : CrewResult} (hres : crewResultOfCode result = res) {e : Part}
      (he : p.crewReported v x res = e) (hq : e.quiet) : s.takes i m e (.bare .ok) := by
    refine takes ?_ hq
    dsimp only
    rw [if_neg (by simp [hk]), hres]
    exact congrArg (·, Answer.bare .ok) he
  have hshut (q : Part) : asked.foldl shut q = asked.foldl Part.closeDone q :=
    List.foldl_ext _ _ _ fun q k _ => (closeDone_eq q k).symm
  have hback (n : Nat) (q : Part) : asked.foldl (back n) q = asked.foldl (Part.restoreDone n) q := by
    refine List.foldl_ext _ _ _ fun q k hk => ?_
    have hv : k.valve = v := by simpa using (List.mem_filter.1 hk).2
    rw [restoreDone_eq, requestTarget_eq, hv]
    rfl
  have hlost (q : Part) : asked.foldl lost q = asked.foldl Part.crewSeized q := by
    refine List.foldl_ext _ _ _ fun q k hk => ?_
    have hv : k.valve = v := by simpa using (List.mem_filter.1 hk).2
    rw [crewSeized_eq, hv]
    rfl
  have hnone (hu : unasked) : asked = [] := by
    simp only [asked, List.filter_eq_nil_iff, decide_eq_true_eq]
    exact hu
  have closed (hr : result = 0#16) : crewResultOfCode result = .closed := by simp [crewResultOfCode, hr]
  have opened (hr : result = 1#16) : crewResultOfCode result = .opened := by simp [crewResultOfCode, hr]
  have seized (hr : result = 2#16) : crewResultOfCode result = .seized := by simp [crewResultOfCode, hr]
  have reportedClosed : p.crewReported v x .closed = c 0 (asked.foldl (back 0) (asked.foldl shut (w 0))) := by
    rw [crewReported_closed hx, hback, hshut]
    rfl
  have reportedOpened : p.crewReported v x .opened = c 100 ((asked.foldl (back 100) (w 100)).testBreach v x 100) := by
    rw [crewReported_opened hx, hback]
    rfl
  have reportedSame (hs : x.operability = .seized) : p.crewReported v x .seized = asked.foldl lost p := by
    rw [crewReported_seized_same hx hs, hlost]
    rfl
  have reportedNew (hs : x.operability ≠ .seized) : p.crewReported v x .seized =
      (asked.foldl lost ((p.putValve v { x with operability := .seized }).record .operability none (some (.valve v))
        (some 1))).announce ⟨.valve v, false, true, false, false⟩ := by
    rw [crewReported_seized_new hx hs, hlost]
    rfl
  refine ⟨fun hk hq => takes (if_pos hk) hq, fun hk hu hr hq => ?_, fun hk hu hb hr hq => ?_, fun hk hu hr hs hq => ?_,
    fun hk hu hr hs => ?_, fun hk hr => ?_, fun hk hr => ?_, fun hk hr hs => ?_, fun hk hr hs => ?_⟩
  · refine reported hk (closed hr) (reportedClosed.trans ?_) hq
    rw [hnone hu]; rfl
  · refine reported hk (opened hr) (reportedOpened.trans ?_) hq
    rw [hnone hu]
    exact congrArg (c 100) (testBreach_unrelied (p := w 100) hb x 100)
  · refine reported hk (seized hr) ((reportedSame hs).trans ?_) hq
    rw [hnone hu]; rfl
  · intro e hq
    refine reported hk (seized hr) ((reportedNew hs).trans ?_) hq
    rw [hnone hu]; rfl
  · intro e hq
    exact reported hk (closed hr) reportedClosed hq
  · intro e hq
    exact reported hk (opened hr) reportedOpened hq
  · intro e hq
    exact reported hk (seized hr) (reportedSame hs) hq
  · intro e hq
    exact reported hk (seized hr) (reportedNew hs) hq

end Sys2Proof.Machine
end

