-- ==== Sys2Proof/Proofs/Readings.lean ====
section
/-! PROOFS. The reading orders (O57). -/

namespace Sys2Proof.Machine

/-! ## The planner queue in the order it would be granted (R70, R91) -/

section
variable {α : Type} (rank : α → Nat)

/-- The elements of one rank, in their order. -/
def ofRank (k : Nat) (l : List α) : List α := l.filter fun a => decide (rank a = k)

/-- Inserted behind its equals, an element keeps a list by falling rank. -/
theorem insertBy_falling (a : α) {l : List α} (h : l.Pairwise fun a b => rank b ≤ rank a) :
    (insertBy (fun a b => decide (rank b < rank a)) a l).Pairwise fun a b => rank b ≤ rank a := by
  induction l with
  | nil => simp [insertBy]
  | cons b l ih =>
    obtain ⟨hb, hl⟩ := List.pairwise_cons.1 h
    rw [insertBy]
    split_ifs with hlt
    · have hlt : rank b < rank a := by simpa using hlt
      refine List.pairwise_cons.2 ⟨fun c hc => ?_, h⟩
      rcases List.mem_cons.1 hc with rfl | hc
      · exact hlt.le
      · exact (hb c hc).trans hlt.le
    · have hge : rank a ≤ rank b := by simpa using hlt
      refine List.pairwise_cons.2 ⟨fun c hc => ?_, ih hl⟩
      rcases (mem_insertBy _ _ _ _).1 hc with rfl | hc
      · exact hge
      · exact hb c hc

/-- Inserted into a list by falling rank, an element comes last among those of its rank. -/
theorem ofRank_insertBy (k : Nat) (a : α) {l : List α} (h : l.Pairwise fun a b => rank b ≤ rank a) :
    ofRank rank k (insertBy (fun a b => decide (rank b < rank a)) a l) = ofRank rank k l ++ ofRank rank k [a] := by
  induction l with
  | nil => rfl
  | cons b l ih =>
    obtain ⟨hb, hl⟩ := List.pairwise_cons.1 h
    rw [insertBy]
    split_ifs with hlt
    · have hlt : rank b < rank a := by simpa using hlt
      by_cases hk : rank a = k
      · have none_left : ofRank rank k (b :: l) = [] := by
          refine List.filter_eq_nil_iff.2 fun c hc => ?_
          have hcb : rank c ≤ rank b := by
            rcases List.mem_cons.1 hc with rfl | hc
            · exact le_rfl
            · exact hb c hc
          simp only [decide_eq_true_eq]
          omega
        rw [none_left, ← List.singleton_append, ofRank, List.filter_append]
        exact (congrArg _ none_left).trans (List.append_nil _)
      · simp [ofRank, hk]
    · have step := ih hl
      unfold ofRank at step ⊢
      rw [List.filter_cons, List.filter_cons, step]
      split_ifs <;> simp

theorem sortBy_falling (l : List α) :
    (sortBy (fun a b => decide (rank b < rank a)) l).Pairwise (fun a b => rank b ≤ rank a) ∧
      ∀ k, ofRank rank k (sortBy (fun a b => decide (rank b < rank a)) l) = ofRank rank k l := by
  have fold (l acc : List α) (h : acc.Pairwise fun a b => rank b ≤ rank a) :
      (l.foldl (fun acc a => insertBy (fun a b => decide (rank b < rank a)) a acc) acc).Pairwise
          (fun a b => rank b ≤ rank a) ∧
        ∀ k, ofRank rank k (l.foldl (fun acc a => insertBy (fun a b => decide (rank b < rank a)) a acc) acc) =
          ofRank rank k acc ++ ofRank rank k l := by
    induction l generalizing acc with
    | nil => exact ⟨h, fun k => by simp [ofRank]⟩
    | cons a l ih =>
      obtain ⟨hsorted, hrank⟩ := ih _ (insertBy_falling rank a h)
      refine ⟨hsorted, fun k => ?_⟩
      rw [List.foldl_cons, hrank, ofRank_insertBy rank k a h, List.append_assoc]
      simp only [ofRank, ← List.filter_append, List.singleton_append]
  exact fold l [] List.Pairwise.nil

/-- A list by falling rank is fixed by its elements of each rank in their order. -/
theorem eq_of_ofRank_eq {l m : List α} (hl : l.Pairwise fun a b => rank b ≤ rank a)
    (hm : m.Pairwise fun a b => rank b ≤ rank a) (h : ∀ k, ofRank rank k l = ofRank rank k m) : l = m := by
  have mem {l m : List α} (h : ∀ k, ofRank rank k l = ofRank rank k m) {a : α} (ha : a ∈ l) : a ∈ m := by
    have : a ∈ ofRank rank (rank a) m := h (rank a) ▸ List.mem_filter.2 ⟨ha, by simp⟩
    exact (List.mem_filter.1 this).1
  induction l generalizing m with
  | nil =>
    cases m with
    | nil => rfl
    | cons b m => exact absurd (mem (fun k => (h k).symm) List.mem_cons_self) (by simp)
  | cons a l ih =>
    cases m with
    | nil => exact absurd (mem h List.mem_cons_self) (by simp)
    | cons b m =>
      obtain ⟨ha, hltail⟩ := List.pairwise_cons.1 hl
      obtain ⟨hb, hmtail⟩ := List.pairwise_cons.1 hm
      have hrank : rank a = rank b := by
        have hba : rank b ≤ rank a := by
          rcases List.mem_cons.1 (mem (fun k => (h k).symm) (List.mem_cons_self (a := b))) with rfl | k
          · exact le_rfl
          · exact ha b k
        have hab : rank a ≤ rank b := by
          rcases List.mem_cons.1 (mem h (List.mem_cons_self (a := a))) with rfl | k
          · exact le_rfl
          · exact hb a k
        omega
      have hab : a = b := by
        have := h (rank a)
        simp only [ofRank, List.filter_cons, hrank, decide_true, if_true, List.cons.injEq] at this
        exact this.1
      subst hab
      refine congrArg (a :: ·) (ih hltail hmtail fun k => ?_)
      have := h k
      simp only [ofRank, List.filter_cons] at this ⊢
      split_ifs at this
      · exact (List.cons.inj this).2
      · exact this

end

theorem grantOrder_eq (p : Part) {order : List PlanEntry}
    (hsorted : order.Pairwise fun a b => p.urgencyOf b.record ≤ p.urgencyOf a.record)
    (hrank : ∀ u, (order.filter fun x => decide (p.urgencyOf x.record = u)) =
      p.plan.queue.filter fun x => decide (p.urgencyOf x.record = u)) : p.grantOrder = order := by
  obtain ⟨hfalling, hkept⟩ := sortBy_falling (fun e : PlanEntry => p.urgencyOf e.record) p.plan.queue
  exact eq_of_ofRank_eq _ hfalling hsorted fun u => (hkept u).trans (hrank u).symm

/-! ## READ_TRACE (R186) -/

theorem readTrace_zero (p : Part) : p.readTrace 0#16 = (p, .bare .badArgument) := rfl

theorem readTrace_taken {wanted : Word} (h : 1 ≤ wanted.toNat) (p : Part) :
    p.readTrace wanted =
      let n := min wanted.toNat 16
      ({ p with trace := { p.trace with fifo := p.trace.fifo.drop n } },
        ⟨if wanted.toNat ≤ 16 then .ok else .okClamped,
          item (w16 (p.trace.fifo.take n).length) (w16 (p.trace.fifo.drop n).length) ::
            (p.trace.fifo.take n).flatMap TraceEntry.items⟩) := by
  have hresult : loaded (decide (16 < wanted.toNat)) = if wanted.toNat ≤ 16 then .ok else .okClamped :=
    loaded_decide (by simp)
  rw [← hresult]
  exact if_neg (by omega)

/-! ## READ_STATUS (R178) -/

theorem recordItem_eq (p : Part) (r : Nat) :
    p.recordItem r = match p.incident? r with
      | some j => item (w16 j.number) (w8 j.state.num 0)
      | none => item (Config.unstated (p.mgmt.fresh + r)) 0#16 := by
  unfold Part.recordItem
  cases p.incident? r <;> rfl

theorem plannerItem_eq (p : Part) :
    p.plannerItem = match p.plan.plan with
      | some w => item 1#16 (w8 w.number (if w.phase = .areaSearch then 0 else 1))
      | none => item 0#16 (Config.unstated (p.mgmt.fresh + 8)) := by
  unfold Part.plannerItem
  cases p.plan.plan with
  | none => rfl
  | some w => cases h : w.phase <;> simp [h, Phase.num]

theorem busyZones_eq (p : Part) :
    p.busyZones = (List.range 64).filter fun z => decide (0 < p.slotsHeld z ∨ 0 < p.waitingIn z) := by
  simp only [Part.busyZones, Bool.decide_or]

/-! ## READ_INCIDENT (R67) -/

theorem byNumber_eq_none {p : Part} (c : p.canonical) {n : Nat} (h : ∀ r j, p.incident? r = some j → j.number ≠ n) :
    p.byNumber n = none := by
  rw [Part.byNumber, List.find?_eq_none]
  intro e he
  simpa using h e.1 e.2 (Table.look_of_mem c.records he)

theorem byNumber_number {p : Part} {n r : Nat} {j : Incident} (h : p.byNumber n = some (r, j)) : j.number = n := by
  simpa using List.find?_some h

theorem boundaryWord_eq (b : BoundaryEntry) :
    b.word = w16 (if b.action = .close then b.valve + 32768 else b.valve) := by
  unfold BoundaryEntry.word
  cases b.action <;> rfl

theorem readIncident_eq (number : Word) (p : Part) :
    p.readIncident number =
      if number.toNat = 0 ∨ 255 < number.toNat then (p, .bare .badArgument)
      else match p.byNumber number.toNat with
        | none => (p, .bare .noSuch)
        | some (r, i) => (p, ⟨.ok, incidentItems r i⟩) := rfl

/-! ## READ_ENTRY (R21, R42, R154): the tables -/

@[simp] theorem entryAnswer_none (p : Part) {α : Type} (items : α → List Item) :
    p.entryAnswer none items = (p, .bare .noSuch) := rfl

@[simp] theorem entryAnswer_some (p : Part) {α : Type} (a : α) (items : α → List Item) :
    p.entryAnswer (some a) items = (p.usedWords, ⟨.ok, items a⟩) := rfl

section
variable {table id : Word} (p : Part)

theorem readEntry_segment (ht : table.toNat = 1) (h : ¬2047 < id.toNat) :
    p.readEntry table id = p.entryAnswer (p.segment? id.toNat) (segmentItems id.toNat) := by
  simp only [Part.readEntry, ht, h, if_false]

theorem readEntry_valve (ht : table.toNat = 2) (h : ¬4095 < id.toNat) :
    p.readEntry table id = p.entryAnswer (p.valve? id.toNat) (p.valveItems id.toNat) := by
  simp only [Part.readEntry, ht, h, if_false]

theorem readEntry_material (ht : table.toNat = 3) (h : ¬7 < id.toNat) :
    p.readEntry table id = p.entryAnswer (p.material? id.toNat) (materialItems id.toNat) := by
  simp only [Part.readEntry, ht, h, if_false]

theorem readEntry_vclass (ht : table.toNat = 4) (h : ¬15 < id.toNat) :
    p.readEntry table id = p.entryAnswer (p.vclass? id.toNat) (p.vclassItems id.toNat) := by
  simp only [Part.readEntry, ht, h, if_false]

theorem readEntry_sensor (ht : table.toNat = 5) (h : ¬511 < id.toNat) :
    p.readEntry table id = p.entryAnswer (p.sensor? id.toNat) (p.sensorItems id.toNat) := by
  simp only [Part.readEntry, ht, h, if_false]

theorem readEntry_zone (ht : table.toNat = 6) (h : ¬63 < id.toNat) :
    p.readEntry table id = (p.usedWords, ⟨.ok, p.zoneItems id.toNat⟩) := by
  simp only [Part.readEntry, ht, h, if_false, entryAnswer_some]

theorem readEntry_station (ht : table.toNat = 7) (h : ¬(id.toNat = 0 ∨ id.toNat = 65535 ∨ id.toNat = p.mgmt.ownAddress)) :
    p.readEntry table id = p.entryAnswer (p.station? id.toNat) fun e => p.stationItems e.1 e.2 := by
  simp only [Part.readEntry, ht, h, if_false]

/-- The table code or the id lies outside its range (R182). -/
def Part.entryBad (p : Part) (t n : Nat) : Prop :=
  t = 0 ∨ 7 < t ∨ (t = 1 ∧ 2047 < n) ∨ (t = 2 ∧ 4095 < n) ∨ (t = 3 ∧ 7 < n) ∨ (t = 4 ∧ 15 < n) ∨ (t = 5 ∧ 511 < n) ∨
    (t = 6 ∧ 63 < n) ∨ (t = 7 ∧ (n = 0 ∨ n = 65535 ∨ n = p.mgmt.ownAddress))

theorem readEntry_bad (h : p.entryBad table.toNat id.toNat) : p.readEntry table id = (p, .bare .badArgument) := by
  rcases h with ht | ht | ⟨ht, h⟩ | ⟨ht, h⟩ | ⟨ht, h⟩ | ⟨ht, h⟩ | ⟨ht, h⟩ | ⟨ht, h⟩ | ⟨ht, h⟩
  · simp only [Part.readEntry, ht, refuse_eq]
  · unfold Part.readEntry
    split <;> first | omega | rfl
  all_goals simp only [Part.readEntry, ht, h, if_true, refuse_eq]

end

/-- The ranges of the ids of an order that passes the first test. -/
theorem entryBad_ranges {p : Part} {t n : Nat} (h : ¬p.entryBad t n) :
    (t = 1 → ¬2047 < n) ∧ (t = 2 → ¬4095 < n) ∧ (t = 3 → ¬7 < n) ∧ (t = 4 → ¬15 < n) ∧ (t = 5 → ¬511 < n) ∧
      (t = 6 → ¬63 < n) ∧ (t = 7 → ¬(n = 0 ∨ n = 65535 ∨ n = p.mgmt.ownAddress)) := by
  unfold Part.entryBad at h
  omega

/-! ## READ_ENTRY: the layouts of 10.5 -/

theorem optionalWord_eq (o : Option Nat) : optionalWord o = w16 (o.getD 65535) := by
  cases o <;> rfl

theorem timeOr_eq (p : Part) (k : Nat) (o : Option Nat) :
    p.timeOr k o = match o with
      | some a => ⟨1#8, BitVec.ofNat 8 (a / 65536), BitVec.ofNat 8 (a / 256), BitVec.ofNat 8 a⟩
      | none => ⟨0#8, Word.lo (Config.unstated (p.mgmt.fresh + k)), Word.hi (Config.unstated (p.mgmt.fresh + (k + 1))),
          Word.lo (Config.unstated (p.mgmt.fresh + (k + 1)))⟩ := by
  cases o <;> rfl

theorem stationWord_eq (p : Part) (x : Valve) :
    p.stationWord x = if x.kind = .actuated then w16 x.station else Config.unstated (p.mgmt.fresh + 0) := by
  unfold Part.stationWord
  cases x.kind <;> rfl

theorem channelWord_eq (p : Part) (x : Valve) :
    p.channelWord x = if x.kind = .actuated then w8 x.channel (flagNum x.overridePermitted)
      else wordOf (Word.lo (Config.unstated (p.mgmt.fresh + 1))) (BitVec.ofNat 8 (flagNum x.overridePermitted)) := by
  unfold Part.channelWord
  cases x.kind <;> rfl

theorem lineWord_eq (l : Option Line) : lineWord l = match l with
    | some a => w16 (lineNum a)
    | none => 65535#16 := by
  cases l <;> rfl

/-- The inlet meters of a zone, by index rising. -/
theorem keys_inletMeters {p : Part} (c : p.canonical) {z : Nat} {meters : List Nat} (h : meters.Pairwise (· < ·))
    (mem : ∀ k, k ∈ meters ↔ ∃ y, p.sensor? k = some y ∧ y.kind = .flow ∧ y.place = z) :
    Table.keys (p.inletMeters z) = meters := by
  refine List.Pairwise.eq_of_mem_iff (r := (· < ·)) ((Table.wf_iff_keys_pairwise _).1 (Table.wf_filter _ c.sensors)) h
    fun k => ?_
  rw [mem, Part.inletMeters, Table.mem_keys_filter c.sensors]
  simp only [Part.sensor?, Bool.and_eq_true, decide_eq_true_eq]

/-- Settles O57. -/
theorem readOrders : Obligations.ReadOrders := by
  refine ⟨fun m wanted s => ?_, fun m s => ?_, fun m number s => ?_, fun m table id s => ?_⟩
  · intro i p n out left e data
    have takes {e : Part} {a : Answer} (he : p.readTrace wanted = (e, a)) (hq : e.quiet) : s.takes i m e a :=
      State.takes_rest rfl he hq
    refine ⟨fun h hq => ?_, fun h h16 hq => ?_, fun h hq => ?_⟩
    · exact takes (by rw [h]; exact readTrace_zero p) hq
    · exact takes ((readTrace_taken h p).trans (by rw [if_pos h16])) hq
    · exact takes ((readTrace_taken (by omega) p).trans (by rw [if_neg (by omega)])) hq
  · intro i p e word count cfg lrn silent record planner line slots waits zones urgency order hsorted hrank hq
    refine State.takes_rest rfl ?_ hq
    refine Prod.ext rfl (congrArg (Answer.mk .ok) ?_)
    have hsilent : p.stationCount (fun e => e.kind = .configured && e.age = .silent) = silent := by
      simp only [Part.stationCount, silent, count, Bool.decide_and]
    have hrecord : p.recordItem = record := funext fun r => recordItem_eq p r
    have hplanner : p.plannerItem = planner := plannerItem_eq p
    have horder : p.grantOrder = order := grantOrder_eq p hsorted hrank
    have hzones : p.busyZones = zones := busyZones_eq p
    show p.statusItems = _
    unfold Part.statusItems
    rw [hrecord, hplanner, horder, hzones, hsilent]
    rfl
  · intro i p n bad
    have takes {e : Part} {a : Answer} (he : p.readIncident number = (e, a)) (hq : e.quiet) : s.takes i m e a :=
      State.takes_rest rfl he hq
    rw [readIncident_eq] at takes
    refine ⟨fun h hq => takes (if_pos h) hq, fun h hnone c hq => ?_, fun r j h hj hq => ?_⟩
    · exact takes (by rw [if_neg h, byNumber_eq_none c hnone]) hq
    · refine takes ?_ hq
      rw [if_neg h, hj]
      have hwords : j.boundary.map BoundaryEntry.word =
          j.boundary.map fun b => w16 (if b.action = .close then b.valve + 32768 else b.valve) :=
        List.map_congr_left fun b _ => boundaryWord_eq b
      simp only [incidentItems, byNumber_number hj, hwords]
      rfl
  · intro i p t n bad free e answers word byte flag time lineOr
    have takes {e : Part} {a : Answer} (he : p.readEntry table id = (e, a)) (hq : e.quiet) : s.takes i m e a :=
      State.takes_rest rfl he hq
    have htime (o : Option Nat) (k : Nat) : p.timeOr k o = time o k := timeOr_eq p k o
    have hline (l : Option Line) : lineWord l = lineOr l := lineWord_eq l
    have used {data : List Item} (h : p.readEntry table id = (p.usedWords, ⟨.ok, data⟩)) : answers data := fun hq => takes h hq
    refine ⟨fun h hq => takes (readEntry_bad p h) hq, fun h hfree hq => ?_, fun x h ht hx => ?_, fun x h ht hx => ?_,
      fun x h ht hx => ?_, fun x h ht hx => ?_, fun x h ht hx => ?_, fun meters h ht hm c hmem => ?_, fun k x h ht hx => ?_⟩
      <;> obtain ⟨hsegment, hvalve, hmaterial, hvclass, hsensor, hzone, hstation⟩ := entryBad_ranges (p := p) h
    · refine takes ?_ hq
      rcases hfree with ⟨ht, hf⟩ | ⟨ht, hf⟩ | ⟨ht, hf⟩ | ⟨ht, hf⟩ | ⟨ht, hf⟩ | ⟨ht, hf⟩
      · rw [readEntry_segment p ht (hsegment ht), hf, entryAnswer_none]
      · rw [readEntry_valve p ht (hvalve ht), hf, entryAnswer_none]
      · rw [readEntry_material p ht (hmaterial ht), hf, entryAnswer_none]
      · rw [readEntry_vclass p ht (hvclass ht), hf, entryAnswer_none]
      · rw [readEntry_sensor p ht (hsensor ht), hf, entryAnswer_none]
      · rw [readEntry_station p ht (hstation ht), hf, entryAnswer_none]
    · refine used ?_
      rw [readEntry_segment p ht (hsegment ht), hx, entryAnswer_some]
      rfl
    · refine used ?_
      rw [readEntry_valve p ht (hvalve ht), hx, entryAnswer_some, Part.valveItems, htime, optionalWord_eq, stationWord_eq,
        channelWord_eq]
      rfl
    · refine used ?_
      rw [readEntry_material p ht (hmaterial ht), hx, entryAnswer_some]
      rfl
    · intro point
      have hpoint (k : Nat) : p.profileByte x k = point k := by
        simp only [Part.profileByte, point]
        cases x.profile[k]? <;> rfl
      refine used ?_
      rw [readEntry_vclass p ht (hvclass ht), hx, entryAnswer_some]
      simp only [Part.vclassItems, hpoint]
      rfl
    · intro valued
      have answered := readEntry_sensor p ht (hsensor ht)
      rw [hx, entryAnswer_some, Part.sensorItems, htime] at answered
      refine ⟨fun hv => used ?_, fun a hv => used ?_⟩
      · rw [answered, hv]; rfl
      · rw [answered, hv]; rfl
    · intro z latched
      have answered := readEntry_zone p ht (hzone ht)
      simp only [Part.zoneItems, keys_inletMeters (z := id.toNat) c hm hmem, Part.latchItems, htime] at answered
      refine ⟨fun hl => used ?_, fun y hl => used ?_⟩
      · rw [answered, hl]; rfl
      · rw [answered, hl]; rfl
    · refine used ?_
      rw [readEntry_station p ht (hstation ht), hx, entryAnswer_some]
      simp only [Part.stationItems, htime, hline, Part.pinWord, Station.loadLine]
      rfl

end Sys2Proof.Machine
end

