-- ==== Sys2Proof/Proofs/Positions.lean ====
section
/-! PROOFS. What the sequencer does with an applied position (R112, R116), as O47 says it. -/

namespace Sys2Proof.Machine

/-! ## Records adjusted and written twice -/

theorem Table.adjust_absent {α : Type} {t : Table α} {k : Nat} (h : ∀ e ∈ t, k < e.1) (f : α → α) :
    Table.adjust t k f = t :=
  (List.map_congr_left fun e he => if_neg (h e he).ne').trans (List.map_id' t)

/-- In a canonical table a record that is there is adjusted by writing it. -/
theorem Table.adjust_eq_put {α : Type} {t : Table α} (h : t.wf = true) {k : Nat} {a : α} (ha : t.look k = some a)
    (f : α → α) : Table.adjust t k f = Table.put t k (f a) := by
  induction t with
  | nil => simp at ha
  | cons e t ih =>
    obtain ⟨i, b⟩ := e
    obtain ⟨hlt, ht⟩ := Table.wf_cons.1 h
    by_cases hik : i = k
    · subst hik
      obtain rfl : b = a := by simpa [Table.look] using ha
      have htail := Table.adjust_absent hlt f
      simp only [Table.adjust] at htail
      simp [Table.adjust, Table.put, htail]
    · have ha' : Table.look t k = some a := by simpa [Table.look, hik] using ha
      have hik' : i < k := hlt _ (Table.mem_of_look ha')
      have htail := ih ht ha'
      simp only [Table.adjust] at htail
      simp [Table.adjust, Table.put, hik, hik'.not_gt, (Ne.symm hik), htail]

theorem adjustValve_eq_putValve {p : Part} (h : Table.wf p.net.valves = true) {v : Nat} {x : Valve}
    (hx : p.valve? v = some x) (f : Valve → Valve) : p.adjustValve v f = p.putValve v (f x) := by
  simp only [Part.adjustValve, Part.putValve, Table.adjust_eq_put h hx]

theorem putContext_putContext (p : Part) (v : Nat) (c d : StepCtx) : (p.putContext v c).putContext v d = p.putContext v d := by
  simp only [Part.putContext, Table.put_put]

@[simp] theorem context?_putContext_self (p : Part) (v : Nat) (c : StepCtx) : (p.putContext v c).context? v = some c :=
  Table.look_put_self _ _ _

/-! ## Steps reached (R116) -/

theorem within2_iff (o t : Nat) : within2 o t = true ↔ o ≤ t + 2 ∧ t ≤ o + 2 := decide_eq_true_iff

theorem runTarget_closing {c : StepCtx} (h : c.run = .closing) (p : Part) (v : Nat) (x : Valve) : p.runTarget v x c = 0 := by
  simp [Part.runTarget, h]

theorem runTarget_restoring {c : StepCtx} (h : c.run = .restoring) (p : Part) (v : Nat) (x : Valve) :
    p.runTarget v x c =
      match (c.serves.head?.bind p.incident?).bind fun i => i.touched.find? fun t => decide (t.valve = v) with
      | some t => t.prior.getD (if x.normal = .closed then 0 else 100)
      | none => if x.normal = .closed then 0 else 100 := by
  simp only [Part.runTarget, h, finalTarget_eq]
  rfl

theorem finishRun_eq (grants : Part → Part) {p : Part} {v : Nat} {c : StepCtx} (hc : p.context? v = some c) :
    p.finishRun grants v =
      if c.run = .closing then c.serves.foldl (fun q r => q.testVerify r) (grants (p.endContext v))
      else c.serves.foldl (fun q r => q.endTouched r v false) (grants (p.endContext v)) := by
  unfold Part.finishRun
  rw [hc]
  cases h : c.run <;> simp [h]

/-- The context after its step is reached. -/
def StepCtx.arrived (c : StepCtx) (t : Nat) : StepCtx :=
  { c with travelDue := none, pollDue := none, reached := some t, target := none }

section
variable {grants : Part → Part} {p : Part} {v t : Nat} {x : Valve} {c : StepCtx}

theorem stepReached_dropped (hd : c.dropAfterStep = true) :
    p.stepReached grants v x c t =
      grants (((p.adjustValve v fun y => { y with moveTag := none }).putContext v (c.arrived t)).endContext v) :=
  if_pos hd

theorem stepReached_final (hd : c.dropAfterStep = false) (ht : t = p.runTarget v x c) :
    p.stepReached grants v x c t =
      ((p.adjustValve v fun y => { y with moveTag := none }).putContext v (c.arrived t)).finishRun grants v :=
  (if_neg (by simp [hd])).trans (if_pos ht)

theorem stepReached_dwell (hd : c.dropAfterStep = false) (ht : t ≠ p.runTarget v x c) {k : ValveClass}
    (hk : p.vclass? x.vclass = some k) :
    p.stepReached grants v x c t =
      (p.adjustValve v fun y => { y with moveTag := none }).putContext v
        { c.arrived t with phase := .dwelling, dwellDue := some (p.now + 10 * k.dwell) } := by
  unfold Part.stepReached
  dsimp only
  rw [if_neg (by simp [hd]), if_neg ht, hk]
  rfl

theorem takePosition_noContext (o : Nat) (hc : p.context? v = none) : p.takePosition grants v o = p := by
  simp only [Part.takePosition, hc]

theorem takePosition_querying (o : Nat) (hc : p.context? v = some c) (hx : p.valve? v = some x) (h : c.phase = .querying) :
    p.takePosition grants v o = p.queryAnswered grants v o c := by
  simp only [Part.takePosition, hc, hx, h]

theorem takePosition_reached {o : Nat} (hc : p.context? v = some c) (hx : p.valve? v = some x) (h : c.phase = .travelling)
    (ht : c.target = some t) (ho : o ≤ t + 2 ∧ t ≤ o + 2) : p.takePosition grants v o = p.stepReached grants v x c t := by
  simp only [Part.takePosition, hc, hx, h, ht, (within2_iff o t).2 ho, if_true]

/-- A position that answers no first QUERY and reaches no target. -/
theorem takePosition_other {o : Nat} (hc : p.context? v = some c) (hx : p.valve? v = some x) (h : c.phase ≠ .querying)
    (hn : ¬∃ t, c.phase = .travelling ∧ c.target = some t ∧ o ≤ t + 2 ∧ t ≤ o + 2) : p.takePosition grants v o = p := by
  unfold Part.takePosition
  rw [hc, hx]
  dsimp only
  split
  · exact absurd ‹_› h
  · rename_i t hphase htarget
    exact if_neg fun k => hn ⟨t, hphase, htarget, (within2_iff o t).1 k⟩
  · rfl

end

/-- The final target as the rules give it, of either run. -/
theorem runTarget_eq (p : Part) (v : Nat) (x : Valve) (c : StepCtx) :
    p.runTarget v x c =
      if c.run = .closing then 0 else
        match (c.serves.head?.bind p.incident?).bind fun i => i.touched.find? fun t => decide (t.valve = v) with
        | some t => t.prior.getD (if x.normal = .closed then 0 else 100)
        | none => if x.normal = .closed then 0 else 100 := by
  cases h : c.run with
  | closing => exact runTarget_closing h p v x
  | restoring => exact runTarget_restoring h p v x

end Sys2Proof.Machine
end

