-- ==== Sys2Proof/Proofs/Items.lean ====
section
/-! PROOFS. The items of a passed REPORT: samples, positions and echoes (O47). -/

namespace Sys2Proof.Machine

/-! ## Which items are used (R158) -/

section
variable {p : Part} {source k v : Nat} {i : Item}

theorem offerItem_unmapped (h : p.channel? source i.channel = none) : p.offerItem source i = p := by
  unfold Part.offerItem
  rw [h]

theorem offerItem_sensor {x : Sensor} (h : p.channel? source i.channel = some (.sensor k)) (hx : p.sensor? k = some x) :
    p.offerItem source i =
      if i.suspectQuality = true then p
      else if i.code = 1 ∧ x.kind = .pressure then (p.samplePressure k x (min i.value 4095)).settled
      else if i.code = 2 ∧ x.kind = .flow then (p.sampleFlow k x i.value).settled
      else p := by
  simp only [Part.offerItem, h, hx]

theorem offerItem_valve {x : Valve} (h : p.channel? source i.channel = some (.valve v)) (hx : p.valve? v = some x) :
    p.offerItem source i =
      if i.suspectQuality = true then p
      else if i.code = 3 then p.applyPosition v x i.value
      else if i.code = 4 ∧ i.b3.toNat ≤ 2 then (p.takeEcho v i.b2.toNat i.b3.toNat).settled
      else p := by
  simp only [Part.offerItem, h, hx]

theorem offerItem_pressure {x : Sensor} (h : p.channel? source i.channel = some (.sensor k)) (hx : p.sensor? k = some x)
    (hk : x.kind = .pressure) (hgood : i.suspectQuality = false) (hcode : i.code = 1) {q : Part}
    (hq : p.samplePressure k x (min i.value 4095) = q) (hrest : q.atRest) : p.offerItem source i = q := by
  rw [offerItem_sensor h hx, hgood, if_neg Bool.false_ne_true, if_pos ⟨hcode, hk⟩, hq, Part.settled_rest q hrest]

theorem offerItem_flow {x : Sensor} (h : p.channel? source i.channel = some (.sensor k)) (hx : p.sensor? k = some x)
    (hk : x.kind = .flow) (hgood : i.suspectQuality = false) (hcode : i.code = 2) {q : Part}
    (hq : p.sampleFlow k x i.value = q) (hrest : q.atRest) : p.offerItem source i = q := by
  rw [offerItem_sensor h hx, hgood, if_neg Bool.false_ne_true, if_neg (by simp [hk]), if_pos ⟨hcode, hk⟩, hq,
    Part.settled_rest q hrest]

/-- A position offered to a valve, the change of its closed status read off the value. -/
theorem offerItem_position {x : Valve} (h : p.channel? source i.channel = some (.valve v)) (hx : p.valve? v = some x)
    (hgood : i.suspectQuality = false) (hcode : i.code = 3) {q : Part}
    (hq : ((p.putValve v { x with opening := some (min i.value 100), positionTime := some p.now }).takePosition Part.settled v
      (min i.value 100)).testBreach v x (min i.value 100) = q) :
    p.offerItem source i =
      Part.settled (if x.countsAsClosed = decide (i.value = 0) then q else q.announce (.ofClosed v)) := by
  have hzero : decide (min i.value 100 = 0) = decide (i.value = 0) := decide_eq_decide.2 (by omega)
  rw [offerItem_valve h hx, hgood, if_neg Bool.false_ne_true, if_pos hcode, Part.applyPosition,
    closedChange_putOpening hx, announceAll_ite, hzero, hq]

theorem offerItem_echo {x : Valve} (h : p.channel? source i.channel = some (.valve v)) (hx : p.valve? v = some x)
    (hgood : i.suspectQuality = false) (hcode : i.code = 4) (hstatus : i.b3.toNat ≤ 2) :
    p.offerItem source i = (p.takeEcho v i.b2.toNat i.b3.toNat).settled := by
  rw [offerItem_valve h hx, hgood, if_neg Bool.false_ne_true, if_neg (by omega), if_pos ⟨hcode, hstatus⟩]

theorem offerItem_suspect (hq : i.suspectQuality = true) : p.offerItem source i = p := by
  unfold Part.offerItem
  split
  · rfl
  · split
    · rfl
    · exact if_pos hq
  · split
    · rfl
    · exact if_pos hq

/-- A sensor takes the quantity of its own kind. -/
theorem offerItem_otherQuantity {x : Sensor} (h : p.channel? source i.channel = some (.sensor k)) (hx : p.sensor? k = some x)
    (hcode : i.code ≠ if x.kind = .pressure then 1 else 2) : p.offerItem source i = p := by
  rw [offerItem_sensor h hx]
  cases hk : x.kind <;> simp_all

theorem offerItem_otherCode (h : p.channel? source i.channel = some (.valve v)) (h3 : i.code ≠ 3) (h4 : i.code ≠ 4) :
    p.offerItem source i = p := by
  cases hx : p.valve? v with
  | none => simp only [Part.offerItem, h, hx]
  | some x => simp only [offerItem_valve h hx, h3, h4, false_and, if_false, ite_self]

end

/-! ## Pressure samples (R26, R34, R136) -/

theorem dropsSharply_iff {x : Sensor} (hk : x.kind = .pressure) (v : Nat) :
    x.dropsSharply v = true ↔ x.drop ≠ 0 ∧ x.status = .fresh ∧ ∃ l, x.lastValue = some l ∧ v + x.drop ≤ l := by
  unfold Sensor.dropsSharply
  cases x.lastValue <;> simp [hk, and_assoc]

theorem verifySample_idle {p : Part} (h : p.ver = []) (k : Nat) (x : Sensor) : p.verifySample k x = p := by
  refine List.foldl_fixed' (fun r => ?_) _
  unfold Part.earlyTest
  rw [h, Table.look_nil]
  cases p.incident? r <;> rfl

/-- The suspect of a sharp drop (R34). -/
def sharpDrop (k now : Nat) (x : Sensor) : Suspect := { candidate := x.place, cause := .sharpDrop, sensor := k, raised := now }

theorem samplePressure_calm {x : Sensor} {v : Nat} (h : ¬x.dropsSharply v = true) (k : Nat) (p : Part) :
    p.samplePressure k x v = (p.putSensor k (x.sampled v p.now)).verifySample k (x.sampled v p.now) := by
  simp only [Part.samplePressure, h, if_false, Bool.false_eq_true]

theorem samplePressure_dropped {x : Sensor} {v : Nat} (h : x.dropsSharply v = true) (k : Nat) (p : Part) :
    p.samplePressure k x v =
      (((p.record .suspect none (some (.segment x.place)) (some 1)).putSensor k (x.sampled v p.now)).verifySample k
        (x.sampled v p.now)).routeSuspect none (sharpDrop k p.now x) := by
  simp only [Part.samplePressure, h, if_true]
  rfl

/-! ## Flow samples (R26, R31 to R33) -/

theorem lowSensor_iff (p : Part) (z : Nat) (s : Sensor) :
    p.lowSensor z s = true ↔ s.kind = .pressure ∧ s.status = .fresh ∧ s.excursion = .low ∧
      ∃ g, p.segment? s.place = some g ∧ g.zone = z := by
  simp only [Part.lowSensor, Bool.and_eq_true, decide_eq_true_eq, and_assoc]
  refine and_congr_right fun hk => ?_
  simp only [Part.zoneOfSensor, hk, Option.map_eq_some_iff]

theorem lowPressure_iff (p : Part) (z : Nat) :
    p.lowPressure z = true ↔ ∃ e ∈ p.watch.sensors, e.2.kind = .pressure ∧ e.2.status = .fresh ∧ e.2.excursion = .low ∧
      ∃ g, p.segment? e.2.place = some g ∧ g.zone = z := by
  simp only [Part.lowPressure, List.any_eq_true, lowSensor_iff]

theorem givesBefore_iff (a b : Sensor) :
    a.givesBefore b = true ↔ b.deficit < a.deficit ∨ (b.deficit = a.deficit ∧ a.place < b.place) := by
  simp only [Sensor.givesBefore, Bool.or_eq_true, Bool.and_eq_true, decide_eq_true_eq, eq_comm (a := a.deficit)]

theorem givesBefore_asymm {a b : Sensor} (h : a.givesBefore b = true) : b.givesBefore a = false := by
  rw [Bool.eq_false_iff, Ne, givesBefore_iff]
  rw [givesBefore_iff] at h
  omega

theorem givesBefore_irrefl (a : Sensor) : a.givesBefore a = false := by simp [Sensor.givesBefore]

theorem Table.nodup_of_wf {α : Type} {t : Table α} (h : t.wf = true) : t.Nodup :=
  List.Nodup.of_map Prod.fst (((Table.wf_iff_keys_pairwise t).1 h).imp ne_of_lt)

/-- The LOW sensor that gives the candidate before every other of its zone is the one recorded. -/
theorem candidates_eq_singleton {p : Part} (hwf : Table.wf p.watch.sensors = true) {z r : Nat} {s : Sensor}
    (hm : (r, s) ∈ p.watch.sensors) (hs : p.lowSensor z s = true)
    (hfirst : ∀ e ∈ p.watch.sensors, p.lowSensor z e.2 = true → e ≠ (r, s) → s.givesBefore e.2 = true) :
    p.candidates z = [(r, s)] := by
  have hnodup : (p.candidates z).Nodup := ((Table.nodup_of_wf hwf).filter _).filter _
  refine List.perm_singleton.1 ((List.perm_ext_iff_of_nodup hnodup (List.nodup_singleton _)).2 fun e => ?_)
  simp only [Part.candidates, List.mem_filter, List.mem_singleton, Bool.not_eq_true', List.any_eq_false, and_imp,
    Bool.not_eq_true]
  constructor
  · rintro ⟨⟨he, hlow⟩, hnone⟩
    by_contra hne
    exact absurd (hfirst e he hlow hne) (by simp [hnone _ hm hs])
  · rintro rfl
    refine ⟨⟨hm, hs⟩, fun e he hlow => ?_⟩
    by_cases hne : e = (r, s)
    · rw [hne, givesBefore_irrefl]
    · exact givesBefore_asymm (hfirst e he hlow hne)

section
variable {p : Part} {z v : Nat} {x : Sensor}

theorem countFlow_inBand (hlo : x.bandLow ≤ v) (hhi : ¬x.bandHigh < v) :
    p.countFlow z x v = (p.putZone z { p.zone z with counter := 0 }, none) := by
  simp only [Part.countFlow, hlo.not_gt, hhi, if_false]

theorem countFlow_passed (h : v < x.bandLow ∨ (x.bandHigh < v ∧ p.lowPressure z = false)) (hband : x.bandLow ≤ x.bandHigh) :
    p.countFlow z x v = (p, none) := by
  rcases h with h | ⟨h, hp⟩
  · simp only [Part.countFlow, h, if_true]
  · have hlo : ¬v < x.bandLow := by omega
    simp only [Part.countFlow, hlo, h, hp, if_true, if_false, Bool.false_eq_true]

theorem countFlow_counted (h : x.bandHigh < v) (hband : x.bandLow ≤ x.bandHigh) (hp : p.lowPressure z = true)
    (hn : (p.zone z).counter + 1 < (p.zone z).threshold) :
    p.countFlow z x v = (p.putZone z { p.zone z with counter := (p.zone z).counter + 1 }, none) := by
  have hlo : ¬v < x.bandLow := by omega
  simp only [Part.countFlow, hlo, h, hp, hn, if_true, if_false]

theorem countFlow_raised (h : x.bandHigh < v) (hband : x.bandLow ≤ x.bandHigh) (hp : p.lowPressure z = true)
    (hn : (p.zone z).threshold ≤ (p.zone z).counter + 1) {r : Nat} {s : Sensor} (hc : p.candidates z = [(r, s)]) :
    p.countFlow z x v =
      let e : Suspect := { candidate := s.place, cause := .coincidence, sensor := r, raised := p.now }
      ((p.putZone z { p.zone z with counter := 0 }).traceSuspect e, some e) := by
  have hlo : ¬v < x.bandLow := by omega
  have hcs : p.candidateSensor z = some (r, s) := by simp only [Part.candidateSensor, hc]
  simp only [Part.countFlow, hlo, h, hp, hn.not_gt, hcs, hc, if_true, if_false, List.length_singleton, le_refl]

theorem sampleFlow_eq {k : Nat} {q : Part} {s : Option Suspect}
    (h : (p.putSensor k (x.sampled v p.now)).countFlow x.place x v = (q, s)) :
    p.sampleFlow k x v = (s.elim q fun e => q.routeSuspect none e) := by
  simp only [Part.sampleFlow, h]
  cases s <;> rfl

end

/-! ## Echoes (R115, R118) -/

theorem takeEcho_stale {p : Part} {v tag : Nat} {x : Valve} (hx : p.valve? v = some x) (h : x.moveTag ≠ some tag) (n : Nat) :
    p.takeEcho v tag n = { p with counters := { p.counters with staleEchoes := raise p.counters.staleEchoes } } := by
  simp only [Part.takeEcho, hx, h, if_false]

theorem takeEcho_own {p : Part} {v tag : Nat} {x : Valve} (hx : p.valve? v = some x) (h : x.moveTag = some tag) (n : Nat) :
    p.takeEcho v tag n =
      if n = 1 then p.failWith v .local .local else if n = 2 then p.failWith v .seized .seized else p := by
  simp only [Part.takeEcho, hx, h, if_true]

theorem raise_eq_min {n : Nat} (h : n ≤ 65535) : raise n = min 65535 (n + 1) := by
  unfold raise Config.counterTop
  split <;> omega

/-- A step that fails with no grant to make. -/
theorem failStep_atRest {p : Part} {v : Nat} {c : StepCtx} (hc : p.context? v = some c) (why : Failure)
    (h : ((p.record .stepFailed (p.firstServed c) (some (.valve v)) (some why.num)).endContext v).atRest) :
    p.failStep Part.settled v why =
      let a := (p.record .stepFailed (p.firstServed c) (some (.valve v)) (some why.num)).endContext v
      if c.run = .closing then
        c.serves.foldl (fun q r => if q.stateOf r = some .closing then q.planChanged r (.valve v) else q) a
      else
        (c.serves.foldl (fun q r => q.endTouched r v true) a).record .leftPartial (p.firstServed c) (some (.valve v)) none := by
  unfold Part.failStep
  rw [hc]
  dsimp only
  rw [Part.settled_rest _ h]
  cases hr : c.run <;> simp

theorem writeOper_eq {p : Part} {v : Nat} {x : Valve} (hx : p.valve? v = some x) (o : Operability) :
    p.writeOper v o =
      if x.operability = o then p
      else (p.putValve v { x with operability := o }).record .operability none (some (.valve v)) (some o.num) := by
  split_ifs with h
  · exact h ▸ writeOper_same hx
  · exact writeOper_changed hx h

/-- What a write of OPERABILITY leaves alone. -/
theorem writeOper_frame (v : Nat) (o : Operability) (p : Part) : (p.writeOper v o).seq = p.seq ∧ (p.writeOper v o).inc = p.inc := by
  unfold Part.writeOper
  split
  · exact ⟨rfl, rfl⟩
  · split <;> exact ⟨rfl, rfl⟩

theorem context?_writeOper (v w : Nat) (o : Operability) (p : Part) : (p.writeOper v o).context? w = p.context? w := by
  rw [Part.context?, (writeOper_frame v o p).1, ← Part.context?]

theorem firstServed_writeOper (v : Nat) (o : Operability) (p : Part) (c : StepCtx) :
    (p.writeOper v o).firstServed c = p.firstServed c := by
  unfold Part.firstServed Part.numberOf Part.incident?
  rw [(writeOper_frame v o p).2]

theorem failWith_eq {p : Part} {v : Nat} {x : Valve} (hx : p.valve? v = some x) (o : Operability) (why : Failure) :
    p.failWith v o why =
      if x.operability = o then (p.writeOper v o).failStep Part.settled v why
      else ((p.writeOper v o).failStep Part.settled v why).announce (.ofOper v) := by
  rw [Part.failWith, operChange_writeOper hx, announceAll_ite]

/-- Settles O47: each use of an item by the rule of its quantity, then the sequencer's handling of a position, and breach. -/
theorem reportItems : Obligations.ReportItems := by
  refine ⟨?_, ?_, ?_⟩
  · intro p source i c o told unrelied
    refine ⟨offerItem_unmapped, offerItem_suspect, fun k x hc hx hcode => offerItem_otherQuantity hc hx hcode,
      fun v hc h3 h4 => offerItem_otherCode hc h3 h4, ?_, ?_, ?_, ?_, ?_, ?_⟩
    · intro k x hc hx hk hgood hcode v y sharp e tested f
      have offered {q : Part} (h : p.samplePressure k x v = q) : q.atRest → p.offerItem source i = q :=
        offerItem_pressure hc hx hk hgood hcode h
      have hsharp : x.dropsSharply v = true ↔ sharp := dropsSharply_iff hk v
      have calm (h : ¬sharp) : p.samplePressure k x v = tested p :=
        samplePressure_calm (by rwa [hsharp]) k p
      have dropped (h : sharp) : p.samplePressure k x v = f := samplePressure_dropped (hsharp.2 h) k p
      have idle (q : Part) (h : q.ver = []) : tested q = q.putSensor k y := verifySample_idle (p := q.putSensor k y) h k y
      refine ⟨fun hv h => offered ((calm h).trans (idle p hv)), fun hv h => offered ((dropped h).trans ?_),
        fun h => offered (calm h), fun h => offered (dropped h)⟩
      exact congrArg (Part.routeSuspect none _) (idle _ hv)
    · intro k x hc hx hk hgood hcode y q z low counted above lowPressure canon hband
      have offered {r : Part} {s : Option Suspect} (h : q.countFlow x.place x i.value = (r, s)) (e : Part)
          (he : (s.elim r fun e => r.routeSuspect none e) = e) : e.atRest → p.offerItem source i = e :=
        offerItem_flow hc hx hk hgood hcode ((sampleFlow_eq h).trans he)
      have hlow (s : Sensor) : q.lowSensor x.place s = true ↔ low s := lowSensor_iff q x.place s
      have hp : q.lowPressure x.place = true ↔ lowPressure := lowPressure_iff q x.place
      refine ⟨fun hlo hhi => offered (countFlow_inBand hlo hhi) _ rfl, fun h => ?_, fun ha hl hn => ?_, ?_⟩
      · refine offered (countFlow_passed (h.imp_right fun ⟨ha, hl⟩ => ⟨ha, ?_⟩) hband) _ rfl
        rwa [Bool.eq_false_iff, Ne, hp]
      · exact offered (countFlow_counted ha hband (hp.2 hl) hn) _ rfl
      · intro r s ha hl hn hm hs hfirst x' e
        have hwf : Table.wf q.watch.sensors = true := Table.wf_put k y canon.sensors
        have hc := candidates_eq_singleton hwf hm ((hlow s).2 hs) fun e he hlo hne =>
          (givesBefore_iff s e.2).2 (hfirst e he ((hlow e.2).1 hlo) hne)
        exact offered (countFlow_raised ha hband (hp.2 hl) hn hc) _ rfl
    · intro v x hc hx hgood hcode hun
      have offered {q : Part} (hq : (o x v).takePosition Part.settled v (min i.value 100) = q) (hinc : q.inc = p.inc)
          (hrest : (told x v q).atRest) : p.offerItem source i = told x v q := by
        have hbreach : q.testBreach v x (min i.value 100) = q := testBreach_unrelied (by rw [hinc]; exact hun) _ _
        exact (offerItem_position hc hx hgood hcode ((congrArg (Part.testBreach v x _) hq).trans hbreach)).trans
          (Part.settled_rest _ hrest)
      refine ⟨fun hnone => offered (takePosition_noContext _ hnone) rfl, ?_⟩
      intro d t k hd hphase htarget hlo hhi hdrop hrun ht hk canon e
      have hw : (o x v).valve? v = some { x with opening := some (min i.value 100), positionTime := some p.now } :=
        valve?_putValve_self p v _
      have hwf : Table.wf (o x v).net.valves = true := Table.wf_put v _ canon.valves
      have hgoal : t ≠ (o x v).runTarget v { x with opening := some (min i.value 100), positionTime := some p.now } d := by
        rwa [runTarget_closing hrun]
      have reached := takePosition_reached (grants := Part.settled) (p := o x v) hd hw hphase htarget ⟨hlo, hhi⟩
      refine offered ((reached.trans (stepReached_dwell hdrop hgoal hk)).trans ?_) rfl
      rw [adjustValve_eq_putValve hwf hw]
      rfl
    · intro v x hc hx hgood hcode e he
      exact (offerItem_position hc hx hgood hcode rfl).trans (Part.settled_rest e he)
    · intro v x d hc hx hd hgood hcode htag first refused
      have fails (op : Operability) (why : Failure) (hstatus : i.b3.toNat ≤ 2)
          (hecho : p.takeEcho v i.b2.toNat i.b3.toNat = p.failWith v op why) : refused op op.num why.num := by
        dsimp -zeta only [refused]
        intro w a b e ha he
        have hw : p.writeOper v op = w := writeOper_eq hx op
        have hwd : w.context? v = some d := by rw [← hw, context?_writeOper, hd]
        have hwf : w.firstServed d = first := hw ▸ firstServed_writeOper v op p d
        have hb : w.failStep Part.settled v why = b := (failStep_atRest hwd why (by rw [hwf]; exact ha)).trans (by rw [hwf])
        have hfail : p.takeEcho v i.b2.toNat i.b3.toNat = e := by
          rw [hecho, failWith_eq hx, hw, hb]
          rfl
        rw [offerItem_echo hc hx hgood hcode hstatus, hfail]
        exact Part.settled_rest e he
      refine ⟨fun h => fails .local .local (by simp [h]) ?_, fun h => fails .seized .seized (by simp [h]) ?_⟩
      · exact (takeEcho_own hx htag _).trans (if_pos (by simp [h]))
      · exact (takeEcho_own hx htag _).trans (by simp [h])
    · intro v x hc hx hgood hcode hstatus e
      rw [offerItem_echo hc hx hgood hcode hstatus]
      refine ⟨fun htag hb he => ?_, fun htag hzero hp => ?_⟩
      · obtain ⟨-, -, -, -, -, hstale, -⟩ := hb.counters
        rw [takeEcho_stale hx htag, raise_eq_min hstale]
        exact Part.settled_rest e he
      · rw [takeEcho_own hx htag, hzero]
        exact Part.settled_rest p hp
  · intro grants p v o took
    refine ⟨takePosition_noContext o, fun c x hc hx => ?_⟩
    intro arrives learn back goal
    have hgoal : p.runTarget v x c = goal := runTarget_eq p v x c
    refine ⟨takePosition_other hc hx, takePosition_querying o hc hx, fun t ht htarget hlo hhi canon => ?_⟩
    intro d q ended
    have reached : p.takePosition grants v o = p.stepReached grants v x c t :=
      takePosition_reached hc hx ht htarget ⟨hlo, hhi⟩
    have hq : (p.adjustValve v fun y => { y with moveTag := none }).putContext v (c.arrived t) = q :=
      congrArg (fun e : Part => e.putContext v (c.arrived t)) (adjustValve_eq_putValve canon.valves hx _)
    have hqc : q.context? v = some (c.arrived t) := context?_putContext_self _ _ _
    refine ⟨fun hd => ?_, fun hd hg hr => ?_, fun hd hg hr => ?_, fun k hd hg hk => ?_⟩
    · refine (reached.trans (stepReached_dropped hd)).trans ?_
      rw [hq]
    · refine (reached.trans (stepReached_final hd (hg.trans hgoal.symm))).trans ?_
      rw [hq, finishRun_eq grants hqc]
      exact if_pos hr
    · refine (reached.trans (stepReached_final hd (hg.trans hgoal.symm))).trans ?_
      rw [hq, finishRun_eq grants hqc]
      exact if_neg (by simp [StepCtx.arrived, hr])
    · refine (reached.trans (stepReached_dwell hd (hgoal ▸ hg) hk)).trans ?_
      rw [adjustValve_eq_putValve canon.valves hx]
      exact (putContext_putContext _ _ _ _).symm
  · intro p v o x shut test
    have hshut : x.stoodClosed = true ↔ shut := stoodClosed_iff x
    rw [testBreach_eq]
    exact ⟨fun q r i => breached_iff q r v i, fun h ho => if_pos ⟨hshut.2 h, ho⟩, fun h => if_neg (by rwa [hshut])⟩

end Sys2Proof.Machine
end

