-- ==== Sys2Proof/Proofs/ZoneOrders.lean ====
section
/-! PROOFS. Zone records read back (O16), and the orders on zones: LOAD_ZONE and CLEAR_ZONE (O29), ZONE_MODE (O30),
SUSPEND_ALL and RESUME_ALL (O31), CLEAR_LATCH (O32). -/

namespace Sys2Proof.Machine

/-! ## Zone records (R29) -/

/-- A zone that is not listed holds the power-on record, so the removal of a listed one writes that record. -/
theorem zone_putZone (p : Part) (z k : Nat) (x : Zone) : (p.putZone z x).zone k = if k = z then x else p.zone k := by
  by_cases hx : x = Zone.powerOn
  · simp only [Part.zone, Part.putZone, hx, if_true, Table.look_remove]
    split <;> rfl
  · simp only [Part.zone, Part.putZone, hx, if_false, Table.look_put]
    split <;> rfl

@[simp] theorem zone_putZone_self (p : Part) (z : Nat) (x : Zone) : (p.putZone z x).zone z = x := by simp [zone_putZone]

/-- Settles O16. -/
theorem zonesReadBack : Obligations.ZonesReadBack := zone_putZone

/-! ## LOAD_ZONE and CLEAR_ZONE (R30) -/

theorem slotsHeld_pos_iff (p : Part) (z : Nat) : 0 < p.slotsHeld z ↔ ∃ e ∈ p.seq.contexts, e.2.zone = z := by
  simp [Part.slotsHeld, List.length_filter_pos_iff]

theorem slotsBusy_iff (p : Part) (z slots : Nat) :
    p.slotsBusy z slots = true ↔ (p.zone z).slots ≠ slots ∧ ∃ e ∈ p.seq.contexts, e.2.zone = z := by
  rw [← slotsHeld_pos_iff]
  simp [Part.slotsBusy]

theorem saturationOf_eq (b : Byte) :
    saturationOf b = if 1 < b.toNat then none else some (if b = 0#8 then .clamp else .refer) := twoCodes_eq b _ _

section LoadZone

variable (zone : Word) (threshold slots : Byte) (margin : Word) (saturation urgency : Byte) (window drained : Word)

/-- The zone record with the settings of a LOAD, held to their ranges (R30). -/
def zoneOfLoad (old : Zone) : Zone :=
  { old with
    counter := if old.threshold = max 1 (min threshold.toNat 63) then old.counter else 0
    threshold := max 1 (min threshold.toNat 63), slots := max 1 (min slots.toNat 4), margin := min margin.toNat 1000,
    saturation := if saturation = 0#8 then .clamp else .refer, urgency := min urgency.toNat 3,
    verifyWindow := max 30 (min window.toNat 3600), drained := min drained.toNat 4095 }

/-- Every setting of a LOAD of a zone lies in its range. -/
abbrev zoneFits : Prop :=
  1 ≤ threshold.toNat ∧ threshold.toNat ≤ 63 ∧ 1 ≤ slots.toNat ∧ slots.toNat ≤ 4 ∧ margin.toNat ≤ 1000 ∧
    urgency.toNat ≤ 3 ∧ 30 ≤ window.toNat ∧ window.toNat ≤ 3600 ∧ drained.toNat ≤ 4095

theorem loadZone_bad (p : Part) (h : 63 < zone.toNat ∨ 1 < saturation.toNat) :
    p.loadZone zone threshold slots margin saturation urgency window drained = (p, .bare .badArgument) := by
  unfold Part.loadZone
  rw [saturationOf_eq]
  by_cases hs : 1 < saturation.toNat
  · simp [hs]
  · simp [hs, examine_cons, h.resolve_right hs]

theorem loadZone_fit (p : Part) (h : ¬(63 < zone.toNat ∨ 1 < saturation.toNat)) :
    p.loadZone zone threshold slots margin saturation urgency window drained =
      let x := zoneOfLoad threshold slots margin saturation urgency window drained (p.zone zone.toNat)
      if (p.zone zone.toNat).slots ≠ x.slots ∧ ∃ e ∈ p.seq.contexts, e.2.zone = zone.toNat then (p, .bare .busy)
      else (p.putZone zone.toNat x,
        .bare (if zoneFits threshold slots margin urgency window drained then .ok else .okClamped)) := by
  obtain ⟨hz, hs⟩ := not_or.1 h
  have threshold_eq : clampTo 1 63 threshold.toNat = max 1 (min threshold.toNat 63) := clampTo_eq_max_min _ (by decide)
  have slots_eq : clampTo 1 4 slots.toNat = max 1 (min slots.toNat 4) := clampTo_eq_max_min _ (by decide)
  have window_eq : clampTo 30 3600 window.toNat = max 30 (min window.toNat 3600) := clampTo_eq_max_min _ (by decide)
  unfold Part.loadZone
  rw [saturationOf_eq, if_neg hs]
  simp only [examine_cons, examine_nil, decide_eq_true_eq, hz, if_false, slotsBusy_iff, threshold_eq, slots_eq, window_eq]
  refine if_congr Iff.rfl rfl (Prod.ext rfl (congrArg Answer.bare (loaded_decide ?_)))
  simp only [Bool.or_eq_false_iff, decide_eq_false_iff_not, not_not, zoneFits]
  omega

end LoadZone

theorem clearZone_eq (zone : Word) (p : Part) :
    p.clearZone zone =
      if 63 < zone.toNat then (p, .bare .badArgument)
      else if (p.zone zone.toNat).slots ≠ 2 ∧ ∃ e ∈ p.seq.contexts, e.2.zone = zone.toNat then (p, .bare .busy)
      else (p.putZone zone.toNat ((p.zone zone.toNat).settings Zone.powerOn), .bare .ok) := by
  simp only [Part.clearZone, examine_cons, examine_nil, decide_eq_true_eq, slotsBusy_iff]
  rfl

/-- Settles O29. -/
theorem zoneSettings : Obligations.ZoneSettings := by
  constructor
  · intro m zone threshold slots margin saturation urgency window drained s i p z n x bad busy fits
    have takes {e : Part} {a : Answer}
        (he : p.loadZone zone threshold slots margin saturation urgency window drained = (e, a)) (hq : e.quiet) :
        s.takes i m e a := State.takes_rest rfl he hq
    have fit (h : ¬bad) := loadZone_fit zone threshold slots margin saturation urgency window drained p h
    refine ⟨fun h hq => ?_, fun h hb hq => ?_, fun h hb hf hq => ?_, fun h hb hf hq => ?_⟩
    · exact takes (loadZone_bad zone threshold slots margin saturation urgency window drained p h) hq
    · exact takes ((fit h).trans (if_pos hb)) hq
    · exact takes ((fit h).trans ((if_neg hb).trans (congrArg (_, Answer.bare ·) (if_pos hf)))) hq
    · exact takes ((fit h).trans ((if_neg hb).trans (congrArg (_, Answer.bare ·) (if_neg hf)))) hq
  · intro m zone s i p z x busy
    have takes {e : Part} {a : Answer} (he : p.clearZone zone = (e, a)) (hq : e.quiet) : s.takes i m e a :=
      State.takes_rest rfl he hq
    rw [clearZone_eq] at takes
    refine ⟨fun h hq => takes (if_pos h) hq, fun h hb hq => ?_, fun h hb hq => ?_⟩
    · exact takes (by rw [if_neg (Nat.not_lt.2 h), if_pos hb]) hq
    · exact takes (by rw [if_neg (Nat.not_lt.2 h), if_neg hb]; rfl) hq

/-! ## ZONE_MODE (R38) -/

/-- The MODE of a ZONE_MODE order's code 0, 1 or 2. -/
def zoneModeOfCode (w : Word) : ZoneMode := if w = 0#16 then .auto else if w = 1#16 then .confirm else .inhibit

theorem zoneModeOf_eq (w : Word) : zoneModeOf w = if 2 < w.toNat then none else some (zoneModeOfCode w) := by
  have h : 2 < w.toNat ↔ w ≠ 0#16 ∧ w ≠ 1#16 ∧ w ≠ 2#16 := by bv_omega
  unfold zoneModeOf zoneModeOfCode
  split_ifs <;> simp_all

theorem releaseLatch_empty {p : Part} {z : Nat} (h : (p.zone z).latch = none) : p.releaseLatch z = p := by
  simp [Part.releaseLatch, h]

theorem releaseLatch_held {p : Part} {z : Nat} {x : Suspect} (h : (p.zone z).latch = some x) :
    p.releaseLatch z = (p.putZone z { p.zone z with latch := none }).routeSuspect (some z) x := by
  simp [Part.releaseLatch, h]

/-- The part with the MODE of a ZONE_MODE order written. -/
def Part.writeZoneMode (z : Nat) (o : ZoneMode) (p : Part) : Part := p.putZone z { p.zone z with mode := o }

/-- The tests of a ZONE_MODE order, and the release where it takes MODE from INHIBIT. -/
theorem zoneMode_eq (zone mode : Word) (p : Part) :
    p.zoneMode zone mode =
      if 63 < zone.toNat ∨ 2 < mode.toNat then (p, .bare .badArgument)
      else (if (p.zone zone.toNat).mode = .inhibit ∧ zoneModeOfCode mode ≠ .inhibit then
          (p.writeZoneMode zone.toNat (zoneModeOfCode mode)).releaseLatch zone.toNat
        else p.writeZoneMode zone.toNat (zoneModeOfCode mode), .bare .ok) := by
  unfold Part.zoneMode
  rw [zoneModeOf_eq]
  by_cases hm : 2 < mode.toNat
  · simp [hm]
  · simp only [hm, if_false, or_false, refuse_eq]
    rfl

/-- Settles O30. -/
theorem zoneModeOrder : Obligations.ZoneModeOrder := by
  intro m zone mode s i p z bad o q releases
  have taken (h : ¬bad) : p.zoneMode zone mode = (if releases then q.releaseLatch z else q, .bare .ok) :=
    (zoneMode_eq zone mode p).trans (if_neg h)
  have takes {e : Part} (h : ¬bad) (he : (if releases then q.releaseLatch z else q) = e) (hq : e.quiet) :
      s.takes i m e (.bare .ok) :=
    State.takes_rest rfl ((taken h).trans (congrArg (·, Answer.bare .ok) he)) hq
  have hlatch : (q.zone z).latch = (p.zone z).latch := by simp [q]
  refine ⟨fun h hq => ?_, fun h hr hq => ?_, fun h hx hq => ?_, fun x h hr hx => ?_⟩
  · exact State.takes_rest rfl ((zoneMode_eq zone mode p).trans (if_pos h)) hq
  · exact takes h (if_neg hr) hq
  · exact takes h (by rw [releaseLatch_empty (hlatch.trans hx), ite_self]) hq
  · intro e hq
    exact takes h ((if_pos hr).trans (releaseLatch_held (hlatch.trans hx))) hq

/-! ## SUSPEND_ALL and RESUME_ALL (R39) -/

/-- Writing SUSPENDED in a list of zones writes the zone records of that list alone. -/
theorem suspendFold (b : Bool) (l : List Nat) (p : Part) :
    (∀ z, (l.foldl (fun q z => q.putZone z { q.zone z with suspended := b }) p).zone z =
      if z ∈ l then { p.zone z with suspended := b } else p.zone z) ∧
    ∃ t, l.foldl (fun q z => q.putZone z { q.zone z with suspended := b }) p =
      { p with watch := { p.watch with zones := t } } := by
  induction l generalizing p with
  | nil => exact ⟨fun z => by simp, p.watch.zones, rfl⟩
  | cons k l ih =>
    obtain ⟨hzone, t, ht⟩ := ih (p.putZone k { p.zone k with suspended := b })
    refine ⟨fun z => (hzone z).trans ?_, t, ht⟩
    by_cases hz : z = k
    · subst hz; simp
    · simp [zone_putZone, hz]

/-- Settles O31. -/
theorem suspendAndResume : Obligations.SuspendAndResume := by
  refine ⟨fun p b => ?_, fun m s => ?_, fun m s => ?_⟩
  · obtain ⟨hzone, t, ht⟩ := suspendFold b (List.range 64) p
    exact ⟨fun z => (hzone z).trans (by simp only [List.mem_range]), t, ht⟩
  · intro i e hq
    exact State.takes_rest rfl rfl hq
  · intro i q release e hq
    refine State.takes_rest rfl (congrArg (·, Answer.bare .ok) (List.foldl_ext _ _ _ fun q z _ => ?_)) hq
    simp only [release]
    cases hx : (q.zone z).latch with
    | none => simp [releaseLatch_empty hx]
    | some x => simp [releaseLatch_held hx]

/-! ## CLEAR_LATCH (R40) -/

theorem clearLatch_eq (zone : Word) (p : Part) :
    p.clearLatch zone =
      if 63 < zone.toNat then (p, .bare .badArgument)
      else match (p.zone zone.toNat).latch with
        | none => (p, .bare .ok)
        | some x =>
          ((p.putZone zone.toNat { p.zone zone.toNat with latch := none }).record .latchCleared none
            (some (.zone zone.toNat)) (some x.candidate), .bare .ok) := rfl

/-- Settles O32. -/
theorem clearLatch : Obligations.ClearLatch := by
  intro m zone s i p z
  have takes {e : Part} {a : Answer} (he : p.clearLatch zone = (e, a)) (hq : e.quiet) : s.takes i m e a :=
    State.takes_rest rfl he hq
  rw [clearLatch_eq] at takes
  refine ⟨fun h hq => takes (if_pos h) hq, fun h hx hq => ?_, fun x h hx => ?_⟩
  · exact takes (by rw [if_neg (Nat.not_lt.2 h), hx]) hq
  · intro e hq
    exact takes (by rw [if_neg (Nat.not_lt.2 h), hx]) hq

end Sys2Proof.Machine
end

