-- ==== Sys2Proof/Proofs/SensorOrders.lean ====
section
/-! PROOFS. The loads and clears of sensors (O27, O28), and the excursion state after a sample (O46). -/

namespace Sys2Proof.Machine

/-! ## The tests of a LOAD_SENSOR (R23) -/

theorem sensorKindOf_eq (b : Byte) :
    sensorKindOf b = if 1 < b.toNat then none else some (if b = 0#8 then .pressure else .flow) := twoCodes_eq b _ _

theorem sensorKindOfCode_pressure_iff (b : Byte) : (if b = 0#8 then SensorKind.pressure else .flow) = .pressure ↔ b = 0#8 := by
  split <;> simp_all

theorem sensorKindOfCode_flow_iff (b : Byte) : (if b = 0#8 then SensorKind.pressure else .flow) = .flow ↔ b ≠ 0#8 := by
  split <;> simp_all

theorem sensorArgsBad_iff (k : Nat) (x : Sensor) :
    sensorArgsBad k x = true ↔
      511 < k ∨ x.station = 0 ∨ x.station = 65535 ∨ 31 < x.channel ∨ (x.kind = .pressure ∧ 2047 < x.place) ∨
        (x.kind = .flow ∧ 63 < x.place) ∨ x.bandHigh < x.bandLow := by
  simp only [sensorArgsBad, Bool.or_eq_true, Bool.and_eq_true, decide_eq_true_eq, or_assoc]

theorem sensorPairTaken_iff (p : Part) (k : Nat) (x : Sensor) :
    p.sensorPairTaken k x = true ↔ ∃ c, p.channel? x.station x.channel = some c ∧ c ≠ .sensor k := by
  unfold Part.sensorPairTaken
  cases p.channel? x.station x.channel <;> simp

theorem metersFull_iff (p : Part) (k : Nat) (x : Sensor) :
    p.metersFull k x = true ↔
      x.kind = .flow ∧
        4 ≤ (p.watch.sensors.filter fun e => decide (e.2.kind = .flow ∧ e.2.place = x.place ∧ e.1 ≠ k)).length := by
  simp only [Part.metersFull, Part.inletMeters, List.filter_filter, Bool.and_eq_true, decide_eq_true_eq, Bool.decide_and]
  rw [List.filter_congr fun e _ => (by rw [Bool.and_comm, Bool.and_assoc] :
    (decide (e.1 ≠ k) && (decide (e.2.kind = .flow) && decide (e.2.place = x.place))) =
      (decide (e.2.kind = .flow) && (decide (e.2.place = x.place) && decide (e.1 ≠ k))))]

theorem sensorClamped_iff (x : Sensor) (low high persist drop window : Nat) :
    sensorClamped x low high persist drop window = true ↔
      x.bandLow ≠ low ∨ x.bandHigh ≠ high ∨ x.persist ≠ persist ∨ (x.kind = .pressure ∧ x.drop ≠ drop) ∨
        x.window ≠ window := by
  simp only [sensorClamped, Bool.or_eq_true, Bool.and_eq_true, decide_eq_true_eq, or_assoc]

/-! ## The record a reload leaves (R24) -/

theorem moved_iff (old new : Sensor) :
    old.moved new = true ↔
      old.kind ≠ new.kind ∨ old.place ≠ new.place ∨ old.station ≠ new.station ∨ old.channel ≠ new.channel := by
  simp only [Sensor.moved, Bool.or_eq_true, decide_eq_true_eq, or_assoc]

theorem rebanded_iff (old new : Sensor) :
    old.rebanded new = true ↔ old.bandLow ≠ new.bandLow ∨ old.bandHigh ≠ new.bandHigh ∨ old.persist ≠ new.persist := by
  simp only [Sensor.rebanded, Bool.or_eq_true, decide_eq_true_eq, or_assoc]

theorem retimed_eq (x : Sensor) (now : Nat) :
    x.retimed now =
      if x.status ≠ .fresh then x
      else if x.lastTime.getD 0 + 10 * x.window < now then
        { x with status := .stale, countdown := x.persist, side := .none, freshDue := none }
      else { x with freshDue := some (x.lastTime.getD 0 + 10 * x.window) } := (ite_not _ _ _).symm

/-- The record before its freshness timer is set anew: the last value stands, and the excursion state where the band and
PERSIST stand. -/
def Sensor.carried (old new : Sensor) : Sensor :=
  let kept := { new with lastValue := old.lastValue, lastTime := old.lastTime, status := old.status }
  if old.bandLow ≠ new.bandLow ∨ old.bandHigh ≠ new.bandHigh ∨ old.persist ≠ new.persist then kept
  else { kept with countdown := old.countdown, side := old.side, excursion := old.excursion }

theorem reload_eq (old new : Sensor) (now : Nat) :
    old.reload new now =
      if old.kind ≠ new.kind ∨ old.place ≠ new.place ∨ old.station ≠ new.station ∨ old.channel ≠ new.channel then new
      else (old.carried new).retimed now := by
  unfold Sensor.reload Sensor.carried
  simp only [moved_iff, rebanded_iff]
  refine if_congr Iff.rfl rfl ?_
  split <;> rfl

theorem retimed_carried (old new : Sensor) (now : Nat) :
    (old.carried new).retimed now =
      if old.status ≠ .fresh then old.carried new
      else if old.lastTime.getD 0 + 10 * new.window < now then
        { old.carried new with status := .stale, countdown := new.persist, side := .none, freshDue := none }
      else { old.carried new with freshDue := some (old.lastTime.getD 0 + 10 * new.window) } := by
  unfold Sensor.carried
  dsimp only
  split <;> exact retimed_eq _ _

/-! ## LOAD_SENSOR (R22, R23, R24) -/

section LoadSensor

variable (sensor station : Word) (channel kind : Byte) (place low high : Word) (persist : Byte) (drop window : Word)

/-- The record of a first load, its values taken into their ranges (R22, R23). -/
def sensorOfOrder : Sensor :=
  { station := station.toNat, channel := channel.toNat, kind := if kind = 0#8 then .pressure else .flow,
    place := place.toNat, bandLow := if kind = 0#8 then min low.toNat 4095 else low.toNat,
    bandHigh := if kind = 0#8 then min high.toNat 4095 else high.toNat, persist := max 1 (min persist.toNat 15),
    drop := if kind = 0#8 then min drop.toNat 4095 else 0, window := max 5 (min window.toNat 3600), lastValue := none,
    lastTime := none, status := .never, countdown := max 1 (min persist.toNat 15), side := .none, excursion := .inBand,
    freshDue := none }

theorem sensorOfLoad_eq :
    sensorOfLoad station.toNat channel.toNat (if kind = 0#8 then .pressure else .flow) place.toNat low.toNat high.toNat
      persist.toNat drop.toNat window.toNat =
    sensorOfOrder station channel kind place low high persist drop window := by
  simp only [sensorOfLoad, sensorOfOrder, clampTo_eq_max_min _ (show 1 ≤ 15 by decide),
    clampTo_eq_max_min _ (show 5 ≤ 3600 by decide), sensorKindOfCode_pressure_iff]

/-- What a taken load makes of the part: the record written, the old pair out of the channel index and the new one in. -/
def Part.writeSensor (k : Nat) (x : Sensor) (p : Part) : Part :=
  (match p.sensor? k with
    | some o => (p.removeChannel o.station o.channel).putSensor k (o.reload x p.now)
    | none => p.putSensor k x).putChannel x.station x.channel (.sensor k)

theorem loadSensor_badKind (p : Part) (h : 1 < kind.toNat) :
    p.loadSensor sensor station channel kind place low high persist drop window = (p, .bare .badArgument) := by
  unfold Part.loadSensor
  rw [sensorKindOf_eq, if_pos h]
  rfl

/-- The tests of a LOAD_SENSOR of a known kind, in order. -/
theorem loadSensor_eq (p : Part) (h : ¬1 < kind.toNat) :
    let x := sensorOfOrder station channel kind place low high persist drop window
    p.loadSensor sensor station channel kind place low high persist drop window =
      if sensorArgsBad sensor.toNat x = true then (p, .bare .badArgument)
      else if kind = 0#8 ∧ p.segment? place.toNat = none then (p, .bare .noSuch)
      else if p.sensorPairTaken sensor.toNat x = true then (p, .bare .duplicate)
      else if p.metersFull sensor.toNat x = true then (p, .bare .listFull)
      else (p.writeSensor sensor.toNat x,
        .bare (loaded (sensorClamped x low.toNat high.toNat persist.toNat drop.toNat window.toNat))) := by
  intro x
  unfold Part.loadSensor
  rw [sensorKindOf_eq, if_neg h]
  dsimp only
  rw [sensorOfLoad_eq]
  simp only [examine_cons, examine_nil, Bool.and_eq_true, decide_eq_true_eq, Option.isNone_iff_eq_none,
    sensorKindOfCode_pressure_iff]
  rfl

end LoadSensor

/-- Settles O27. -/
theorem sensorLoad : Obligations.SensorLoad := by
  intro m sensor station channel kind place low high persist drop window s i p k pressure lo hi n t x bad free taken full
    clamped y e
  have hx : sensorOfOrder station channel kind place low high persist drop window = x := rfl
  have hpressure : x.kind = .pressure ↔ pressure := sensorKindOfCode_pressure_iff kind
  have hflow : x.kind = .flow ↔ ¬pressure := sensorKindOfCode_flow_iff kind
  have hbad (h : ¬1 < kind.toNat) : sensorArgsBad k x = true ↔ bad := by
    have h0 : station = 0#16 ↔ station.toNat = 0 := by bv_omega
    have h1 : station = 65535#16 ↔ station.toNat = 65535 := by bv_omega
    rw [sensorArgsBad_iff, hpressure, hflow]
    simp only [bad, h0, h1, h, false_or]
    exact Iff.rfl
  have htaken : p.sensorPairTaken k x = true ↔ taken := sensorPairTaken_iff p k x
  have hfull : p.metersFull k x = true ↔ full := by rw [metersFull_iff, hflow]
  have hclamped : sensorClamped x low.toNat high.toNat persist.toNat drop.toNat window.toNat = true ↔ clamped := by
    have hdrop : pressure ∧ x.drop ≠ drop.toNat ↔ pressure ∧ 4095 < drop.toNat := by
      refine and_congr_right fun h => ?_
      have : x.drop = min drop.toNat 4095 := if_pos h
      omega
    rw [sensorClamped_iff, hpressure, hdrop]
  have hy (o : Sensor) : o.reload x p.now = y o := by
    rw [reload_eq, retimed_carried]
    rfl
  have he : p.writeSensor k x = e := by
    unfold Part.writeSensor
    simp only [hy]
    rfl
  have hkind (h : ¬bad) : ¬1 < kind.toNat := fun g => h (.inr (.inl g))
  have takes {b : Part} {a : Answer}
      (hb : p.loadSensor sensor station channel kind place low high persist drop window = (b, a)) (hq : b.quiet) :
      s.takes i m b a := State.takes_rest rfl hb hq
  have tests (h : ¬1 < kind.toNat) : p.loadSensor sensor station channel kind place low high persist drop window =
      if bad then (p, .bare .badArgument) else if free then (p, .bare .noSuch) else if taken then (p, .bare .duplicate)
      else if full then (p, .bare .listFull) else (e, .bare (if clamped then .okClamped else .ok)) := by
    have hresult : loaded (sensorClamped x low.toNat high.toNat persist.toNat drop.toNat window.toNat) =
        if clamped then .okClamped else .ok := if_congr hclamped rfl rfl
    refine (loadSensor_eq sensor station channel kind place low high persist drop window p h).trans ?_
    rw [hx, he, hresult]
    exact if_congr (hbad h) rfl (if_congr Iff.rfl rfl (if_congr htaken rfl (if_congr hfull rfl rfl)))
  refine ⟨fun h hq => ?_, fun h hf hq => ?_, fun h hf ht hq => ?_, fun h hf ht hu hq => ?_, fun h hf ht hu hc hq => ?_,
    fun h hf ht hu hc hq => ?_⟩
  · by_cases hk : 1 < kind.toNat
    · exact takes (loadSensor_badKind sensor station channel kind place low high persist drop window p hk) hq
    · exact takes ((tests hk).trans (if_pos h)) hq
  · exact takes ((tests (hkind h)).trans (by rw [if_neg h, if_pos hf])) hq
  · exact takes ((tests (hkind h)).trans (by rw [if_neg h, if_neg hf, if_pos ht])) hq
  · exact takes ((tests (hkind h)).trans (by rw [if_neg h, if_neg hf, if_neg ht, if_pos hu])) hq
  · exact takes ((tests (hkind h)).trans (by rw [if_neg h, if_neg hf, if_neg ht, if_neg hu, if_pos hc])) hq
  · exact takes ((tests (hkind h)).trans (by rw [if_neg h, if_neg hf, if_neg ht, if_neg hu, if_neg hc])) hq

/-! ## CLEAR_SENSOR (R25) -/

theorem clearSensor_eq (sensor : Word) (p : Part) :
    p.clearSensor sensor =
      if 511 < sensor.toNat then (p, .bare .badArgument)
      else match p.sensor? sensor.toNat with
        | none => (p, .bare .noSuch)
        | some x => ((p.removeChannel x.station x.channel).removeSensor sensor.toNat, .bare .ok) := rfl

/-- Settles O28. -/
theorem sensorClear : Obligations.SensorClear := by
  intro m sensor s i p k
  have takes {e : Part} {a : Answer} (he : p.clearSensor sensor = (e, a)) (hq : e.quiet) : s.takes i m e a :=
    State.takes_rest rfl he hq
  rw [clearSensor_eq] at takes
  refine ⟨fun h hq => takes (if_pos h) hq, fun h hfree hq => ?_, fun x h hx => ?_⟩
  · exact takes (by rw [if_neg (Nat.not_lt.2 h), hfree]) hq
  · intro e hq
    exact takes (by rw [if_neg (Nat.not_lt.2 h), hx]) hq

/-! ## The excursion state (R28) -/

/-- The countdown that a sample on a side leaves before it is found to have run out (R28). -/
def Sensor.countdownOn (x : Sensor) (side : CountSide) : Nat :=
  if x.side = .none ∨ x.side = side then x.countdown - 1 else x.persist - 1

theorem countOn_persists {x : Sensor} {side : CountSide} (h : x.countdownOn side = 0) (e : Excursion) :
    x.countOn side e = { x with countdown := x.persist, side := side, excursion := e } := if_pos h

theorem countOn_counts {x : Sensor} {side : CountSide} (h : x.countdownOn side ≠ 0) (e : Excursion) :
    x.countOn side e = { x with countdown := x.countdownOn side, side := side } := if_neg h

theorem excurse_low {x : Sensor} {v : Nat} (h : v < x.bandLow) : x.excurse v = x.countOn .low .low := if_pos h

theorem excurse_high {x : Sensor} {v : Nat} (hband : x.bandLow ≤ x.bandHigh) (h : x.bandHigh < v) :
    x.excurse v = x.countOn .high .high := by
  rw [Sensor.excurse, if_neg (by omega), if_pos h]

theorem excurse_inBand {x : Sensor} {v : Nat} (hlow : x.bandLow ≤ v) (hhigh : v ≤ x.bandHigh) :
    x.excurse v = { x with countdown := x.persist, side := .none, excursion := .inBand } := by
  rw [Sensor.excurse, if_neg (by omega), if_neg (by omega)]

/-- A sample moves the excursion state alone. -/
theorem excurse_frame (x : Sensor) (v : Nat) :
    x.excurse v =
      { x with
        countdown := (x.excurse v).countdown, side := (x.excurse v).side, excursion := (x.excurse v).excursion } := by
  have counted (side : CountSide) (e : Excursion) :
      x.countOn side e =
        { x with
          countdown := (x.countOn side e).countdown, side := (x.countOn side e).side,
          excursion := (x.countOn side e).excursion } := by
    by_cases h : x.countdownOn side = 0
    · rw [countOn_persists h]
    · rw [countOn_counts h]
  unfold Sensor.excurse
  split
  · exact counted _ _
  · split
    · exact counted _ _
    · rfl

/-- Settles O46: a sample outside the band counts on its side, and persists where the countdown has run out. -/
theorem excursionMoves : Obligations.ExcursionMoves := by
  intro x v hband y
  refine ⟨excurse_frame x v, fun hlow hhigh => ?_, fun side e hside => ?_⟩
  · simp only [y, excurse_inBand hlow hhigh, and_self]
  · intro n
    have hy : y = x.countOn side e := by
      rcases hside with ⟨hv, rfl, rfl⟩ | ⟨hv, rfl, rfl⟩
      · exact excurse_low hv
      · exact excurse_high hband hv
    have persists (h : n = 0) : y = { x with countdown := x.persist, side := side, excursion := e } :=
      hy.trans (countOn_persists h e)
    have counts (h : n ≠ 0) : y = { x with countdown := n, side := side } := hy.trans (countOn_counts h e)
    refine ⟨?_, fun h => ?_, fun h => ?_, fun hpersist hcount => ?_⟩
    · by_cases h : n = 0
      · rw [persists h]
      · rw [counts h]
    · rw [persists h]; exact ⟨rfl, rfl⟩
    · rw [counts h]; exact ⟨rfl, rfl⟩
    · have h : n = 0 := by simp only [n, hpersist, hcount, Nat.sub_self, ite_self]
      rw [persists h]

end Sys2Proof.Machine
end

