-- ==== Sys2Proof/Proofs/Suspects.lean ====
section
/-! PROOFS. The routing of a suspect (O33). -/

namespace Sys2Proof.Machine

/-! ## Areas, free records and latching zones (R35, R36, R37) -/

/-- The first record of a canonical table that meets a test is the lowest-numbered one. -/
theorem Table.find?_lowest {α : Type} {t : Table α} (h : t.wf = true) {f : α → Bool} {k : Nat} {a : α}
    (ha : t.look k = some a) (hf : f a = true) (hlow : ∀ j b, t.look j = some b → f b = true → k ≤ j) :
    t.find? (fun e => f e.2) = some (k, a) := by
  induction t with
  | nil => cases ha
  | cons e t ih =>
    obtain ⟨i, b⟩ := e
    obtain ⟨hi, ht⟩ := Table.wf_cons.1 h
    by_cases hik : i = k
    · subst hik
      obtain rfl : b = a := by simpa [Table.look] using ha
      simp [hf]
    · have ha' : Table.look t k = some a := by simpa [Table.look, hik] using ha
      have hik' : i < k := hi _ (Table.mem_of_look ha')
      have hb : ¬f b = true := fun hb => by
        have := hlow i b (by simp [Table.look]) hb
        omega
      refine (List.find?_cons_of_neg (p := fun e : Nat × α => f e.2) hb).trans ?_
      refine ih ht ha' fun j c hc hfc => hlow j c ?_ hfc
      have : i < j := hi _ (Table.mem_of_look hc)
      rw [Table.look, if_neg (by omega), hc]

theorem areaOwner_outside {p : Part} {g : Nat} (h : ∀ e ∈ p.inc.records, g ∉ e.2.area) : p.areaOwner g = none := by
  simpa [Part.areaOwner] using fun a b hab => h (a, b) hab

theorem areaOwner_lowest {p : Part} (c : p.canonical) {g r : Nat} {i : Incident} (hi : p.incident? r = some i)
    (hg : g ∈ i.area) (hlow : ∀ r' j, p.incident? r' = some j → g ∈ j.area → r ≤ r') : p.areaOwner g = some r := by
  have h := Table.find?_lowest c.records (f := fun i => i.area.contains g) hi (by simpa using hg)
    fun j b hb hf => hlow j b hb (by simpa using hf)
  simp only [Part.areaOwner, h, Option.map_some]

theorem freeRecord_eq_none_iff (p : Part) : p.freeRecord = none ↔ ∀ r, r < 8 → p.incident? r ≠ none := by
  simp [Part.freeRecord, Table.firstFree, Part.incident?]

theorem latches_iff (p : Part) (z : Nat) :
    p.latches z = true ↔ (p.zone z).mode = .inhibit ∨ (p.zone z).suspended = true ∨ p.mgmt.mode = .transparent := by
  simp only [Part.latches, Bool.or_eq_true, decide_eq_true_eq, Bool.not_eq_true', isActive_eq_false_iff, or_assoc]

/-! ## What becomes of a suspect -/

theorem absorb_inUse {p : Part} {r : Nat} {i : Incident} (h : p.incident? r = some i) (g value : Nat) :
    p.absorb r g value =
      (p.putIncident r { i with repeats := if i.repeats < 255 then i.repeats + 1 else i.repeats }).record .absorbed
        (some i.number) (some (.segment g)) (some value) := by
  simp only [Part.absorb, h]

theorem latchSuspect_empty {p : Part} {z : Nat} (h : (p.zone z).latch = none) (x : Suspect) :
    p.latchSuspect z x =
      (p.putZone z { p.zone z with latch := some x }).record .latched none (some (.zone z)) (some x.candidate) := by
  simp only [Part.latchSuspect, h]

theorem latchSuspect_full {p : Part} {z : Nat} {y : Suspect} (h : (p.zone z).latch = some y) (x : Suspect) :
    p.latchSuspect z x =
      ({ p with counters := { p.counters with latchDiscards := raise p.counters.latchDiscards } }).record .latchLost none
        (some (.zone z)) (some x.candidate) := by
  simp only [Part.latchSuspect, h]

theorem routeSuspect_free {p : Part} {x : Suspect} (h : p.segment? x.candidate = none) (latch : Option Nat) :
    p.routeSuspect latch x = p.record .latchLost none (latch.map Subject.zone) (some x.candidate) := by
  simp only [Part.routeSuspect, h]

theorem routeSuspect_owned {p : Part} {x : Suspect} {g : Segment} {r : Nat} (h : p.segment? x.candidate = some g)
    (hr : p.areaOwner x.candidate = some r) (latch : Option Nat) :
    p.routeSuspect latch x = p.absorb r x.candidate x.cause.num := by
  simp only [Part.routeSuspect, h, hr]

theorem routeSuspect_outside {p : Part} {x : Suspect} {g : Segment} (h : p.segment? x.candidate = some g)
    (hr : p.areaOwner x.candidate = none) (latch : Option Nat) :
    p.routeSuspect latch x =
      if p.latches g.zone = true then p.latchSuspect g.zone x
      else if p.freeRecord = none then (p.latchSuspect g.zone x).notice .tableFull [item (w16 g.zone) (w16 x.candidate)]
      else p.openIncident .detected x.candidate (p.zone g.zone).urgency := by
  simp only [Part.routeSuspect, h, hr, Option.isNone_iff_eq_none]

/-- An item of two numbers, byte by byte. -/
theorem item_w16 (a b : Nat) :
    item (w16 a) (w16 b) =
      ⟨BitVec.ofNat 8 (a / 256), BitVec.ofNat 8 a, BitVec.ofNat 8 (b / 256), BitVec.ofNat 8 b⟩ := by
  have hi (n : Nat) : Word.hi (w16 n) = BitVec.ofNat 8 (n / 256) := by
    apply BitVec.eq_of_toNat_eq
    simp [Word.hi, w16, Nat.shiftRight_eq_div_pow]
    omega
  have lo (n : Nat) : Word.lo (w16 n) = BitVec.ofNat 8 n := by
    apply BitVec.eq_of_toNat_eq
    simp [Word.lo, w16]
  simp only [item, Item.ofWords, hi, lo]

/-- Settles O33. -/
theorem suspectRouting : Obligations.SuspectRouting := by
  intro p latch x kept latching full outside c b
  have hkept (g : Segment) : p.latchSuspect g.zone x = kept g := by
    obtain ⟨-, -, -, -, hdiscards, -⟩ := b.counters
    cases hl : (p.zone g.zone).latch with
    | none => simp only [kept, hl, latchSuspect_empty hl]
    | some y => simp only [kept, hl, latchSuspect_full hl, raise_eq_min hdiscards]
  have hlatching (g : Segment) : p.latches g.zone = true ↔ latching g := latches_iff p g.zone
  have hfull : p.freeRecord = none ↔ full := freeRecord_eq_none_iff p
  have routed {g : Segment} (hg : p.segment? x.candidate = some g) (ho : outside) :=
    routeSuspect_outside hg (areaOwner_outside ho) latch
  simp only [hkept, hlatching, hfull] at routed
  refine ⟨fun h => routeSuspect_free h latch, fun g r i hg hi hin hlow => ?_, fun g hg ho hl => ?_,
    fun g hg ho hl hf => ?_, fun g hg ho hl hf => ?_⟩
  · rw [routeSuspect_owned hg (areaOwner_lowest c hi hin hlow), absorb_inUse hi]
  · exact (routed hg ho).trans (if_pos hl)
  · refine (routed hg ho).trans ?_
    rw [if_neg hl, if_pos hf, item_w16]
  · refine (routed hg ho).trans ?_
    rw [if_neg hl, if_neg hf]

end Sys2Proof.Machine
end

