-- ==== Sys2Proof/Proofs/ModesAndTime.lean ====
section
/-! PROOFS. POWER_ON (O4), SET_MODE (O38), and the freshness timer, the wrap of the stamp and the trace FIFO (O51). -/

namespace Sys2Proof.Machine

/-- Settles O4. -/
theorem powerOnSetsEveryField : Obligations.PowerOnSetsEveryField := fun _ _ => ⟨rfl, fun _ => rfl⟩

/-! ## Rest in a TRANSPARENT part (R109, R111) -/

theorem runTest_transparent {p : Part} (h : p.isActive = false) (c : StepCtx) : p.runTest c = .halt := by
  simp [Part.runTest, h]

theorem eligible_transparent {p : Part} (h : p.isActive = false) (w : WaitEntry) : p.eligible w = false := by
  simp [Part.eligible, h]

/-- In a TRANSPARENT part every run halts and no entry is eligible, so nothing stands ready. -/
theorem atRest_of_transparent {p : Part} (h : p.mgmt.mode = .transparent) : p.atRest := by
  have ha := (isActive_eq_false_iff p).2 h
  constructor
  · simp [Part.nextHalted, runTest_transparent ha]
  · simp [Part.nextGrant, eligible_transparent ha]

/-! ## SET_MODE (R177) -/

theorem partModeOf_eq (w : Word) :
    partModeOf w = if 1 < w.toNat then none else some (if w = 0#16 then .transparent else .active) := by
  have h : 1 < w.toNat ↔ w ≠ 0#16 ∧ w ≠ 1#16 := by bv_omega
  unfold partModeOf
  split_ifs <;> simp_all

theorem setMode_bad {mode : Word} (h : 1 < mode.toNat) (p : Part) : p.setMode mode = (p, .bare .badArgument) := by
  simp [Part.setMode, partModeOf_eq, h]

theorem setMode_same {mode : Word} {p : Part} (h : mode.toNat = if p.mgmt.mode = .active then 1 else 0) :
    p.setMode mode = (p, .bare .ok) := by
  have hmode : partModeOf mode = some p.mgmt.mode := by
    have h0 : mode = 0#16 ↔ mode.toNat = 0 := by bv_omega
    rw [partModeOf_eq, if_neg (by split at h <;> omega)]
    simp only [h0, h]
    cases p.mgmt.mode <;> rfl
  simp [Part.setMode, hmode]

theorem setMode_toTransparent {p : Part} (h : p.mgmt.mode = .active) :
    p.setMode 0#16 = (p.writeMode .transparent, .bare .ok) := by
  simp [Part.setMode, partModeOf_eq, h]

theorem setMode_toActive {p : Part} (h : p.mgmt.mode = .transparent) :
    p.setMode 1#16 =
      if p.net.segments = [] then (p, .bare .wrongState) else ((p.writeMode .active).takeUp, .bare .ok) := by
  simp [Part.setMode, partModeOf_eq, h]

/-! ## The offering of free records (R41) -/

/-- A free record is offered to one zone: its latched suspect is routed afresh where the zone takes it. -/
def Part.offerTo (q : Part) (z : Nat) : Part :=
  if q.freeRecord ≠ none ∧ (q.zone z).mode ≠ .inhibit ∧ (q.zone z).suspended = false then q.releaseLatch z else q

theorem offerRecords_transparent {p : Part} (h : p.mgmt.mode = .transparent) : p.offerRecords = p := by
  simp [Part.offerRecords, (isActive_eq_false_iff p).2 h]

theorem offerRecords_active {p : Part} (h : p.mgmt.mode = .active) :
    p.offerRecords = (List.range 64).foldl Part.offerTo p := by
  rw [Part.offerRecords, if_pos ((isActive_iff p).2 h)]
  refine List.foldl_ext _ _ _ fun q z _ => ?_
  simp only [Part.offerTo, Bool.and_eq_true, decide_eq_true_eq, Bool.not_eq_true', Option.isSome_iff_ne_none, and_assoc]

/-- The work of a change to ACTIVE with no step context and no order waiting is the offering. -/
theorem takeUp_idle {p : Part} (hc : p.offerRecords.seq.contexts = []) (hf : p.offerRecords.seq.frames = []) :
    p.takeUp = p.offerRecords := by
  simp [Part.takeUp, hc, hf, Table.keys]

/-- Settles O38. -/
theorem setMode : Obligations.SetMode := by
  intro m mode s i p write offer
  have takes {e : Part} {a : Answer} (he : p.setMode mode = (e, a)) (hq : e.quiet) : s.takes i m e a :=
    State.takes_rest rfl he hq
  have hoffer (q : Part) (z : Nat) : q.offerTo z = offer q z := by
    simp only [Part.offerTo, offer]
    cases hx : (q.zone z).latch with
    | none => rw [releaseLatch_empty hx, ite_self]
    | some x => rw [releaseLatch_held hx]
  refine ⟨fun h hq => takes (setMode_bad h p) hq, fun h hq => takes (setMode_same h) hq, fun h hm hroom => ?_,
    fun h hm hg hq => ?_, fun h hm hg => ?_⟩
  · subst h
    exact takes (setMode_toTransparent hm) ⟨atRest_of_transparent rfl, hroom⟩
  · subst h
    exact takes ((setMode_toActive hm).trans (if_pos hg)) hq
  · intro e hc hf hq
    have he : (p.writeMode .active).offerRecords = e :=
      (offerRecords_active rfl).trans (List.foldl_ext _ _ _ fun q z _ => hoffer q z)
    subst h
    refine takes ((setMode_toActive hm).trans ((if_neg hg).trans (congrArg (·, Answer.bare .ok) ?_))) hq
    rw [takeUp_idle (by rw [he, hc]) (by rw [he, hf]), he]

/-! ## The trace FIFO (R184) -/

theorem markNewest_append (l : List TraceEntry) (y : TraceEntry) :
    markNewest (l ++ [y]) = l ++ [{ y with loss := .lostAfter }] := by
  induction l with
  | nil => rfl
  | cons a l ih =>
    cases l with
    | nil => rfl
    | cons b l => exact congrArg (a :: ·) ih

theorem join_room {t : Recorder} (h : t.fifo.length < 256) (x : TraceEntry) :
    t.join x = { t with fifo := t.fifo ++ [x] } := if_pos h

theorem join_full {t : Recorder} (h : t.fifo.length = 256) (x : TraceEntry) :
    t.join x =
      match t.policy with
      | .stop => { t with fifo := markNewest t.fifo }
      | .overwrite => { t with fifo := markOldest t.fifo.tail ++ [x] } := if_neg (by simp [h])

/-! ## Freshness and the wrap (R27, R185) -/

theorem advanceTo_eq (p : Part) (t : Nat) : p.advanceTo t = { p with now := max p.now t } := by
  have : (if p.now < t then t else p.now) = max p.now t := by split <;> omega
  rw [Part.advanceTo, this]

theorem freshnessExpiry_running {p : Part} {k : Nat} {x : Sensor} {d : Nat} (hx : p.sensor? k = some x)
    (hd : x.freshDue = some d) : p.freshnessExpiry k = ({ p with now := max p.now d }).putSensor k x.stale := by
  simp only [Part.freshnessExpiry, hx, hd, advanceTo_eq]

theorem freshnessExpiry_stopped {p : Part} {k : Nat} (h : ∀ x, p.sensor? k = some x → x.freshDue = none) :
    p.freshnessExpiry k = p := by
  unfold Part.freshnessExpiry
  cases hx : p.sensor? k with
  | none => rfl
  | some x => simp only [h x hx]

theorem wrapTime_eq (p : Part) :
    p.wrapTime =
      { p with
        now := max p.now p.trace.wrapDue
        trace :=
          { p.trace with wraps := (p.trace.wraps + 1) % 65536, wrapDue := p.trace.wrapDue + 16777216 }.join
            { stamp := 0, code := .timeWrap, incident := none, subject := none,
              value := some ((p.trace.wraps + 1) % 65536), loss := .none } } := by
  simp only [Part.wrapTime, advanceTo_eq]

/-- Settles O51. -/
theorem freshnessAndTimeWrap : Obligations.FreshnessAndTimeWrap := by
  refine ⟨fun s k x d hx hd => ?_, fun s k h hstill => ?_, fun s => ?_, fun t x => ⟨fun h => join_room h x, ?_, ?_⟩⟩
  · intro e hstill
    exact State.run_rest rfl (freshnessExpiry_running hx hd) hstill
  · exact State.run_rest rfl (freshnessExpiry_stopped h) hstill
  · intro t n e hstill
    exact State.run_rest rfl (wrapTime_eq s.part) hstill
  · intro l y hfifo hlen hpolicy
    rw [join_full (by simp [hfifo, hlen]), hpolicy, hfifo]
    dsimp only
    rw [markNewest_append]
  · intro a b l hfifo hlen hpolicy
    rw [join_full (by simp [hfifo, hlen]), hpolicy, hfifo]
    rfl

end Sys2Proof.Machine
end

