-- ==== Sys2Proof/Proofs/IncidentOrders.lean ====
section
/-! PROOFS. The orders that name an incident, the freeing of a record, the end of a touched entry, and the restoration of
an incident (O59). -/

namespace Sys2Proof.Machine

/-! ## Orders that name an incident (R59) -/

theorem onIncident_badNumber {n : Nat} (h : n = 0 ∨ 255 < n) (take : Nat → Incident → Part → Part × Answer) (p : Part) :
    p.onIncident n take = (p, .bare .badArgument) := if_pos h

theorem onIncident_noSuch {n : Nat} (h : ¬(n = 0 ∨ 255 < n)) {p : Part} (hn : p.byNumber n = none)
    (take : Nat → Incident → Part → Part × Answer) : p.onIncident n take = (p, .bare .noSuch) := by
  rw [Part.onIncident, if_neg h, hn]
  rfl

theorem onIncident_named {n r : Nat} {j : Incident} (h : ¬(n = 0 ∨ 255 < n)) {p : Part} (hn : p.byNumber n = some (r, j))
    (take : Nat → Incident → Part → Part × Answer) : p.onIncident n take = take r j p := by
  rw [Part.onIncident, if_neg h, hn]

/-- An order that names an incident, taken as its rule takes it of that incident. -/
theorem takes_named {s : State} {i : Instr} {m : Mgmt} {n r : Nat} {j : Incident}
    {take : Nat → Incident → Part → Part × Answer} {e : Part} {a : Answer}
    (hexec : exec i s = .next (s.onPart (Part.takeOrder i m (Part.onIncident n take) false)))
    (h : ¬(n = 0 ∨ 255 < n)) (hn : (s.part.dropHanded i).byNumber n = some (r, j))
    (ht : take r j (s.part.dropHanded i) = (e, a)) (hq : e.quiet) : s.takes i m e a :=
  State.takes_rest hexec ((onIncident_named h hn take).trans ht) hq

/-! ## CONFIRM, CANCEL, RESTORE and RESUME (R52, R58, R61, R62) -/

theorem confirm_eq (r : Nat) (j : Incident) (p : Part) :
    p.confirm r j =
      if j.state ≠ .confirmWait then (p, .bare .wrongState)
      else if ∃ b ∈ j.boundary, b.action = .close then ((p.moveIncident r .closing id).handOver r, .bare .ok)
      else (p.enterVerifying r, .bare .ok) := by
  simp only [Part.confirm, List.any_eq_true, decide_eq_true_eq, refuse_eq, ite_not]
  refine if_congr Iff.rfl ?_ rfl
  split <;> rfl

theorem cancellable_iff (st : IncState) :
    st.cancellable = true ↔ st = .planWait ∨ st = .planning ∨ st = .confirmWait ∨ st = .held := by
  cases st <;> simp [IncState.cancellable]

theorem cancel_eq (r : Nat) (j : Incident) (p : Part) :
    p.cancel r j =
      if (j.state = .planWait ∨ j.state = .planning ∨ j.state = .confirmWait ∨ j.state = .held) ∧ j.touched = [] then
        (p.freeIncident r .cancelled, .bare .ok)
      else (p, .bare .wrongState) := by
  simp only [Part.cancel, Bool.and_eq_true, cancellable_iff, List.isEmpty_iff, refuse_eq]

theorem restore_eq (r : Nat) (j : Incident) (p : Part) :
    p.restore r j =
      if j.state = .restoring then (p, .bare .wrongState)
      else if j.touched = [] then (p.freeIncident r (restoredOutcome j.short), .bare .ok)
      else (((p.withdraw r).moveIncident r .restoring Incident.giveUp).dispatchRestore r, .bare .ok) := by
  simp only [Part.restore, List.isEmpty_iff, refuse_eq]

theorem resume_eq (r : Nat) (j : Incident) (p : Part) :
    p.resume r j =
      if j.state = .held ∧ j.restoreBegun = false then (p.toPlanWait r fun x => { x with restarts := 0 }, .bare .ok)
      else (p, .bare .wrongState) := by
  simp only [Part.resume, Bool.and_eq_true, decide_eq_true_eq, Bool.not_eq_true', refuse_eq]

/-! ## WIDEN (R60, R182) -/

theorem widenMalformed_iff (count : Nat) (ids : List Word) :
    widenMalformed count ids = true ↔ count = 0 ∨ 8 < count ∨ ids.length ≠ 2 * ((count + 1) / 2) := by
  simp only [widenMalformed, Bool.or_eq_true, decide_eq_true_eq, or_assoc]

theorem widenOrder_malformed {count : Word} {ids : List Word} (h : widenMalformed count.toNat ids = true) (number : Word)
    (p : Part) : p.widenOrder number count ids = (p, .bare .badArgument) := if_pos h

theorem widenOrder_wellSized {count : Word} {ids : List Word} (h : ¬widenMalformed count.toNat ids = true) (number : Word)
    (p : Part) :
    p.widenOrder number count ids = p.onIncident number.toNat (Part.widen (widenValves count.toNat ids)) := if_neg h

/-- The tests of a WIDEN that names an incident, in order. -/
theorem widen_eq (vs : List Nat) (r : Nat) (j : Incident) (p : Part) :
    p.widen vs r j =
      if (∃ v ∈ vs, 4095 < v) ∨ ¬vs.Nodup then (p, .bare .badArgument)
      else if ¬(j.state = .notTight ∨ j.state = .isolated) then (p, .bare .wrongState)
      else if ∃ v ∈ vs, ∀ b ∈ j.boundary, b.valve ≠ v then (p, .bare .noSuch)
      else (p.widened r vs, .bare .ok) := by
  have hstray (v : Nat) : (!j.bounds v) = true ↔ ∀ b ∈ j.boundary, b.valve ≠ v := by
    rw [Bool.not_eq_true', ← Bool.not_eq_true, bounds_iff]
    simp
  simp only [Part.widen, examine_cons, examine_nil, Bool.or_eq_true, List.any_eq_true, decide_eq_true_eq,
    Bool.not_eq_true', decide_eq_false_iff_not, Bool.and_eq_true, not_or, ← hstray, ne_eq]

/-- The changes of OPERABILITY among a list of valves, as disturbances. -/
theorem flatMap_operChange (before after : Part) (vs : List Nat) :
    (vs.flatMap fun v => before.operChange after v) =
      (vs.filter fun v => decide (before.operOf v ≠ after.operOf v)).map Disturb.ofOper := by
  induction vs with
  | nil => rfl
  | cons v vs ih =>
    rw [List.flatMap_cons, ih, Part.operChange]
    by_cases h : before.operOf v = after.operOf v <;> simp [h]

/-- A WIDEN announces just the valves whose OPERABILITY it changes, in their order. -/
theorem widened_eq (r : Nat) (vs : List Nat) (p : Part) :
    p.widened r vs =
      let w := vs.foldl (fun q v => q.writeOper v .passing) p
      ((vs.filter fun v => decide (p.operOf v ≠ w.operOf v)).foldl (fun q v => q.announce (.ofOper v)) w).toPlanWait r id := by
  dsimp only
  rw [← announceAll_map, ← flatMap_operChange]
  rfl

/-! ## The refusals common to the five orders (R59, R182) -/

/-- The five orders that name an incident. -/
def namingOrders (m : Mgmt) (number count : Word) (ids : List Word) : List Instr :=
  [.confirm m number, .cancel m number, .restore m number, .resume m number, .widen m number count ids]

/-- Each of the five acts on the incident of its NUMBER, a WIDEN once its list is well sized. -/
theorem namingOrder_body {m : Mgmt} {number count : Word} {ids : List Word} {i : Instr}
    (hi : i ∈ namingOrders m number count ids) (s : State) :
    ∃ body take, exec i s = .next (s.onPart (Part.takeOrder i m body false)) ∧
      ∀ p, body p =
        if i = .widen m number count ids ∧ widenMalformed count.toNat ids = true then (p, .bare .badArgument)
        else Part.onIncident number.toNat take p := by
  simp only [namingOrders, List.mem_cons, List.not_mem_nil, or_false] at hi
  rcases hi with rfl | rfl | rfl | rfl | rfl
  · exact ⟨_, Part.confirm, rfl, fun p => (if_neg (by simp)).symm⟩
  · exact ⟨_, Part.cancel, rfl, fun p => (if_neg (by simp)).symm⟩
  · exact ⟨_, Part.restore, rfl, fun p => (if_neg (by simp)).symm⟩
  · exact ⟨_, Part.resume, rfl, fun p => (if_neg (by simp)).symm⟩
  · refine ⟨_, Part.widen (widenValves count.toNat ids), rfl, fun p => ?_⟩
    simp only [Part.widenOrder, true_and, refuse_eq]

theorem namingOrder_badArgument {m : Mgmt} {number count : Word} {ids : List Word} {i : Instr}
    (hi : i ∈ namingOrders m number count ids) {s : State}
    (h : (number.toNat = 0 ∨ 255 < number.toNat) ∨ (i = .widen m number count ids ∧ widenMalformed count.toNat ids = true))
    (hq : (s.part.dropHanded i).quiet) : s.takes i m (s.part.dropHanded i) (.bare .badArgument) := by
  obtain ⟨body, take, hexec, hbody⟩ := namingOrder_body hi s
  refine State.takes_rest hexec ((hbody _).trans ?_) hq
  split_ifs with hw
  · rfl
  · exact onIncident_badNumber (h.resolve_right hw) take _

theorem namingOrder_noSuch {m : Mgmt} {number count : Word} {ids : List Word} {i : Instr}
    (hi : i ∈ namingOrders m number count ids) {s : State} (h : ¬(number.toNat = 0 ∨ 255 < number.toNat))
    (hsized : ¬(i = .widen m number count ids ∧ widenMalformed count.toNat ids = true))
    (hnone : (s.part.dropHanded i).byNumber number.toNat = none) (hq : (s.part.dropHanded i).quiet) :
    s.takes i m (s.part.dropHanded i) (.bare .noSuch) := by
  obtain ⟨body, take, hexec, hbody⟩ := namingOrder_body hi s
  exact State.takes_rest hexec ((hbody _).trans ((if_neg hsized).trans (onIncident_noSuch h hnone take))) hq

/-! ## Freeing and writing a record (R46, R47, R64) -/

theorem holds_iff (k : Incident) (v : Nat) :
    k.holds v = true ↔ (∃ t ∈ k.touched, t.valve = v) ∨ ⟨v, .close⟩ ∈ k.boundary := by
  rw [Incident.holds, Bool.or_eq_true, touches_iff, closes_iff]

/-- The records are written and the hold counts follow: what else stands, and what each valve then reads. -/
theorem rehold_records (p : Part) (t : Incidents) (i j : List Nat) (hi : i.Nodup) (hj : j.Nodup) :
    let q := ({ p with inc := t }).rehold i j
    q = { p with inc := q.inc, net := { p.net with valves := q.net.valves } } ∧ q.inc = t ∧
      ∀ v, q.valve? v = (p.valve? v).map fun x =>
        x.heldBy (x.holdCount + (if v ∈ j ∧ v ∉ i then 1 else 0) - (if v ∈ i ∧ v ∉ j then 1 else 0)) := by
  intro q
  obtain ⟨hframe, hvalves, -⟩ := Part.rehold_spec { p with inc := t } i j hi hj
  have hinc : q.inc = t := rehold_inc _ _ _
  refine ⟨?_, hinc, hvalves⟩
  rw [hinc]
  exact hframe

/-- A record is freed: a valve it held has a hold less. -/
theorem removeIncident_spec {p : Part} {r : Nat} {i : Incident} (hi : p.incident? r = some i) :
    let gone := p.removeIncident r
    gone = { p with inc := gone.inc, net := { p.net with valves := gone.net.valves } } ∧
      gone.inc = { p.inc with records := Table.remove p.inc.records r } ∧
      ∀ v, gone.valve? v = (p.valve? v).map fun x => x.heldBy (x.holdCount - if i.holds v then 1 else 0) := by
  have h := rehold_records p { p.inc with records := Table.remove p.inc.records r } i.counted [] i.nodup_counted
    List.nodup_nil
  have hgone : p.removeIncident r =
      ({ p with inc := { p.inc with records := Table.remove p.inc.records r } }).rehold i.counted [] := by
    rw [Part.removeIncident, Part.countedBy, hi]
  rw [← hgone] at h
  simpa only [i.mem_counted, List.not_mem_nil, false_and, not_false_eq_true, and_true, if_false, Nat.add_zero] using h

/-- A record is written over another: a valve that only the new one holds has a hold more, one that only the old one
held a hold less. -/
theorem putIncident_spec {p : Part} {r : Nat} {i : Incident} (hi : p.incident? r = some i) (j : Incident) :
    let written := p.putIncident r j
    written = { p with inc := written.inc, net := { p.net with valves := written.net.valves } } ∧
      written.inc = { p.inc with records := Table.put p.inc.records r j } ∧
      ∀ v, written.valve? v = (p.valve? v).map fun x => x.heldBy
        (x.holdCount + (if j.holds v ∧ ¬i.holds v then 1 else 0) - (if i.holds v ∧ ¬j.holds v then 1 else 0)) := by
  have h := rehold_records p { p.inc with records := Table.put p.inc.records r j } i.counted j.counted i.nodup_counted
    j.nodup_counted
  have hwritten : p.putIncident r j =
      ({ p with inc := { p.inc with records := Table.put p.inc.records r j } }).rehold i.counted j.counted := by
    rw [Part.putIncident, Part.countedBy, hi]
  rw [← hwritten] at h
  simpa only [Incident.mem_counted] using h

/-- The freeing of a record, in the order of R64. -/
theorem freeIncident_inUse {p : Part} {r : Nat} {i : Incident} (hi : p.incident? r = some i) (outcome : IncOutcome) :
    p.freeIncident r outcome =
      let q := ((p.removeIncident r).withdraw r).removeVerify r
      let q := (q.setWaiting (q.seq.waiting.filter fun w => decide (w.record ≠ r))).leaveAll r
      let q := q.setCrew (q.seq.crew.filter fun c => decide (c.record ≠ r))
      ((q.record .ended (some i.number) none (some outcome.num)).notice .ended
        [item (w16 i.number) (w16 i.burst), item (w16 outcome.num) (w16 i.repeats)]).offerRecords := by
  rw [Part.freeIncident, hi]

/-! ## The end of a touched entry (R63) -/

theorem endTouched_inUse {p : Part} {r : Nat} {i : Incident} (hi : p.incident? r = some i) (v : Nat) (short : Bool) :
    p.endTouched r v short =
      let j := { i with touched := i.touched.filter fun t => decide (t.valve ≠ v), short := i.short || short }
      if ∃ t ∈ i.touched, t.valve = v then
        if j.touched = [] ∧ i.state = .restoring then
          (p.putIncident r j).freeIncident r (if j.short then .restoredPartial else .restored)
        else p.putIncident r j
      else p := by
  rw [Part.endTouched, hi]
  simp only [touches_iff, Bool.and_eq_true, List.isEmpty_iff, decide_eq_true_eq]
  rfl

/-! ## Restoration (R126 to R128) -/

theorem dispatchRestore_inUse {p : Part} {r : Nat} {i : Incident} (hi : p.incident? r = some i) :
    p.dispatchRestore r =
      let q := { p with
        seq := { p.seq with waiting := p.seq.waiting.filter fun w => decide ¬(w.record = r ∧ w.run = .closing) } }
      let q := (Table.keys q.seq.contexts).foldl (fun q v => Part.reverseContext r q v) q
      let q := { q with
        seq := { q.seq with crew := q.seq.crew.filter fun c => decide ¬(c.record = r ∧ c.restore = false) } }
      ((i.touched.reverse.map TouchedEntry.valve).foldl (fun q v => q.dispatchEntry r i.number v) q).settled := by
  rw [Part.dispatchRestore, hi]
  simp only [Bool.decide_and, decide_not, Bool.decide_eq_false]
  rfl

theorem reverseContext_eq {p : Part} {v : Nat} {c : StepCtx} (hc : p.context? v = some c) (r : Nat) :
    Part.reverseContext r p v =
      if c.run = .closing ∧ r ∈ c.serves then
        if c.serves = [r] then
          if c.phase = .halted ∧ p.mgmt.mode = .active then (p.putContext v { c with run := .restoring }).calcPoint id v
          else p.putContext v { c with run := .restoring }
        else p.putContext v { c with serves := c.serves.filter fun k => decide (k ≠ r) }
      else p := by
  rw [Part.reverseContext, hc]
  simp only [Bool.and_eq_true, decide_eq_true_eq, List.contains_iff_mem, isActive_iff]
  rfl

theorem servedBy_iff (p : Part) (v r : Nat) : p.servedBy v r = true ↔ ∃ c, p.context? v = some c ∧ r ∈ c.serves := by
  unfold Part.servedBy
  cases p.context? v <;> simp

theorem hasReturn_iff (p : Part) (v r : Nat) :
    p.hasReturn v r = true ↔ ∃ w ∈ p.seq.waiting, w.valve = v ∧ w.record = r ∧ w.run = .restoring := by
  simp only [Part.hasReturn, List.any_eq_true, Bool.and_eq_true, decide_eq_true_eq, and_assoc]

theorem hasCrew_iff (p : Part) (v r : Nat) (restore : Bool) :
    p.hasCrew v r restore = true ↔ ∃ c ∈ p.seq.crew, c.valve = v ∧ c.record = r ∧ c.restore = restore := by
  simp only [Part.hasCrew, List.any_eq_true, Bool.and_eq_true, decide_eq_true_eq, and_assoc]

theorem addWaiting_return {p : Part} {v r : Nat} (h : ¬p.hasReturn v r = true) (z : Nat) :
    p.addWaiting z v r .restoring = p.setWaiting (p.seq.waiting ++ [⟨z, v, r, .restoring⟩]) := if_neg h

/-- The first touched entry of a valve is the one it is dispatched by. -/
theorem find?_firstTouched {l a b : List TouchedEntry} {t : TouchedEntry} {v : Nat} (h : l = a ++ t :: b) (ht : t.valve = v)
    (ha : ∀ u ∈ a, u.valve ≠ v) : l.find? (fun t => decide (t.valve = v)) = some t := by
  have hnone : a.find? (fun t => decide (t.valve = v)) = none := by simpa using ha
  simp [h, List.find?_append, hnone, ht]

/-- The cases of R126 and R128 for one touched entry, in order. -/
theorem dispatchEntry_eq {p : Part} {r v : Nat} {i : Incident} {x : Valve} {t : TouchedEntry} (hi : p.incident? r = some i)
    (hx : p.valve? v = some x) (ht : i.touched.find? (fun t => decide (t.valve = v)) = some t) (n : Nat) :
    p.dispatchEntry r n v =
      if i.number ≠ n ∨ i.state ≠ .restoring ∨ p.servedBy v r = true ∨ p.hasReturn v r = true then p
      else if 1 < x.holdCount ∨ x.opening = some (finalTarget t.prior x) then p.endTouched r v false
      else match x.kind with
        | .actuated => p.addWaiting (p.zoneOfValve x) v r .restoring
        | .manual =>
          if p.hasCrew v r true = true then p
          else p.askCrew { valve := v, record := r, restore := true, dir := restoreDir (finalTarget t.prior x) } n := by
  unfold Part.dispatchEntry
  rw [hi, hx]
  dsimp only
  rw [ht]
  simp only [Bool.or_eq_true, decide_eq_true_eq, or_assoc]
  exact if_congr Iff.rfl rfl (ite_or ..).symm

/-! ## The statement -/

/-- Settles O59. -/
theorem incidentOrders : Obligations.IncidentOrders := by
  refine ⟨fun m number count ids s => ?_, fun p r i outcome hi => ?_, fun p r i j hi => ?_, fun p => ?_,
    fun p r v i short hi => ?_, fun p r i hi => dispatchRestore_inUse hi, fun p r v c hc => ?_,
    fun p r v i x g t a b hi hx hg hsplit ht ha => ?_⟩
  · intro orders n vs illSized bad
    have hill : widenMalformed count.toNat ids = true ↔ illSized := widenMalformed_iff _ _
    refine ⟨fun i hi h => ?_, fun i hi h hsized => ?_, fun r j h => ⟨?_, ?_, ?_, ?_, ?_⟩⟩
    · exact namingOrder_badArgument hi (h.imp_right (And.imp_right hill.2))
    · intro p c hnone
      exact namingOrder_noSuch hi h (fun k => hsized k.1 (hill.1 k.2)) (byNumber_eq_none c hnone)
    · intro i p closes toClosing hn
      have takes {e : Part} {a : Answer} (he : p.confirm r j = (e, a)) : e.quiet → s.takes i m e a := takes_named rfl h hn he
      rw [confirm_eq] at takes
      exact ⟨fun hs => takes (if_pos hs), fun hs hc => takes (by rw [if_neg (not_not.2 hs), if_pos hc]),
        fun hs hc => takes (by rw [if_neg (not_not.2 hs), if_neg hc])⟩
    · intro i p may e hn
      have takes {e : Part} {a : Answer} (he : p.cancel r j = (e, a)) : e.quiet → s.takes i m e a := takes_named rfl h hn he
      rw [cancel_eq] at takes
      exact ⟨fun hm => takes (if_neg hm), fun hm => takes (if_pos hm)⟩
    · intro i p gone e hn
      have takes {e : Part} {a : Answer} (he : p.restore r j = (e, a)) : e.quiet → s.takes i m e a := takes_named rfl h hn he
      rw [restore_eq] at takes
      exact ⟨fun hs => takes (if_pos hs), fun hs ht => takes ((if_neg hs).trans (if_pos ht)),
        fun hs ht => takes ((if_neg hs).trans (if_neg ht))⟩
    · intro i p may e hn
      have takes {e : Part} {a : Answer} (he : p.resume r j = (e, a)) : e.quiet → s.takes i m e a := takes_named rfl h hn he
      rw [resume_eq] at takes
      exact ⟨fun hm => takes (if_neg hm), fun hm => takes (if_pos hm)⟩
    · intro i p wide may stray w e hn hsized
      have takes {e : Part} {a : Answer} (he : p.widen vs r j = (e, a)) : e.quiet → s.takes i m e a :=
        State.takes_rest rfl
          ((widenOrder_wellSized (mt hill.1 hsized) number p).trans ((onIncident_named h hn (Part.widen vs)).trans he))
      rw [widen_eq, widened_eq] at takes
      exact ⟨fun hw => takes (if_pos hw), fun hw hs => takes (by rw [if_neg hw, if_pos hs]),
        fun hw hs hb => takes (by rw [if_neg hw, if_neg (not_not.2 hs), if_pos hb]),
        fun hw hs hb => takes ((if_neg hw).trans ((if_neg (not_not.2 hs)).trans (if_neg hb)))⟩
  · exact freeIncident_inUse hi outcome
  · intro holds gone written
    obtain ⟨hgone, hgoneInc, hgoneValve⟩ := removeIncident_spec hi
    obtain ⟨hwritten, hwrittenInc, hwrittenValve⟩ := putIncident_spec hi j
    refine ⟨hgone, hgoneInc, hwritten, hwrittenInc, fun v hv => ?_, fun v x hv => ?_⟩
    · rw [hgoneValve, hwrittenValve, hv]
      exact ⟨rfl, rfl⟩
    · have hg := hgoneValve v
      have hw := hwrittenValve v
      simp only [hv, Option.map_some, holds_iff] at hg hw
      refine ⟨fun h => ?_, fun h => ?_, fun h k => ?_, fun h k => ?_, fun h => ?_⟩
      · rw [hg, if_pos h]; rfl
      · rw [hg, if_neg h]; rfl
      · rw [hw, if_neg (fun a => k a.1), if_pos ⟨h, k⟩]; rfl
      · rw [hw, if_pos ⟨k, h⟩, if_neg (fun a => h a.1)]; rfl
      · rw [hw, if_neg (fun a => a.2 (h.2 a.1)), if_neg (fun a => a.2 (h.1 a.1))]; rfl
  · intro offered
    refine ⟨offerRecords_transparent, offerRecords_active, fun z hz => releaseLatch_empty hz,
      fun z x hx => releaseLatch_held hx⟩
  · intro j q last
    have ended := endTouched_inUse hi v short
    refine ⟨fun h => ended.trans (if_neg ?_), fun h hl => ?_, fun h hl => ?_⟩
    · rintro ⟨t, ht, hv⟩
      exact h t ht hv
    · exact ended.trans ((if_pos h).trans (if_neg hl))
    · exact ended.trans ((if_pos h).trans (if_pos hl))
  · intro turned does
    have reversed := reverseContext_eq hc r
    refine ⟨fun h => ?_, fun hr hs hne => ?_, fun hr hs hp hm => ?_, fun hr hs h => ?_⟩
    · refine reversed.trans (if_neg ?_)
      rintro ⟨hr, hs⟩
      rcases h with h | h
      · rw [h] at hr; cases hr
      · exact h hs
    · exact reversed.trans ((if_pos ⟨hr, hs⟩).trans (if_neg hne))
    · exact reversed.trans ((if_pos ⟨hr, by simp [hs]⟩).trans ((if_pos hs).trans (if_pos ⟨hp, hm⟩)))
    · refine reversed.trans ((if_pos ⟨hr, by simp [hs]⟩).trans ((if_pos hs).trans (if_neg ?_)))
      rintro ⟨hp, hm⟩
      rcases h with h | h
      · exact h hp
      · rw [h] at hm; cases hm
  · intro does target left moves asked asks
    have dispatched := dispatchEntry_eq hi hx (find?_firstTouched hsplit ht ha)
    have hleft : p.servedBy v r = true ∨ p.hasReturn v r = true ↔ left := or_congr (servedBy_iff p v r) (hasReturn_iff p v r)
    have hasked : p.hasCrew v r true = true ↔ asked := hasCrew_iff p v r true
    have htarget : finalTarget t.prior x = target := finalTarget_eq t.prior x
    have hzone : p.zoneOfValve x = g.zone := by rw [Part.zoneOfValve, Part.zoneOf, hg]
    have taken (hs : i.state = .restoring) (hl : ¬left) := (dispatched i.number).trans
      (if_neg (by rw [hleft]; exact fun k => k.elim (fun k => k rfl) fun k => k.elim (fun k => k hs) hl))
    simp only [hasked, htarget, hzone] at taken
    have moved : moves → p.dispatchEntry r i.number v = _ := fun ⟨hs, hl, hhold, hopen⟩ =>
      (taken hs hl).trans (if_neg (not_or.2 ⟨Nat.not_lt.2 hhold, hopen⟩))
    refine ⟨fun h => ?_, fun n hn => ?_, fun hs hl h => (taken hs hl).trans (if_pos h), fun h hk => ?_, fun h hk hasks => ?_,
      fun h hk hasks h0 => ?_, fun h hk hasks h0 => ?_⟩
    · refine (dispatched i.number).trans (if_pos (.inr ?_))
      rwa [hleft]
    · exact (dispatched n).trans (if_pos (.inl hn.symm))
    · refine (moved h).trans ?_
      obtain ⟨-, hl, -⟩ := h
      rw [hk]
      exact addWaiting_return (fun k => hl (hleft.1 (.inr k))) g.zone
    · refine (moved h).trans ?_
      rw [hk]
      exact if_pos hasks
    · refine (moved h).trans ?_
      rw [hk]
      refine (if_neg hasks).trans ?_
      rw [restoreDir, if_pos h0]
      rfl
    · refine (moved h).trans ?_
      rw [hk]
      refine (if_neg hasks).trans ?_
      rw [restoreDir, if_neg h0]
      rfl

end Sys2Proof.Machine
end

