-- ==== Sys2Proof/Proofs/Invariants.lean ====
section
/-! PROOFS. What every step keeps: the invariants of the part (O9, O10) and the law of the hold counts (O11). -/

namespace Sys2Proof.Machine

/-- Settles O9. -/
theorem resetMeetsInvariants : Obligations.ResetMeetsInvariants :=
  ⟨powerOn_canonical 0, powerOn_bounded 0, powerOn_slotsKept 0, powerOn_incidentsKept 0, powerOn_stationsKept 0,
    fun _ _ h => nomatch h⟩

/-- A step takes the command at the front of the queue, or lets the idle part's clock go on. -/
theorem step_cases {s t : State} (h : step s = .next t) :
    (∃ i rest, s.pending = i :: rest ∧ exec i { s with pending := rest } = .next t) ∨
      (s.pending = [] ∧ t = s.idle) := by
  unfold step at h
  cases hp : s.pending with
  | nil =>
    rw [hp] at h
    cases h
    exact .inr ⟨rfl, rfl⟩
  | cons i rest =>
    rw [hp] at h
    exact .inl ⟨i, rest, rfl, h⟩

theorem step_sound {s t : State} (h : step s = .next t) : Sound s.part t.part := by
  obtain ⟨i, rest, -, hexec⟩ | ⟨-, rfl⟩ := step_cases h
  · exact exec_sound i { s with pending := rest } t hexec
  · exact (keeps_idle s).firm.toSound

/-- Settles O10: the invariants go over every command and over the idle part's clock. -/
theorem stepKeepsInvariants : Obligations.StepKeepsInvariants := by
  rintro s t h ⟨canonical, bounded, slots, incidents, stations⟩
  have sound := step_sound h
  exact ⟨sound.canonical canonical, sound.bounded bounded, sound.slots canonical slots,
    sound.incidents canonical incidents, sound.stations canonical stations⟩

/-- Settles O11. -/
theorem stepKeepsHoldCounts : Obligations.StepKeepsHoldCounts := by
  intro s t h first canonical law
  obtain ⟨i, rest, hp, hexec⟩ | ⟨-, rfl⟩ := step_cases h
  · refine exec_hold i { s with pending := rest } t hexec ?_ canonical law
    rintro m v a b kd no st ch pe ma vc op ve di rfl
    exact first m v a b kd no st ch pe ma vc op ve di (congrArg List.head? hp)
  · exact (keeps_idle s).hold canonical law

end Sys2Proof.Machine
end

