-- ==== Sys2Proof/Proofs/Declarations.lean ====
section
/-! PROOFS. DECLARE: its results, the absorption, the incident opened and its number (O58). -/

namespace Sys2Proof.Machine

/-! ## The number of the next incident (R45) -/

theorem succNumber_eq {c : Nat} (h : 1 ≤ c ∧ c ≤ 255) : succNumber c = c % 255 + 1 := by
  unfold succNumber
  split <;> omega

/-- The candidates go round from 255 to 1; the first that is not in use is taken. -/
theorem freeNumber_eq (used : List Nat) {m c j : Nat} (hc : 1 ≤ c ∧ c ≤ 255) (hj : j ≤ m)
    (before : ∀ k, k < j → (c + k - 1) % 255 + 1 ∈ used) (free : (c + j - 1) % 255 + 1 ∉ used) :
    freeNumber used m c = (c + j - 1) % 255 + 1 := by
  have start : (c + 0 - 1) % 255 + 1 = c := by omega
  induction m generalizing c j with
  | zero =>
    obtain rfl : j = 0 := by omega
    exact start.symm
  | succ m ih =>
    rw [freeNumber]
    cases j with
    | zero => rw [start] at free ⊢; simp [free]
    | succ j =>
      have hused : c ∈ used := start ▸ before 0 (Nat.succ_pos j)
      have turn (k : Nat) : (succNumber c + k - 1) % 255 + 1 = (c + (k + 1) - 1) % 255 + 1 := by
        rw [succNumber_eq hc]; omega
      rw [if_pos (by simpa using hused), ← turn j]
      have next : 1 ≤ succNumber c ∧ succNumber c ≤ 255 := by rw [succNumber_eq hc]; omega
      refine ih next (Nat.le_of_succ_le_succ hj) (fun k hk => ?_) ?_ (by omega)
      · exact turn k ▸ before (k + 1) (Nat.succ_lt_succ hk)
      · exact turn j ▸ free

/-! ## The opening (R48) -/

theorem freeRecord_lowest {p : Part} {r : Nat} (free : p.incident? r = none) (hr : r < 8)
    (low : ∀ k, k < r → p.incident? k ≠ none) : p.freeRecord = some r := by
  rw [Part.freeRecord, Table.firstFree, List.find?_range_eq_some]
  refine ⟨by simpa [Part.incident?] using free, List.mem_range.2 hr, fun k hk => ?_⟩
  simpa [Part.incident?, Option.isSome_iff_ne_none] using low k hk

/-- A record with no counted valve, written into a free place. -/
theorem putIncident_uncounted {p : Part} {r : Nat} (free : p.incident? r = none) {i : Incident} (hi : i.counted = []) :
    p.putIncident r i = { p with inc := { p.inc with records := Table.put p.inc.records r i } } := by
  have hold : p.countedBy r = [] := by rw [Part.countedBy, free]
  rw [Part.putIncident, hold, hi]
  rfl

theorem addIncident_new {p : Part} {r : Nat} (free : p.incident? r = none) {i : Incident} (hi : i.counted = []) :
    p.addIncident r i = { p with inc := ⟨Table.put p.inc.records r i, succNumber i.number⟩ } :=
  putIncident_uncounted (p := { p with inc := { p.inc with next := succNumber i.number } }) free hi

theorem incident?_putRecords (p : Part) (r : Nat) (i : Incident) (next : Nat) :
    Part.incident? { p with inc := ⟨Table.put p.inc.records r i, next⟩ } r = some i := Table.look_put_self _ _ _

theorem enterPlanner_inUse {p : Part} {r : Nat} {i : Incident} (hi : p.incident? r = some i) :
    p.enterPlanner r = (p.setPlanQueue (p.plan.queue ++ [⟨r, i.number⟩])).grantPlan := by
  rw [Part.enterPlanner, hi]

theorem openIncident_lowest {p : Part} {r : Nat} (free : p.incident? r = none) (hr : r < 8)
    (low : ∀ k, k < r → p.incident? k ≠ none) (origin : Origin) (g u : Nat) :
    p.openIncident origin g u =
      let i := p.newIncident origin g u
      let q := { p with inc := ⟨Table.put p.inc.records r i, succNumber p.nextNumber⟩ }
      ((q.setPlanQueue (q.plan.queue ++ [⟨r, p.nextNumber⟩])).grantPlan.record .opened (some p.nextNumber)
        (some (.segment g)) none).notice .incidentOpened
          [item (w16 p.nextNumber) (w16 g), item (w8 origin.num (p.zoneOf g)) (w8 u 0)] := by
  unfold Part.openIncident
  rw [freeRecord_lowest free hr low]
  dsimp only
  rw [addIncident_new free rfl, enterPlanner_inUse (incident?_putRecords p r (p.newIncident origin g u) _)]
  rfl

/-! ## DECLARE (R49) -/

theorem declare_eq (segment urgency : Word) (p : Part) :
    p.declare segment urgency =
      if 2047 < segment.toNat then (p, .bare .badArgument)
      else if p.segment? segment.toNat = none then (p, .bare .noSuch)
      else if ∃ e ∈ p.inc.records, e.2.burst = segment.toNat then (p, .bare .duplicate)
      else match p.areaOwner segment.toNat with
        | some r => (p.absorb r segment.toNat 2, ⟨.absorbed, [item (w16 ((p.numberOf r).getD 0)) 0#16]⟩)
        | none =>
          if p.freeRecord = none then (p, .bare .tableFull)
          else (p.openIncident .declared segment.toNat (min urgency.toNat 3),
            ⟨if 3 < urgency.toNat then .okClamped else .ok, [item (w16 p.nextNumber) 0#16]⟩) := by
  simp only [Part.declare, refuse_eq, Option.isNone_iff_eq_none, List.any_eq_true, decide_eq_true_eq, loaded, numberData]
    <;> rfl

/-- A record of a canonical table, with its number. -/
theorem exists_record {p : Part} (c : p.canonical) (f : Incident → Prop) :
    (∃ e ∈ p.inc.records, f e.2) ↔ ∃ r i, p.incident? r = some i ∧ f i := by
  simp only [Prod.exists, Table.mem_iff_look c.records, Part.incident?]

/-- An absorption counts in REPEATS, which stays at 255, and leaves the hold counts. -/
theorem absorb_counted {p : Part} {r : Nat} {i : Incident} (hi : p.incident? r = some i) (hrep : i.repeats ≤ 255)
    (g value : Nat) :
    p.absorb r g value =
      ({ p with inc := { p.inc with
        records := Table.put p.inc.records r { i with repeats := min 255 (i.repeats + 1) } } }).record .absorbed
          (some i.number) (some (.segment g)) (some value) := by
  have saturates : (if i.repeats < 255 then i.repeats + 1 else i.repeats) = min 255 (i.repeats + 1) := by
    split <;> omega
  rw [absorb_inUse hi, saturates, putIncident_counted (j := { i with repeats := min 255 (i.repeats + 1) }) hi rfl]

/-- Settles O58. -/
theorem declare : Obligations.Declare := by
  refine ⟨fun m segment urgency s => ?_, fun p origin g u r n x free hr low hx hn => ?_, fun p j hlow hhigh hj => ?_⟩
  · intro i p g u bad free again within full result c
    have takes {e : Part} {a : Answer} (he : p.declare segment urgency = (e, a)) : e.quiet → s.takes i m e a :=
      State.takes_rest rfl he
    have hagain : (∃ e ∈ p.inc.records, e.2.burst = segment.toNat) ↔ again := exists_record c fun j => j.burst = g
    have hfull : p.freeRecord = none ↔ full := freeRecord_eq_none_iff p
    have outside (h : ∀ r, ¬within r) : p.areaOwner segment.toNat = none :=
      areaOwner_outside fun e he hg => h e.1 ⟨e.2, Table.look_of_mem c.records he, hg⟩
    simp only [declare_eq, hfull] at takes
    refine ⟨fun hb => takes (if_pos hb), fun hb hf => takes ((if_neg hb).trans (if_pos hf)),
      fun hb hf ha => takes ((if_neg hb).trans ((if_neg hf).trans (if_pos (hagain.2 ha)))),
      fun r j hb hf ha hj hg hlow hrep => ?_, fun hb hf ha ho hfl => ?_, fun n hb hf ha ho hfl hn => ?_⟩
    all_goals refine takes ((if_neg hb).trans ((if_neg hf).trans ((if_neg (mt hagain.1 ha)).trans ?_)))
    · have owner : p.areaOwner segment.toNat = some r :=
        areaOwner_lowest c hj hg fun k j' hk hk' => hlow k ⟨j', hk, hk'⟩
      simp only [owner, absorb_counted hj hrep, Part.numberOf, hj]
      rfl
    · rw [outside ho]
      exact if_pos hfl
    · rw [outside ho, hn]
      exact if_neg hfl
  · intro i q
    have zone : p.zoneOf g = x.zone := by rw [Part.zoneOf, hx]
    have new : p.newIncident origin g u = i := by simp only [Part.newIncident, zone, ← hn, i]
    rw [openIncident_lowest free hr low, new, zone, ← hn]
    rfl
  · intro turn used before free
    have hused (n : Nat) : n ∈ p.inc.records.map (fun e => e.2.number) ↔ used n := by simp [used]
    exact freeNumber_eq _ ⟨hlow, hhigh⟩ hj (fun k hk => (hused _).2 (before k hk)) fun h => free ((hused _).1 h)

end Sys2Proof.Machine
end

