-- ==== Sys2Proof/Proofs/PlanCommits.lean ====
section
/-! PROOFS. The result of a plan that has ended and what a commit installs (R50, R51, R79, R85, R88), and the planner's grant
(R70, R72), as O56 says them. -/

namespace Sys2Proof.Machine

/-! ## The shared valves that join (R50) -/

section SharedJoins

variable {p : Part} {r v : Nat} {i : Incident}

theorem sharedPrior_none (h : ∀ e ∈ p.inc.records, e.1 ≠ r → e.2.touches v = false) : p.sharedPrior r v = none := by
  have untouched : p.inc.records.find? (fun e => decide (e.1 ≠ r) && e.2.touches v) = none := by
    rw [List.find?_eq_none]
    intro e he
    simpa using h e he
  rw [Part.sharedPrior, untouched]
  rfl

/-- The entry of a valve on a touched list that names each valve once. -/
theorem find?_touched {l : List TouchedEntry} {t : TouchedEntry} (ht : t ∈ l) (nodup : (l.map TouchedEntry.valve).Nodup) :
    l.find? (fun u => decide (u.valve = t.valve)) = some t := by
  obtain ⟨a, b, rfl⟩ := List.append_of_mem ht
  refine find?_firstTouched rfl rfl fun u hu hv => ?_
  rw [List.map_append, List.nodup_append] at nodup
  exact nodup.2.2 _ (List.mem_map_of_mem hu) _ (by simp) hv

/-- PRIOR comes from the lowest-numbered other record that holds the valve. -/
theorem sharedPrior_lowest (c : p.canonical) {k : Nat} {j : Incident} {t : TouchedEntry} (hj : p.incident? k = some j)
    (hk : k ≠ r) (ht : t ∈ j.touched) (nodup : (j.touched.map TouchedEntry.valve).Nodup)
    (low : ∀ k' j', p.incident? k' = some j' → k' ≠ r → j'.touches t.valve = true → k ≤ k') :
    p.sharedPrior r t.valve = some t := by
  have look (k : Nat) : Table.look (p.inc.records.filter fun e => decide (e.1 ≠ r)) k =
      (p.incident? k).filter fun _ => decide (k ≠ r) := Table.look_filter c.records _ k
  have touches : j.touches t.valve = true := (touches_iff j t.valve).2 ⟨t, ht, rfl⟩
  have first := Table.find?_lowest (Table.wf_filter (fun e => decide (e.1 ≠ r)) c.records) (f := fun i => i.touches t.valve)
    (k := k) (a := j) ((look k).trans (by simp [hj, hk])) touches fun k' j' hk' hf => by
      rw [look, Option.filter_eq_some_iff] at hk'
      exact low k' j' hk'.1 (by simpa using hk'.2) hf
  rw [List.find?_filter] at first
  simp only [Bool.decide_and, Bool.decide_eq_true] at first
  rw [Part.sharedPrior, first]
  exact find?_touched ht nodup

theorem sharedJoins_close (b : List BoundaryEntry) : p.sharedJoins r i (⟨v, .close⟩ :: b) = p.sharedJoins r i b := rfl

theorem sharedJoins_none (b : List BoundaryEntry) :
    p.sharedJoins r i (⟨v, .none⟩ :: b) =
      if i.touches v = true then p.sharedJoins r i b
      else match p.sharedPrior r v with
        | none => p.sharedJoins r i b
        | some t => ⟨v, t.prior, .boundary⟩ :: p.sharedJoins r i b := by
  unfold Part.sharedJoins
  cases ht : i.touches v <;> cases hp : p.sharedPrior r v <;> simp [ht, hp]

end SharedJoins

/-! ## Roles and the PLAN_COMMITTED notice (R44, 10.5) -/

theorem interior_iff (p : Part) (area : List Nat) (v : Nat) :
    p.interior area v = true ↔ ∃ x g, p.valve? v = some x ∧ x.segB = some g ∧ x.segA ∈ area ∧ g ∈ area := by
  unfold Part.interior Valve.bothIn
  cases p.valve? v with
  | none => simp
  | some x => cases hb : x.segB <;> simp [hb]

theorem roleOf_eq (p : Part) (area : List Nat) (l : List BoundaryEntry) (v : Nat) :
    p.roleOf area l v =
      if ∃ e ∈ l, e.valve = v then .boundary
      else if p.interior area v = true then .interior else .abandoned := by
  simp only [Part.roleOf, List.any_eq_true, decide_eq_true_eq]

theorem committedItems_eq (i : Incident) :
    committedItems i =
      [item (w16 i.number) (w16 i.area.length),
       item (w16 (i.boundary.filter fun e => decide (e.action = .close)).length)
         (w16 (i.boundary.filter fun e => decide (e.action = .none)).length),
       item (w16 i.collateral) (w16 i.prot.length)] ++ pairUp (i.prot.map w16) := by
  have split (l : List BoundaryEntry) : l.length =
      (l.filter fun e => decide (e.action = .close)).length + (l.filter fun e => decide (e.action = .none)).length := by
    induction l with
    | nil => rfl
    | cons e l ih => cases h : e.action <;> simp [h, ih] <;> omega
  have close : i.closeList.length = (i.boundary.filter fun e => decide (e.action = .close)).length := by
    simp [Incident.closeList]
  have none : i.boundary.length - i.closeList.length =
      (i.boundary.filter fun e => decide (e.action = .none)).length := by
    rw [close, split i.boundary, Nat.add_sub_cancel_left]
  rw [committedItems, none, close]

/-! ## A commit (R50) -/

theorem zone_putIncident (p : Part) (r : Nat) (i : Incident) (z : Nat) : (p.putIncident r i).zone z = p.zone z := by
  rw [Part.zone, Part.putIncident_watch]; rfl

theorem committedState_eq (p : Part) (i : Incident) :
    p.committedState i =
      if i.prot ≠ [] ∨ (p.zone i.zone).mode = .confirm then .confirmWait
      else if ∃ b ∈ i.boundary, b.action = .close then .closing else .verifying := by
  simp only [Part.committedState, Bool.or_eq_true, Bool.not_eq_true', List.isEmpty_eq_false_iff, decide_eq_true_eq,
    List.any_eq_true]

/-- A plan is installed whole: the lists, the shared valves that join, and the ROLE of every touched entry. -/
theorem installPlan_eq (p : Part) (w : Workspace) (i : Incident) (collateral : Nat) (prot : List Nat) :
    p.installPlan w i collateral prot =
      let l := i.touched ++ p.sharedJoins w.record i w.boundary
      let j := { i with
        area := w.area, boundary := w.boundary, collateral := collateral, prot := prot, restarts := 0
        touched := l.map fun t => { t with role := p.roleOf w.area w.boundary t.valve } }
      if 64 < l.length then p.hold w.record .planTooLarge none else (p.putIncident w.record j).enterCommitted w.record j := by
  dsimp only
  rw [List.length_append]
  rfl

section EnterCommitted

variable {p : Part} (r : Nat) {i : Incident}

theorem enterCommitted_confirmWait (h : p.committedState i = .confirmWait) :
    p.enterCommitted r i =
      (((p.moveIncident r .confirmWait id).notice .planCommitted (committedItems i)).notice .confirmRequired
        [item (w16 i.number) (w16 (if i.prot = [] then 1 else 0))]).adjustBoundary r := by
  simp only [Part.enterCommitted, h, confirmCause, List.isEmpty_iff]

theorem enterCommitted_closing (h : p.committedState i = .closing) :
    p.enterCommitted r i =
      (((p.moveIncident r .closing id).notice .planCommitted (committedItems i)).adjustBoundary r).handOver r := by
  simp only [Part.enterCommitted, h]

theorem enterCommitted_verifying (h : p.committedState i = .verifying) :
    p.enterCommitted r i =
      (((p.moveIncident r .verifying id).notice .planCommitted (committedItems i)).adjustBoundary r).enterVerifying r := by
  simp only [Part.enterCommitted, h]

end EnterCommitted

/-! ## The results of a plan (R51, R85, R88) -/

section TakeResult

variable {p : Part} {w : Workspace} {i : Incident}

theorem takeResult_void (h : ∀ i, p.incident? w.record = some i → i.number ≠ w.number ∨ i.state ≠ .planning)
    (res : PlanResult) : p.takeResult w res = p.record .planVoid (some w.number) none none := by
  unfold Part.takeResult
  cases hi : p.incident? w.record with
  | none => rfl
  | some i => exact if_neg fun k => (h i hi).elim (fun n => n k.1) fun n => n k.2

theorem takeResult_planning (hi : p.incident? w.record = some i) (hn : i.number = w.number) (hs : i.state = .planning)
    (res : PlanResult) :
    p.takeResult w res = match res with
      | .commit c prot => p.installPlan w i c prot
      | .sourceInArea => p.hold w.record .sourceInArea none
      | .planTooLarge => p.hold w.record .planTooLarge none
      | .disturbed x => p.planDisturbed w.record i x := by
  unfold Part.takeResult
  rw [hi]
  exact if_pos ⟨hn, hs⟩

theorem planDisturbed_inUse {r : Nat} (hi : p.incident? r = some i) (x : Subject) :
    p.planDisturbed r i x =
      let n := i.restarts + 1
      let q := ({ p with inc := { p.inc with records := Table.put p.inc.records r { i with restarts := n } } }).record
        .planDisturbed (some i.number) (some x) (some n)
      if n < 4 then q.toPlanWait r id else q.hold r .unstable none := by
  unfold Part.planDisturbed
  dsimp only
  rw [putIncident_counted (j := { i with restarts := i.restarts + 1 }) hi rfl]

end TakeResult

/-! ## Completion (R79, R84, R85) -/

section Completion

variable {p : Part} {w : Workspace}

theorem isCollateral_iff (p : Part) (w : Workspace) (g : Nat) :
    p.isCollateral w g = true ↔
      g ∉ w.area ∧ g ∉ w.reached ∧ ¬∃ e ∈ p.inc.records, e.1 ≠ w.record ∧ g ∈ e.2.area := by
  simp only [Part.isCollateral, Bool.and_eq_true, Bool.not_eq_true', ← Bool.not_eq_true, List.contains_iff_mem,
    List.any_eq_true, decide_eq_true_eq, and_assoc]

/-- The result of a walk: the number of collateral segments, and the first eight protected ones. -/
theorem walkResult_eq (c : p.canonical) {dry fire : List Nat} (hdry : dry.Pairwise (· < ·)) (hfire : fire.Pairwise (· < ·))
    (mem_dry : ∀ g, g ∈ dry ↔ p.segment? g ≠ none ∧ g ∉ w.area ∧ g ∉ w.reached ∧
      ¬∃ e ∈ p.inc.records, e.1 ≠ w.record ∧ g ∈ e.2.area)
    (mem_fire : ∀ g, g ∈ fire ↔ ∃ y, p.segment? g = some y ∧ y.prot = true ∧ (g ∈ w.area ∨ g ∈ dry)) :
    p.walkResult w = .commit dry.length (fire.take 8) := by
  have sorted (f : Nat × Segment → Bool) : (Table.keys (p.net.segments.filter f)).Pairwise (· < ·) :=
    (Table.wf_iff_keys_pairwise _).1 (Table.wf_filter f c.segments)
  have collateral (g : Nat) : g ∈ dry ↔ p.segment? g ≠ none ∧ p.isCollateral w g = true := by
    rw [mem_dry, isCollateral_iff]
  have dry_eq : Table.keys (p.net.segments.filter fun e => p.isCollateral w e.1) = dry := by
    refine List.Pairwise.eq_of_mem_iff (r := (· < ·)) (sorted _) hdry fun g => ?_
    rw [Table.mem_keys_filter c.segments, collateral, Option.ne_none_iff_exists']
    exact ⟨fun ⟨y, hy, hg⟩ => ⟨⟨y, hy⟩, hg⟩, fun ⟨⟨y, hy⟩, hg⟩ => ⟨y, hy, hg⟩⟩
  have fire_eq : Table.keys (p.net.segments.filter fun e =>
      e.2.prot && (w.area.contains e.1 || p.isCollateral w e.1)) = fire := by
    refine List.Pairwise.eq_of_mem_iff (r := (· < ·)) (sorted _) hfire fun g => ?_
    simp only [Table.mem_keys_filter c.segments, mem_fire, collateral, Bool.and_eq_true, Bool.or_eq_true,
      List.contains_iff_mem]
    refine exists_congr fun y => and_congr_right fun hy => and_congr_right fun _ => or_congr_right ?_
    exact (and_iff_right (by rw [Part.segment?, hy]; simp)).symm
  rw [Part.walkResult, fire_eq, ← dry_eq, Table.keys, List.length_map]

theorem endedResult_given {res : PlanResult} (h : w.result = some res) (p : Part) : p.endedResult w = some res := by
  simp only [Part.endedResult, h]

theorem endedResult_walked (hr : w.result = none) (hph : w.phase = .supplyWalk) (hwalk : w.walk = []) (p : Part) :
    p.endedResult w = some (p.walkResult w) := by
  simp only [Part.endedResult, hr, hph, hwalk, and_self, if_true]

theorem endedResult_unended (hr : w.result = none) (h : w.phase = .areaSearch ∨ w.walk ≠ []) (p : Part) :
    p.endedResult w = none := by
  have walking : ¬(w.phase = .supplyWalk ∧ w.walk = []) := fun k => h.elim (fun a => by simp [a] at k) fun a => a k.2
  simp only [Part.endedResult, hr, if_neg walking]

theorem completePlan_ended (hw : p.plan.plan = some w) {res : PlanResult} (h : p.endedResult w = some res) :
    p.completePlan = ((p.setPlan none).takeResult w res).grantPlan := by
  simp only [Part.completePlan, hw, h]

theorem completePlan_unended (h : ∀ w, p.plan.plan = some w → p.endedResult w = none) : p.completePlan = p := by
  unfold Part.completePlan
  cases hw : p.plan.plan with
  | none => rfl
  | some w => simp only [h w hw]

end Completion

/-! ## The planner's grant (R70, R72) -/

section Grant

variable {p : Part}

/-- The better of the best entry so far and the next one: the earlier of equals. -/
def Part.better (p : Part) (best : Option PlanEntry) (e : PlanEntry) : Option PlanEntry :=
  match best with
  | none => some e
  | some b => if p.urgencyOf b.record < p.urgencyOf e.record then some e else best

theorem bestEntry_eq (p : Part) : p.bestEntry = p.plan.queue.foldl p.better none := rfl

/-- The best of a list is one of it, or was the best before. -/
theorem foldl_better_mem {l : List PlanEntry} {best : Option PlanEntry} {d : PlanEntry}
    (h : l.foldl p.better best = some d) : d ∈ l ∨ best = some d := by
  induction l generalizing best with
  | nil => exact .inr h
  | cons e l ih =>
    rcases ih h with hd | hd
    · exact .inl (List.mem_cons_of_mem _ hd)
    · cases best with
      | none => exact .inl (by simp [Option.some.inj hd])
      | some b =>
        simp only [Part.better] at hd
        split_ifs at hd
        · exact .inl (by simp [Option.some.inj hd])
        · exact .inr hd

theorem foldl_better_stays {l : List PlanEntry} {e : PlanEntry}
    (h : ∀ d ∈ l, p.urgencyOf d.record ≤ p.urgencyOf e.record) : l.foldl p.better (some e) = some e := by
  induction l with
  | nil => rfl
  | cons d l ih =>
    have stays : p.better (some e) d = some e := if_neg (Nat.not_lt.2 (h d List.mem_cons_self))
    rw [List.foldl_cons, stays]
    exact ih fun d hd => h d (List.mem_cons_of_mem _ hd)

theorem bestEntry_first {a b : List PlanEntry} {e : PlanEntry} (hq : p.plan.queue = a ++ e :: b)
    (ha : ∀ d ∈ a, p.urgencyOf d.record < p.urgencyOf e.record)
    (hb : ∀ d ∈ b, p.urgencyOf d.record ≤ p.urgencyOf e.record) : p.bestEntry = some e := by
  have meets : p.better (a.foldl p.better none) e = some e := by
    cases h : a.foldl p.better none with
    | none => rfl
    | some d => exact if_pos (ha d ((foldl_better_mem h).resolve_right (by simp)))
  rw [bestEntry_eq, hq, List.foldl_append, List.foldl_cons, meets, foldl_better_stays hb]

theorem grantPlan_idle (h : p.plan.plan ≠ none ∨ p.plan.queue = []) : p.grantPlan = p := by
  unfold Part.grantPlan
  rcases h with h | h
  · cases hp : p.plan.plan with
    | none => exact absurd hp h
    | some w => rfl
  · have none : p.bestEntry = none := by rw [bestEntry_eq, h]; rfl
    rw [none]
    split <;> simp_all

theorem grantPlan_best (hp : p.plan.plan = none) {e : PlanEntry} (he : p.bestEntry = some e) {i : Incident}
    (hi : p.incident? e.record = some i) :
    p.grantPlan =
      ((p.setPlanQueue (p.plan.queue.filter fun x => decide (x ≠ e))).moveIncident e.record .planning id).setPlan
        (some (Workspace.start e.record e.number i.burst (p.isSource i.burst))) := by
  unfold Part.grantPlan
  rw [hp, he]
  dsimp only
  rw [hi]

/-- A list without the one entry between two others. -/
theorem filter_ne_middle {α : Type} [DecidableEq α] {a b : List α} {e : α} (ha : e ∉ a) (hb : e ∉ b) :
    ((a ++ e :: b).filter fun x => decide (x ≠ e)) = a ++ b := by
  have keep {l : List α} (h : e ∉ l) : (l.filter fun x => decide (x ≠ e)) = l :=
    List.filter_eq_self.2 fun x hx => by simpa using fun k : x = e => h (k ▸ hx)
  rw [List.filter_append, keep ha, List.filter_cons_of_neg (by simp), keep hb]

end Grant

end Sys2Proof.Machine
end

