-- ==== Sys2Proof/Proofs/HandOvers.lean ====
section
/-! PROOFS. What a commit and a CONFIRM hand to the sequencer: the adjustment (R111, R119) and the hand-over, entry by entry
(R44, R120 to R122), as O56 says them. -/

namespace Sys2Proof.Machine

/-! ## The adjustment (R111, R119) -/

/-- The valves whose CLOSING contexts the record leaves at a commit. -/
theorem keys_leftContexts {p : Part} (c : p.canonical) {i : Incident} {vs : List Nat} (h : vs.Pairwise (· < ·))
    (mem : ∀ v, v ∈ vs ↔ ∃ d, p.context? v = some d ∧ d.run = .closing ∧ ⟨v, .close⟩ ∉ i.boundary) :
    Table.keys (p.seq.contexts.filter fun e => decide (e.2.run = .closing) && !i.closes e.1) = vs := by
  refine List.Pairwise.eq_of_mem_iff (r := (· < ·)) ((Table.wf_iff_keys_pairwise _).1 (Table.wf_filter _ c.contexts)) h
    fun v => ?_
  simp only [mem, Table.mem_keys_filter c.contexts, Bool.and_eq_true, decide_eq_true_eq, Bool.not_eq_true',
    ← Bool.not_eq_true, closes_iff, Part.context?]

theorem adjustBoundary_inUse {p : Part} {r : Nat} {i : Incident} (hi : p.incident? r = some i) (c : p.canonical)
    {vs : List Nat} (h : vs.Pairwise (· < ·))
    (mem : ∀ v, v ∈ vs ↔ ∃ d, p.context? v = some d ∧ d.run = .closing ∧ ⟨v, .close⟩ ∉ i.boundary) :
    p.adjustBoundary r =
      let q := vs.foldl (fun q v => q.leaveServes r v) p
      { q with seq := { q.seq with
        waiting := q.seq.waiting.filter fun w =>
          decide ¬(w.record = r ∧ w.run = .closing ∧ BoundaryEntry.mk w.valve .close ∉ i.boundary)
        crew := q.seq.crew.filter fun k =>
          decide ¬(k.record = r ∧ k.restore = false ∧ BoundaryEntry.mk k.valve .close ∉ i.boundary) } } := by
  have closes (v : Nat) : i.closes v = decide (⟨v, .close⟩ ∈ i.boundary) := by
    rw [Bool.eq_iff_iff, decide_eq_true_eq, closes_iff]
  unfold Part.adjustBoundary
  rw [hi]
  dsimp only
  rw [keys_leftContexts c h mem]
  simp only [closes, Bool.decide_and, decide_not, Bool.decide_eq_false, Bool.and_assoc]
  rfl

theorem leaveServes_eq {p : Part} {v : Nat} {c : StepCtx} (hc : p.context? v = some c) (r : Nat) :
    p.leaveServes r v =
      let left := c.serves.filter fun k => decide (k ≠ r)
      if r ∈ c.serves then
        if left = [] then
          if c.phase = .travelling then p.putContext v { c with serves := [], dropAfterStep := true } else p.endContext v
        else p.putContext v { c with serves := left }
      else p := by
  unfold Part.leaveServes
  rw [hc]
  simp only [List.contains_iff_mem, List.isEmpty_iff]

/-! ## The hand-over (R120) -/

theorem handOver_inUse {p : Part} {r : Nat} {i : Incident} (hi : p.incident? r = some i) :
    p.handOver r = (((i.closeList.foldl (fun q v => q.handEntry r v) p).settled).testVerify r) := by
  rw [Part.handOver, hi]

theorem canTouch_iff (i : Incident) (v : Nat) :
    i.canTouch v = true ↔ (∃ t ∈ i.touched, t.valve = v) ∨ i.touched.length < 64 := by
  rw [Incident.canTouch, Bool.or_eq_true, touches_iff, decide_eq_true_eq]

section Entry

variable {p : Part} {r v : Nat} {i : Incident} {x : Valve}

/-- A touched entry is joined once (R44). -/
theorem touch_inUse (hi : p.incident? r = some i) (prior : Option Nat) :
    p.touch r v prior =
      if ∃ t ∈ i.touched, t.valve = v then p
      else p.putIncident r { i with touched := i.touched ++ [⟨v, prior, .boundary⟩] } := by
  unfold Part.touch
  rw [hi]
  simp only [touches_iff]

theorem addWaiting_eq (p : Part) (z v r : Nat) (run : Run) :
    p.addWaiting z v r run =
      if ∃ w ∈ p.seq.waiting, w.valve = v ∧ w.record = r ∧ w.run = run then p
      else p.setWaiting (p.seq.waiting ++ [⟨z, v, r, run⟩]) := by
  simp only [Part.addWaiting, List.any_eq_true, Bool.and_eq_true, decide_eq_true_eq, and_assoc]

theorem handEntry_manual (hi : p.incident? r = some i) (hx : p.valve? v = some x) (hk : x.kind = .manual) :
    p.handEntry r v =
      if p.hasCrew v r false = true ∨ x.opening = some 0 then p
      else if i.canTouch v = true then
        (p.touch r v (some 100)).askCrew { valve := v, record := r, restore := false, dir := .close } i.number
      else p.hold r .planTooLarge none := by
  unfold Part.handEntry
  rw [hi, hx]
  simp only [hk, Bool.or_eq_true, decide_eq_true_eq]
  split_ifs with hdone hroom
  · rfl
  · have notShut : x.opening ≠ some 0 := fun h => hdone (.inr h)
    rw [Part.askClose, if_pos hroom, if_neg notShut]
  · rw [Part.askClose, if_neg hroom]

theorem handEntry_idle (hi : p.incident? r = some i) (hx : p.valve? v = some x) (hk : x.kind = .actuated)
    (hc : p.context? v = none) : p.handEntry r v = p.addWaiting (p.zoneOfValve x) v r .closing := by
  simp only [Part.handEntry, hi, hx, hk, hc]

theorem handEntry_moving (hi : p.incident? r = some i) (hx : p.valve? v = some x) (hk : x.kind = .actuated) {c : StepCtx}
    (hc : p.context? v = some c) :
    p.handEntry r v =
      if r ∈ c.serves then (if c.phase = .halted then p.calcPoint id v else p)
      else if c.run = .closing then p.joinRun r v i c
      else p.addWaiting (p.zoneOfValve x) v r .closing := by
  simp only [Part.handEntry, hi, hx, hk, hc, List.contains_iff_mem]

theorem joinRun_full {c : StepCtx} (h : ¬i.canTouch v = true) : p.joinRun r v i c = p.hold r .planTooLarge none := if_neg h

theorem joinRun_room {c : StepCtx} (h : i.canTouch v = true) :
    p.joinRun r v i c =
      let b := (p.touch r v c.grantOpening).putContext v { c with serves := c.serves ++ [r], dropAfterStep := false }
      let q := { b with seq := { b.seq with
        waiting := b.seq.waiting.filter fun w => decide ¬(w.valve = v ∧ w.record = r ∧ w.run = .closing) } }
      if c.phase = .halted then q.calcPoint id v else q := by
  rw [Part.joinRun, if_pos h]
  simp only [← Bool.decide_and, ← decide_not, and_assoc]
  rfl

end Entry

end Sys2Proof.Machine
end

