-- ==== Sys2Proof/Proofs/WaitingLists.lean ====
section
/-! PROOFS. The order of a waiting list, what is granted from it and how, and what settles (R107 to R109, R111, R112, R127),
as O56 says them. -/

namespace Sys2Proof.Machine

/-! ## Sorting by an order (R108) -/

section Sorting

variable {α : Type} {before : α → α → Bool}

theorem insertBy_perm (a : α) (l : List α) : (insertBy before a l).Perm (a :: l) := by
  induction l with
  | nil => exact .refl _
  | cons b l ih =>
    rw [insertBy]
    split_ifs
    · exact .refl _
    · exact (ih.cons b).trans (.swap a b l)

theorem sortBy_perm (l : List α) : (sortBy before l).Perm l := by
  have fold (l acc : List α) : (l.foldl (fun acc a => insertBy before a acc) acc).Perm (l ++ acc) := by
    induction l generalizing acc with
    | nil => exact .refl _
    | cons a l ih => exact (ih _).trans (((insertBy_perm a acc).append_left l).trans List.perm_middle)
  exact (fold l []).trans (.of_eq (List.append_nil l))

/-- An element is put behind those it does not stand before, so that no later one stands before an earlier one. -/
theorem insertBy_sorted (asymm : ∀ a b, before a b = true → before b a = false)
    (trans : ∀ a b c, before b a = false → before c b = false → before c a = false) (a : α) {l : List α}
    (h : l.Pairwise fun a b => before b a = false) : (insertBy before a l).Pairwise fun a b => before b a = false := by
  induction l with
  | nil => simp [insertBy]
  | cons b l ih =>
    obtain ⟨hb, hl⟩ := List.pairwise_cons.1 h
    rw [insertBy]
    split_ifs with hab
    · refine List.pairwise_cons.2 ⟨fun c hc => ?_, h⟩
      rcases List.mem_cons.1 hc with rfl | hc
      · exact asymm a c hab
      · exact trans a b c (asymm a b hab) (hb c hc)
    · refine List.pairwise_cons.2 ⟨fun c hc => ?_, ih hl⟩
      rcases (mem_insertBy _ _ _ _).1 hc with rfl | hc
      · exact Bool.eq_false_iff.2 hab
      · exact hb c hc

theorem sortBy_sorted (asymm : ∀ a b, before a b = true → before b a = false)
    (trans : ∀ a b c, before b a = false → before c b = false → before c a = false) (l : List α) :
    (sortBy before l).Pairwise fun a b => before b a = false := by
  have fold (l acc : List α) (h : acc.Pairwise fun a b => before b a = false) :
      (l.foldl (fun acc a => insertBy before a acc) acc).Pairwise fun a b => before b a = false := by
    induction l generalizing acc with
    | nil => exact h
    | cons a l ih => exact ih _ (insertBy_sorted asymm trans a h)
  exact fold l [] List.Pairwise.nil

end Sorting

/-! ## The order of a waiting list (R108) -/

theorem waitsBefore_iff (p : Part) (a b : WaitEntry) :
    p.waitsBefore a b = true ↔
      p.urgencyOf b.record < p.urgencyOf a.record ∨ (p.urgencyOf a.record = p.urgencyOf b.record ∧
        (p.openedOf a.record < p.openedOf b.record ∨ (p.openedOf a.record = p.openedOf b.record ∧
          (a.record < b.record ∨ (a.record = b.record ∧ p.waitPlace a < p.waitPlace b))))) := by
  unfold Part.waitsBefore
  split_ifs <;> simp only [decide_eq_true_eq] <;> omega

theorem waitsBefore_asymm (p : Part) (a b : WaitEntry) (h : p.waitsBefore a b = true) : p.waitsBefore b a = false := by
  rw [← Bool.not_eq_true, waitsBefore_iff]
  rw [waitsBefore_iff] at h
  omega

theorem waitsBefore_trans (p : Part) (a b c : WaitEntry) (h : p.waitsBefore b a = false) (k : p.waitsBefore c b = false) :
    p.waitsBefore c a = false := by
  rw [← Bool.not_eq_true, waitsBefore_iff] at h k ⊢
  omega

theorem zoneList_sorted (p : Part) (z : Nat) : (p.zoneList z).Pairwise fun a b => ¬p.waitsBefore b a = true :=
  (sortBy_sorted (waitsBefore_asymm p) (waitsBefore_trans p) _).imp fun h => Bool.eq_false_iff.1 h

theorem waitPlace_inUse {p : Part} {w : WaitEntry} {i : Incident} (hi : p.incident? w.record = some i) :
    p.waitPlace w =
      if w.run = .closing then i.boundary.findIdx fun e => decide (e.valve = w.valve)
      else i.touched.reverse.findIdx fun t => decide (t.valve = w.valve) := by
  unfold Part.waitPlace
  rw [hi]
  cases w.run <;> simp

/-! ## Which entry is granted (R107, R109) -/

theorem stateOf_eq_some_iff (p : Part) (r : Nat) (st : IncState) :
    p.stateOf r = some st ↔ ∃ i, p.incident? r = some i ∧ i.state = st := by
  simp [Part.stateOf]

theorem goal_eq (run : Run) : run.goal = if run = .closing then .closing else .restoring := by cases run <;> rfl

theorem eligible_iff (p : Part) (w : WaitEntry) :
    p.eligible w = true ↔ p.mgmt.mode = .active ∧ p.context? w.valve = none ∧
      p.stateOf w.record = some (if w.run = .closing then .closing else .restoring) := by
  simp only [Part.eligible, Bool.and_eq_true, isActive_iff, Option.isNone_iff_eq_none, decide_eq_true_eq, goal_eq, and_assoc]

theorem freeSlot_iff (p : Part) (z : Nat) :
    p.freeSlot z = true ↔ (p.seq.contexts.filter fun e => decide (e.2.zone = z)).length < (p.zone z).slots :=
  decide_eq_true_iff

/-- What the first zone that grants gives; the empty lists give nothing. -/
theorem nextGrant_eq (p : Part) :
    p.nextGrant = (List.range 64).findSome? fun z => if p.freeSlot z = true then (p.zoneList z).find? p.eligible else none := by
  unfold Part.nextGrant
  split_ifs with h
  · have empty (z : Nat) : p.zoneList z = [] := by
      rw [Part.zoneList, List.isEmpty_iff.1 h]; rfl
    exact (List.findSome?_eq_none_iff.2 fun z _ => by simp [empty]).symm
  · rfl

theorem find?_free_none {p : Part} {z : Nat} :
    (if p.freeSlot z = true then (p.zoneList z).find? p.eligible else none) = none ↔
      (p.freeSlot z = true → ∀ e ∈ p.zoneList z, ¬p.eligible e = true) := by
  split_ifs with h <;> simp [h]

theorem nextGrant_eq_none_iff (p : Part) :
    p.nextGrant = none ↔ ∀ z, z < 64 → p.freeSlot z = true → ∀ e ∈ p.zoneList z, ¬p.eligible e = true := by
  simp only [nextGrant_eq, List.findSome?_eq_none_iff, List.mem_range, find?_free_none]

/-- The first number below a bound that gives something. -/
theorem findSome?_range_eq_some_iff {α : Type} (f : Nat → Option α) (n : Nat) (a : α) :
    (List.range n).findSome? f = some a ↔ ∃ z, z < n ∧ f z = some a ∧ ∀ y, y < z → f y = none := by
  induction n with
  | zero => simp
  | succ n ih =>
    rw [List.range_succ, List.findSome?_append, Option.or_eq_some_iff, ih, List.findSome?_eq_none_iff]
    simp only [List.mem_range, List.findSome?_singleton]
    constructor
    · rintro (⟨z, hz, ha, low⟩ | ⟨low, ha⟩)
      · exact ⟨z, Nat.lt_succ_of_lt hz, ha, low⟩
      · exact ⟨n, Nat.lt_succ_self n, ha, low⟩
    · rintro ⟨z, hz, ha, low⟩
      rcases Nat.lt_succ_iff_lt_or_eq.1 hz with hz | rfl
      · exact .inl ⟨z, hz, ha, low⟩
      · exact .inr ⟨low, ha⟩

theorem find?_free_some {p : Part} {z : Nat} {w : WaitEntry} :
    (if p.freeSlot z = true then (p.zoneList z).find? p.eligible else none) = some w ↔
      ∃ a b, p.freeSlot z = true ∧ p.zoneList z = a ++ w :: b ∧ p.eligible w = true ∧ ∀ e ∈ a, ¬p.eligible e = true := by
  split_ifs with h
  · simp only [List.find?_eq_some_iff_append, Bool.not_eq_true', Bool.not_eq_true, h, true_and]
    exact ⟨fun ⟨hw, a, b, hl, ha⟩ => ⟨a, b, hl, hw, ha⟩, fun ⟨a, b, hl, hw, ha⟩ => ⟨hw, a, b, hl, ha⟩⟩
  · simp [h]

theorem nextGrant_eq_some_iff (p : Part) (w : WaitEntry) :
    p.nextGrant = some w ↔ ∃ z a b, z < 64 ∧ p.freeSlot z = true ∧ p.zoneList z = a ++ w :: b ∧ p.eligible w = true ∧
      (∀ e ∈ a, ¬p.eligible e = true) ∧ ∀ y, y < z → p.freeSlot y = true → ∀ e ∈ p.zoneList y, ¬p.eligible e = true := by
  simp only [nextGrant_eq, findSome?_range_eq_some_iff, find?_free_none, find?_free_some]
  constructor
  · rintro ⟨z, hz, ⟨a, b, hfree, hl, hw, ha⟩, low⟩
    exact ⟨z, a, b, hz, hfree, hl, hw, ha, low⟩
  · rintro ⟨z, a, b, hz, hfree, hl, hw, ha, low⟩
    exact ⟨z, hz, ⟨a, b, hfree, hl, hw, ha⟩, low⟩

/-! ## What a grant does (R109, R112, R127) -/

section Grant

variable {p : Part} {w : WaitEntry}

theorem grantTo_inUse {i : Incident} (hi : p.incident? w.record = some i) (v : Nat) (o : Option Nat) (rs : List Nat) :
    Part.grantTo v o w (p, rs) =
      if i.canTouch v = true then (p.touch w.record v o, rs ++ [w.record]) else (p.hold w.record .planTooLarge none, rs) := by
  rw [Part.grantTo]
  dsimp only
  rw [hi]

theorem grantsOf_eq (p : Part) (z v : Nat) :
    p.grantsOf z v = (p.zoneList z).filter fun e => decide (e.valve = v ∧ e.run = .closing) && p.eligible e := by
  simp only [Part.grantsOf, Bool.decide_and]

theorem grant_restoring {x : Valve} (hx : p.valve? w.valve = some x) (hr : w.run = .restoring) (grants : Part → Part) :
    p.grant grants w =
      if 1 < x.holdCount then (p.dropWaiting w).endTouched w.record w.valve false
      else ((p.dropWaiting w).putContext w.valve (.fresh w.zone w.run [w.record] x.opening)).startStep grants w.valve := by
  simp only [Part.grant, hx, hr, Part.grantRestoring]

theorem grant_closing {x : Valve} (hx : p.valve? w.valve = some x) (hr : w.run = .closing) (grants : Part → Part) :
    p.grant grants w =
      let all := p.grantsOf w.zone w.valve
      let a := all.foldl (fun a e => Part.grantTo w.valve x.opening e a)
        (p.setWaiting (p.seq.waiting.filter fun e => decide (e ∉ all)), [])
      if a.2 = [] then a.1
      else (a.1.putContext w.valve (.fresh w.zone w.run a.2 x.opening)).startStep grants w.valve := by
  have out (l : List WaitEntry) (e : WaitEntry) : (!l.contains e) = decide (e ∉ l) := by simp
  simp only [Part.grant, hx, hr, Part.grantClosing, out, List.isEmpty_iff]

theorem startStep_eq {v : Nat} {c : StepCtx} {x : Valve} (hc : p.context? v = some c) (hx : p.valve? v = some x)
    (grants : Part → Part) :
    p.startStep grants v = if x.opening = none then p.formQuery grants v x c else p.calcPoint grants v := by
  simp only [Part.startStep, hc, hx]

end Grant

/-! ## What stands ready (R109, R111) -/

section Settled

variable {p : Part}

theorem servesIn_iff (p : Part) (c : StepCtx) (st : IncState) :
    p.servesIn c st = true ↔ ∃ r ∈ c.serves, p.stateOf r = some st := by
  simp [Part.servesIn]

/-- A run halts where it may not proceed, and the part is TRANSPARENT or an incident stands where the run waits for it. -/
theorem runTest_halt_iff (p : Part) (c : StepCtx) :
    p.runTest c = .halt ↔
      ¬(p.mgmt.mode = .active ∧ p.servesIn c c.run.goal = true) ∧ (p.mgmt.mode = .transparent ∨ p.waitsServed c = true) := by
  simp only [Part.runTest, Bool.and_eq_true, Bool.or_eq_true, Bool.not_eq_true', isActive_iff, isActive_eq_false_iff]
  split_ifs <;> simp_all

theorem waitsServed_iff (p : Part) (c : StepCtx) :
    p.waitsServed c = true ↔
      (c.run = .closing ∧
        (p.servesIn c .planWait = true ∨ p.servesIn c .planning = true ∨ p.servesIn c .confirmWait = true)) ∨
        (c.run = .restoring ∧ p.servesIn c .restoring = true) := by
  unfold Part.waitsServed
  cases c.run <;> simp [or_assoc]

theorem nextHalted_lowest (canon : p.canonical) {v : Nat} {c : StepCtx} (hc : p.context? v = some c) (hp : c.phase = .halted)
    (ht : p.runTest c ≠ .halt)
    (low : ∀ u d, u < v → p.context? u = some d → d.phase = .halted → p.runTest d = .halt) : p.nextHalted = some v := by
  have first := Table.find?_lowest canon.contexts
    (f := fun d => decide (d.phase = .halted) && decide (p.runTest d ≠ .halt)) hc (by simp [hp, ht]) fun u d hd hf => by
      simp only [Bool.and_eq_true, decide_eq_true_eq] at hf
      exact Nat.le_of_not_lt fun h => hf.2 (low u d h hd hf.1)
  rw [Part.nextHalted, first]
  rfl

/-- A HALTED context goes on, and then nothing stands ready. -/
theorem settled_halted {v : Nat} (h : p.nextHalted = some v) (same : ∀ g, p.calcPoint g v = p.calcPoint id v)
    (rest : (p.calcPoint id v).atRest) : p.settled = p.calcPoint id v := by
  rw [Part.settled, Part.settle, h]
  exact (congrArg _ (same _)).trans (Part.settle_rest _ _ rest)

/-- One entry is granted, and then nothing stands ready. -/
theorem settled_granted {w : WaitEntry} (h : p.nextHalted = none) (hw : p.nextGrant = some w)
    (same : ∀ g, p.grant g w = p.grant id w) (rest : (p.grant id w).atRest) : p.settled = p.grant id w := by
  rw [Part.settled, Part.settle, h]
  dsimp only
  rw [hw]
  exact (congrArg _ (same _)).trans (Part.settle_rest _ _ rest)

end Settled

end Sys2Proof.Machine
end

