-- ==== Sys2Proof/Proofs/PlanCompletion.lean ====
section
/-! PROOFS. PLAN_COMPLETE, and what a commit and a CONFIRM set off (O56). -/

namespace Sys2Proof.Machine

/-! ## PLAN_COMPLETE (R50, R51, R79, R85, R88) -/

/-- Settles O56: the result of the plan by its kind, and each later step by the lemma on its operation. -/
theorem planComplete : Obligations.PlanComplete := by
  refine ⟨fun s w res hw hres => ?_, fun s w dry fire hw hr hph hwalk c hdry hfire => ?_, fun s h still => ?_,
    fun p r i b v => ⟨rfl, sharedJoins_close b, fun h => ?_, fun k j t hv c hj hk ht htv nodup low => ?_⟩,
    fun p a b e i => ⟨grantPlan_idle, fun hp hq ha hb hua hub hi => ?_⟩, fun p area l v i => ?_,
    fun p r i vs hi c hvs mem => adjustBoundary_inUse hi c hvs mem, fun p r v c hc => ?_,
    fun p r i hi => handOver_inUse hi, fun p r v i x g hi hx hg => ?_, fun p z => ?_, fun p w => ?_,
    fun grants p w x hx => ?_, fun p w i o rs hi => ?_, fun grants p v c x hc hx => ?_, fun p w hh => ?_,
    fun p v c canon hc hph => ?_⟩
  -- the result of a plan that has ended (R50, R51, R85, R88)
  · intro p r taken
    have takes {e : Part} (he : p.takeResult w res = e) : taken e :=
      State.run_rest (f := Part.completePlan) rfl
        ((completePlan_ended hw (endedResult_given hres _)).trans (congrArg Part.grantPlan he))
    refine ⟨fun h => takes (takeResult_void h res), fun i hi hn hs => ?_⟩
    have result := takeResult_planning hi hn hs res
    refine ⟨?_, ?_, ?_, ?_⟩
    · rintro rfl
      exact takes result
    · rintro rfl
      exact takes result
    · rintro x rfl n q
      have disturbed := result.trans (planDisturbed_inUse hi x)
      exact ⟨fun h => takes (disturbed.trans (if_pos h)), fun h => takes (disturbed.trans (if_neg (Nat.not_lt.2 h)))⟩
    · rintro c prot rfl l j q asks closes
      have installed := result.trans (installPlan_eq p w i c prot)
      have state := committedState_eq (p.putIncident r j) j
      rw [zone_putIncident] at state
      have commits (h : l.length ≤ 64) : p.takeResult w (.commit c prot) = (p.putIncident r j).enterCommitted r j :=
        installed.trans (if_neg (Nat.not_lt.2 h))
      refine ⟨fun h => takes (installed.trans (if_pos h)), fun h ha => takes ((commits h).trans ?_),
        fun h ha hc => takes ((commits h).trans ?_), fun h ha hc => takes ((commits h).trans ?_)⟩
      · exact enterCommitted_confirmWait r (state.trans (if_pos ha))
      · exact enterCommitted_closing r (state.trans ((if_neg ha).trans (if_pos hc)))
      · exact enterCommitted_verifying r (state.trans ((if_neg ha).trans (if_neg hc)))
  -- a walk with nothing to reach has ended (R79)
  · intro p mem_dry mem_fire
    have walked := (endedResult_walked hr hph hwalk p).trans (congrArg some (walkResult_eq c hdry hfire mem_dry mem_fire))
    have given := completePlan_ended
      (p := p.setPlan (some { w with result := some (.commit dry.length (fire.take 8)) })) rfl (endedResult_given rfl _)
    exact congrArg (fun q : Part => Host.Outcome.next { s with part := q.settled.concluded })
      ((completePlan_ended hw walked).trans given.symm)
  -- a plan that has not ended does not complete (log entry 6)
  · exact State.run_rest (f := Part.completePlan) rfl
      (completePlan_unended fun w hw => endedResult_unended (h w hw).1 (h w hw).2 _) still
  -- which shared valves join (R50)
  · rw [sharedJoins_none]
    split_ifs with ht
    · rfl
    · rw [sharedPrior_none (h.resolve_left ht)]
  · subst htv
    rw [sharedJoins_none, if_neg (by simp [hv]), sharedPrior_lowest c hj hk ht nodup low]
  -- the planner's grant (R70, R72)
  · intro n
    rw [grantPlan_best hp (bestEntry_first hq hua hub) hi, hq, filter_ne_middle ha hb]
    rfl
  -- roles (R44)
  · intro inside
    have role := roleOf_eq p area l v
    have outside (h : ∀ e ∈ l, e.valve ≠ v) : ¬∃ e ∈ l, e.valve = v := fun ⟨e, he, hv⟩ => h e he hv
    have hin : p.interior area v = true ↔ inside := interior_iff p area v
    exact ⟨fun h => role.trans (if_pos h), fun h hi => role.trans ((if_neg (outside h)).trans (if_pos (hin.2 hi))),
      fun h hi => role.trans ((if_neg (outside h)).trans (if_neg (mt hin.1 hi))), committedItems_eq i⟩
  -- what leaving a run does (R111)
  · intro left
    have leaves := leaveServes_eq hc r
    exact ⟨fun h => leaves.trans (if_neg h), fun h hl => leaves.trans ((if_pos h).trans (if_neg hl)),
      fun h hl hp => leaves.trans ((if_pos h).trans ((if_pos hl).trans (if_pos hp))),
      fun h hl hp => leaves.trans ((if_pos h).trans ((if_pos hl).trans (if_neg hp)))⟩
  -- one entry of the hand-over, by its first case of R120 (R44, R121, R122)
  · intro does listed room full asked waits joined touched
    have hasked : p.hasCrew v r false = true ↔ asked := hasCrew_iff p v r false
    have hroom : i.canTouch v = true ↔ room := canTouch_iff i v
    have hzone : p.zoneOfValve x = g.zone := by rw [Part.zoneOfValve, Part.zoneOf, hg]
    have waiting := addWaiting_eq p (p.zoneOfValve x) v r .closing
    have unlisted (h : ¬waits) : p.addWaiting (p.zoneOfValve x) v r .closing = joined := by
      rw [hzone] at waiting ⊢
      exact waiting.trans (if_neg h)
    have touching {prior : Option Nat} {q : Part} (h : touched prior q) : p.touch r v prior = q := by
      by_cases hl : listed
      · exact ((touch_inUse hi prior).trans (if_pos hl)).trans (h.1 hl).symm
      · exact ((touch_inUse hi prior).trans (if_neg hl)).trans (h.2 hl).symm
    refine ⟨fun hk h => ?_, fun hk ha ho hr => ?_, fun q hk ha ho hr hq => ?_, fun hk hc => ?_, fun c hk hc => ?_⟩
    · exact (handEntry_manual hi hx hk).trans (if_pos (h.imp_left hasked.2))
    · exact (handEntry_manual hi hx hk).trans
        ((if_neg (not_or.2 ⟨mt hasked.1 ha, ho⟩)).trans (if_neg (mt hroom.1 hr)))
    · refine (handEntry_manual hi hx hk).trans ((if_neg (not_or.2 ⟨mt hasked.1 ha, ho⟩)).trans ?_)
      rw [if_pos (hroom.2 hr), touching hq]
      rfl
    · have idle := handEntry_idle hi hx hk hc
      exact ⟨fun h => idle.trans (waiting.trans (if_pos h)), fun h => idle.trans (unlisted h)⟩
    · have moving := handEntry_moving hi hx hk hc
      refine ⟨fun hs hp => moving.trans ((if_pos hs).trans (if_pos hp)),
        fun hs hp => moving.trans ((if_pos hs).trans (if_neg hp)), fun hs hr => ?_, fun hs hr h => ?_,
        fun a hs hr h ha => ?_⟩
      · have returning := moving.trans ((if_neg hs).trans (if_neg (by simp [hr])))
        exact ⟨fun h => returning.trans (waiting.trans (if_pos h)), fun h => returning.trans (unlisted h)⟩
      · exact moving.trans ((if_neg hs).trans ((if_pos hr).trans (joinRun_full (mt hroom.1 h))))
      · intro b q
        have joining := moving.trans ((if_neg hs).trans ((if_pos hr).trans (joinRun_room (hroom.2 h))))
        rw [touching ha] at joining
        exact ⟨fun hp => joining.trans (if_pos hp), fun hp => joining.trans (if_neg hp)⟩
  -- the order of a waiting list (R108)
  · intro place
    refine ⟨sortBy_perm _, (zoneList_sorted p z).imp fun {a b} h i j hi hj => ?_⟩
    have ha : p.waitPlace a = place a i := waitPlace_inUse hi
    have hb : p.waitPlace b = place b j := waitPlace_inUse hj
    simp only [waitsBefore_iff, ha, hb, Part.urgencyOf, Part.openedOf, hi, hj] at h
    omega
  -- which entry is granted (R107, R109)
  · intro free ready
    have hready (e : WaitEntry) : p.eligible e = true ↔ ready e := eligible_iff p e
    have hfree (y : Nat) : p.freeSlot y = true ↔ free y := freeSlot_iff p y
    refine ⟨hready w, ?_, ?_⟩
    · simp only [nextGrant_eq_none_iff, hready, hfree]
    · simp only [nextGrant_eq_some_iff, hready, hfree]
  -- a grant of either run (R109, R127)
  · intro does begun without all a
    have single : p.dropWaiting w = without [w] := by simp [Part.dropWaiting, Part.setWaiting, without]
    have restoring (hr : w.run = .restoring) := grant_restoring hx hr grants
    have closing (hr : w.run = .closing) := grant_closing hx hr grants
    rw [single] at restoring
    rw [grantsOf_eq] at closing
    exact ⟨fun hr h => (restoring hr).trans (if_pos h), fun hr h => (restoring hr).trans (if_neg (Nat.not_lt.2 h)),
      fun hr h => (closing hr).trans (if_pos h), fun hr h => (closing hr).trans (if_neg h)⟩
  -- a CLOSING grant to one incident (R44, R109)
  · intro v listed
    have granted := grantTo_inUse hi v o rs
    have touching := touch_inUse (v := v) hi o
    have hroom := canTouch_iff i v
    refine ⟨fun h => ?_, fun h hl => ?_, fun h hl => granted.trans (if_neg ?_)⟩
    · rw [granted, if_pos (hroom.2 (.inl h)), touching, if_pos h]
    · rw [granted, if_pos (hroom.2 (.inr hl)), touching, if_neg h]
    · rw [hroom]
      exact not_or.2 ⟨h, Nat.not_lt.2 hl⟩
  -- the first step (R112)
  · have start := startStep_eq hc hx grants
    exact ⟨fun h => start.trans (if_pos h), fun h => start.trans (if_neg h)⟩
  -- what settles (R109, R111)
  · exact ⟨fun h => Part.settled_rest p ⟨hh, h⟩, fun hw same rest => settled_granted hh hw same rest⟩
  · intro serving stays hs low same rest
    have halts (d : StepCtx) : p.runTest d = .halt ↔ stays d := by
      simp only [runTest_halt_iff, waitsServed_iff, servesIn_iff, goal_eq, stays, serving]
    exact settled_halted (nextHalted_lowest canon hc hph (mt (halts c).1 hs) fun u d hu hd hp => (halts d).2 (low u d hu hd hp))
      same rest

end Sys2Proof.Machine
end

