-- ==== Sys2Proof/Proofs/AreaSearches.lean ====
section
/-! PROOFS. AREA_SEARCH_EXAMINE (O54): the next valve, its classification, the closure order and the end of the search. -/

namespace Sys2Proof.Machine

/-! ## The next valve (R72) -/

section NextValve

variable {p : Part} {w : Workspace}

theorem nextValve_exhausted (htodo : w.todo = []) (hfront : w.frontier = []) : p.nextValve w = none := by
  simp only [Part.nextValve, Part.takeSegment, htodo, hfront, List.dropWhile_nil]

/-- With no valve left of the segment taken, the next frontier segment is taken. -/
theorem nextValve_frontier {g : Nat} {fs : List Nat} {y : Segment} (htodo : w.todo = []) (hfront : w.frontier = g :: fs)
    (hy : p.segment? g = some y) : p.nextValve w = p.nextValve { w with taken := g, todo := y.valves, frontier := fs } := by
  have hlist : p.valvesOf g = y.valves := by simp [Part.valvesOf, hy]
  cases hd : y.valves.dropWhile fun v => w.examined.contains v <;>
    simp only [Part.nextValve, Part.takeSegment, htodo, hfront, hlist, hd, List.dropWhile_nil]

theorem nextValve_examined {v : Nat} {vs : List Nat} (htodo : w.todo = v :: vs) (hv : v ∈ w.examined) :
    p.nextValve w = p.nextValve { w with todo := vs } := by
  unfold Part.nextValve
  rw [htodo, List.dropWhile_cons_of_pos (List.contains_iff_mem.2 hv)]

theorem nextValve_unexamined {v : Nat} {vs : List Nat} (htodo : w.todo = v :: vs) (hv : v ∉ w.examined) :
    p.nextValve w = some (w.taken, v :: vs, w.frontier) := by
  unfold Part.nextValve
  rw [htodo, List.dropWhile_cons_of_neg (mt List.contains_iff_mem.1 hv)]

end NextValve

/-! ## The classification (R73 to R75) -/

theorem far_of_terminal {x : Valve} (h : x.segB = none) (g : Nat) : x.far g = none := by
  rw [Valve.far, h]

theorem far_of_segB {x : Valve} {b : Nat} (h : x.segB = some b) (g : Nat) :
    x.far g = some (if x.segA = g then b else x.segA) := by
  rw [Valve.far, h]
  exact (apply_ite some _ _ _).symm

theorem isSource_iff (p : Part) (g : Nat) : p.isSource g = true ↔ ∃ y, p.segment? g = some y ∧ y.source = true := by
  unfold Part.isSource
  cases p.segment? g <;> simp

theorem operability_crossed_iff (o : Operability) : o.crossed = true ↔ o = .passing ∨ o = .local ∨ o = .outOfService := by
  cases o <;> simp [Operability.crossed]

section Classify

variable {p : Part} {v far : Nat} {x : Valve} {w : Workspace}

theorem cross_source (h : p.isSource far = true) : p.cross far w = { w with result := some .sourceInArea } := if_pos h

/-- Beyond a segment that is no SOURCE the area grows, up to 64 segments. -/
theorem cross_notSource (h : ¬p.isSource far = true) :
    p.cross far w =
      if far ∈ w.area then w
      else if w.area.length < 64 then { w with area := w.area ++ [far], frontier := w.frontier ++ [far] }
      else { w with result := some .planTooLarge } := by
  rw [Part.cross, if_neg h]
  simp only [List.contains_iff_mem]

theorem classify_terminal (h : x.segB = none) (g : Nat) : p.classify v x g w = w := by
  rw [Part.classify, far_of_terminal h]

/-- A valve that bounds nothing is crossed: by its OPERABILITY, or as neither shut nor usable. -/
theorem classify_crossed {g b : Nat} (h : x.segB = some b)
    (hc : x.operability.crossed = true ∨ (x.standsShut = false ∧ p.usable x = false)) :
    p.classify v x g w = p.cross (if x.segA = g then b else x.segA) w := by
  rw [Part.classify, far_of_segB h]
  dsimp only
  rcases hc with ho | ⟨hs, hu⟩
  · rw [if_pos ho]
  · simp only [hs, hu, Bool.false_eq_true, if_false, ite_self]

theorem classify_bounding {g b : Nat} (h : x.segB = some b)
    (hc : ¬(x.operability.crossed = true ∨ (x.standsShut = false ∧ p.usable x = false))) :
    p.classify v x g w = w.bound v (if x.standsShut = true then .none else .close) := by
  obtain ⟨ho, hsu⟩ := not_or.1 hc
  rw [Part.classify, far_of_segB h]
  dsimp only
  rw [if_neg ho]
  cases hs : x.standsShut with
  | true => rfl
  | false =>
    have hu : p.usable x = true := by simpa [hs] using hsu
    simp [hu]

end Classify

/-! ## The closure order (R77) -/

/-- The DIAMETER by which a boundary entry is ordered. -/
def Part.closureSize (p : Part) (b : BoundaryEntry) : Nat := ((p.valve? b.valve).map Valve.diameter).getD 0

theorem closesBefore_iff (p : Part) (a b : BoundaryEntry) :
    p.closesBefore a b = true ↔
      (a.action = .close ∧ b.action = .none) ∨ (a.action = .none ∧ b.action = .none ∧ a.valve < b.valve) ∨
        (a.action = .close ∧ b.action = .close ∧
          (p.closureSize b < p.closureSize a ∨ (p.closureSize a = p.closureSize b ∧ a.valve < b.valve))) := by
  unfold Part.closesBefore Part.closureSize
  cases ha : a.action <;> cases hb : b.action <;> simp

theorem not_closesBefore_iff (p : Part) (a b : BoundaryEntry) :
    p.closesBefore b a = false ↔
      (a.action = .close ∧ b.action = .none) ∨ (a.action = .none ∧ b.action = .none ∧ a.valve ≤ b.valve) ∨
        (a.action = .close ∧ b.action = .close ∧
          (p.closureSize b < p.closureSize a ∨ (p.closureSize a = p.closureSize b ∧ a.valve ≤ b.valve))) := by
  rw [← Bool.not_eq_true, closesBefore_iff]
  cases a.action <;> cases b.action <;> simp
  omega

theorem closesBefore_asymm (p : Part) (a b : BoundaryEntry) (h : p.closesBefore a b = true) :
    p.closesBefore b a = false := by
  rw [not_closesBefore_iff]
  rw [closesBefore_iff] at h
  exact h.imp_right (Or.imp (fun ⟨ha, hb, hv⟩ => ⟨ha, hb, hv.le⟩)
    fun ⟨ha, hb, hs⟩ => ⟨ha, hb, hs.imp_right fun ⟨hs, hv⟩ => ⟨hs, hv.le⟩⟩)

theorem closesBefore_trans (p : Part) (a b c : BoundaryEntry) (h : p.closesBefore b a = false)
    (k : p.closesBefore c b = false) : p.closesBefore c a = false := by
  rw [not_closesBefore_iff] at h k ⊢
  rcases h with ⟨ha, hb⟩ | ⟨ha, hb, hv⟩ | ⟨ha, hb, hs⟩ <;>
    simp only [ha, hb, reduceCtorEq, false_and, true_and, false_or, or_false] at k ⊢
  · exact .inl k.1
  · exact ⟨k.1, hv.trans k.2⟩
  · rcases k with hc | ⟨hc, hs'⟩
    · exact .inl hc
    · exact .inr ⟨hc, by omega⟩

theorem closureOrder_sorted (p : Part) (l : List BoundaryEntry) :
    (sortBy p.closesBefore l).Pairwise fun a b => p.closesBefore b a = false :=
  sortBy_sorted (closesBefore_asymm p) (closesBefore_trans p) l

/-! ## One command of the search (R72) -/

section Examine

variable {p : Part} {w : Workspace}

theorem endedSearch_goesOn (h : w.result ≠ none ∨ p.nextValve w ≠ none) : p.endedSearch w = w := by
  refine if_neg fun k => ?_
  rw [Bool.and_eq_true, Option.isNone_iff_eq_none, Option.isNone_iff_eq_none] at k
  exact h.elim (fun r => r k.1) fun n => n k.2

theorem endedSearch_ends (hr : w.result = none) (hn : p.nextValve w = none) : p.endedSearch w = p.endSearch w :=
  if_pos (by simp [hr, hn])

theorem examineWork_none (hr : w.result = none) (hn : p.nextValve w = none) : p.examineWork w = p.endedSearch w := by
  rw [endedSearch_ends hr hn, Part.examineWork, hn]

theorem examineWork_next {g v : Nat} {vs front : List Nat} {x : Valve} (hn : p.nextValve w = some (g, v :: vs, front))
    (hx : p.valve? v = some x) :
    p.examineWork w = p.endedSearch
      (p.classify v x g { w with taken := g, todo := vs, frontier := front, examined := w.examined ++ [v] }) := by
  simp only [Part.examineWork, hn, hx]

theorem areaExamine_searching (hw : p.plan.plan = some w) (hph : w.phase = .areaSearch) (hr : w.result = none) :
    p.areaExamine = p.setPlan (some (p.examineWork w)) := by
  rw [Part.areaExamine, hw]
  exact if_pos ⟨hph, hr⟩

theorem areaExamine_idle (h : ∀ w, p.plan.plan = some w → w.phase = .supplyWalk ∨ w.result ≠ none) : p.areaExamine = p := by
  unfold Part.areaExamine
  cases hw : p.plan.plan with
  | none => rfl
  | some w => exact if_neg fun k => (h w hw).elim (fun n => by simp [n] at k) fun n => n k.2

end Examine

/-! ## AREA_SEARCH_EXAMINE (R72 to R77) -/

/-- Settles O54: the valve that comes next by the first test of R73 that it meets, and the end of the search. -/
theorem areaSearch : Obligations.AreaSearch := by
  refine ⟨fun s w hw hph hr => ?_, fun s h still => ?_, fun p w => ?_⟩
  · intro p answers size before taken
    have answer {w2 : Workspace} (h : p.examineWork w = w2) : answers w2 :=
      State.run_rest (f := Part.areaExamine) rfl (h ▸ areaExamine_searching hw hph hr)
    have takes {w2 : Workspace} (h : p.examineWork w = p.endedSearch w2) : taken w2 := by
      refine ⟨fun hopen => answer (h.trans (endedSearch_goesOn hopen)), fun hr2 hn2 => ?_⟩
      exact ⟨_, sortBy_perm _, (closureOrder_sorted p _).imp fun {a b} => (not_closesBefore_iff p a b).1,
        answer (h.trans (endedSearch_ends hr2 hn2))⟩
    refine ⟨fun hn => takes (examineWork_none hr hn), fun g v vs front x hn hx => ?_⟩
    have next := examineWork_next hn hx
    intro w1
    have classified {w2 : Workspace} (h : p.classify v x g w1 = w2) : taken w2 :=
      takes (next.trans (congrArg p.endedSearch h))
    refine ⟨fun hb => classified (classify_terminal hb g), fun b hb => ?_⟩
    intro far source always crossed joins tooLarge
    have hsource : p.isSource far = true ↔ source := isSource_iff p far
    have hcrossed : x.operability.crossed = true ∨ (x.standsShut = false ∧ p.usable x = false) ↔ crossed :=
      or_congr_left (operability_crossed_iff x.operability)
    have crosses (hc : crossed) : p.classify v x g w1 = p.cross far w1 := classify_crossed hb (hcrossed.2 hc)
    have grows (hc : crossed) (hs : ¬source) := (crosses hc).trans (cross_notSource (mt hsource.1 hs))
    have bounds (hc : ¬crossed) := classify_bounding (v := v) (w := w1) (g := g) hb (mt hcrossed.1 hc)
    have joined (hc : ¬crossed) (hl : w.boundary.length < 48) := (bounds hc).trans (if_pos hl)
    refine ⟨fun hc hs => ?_, fun hc hs hm => ?_, fun hc hs hm hl => ?_, fun hc hs hm hl => ?_, fun hc hl => ?_,
      fun hc hl hs => ?_, fun hc hl hs => ?_⟩
    · exact classified ((crosses hc).trans (cross_source (hsource.2 hs)))
    · exact classified ((grows hc hs).trans (if_pos hm))
    · exact classified ((grows hc hs).trans ((if_neg hm).trans (if_pos hl)))
    · exact classified ((grows hc hs).trans ((if_neg hm).trans (if_neg (Nat.not_lt.2 hl))))
    · exact classified ((bounds hc).trans (if_neg (Nat.not_lt.2 hl)))
    · exact classified (by rw [joined hc hl, if_pos hs])
    · exact classified (by rw [joined hc hl, if_neg (by simp [hs])])
  · exact State.run_rest (f := Part.areaExamine) rfl (areaExamine_idle h) still
  · exact ⟨nextValve_exhausted, fun g fs y => nextValve_frontier, fun v vs => nextValve_examined,
      fun v vs => nextValve_unexamined, interior_iff p⟩

end Sys2Proof.Machine
end

