-- ==== Sys2Proof/Proofs/SupplyWalks.lean ====
section
/-! PROOFS. SUPPLY_WALK_REACH (O55): what a pair reaches, and the result of the walk. -/

namespace Sys2Proof.Machine

/-! ## What a pair reaches (R78) -/

theorem reliedElsewhere_iff (p : Part) (r v : Nat) :
    p.reliedElsewhere r v = true ↔
      ∃ e ∈ p.inc.records, e.1 ≠ r ∧ ((∃ b ∈ e.2.boundary, b.valve = v) ∨ ∃ t ∈ e.2.touched, t.valve = v) := by
  simp only [Part.reliedElsewhere, List.any_eq_true, Bool.and_eq_true, Bool.or_eq_true, decide_eq_true_eq, bounds_iff,
    touches_iff]

/-- The walk stops at a valve that stands shut, that the plan closes, or that another incident relies on. -/
theorem not_passes_iff (p : Part) (w : Workspace) (v : Nat) (x : Valve) :
    ¬p.passes w v x = true ↔
      x.standsShut = true ∨ (∃ e ∈ w.boundary, e.valve = v ∧ e.action = .close) ∨
        ∃ e ∈ p.inc.records, e.1 ≠ w.record ∧
          ((∃ b ∈ e.2.boundary, b.valve = v) ∨ ∃ t ∈ e.2.touched, t.valve = v) := by
  rw [← reliedElsewhere_iff, Part.passes, Bool.not_eq_true, Bool.and_eq_false_iff, Bool.and_eq_false_iff, or_assoc]
  simp only [Bool.not_eq_false', List.any_eq_true, Bool.and_eq_true, decide_eq_true_eq]

theorem pairsOf_loaded {p : Part} {g : Nat} {y : Segment} (hy : p.segment? g = some y) :
    p.pairsOf g = y.valves.map fun u => (g, u) := by
  simp [Part.pairsOf, Part.valvesOf, hy]

section Reach

variable {p : Part} {w : Workspace} {v : Nat} {x : Valve}

theorem reachWork_terminal (hx : p.valve? v = some x) (hb : x.segB = none) (g : Nat) : p.reachWork g v w = w := by
  simp only [Part.reachWork, hx, far_of_terminal hb]

theorem reachWork_eq (hx : p.valve? v = some x) {b : Nat} (hb : x.segB = some b) (g : Nat) :
    p.reachWork g v w =
      let far := if x.segA = g then b else x.segA
      if p.passes w v x = true ∧ far ∉ w.reached then
        { w with reached := w.reached ++ [far], walk := w.walk ++ p.pairsOf far }
      else w := by
  simp only [Part.reachWork, hx, far_of_segB hb, Bool.and_eq_true, Bool.not_eq_true', ← Bool.not_eq_true,
    List.contains_iff_mem]

end Reach

/-! ## One command of the walk (R78, R79) -/

section Walk

variable {p : Part} {w : Workspace}

theorem endedWalk_goesOn (h : w.walk ≠ []) : p.endedWalk w = w := if_neg (by simpa using h)

theorem endedWalk_ends (h : w.walk = []) : p.endedWalk w = { w with result := some (p.walkResult w) } := if_pos (by simp [h])

theorem walkReach_empty (hw : p.plan.plan = some w) (hph : w.phase = .supplyWalk) (hr : w.result = none)
    (hwalk : w.walk = []) : p.walkReach = p.setPlan (some (p.endedWalk w)) := by
  simp only [Part.walkReach, hw, hph, hr, and_self, if_true, hwalk]

theorem walkReach_pair (hw : p.plan.plan = some w) (hph : w.phase = .supplyWalk) (hr : w.result = none) {g v : Nat}
    {rest : List (Nat × Nat)} (hwalk : w.walk = (g, v) :: rest) :
    p.walkReach = p.setPlan (some (p.endedWalk (p.reachWork g v { w with walk := rest }))) := by
  simp only [Part.walkReach, hw, hph, hr, and_self, if_true, hwalk]

theorem walkReach_idle (h : ∀ w, p.plan.plan = some w → w.phase = .areaSearch ∨ w.result ≠ none) : p.walkReach = p := by
  unfold Part.walkReach
  cases hw : p.plan.plan with
  | none => rfl
  | some w => exact if_neg fun k => (h w hw).elim (fun n => by simp [n] at k) fun n => n k.2

end Walk

/-! ## SUPPLY_WALK_REACH (R78, R79) -/

/-- Settles O55: the pair by whether its valve is crossed, and the result by `walkResult_eq`. -/
theorem supplyWalk : Obligations.SupplyWalk := by
  refine ⟨fun s w hw hph hr canon => ?_, fun s h still => ?_⟩
  · intro p answers others taken
    have takes {w2 : Workspace} (h : p.walkReach = p.setPlan (some (p.endedWalk w2))) (same : w2.record = w.record) :
        taken w2 := by
      have answer {w3 : Workspace} (h3 : p.endedWalk w2 = w3) : answers w3 :=
        State.run_rest (f := Part.walkReach) rfl (h3 ▸ h)
      refine ⟨fun hopen => answer (endedWalk_goesOn hopen), fun dry fire hwalk hdry hfire mem_dry mem_fire => ?_⟩
      have result := walkResult_eq (w := w2) canon hdry hfire (by rw [same]; exact mem_dry) mem_fire
      exact answer (result ▸ endedWalk_ends hwalk)
    refine ⟨fun hwalk => takes (walkReach_empty hw hph hr hwalk) rfl, fun g v rest x hwalk hx => ?_⟩
    intro w1
    have reaches {w2 : Workspace} (h : p.reachWork g v w1 = w2) (same : w2.record = w.record := by rfl) : taken w2 :=
      takes (h ▸ walkReach_pair hw hph hr hwalk) same
    refine ⟨fun hb => reaches (reachWork_terminal hx hb g), fun b hb => ?_⟩
    intro far stops
    have hstops : ¬p.passes w1 v x = true ↔ stops := not_passes_iff p w1 v x
    have reach := reachWork_eq (w := w1) hx hb g
    refine ⟨fun h => ?_, fun y hs hfar hy => ?_⟩
    · have stays : ¬(p.passes w1 v x = true ∧ far ∉ w.reached) := fun ⟨hpass, hfar⟩ =>
        h.elim (fun hs => hstops.2 hs hpass) hfar
      exact reaches (reach.trans (if_neg stays))
    · have passes : p.passes w1 v x = true := not_not.1 (mt hstops.1 hs)
      exact reaches ((reach.trans (if_pos ⟨passes, hfar⟩)).trans (by rw [pairsOf_loaded hy]))
  · exact State.run_rest (f := Part.walkReach) rfl (walkReach_idle h) still

end Sys2Proof.Machine
end

