-- ==== Sys2Proof/Proofs/SurgeArithmetic.lean ====
section
/-! PROOFS. The Surge Calculator's coefficients, coefficient change and predicted rise, against exact fractions (O44). -/

namespace Sys2Proof.Machine

/-! ## The coefficients of a class (R94) -/

/-- The curve of a class: a coefficient for each tenth, from 0 to 1,000, that never falls (R5). -/
structure ValveClass.hasCurve (c : ValveClass) (coef : Nat → Nat) : Prop where
  stated : ∀ k, k ≤ 10 → c.curve[k]? = some (coef k)
  rises : ∀ k, k < 10 → coef k ≤ coef (k + 1)
  shut : coef 0 = 0
  wide : coef 10 = 1000

section Curve

variable {c : ValveClass} {coef : Nat → Nat}

theorem curve_getD (h : c.hasCurve coef) {k : Nat} (hk : k ≤ 10) : c.curve.getD k 0 = coef k := by
  rw [List.getD_eq_getElem?_getD, h.stated k hk, Option.getD_some]

theorem coef_le_thousand (h : c.hasCurve coef) {k : Nat} (hk : k ≤ 10) : coef k ≤ 1000 := by
  induction hk using Nat.decreasingInduction with
  | self => exact h.wide.le
  | of_succ k hk ih => exact (h.rises k hk).trans ih

theorem tenfold_tenth (h : c.hasCurve coef) {k : Nat} (hk : k ≤ 10) : c.tenfold (k * 10) = coef k * 10 := by
  unfold ValveClass.tenfold
  split_ifs with hx
  · obtain rfl : k = 10 := by omega
    rw [curve_getD h le_rfl]
  · have h10 : k * 10 / 10 = k := by omega
    have h0 : k * 10 % 10 = 0 := by omega
    simp only [h10, h0, Nat.mul_zero, Nat.add_zero, curve_getD h hk]

/-- Between two tenths the coefficient rises by an equal part for each percent. -/
theorem tenfold_between (h : c.hasCurve coef) {k m : Nat} (hk : k < 10) (hm : m ≤ 10) :
    c.tenfold (k * 10 + m) = coef k * 10 + (coef (k + 1) - coef k) * m := by
  rcases hm.lt_or_eq with hm | rfl
  · have hx : k * 10 + m ≠ 100 := by omega
    have hdiv : (k * 10 + m) / 10 = k := by omega
    have hmod : (k * 10 + m) % 10 = m := by omega
    unfold ValveClass.tenfold
    rw [if_neg hx]
    dsimp only
    rw [hdiv, hmod, curve_getD h (by omega), curve_getD h (by omega)]
  · have hrise := h.rises k hk
    rw [show k * 10 + 10 = (k + 1) * 10 by omega, tenfold_tenth h (by omega)]
    omega

/-- One percent raises ten times the coefficient by at most 1,000, and never lowers it. -/
theorem tenfold_succ (h : c.hasCurve coef) {x : Nat} (hx : x < 100) :
    c.tenfold x ≤ c.tenfold (x + 1) ∧ c.tenfold (x + 1) ≤ c.tenfold x + 1000 := by
  obtain ⟨k, m, hk, hm, rfl⟩ : ∃ k m, k < 10 ∧ m < 10 ∧ x = k * 10 + m :=
    ⟨x / 10, x % 10, by omega, by omega, by omega⟩
  have hnext : coef (k + 1) ≤ 1000 := coef_le_thousand h (by omega)
  rw [Nat.add_assoc, tenfold_between h hk hm.le, tenfold_between h hk (Nat.succ_le_of_lt hm),
    Nat.mul_succ (coef (k + 1) - coef k)]
  omega

theorem tenfold_mono (h : c.hasCurve coef) {x y : Nat} (hxy : x ≤ y) (hy : y ≤ 100) : c.tenfold x ≤ c.tenfold y := by
  induction y, hxy using Nat.le_induction with
  | base => exact le_rfl
  | succ y _ ih => exact (ih (by omega)).trans (tenfold_succ h hy).1

theorem up_mono (h : c.hasCurve coef) {x y : Nat} (hxy : x ≤ y) (hy : y ≤ 100) : c.up x ≤ c.up y :=
  Nat.div_le_div_right (Nat.add_le_add_right (tenfold_mono h hxy hy) 9)

theorem down_mono (h : c.hasCurve coef) {x y : Nat} (hxy : x ≤ y) (hy : y ≤ 100) : c.down x ≤ c.down y :=
  Nat.div_le_div_right (tenfold_mono h hxy hy)

theorem up_tenth (h : c.hasCurve coef) {k : Nat} (hk : k ≤ 10) : c.up (k * 10) = coef k := by
  rw [ValveClass.up, tenfold_tenth h hk]
  omega

theorem down_tenth (h : c.hasCurve coef) {k : Nat} (hk : k ≤ 10) : c.down (k * 10) = coef k := by
  rw [ValveClass.down, tenfold_tenth h hk]
  omega

theorem down_le_up (c : ValveClass) (x : Nat) : c.down x ≤ c.up x := Nat.div_le_div_right (Nat.le_add_right _ 9)

theorem up_eq_ceil (c : ValveClass) (x : Nat) : (c.up x : ℤ) = ⌈(c.tenfold x : ℚ) / 10⌉ := by
  have := Rat.ceil_natCast_div_natCast (c.tenfold x) 10
  rw [Nat.cast_ofNat] at this
  rw [this, ValveClass.up]
  omega

theorem down_eq_floor (c : ValveClass) (x : Nat) : (c.down x : ℤ) = ⌊(c.tenfold x : ℚ) / 10⌋ := by
  have := Rat.floor_natCast_div_natCast (c.tenfold x) 10
  rw [Nat.cast_ofNat] at this
  rw [this, ValveClass.down]
  omega

/-- The exact coefficient of the rules, as a fraction. -/
theorem exact_eq_tenfold (h : c.hasCurve coef) {x : Nat} (hx : x ≤ 100) :
    (if x = 100 then (coef 10 : ℚ)
      else (coef (x / 10) : ℚ) + ((coef (x / 10 + 1) : ℚ) - coef (x / 10)) * ((x - x / 10 * 10 : Nat) : ℚ) / 10) =
      (c.tenfold x : ℚ) / 10 := by
  split_ifs with h100
  · subst h100
    rw [show 100 = 10 * 10 from rfl, tenfold_tenth h le_rfl]
    push_cast
    ring
  · obtain ⟨k, m, hk, hm, rfl⟩ : ∃ k m, k < 10 ∧ m < 10 ∧ x = k * 10 + m :=
      ⟨x / 10, x % 10, by omega, by omega, by omega⟩
    have hdiv : (k * 10 + m) / 10 = k := by omega
    rw [hdiv, Nat.add_sub_cancel_left, tenfold_between h hk hm.le]
    push_cast [Nat.cast_sub (h.rises k hk)]
    ring

/-! ## The coefficient change of a step (R95) -/

theorem change_eq (c : ValveClass) (o t : Nat) : c.change o t = c.up (max o t) - c.down (min o t) := by
  unfold ValveClass.change
  split_ifs with h
  · rw [max_eq_left h.le, min_eq_right h.le]
  · rw [max_eq_right (by omega), min_eq_left (by omega)]

theorem down_min_le_up_max (h : c.hasCurve coef) {o t : Nat} (ho : o ≤ 100) (ht : t ≤ 100) :
    c.down (min o t) ≤ c.up (max o t) :=
  (down_mono h min_le_max (max_le ho ht)).trans (down_le_up c _)

/-- The change is the exact change rounded up by less than two steps of its unit. -/
theorem change_bounds (h : c.hasCurve coef) {o t : Nat} (ho : o ≤ 100) (ht : t ≤ 100) :
    (c.tenfold (max o t) : ℚ) / 10 - (c.tenfold (min o t) : ℚ) / 10 ≤ c.change o t ∧
      (c.change o t : ℚ) < (c.tenfold (max o t) : ℚ) / 10 - (c.tenfold (min o t) : ℚ) / 10 + 2 := by
  have hcast : (c.change o t : ℚ) = (c.up (max o t) : ℤ) - (c.down (min o t) : ℤ) := by
    rw [change_eq, Nat.cast_sub (down_min_le_up_max h ho ht)]
    norm_cast
  rw [hcast, up_eq_ceil, down_eq_floor]
  have hup := Int.le_ceil ((c.tenfold (max o t) : ℚ) / 10)
  have hup' := Int.ceil_lt_add_one ((c.tenfold (max o t) : ℚ) / 10)
  have hdown := Int.floor_le ((c.tenfold (min o t) : ℚ) / 10)
  have hdown' := Int.lt_floor_add_one ((c.tenfold (min o t) : ℚ) / 10)
  constructor <;> linarith

theorem change_le_thousand (h : c.hasCurve coef) {o t : Nat} (ho : o ≤ 100) (ht : t ≤ 100) :
    c.change o t ≤ 1000 := by
  have hup := up_mono h (max_le ho ht) le_rfl
  rw [show 100 = 10 * 10 from rfl, up_tenth h le_rfl, h.wide] at hup
  rw [change_eq]
  exact (Nat.sub_le _ _).trans hup

theorem change_one_percent (h : c.hasCurve coef) {o t : Nat} (ho : o ≤ 100) (ht : t ≤ 100)
    (hone : max o t = min o t + 1) : c.change o t ≤ 101 := by
  have hstep := (tenfold_succ h (x := min o t) (by omega)).2
  rw [change_eq, hone, ValveClass.up, ValveClass.down]
  omega

theorem change_flat (h : c.hasCurve coef) {o t k : Nat} (hk : k < 10) (hflat : coef k = coef (k + 1))
    (hlo : k * 10 ≤ min o t) (hhi : max o t ≤ (k + 1) * 10) : c.change o t = 0 := by
  have hdown := down_mono h hlo (by omega)
  have hup := up_mono h hhi (by omega)
  rw [down_tenth h hk.le] at hdown
  rw [up_tenth h hk, ← hflat] at hup
  rw [change_eq]
  exact Nat.sub_eq_zero_of_le (hup.trans hdown)

theorem change_full (h : c.hasCurve coef) : c.change 100 0 = 1000 ∧ c.change 0 100 = 1000 := by
  have hup : c.up 100 = 1000 := (up_tenth h (k := 10) le_rfl).trans h.wide
  have hdown : c.down 0 = 0 := (down_tenth h (k := 0) (by omega)).trans h.shut
  constructor
  · rw [change_eq, show max 100 0 = 100 from rfl, show min 100 0 = 0 from rfl, hup, hdown]
  · rw [change_eq, show max 0 100 = 100 from rfl, show min 0 100 = 0 from rfl, hup, hdown]

end Curve

/-! ## The predicted rise (R96) -/

theorem rawRise_eq_ceil (wave velocity dc : Nat) :
    (rawRise wave velocity dc : ℤ) = ⌈((wave * velocity * dc : Nat) : ℚ) / 1000000⌉ := by
  have := Rat.ceil_natCast_div_natCast (wave * velocity * dc) 1000000
  rw [Nat.cast_ofNat] at this
  rw [this, rawRise]
  omega

theorem predictedRise_eq_min_ceil (wave velocity dc : Nat) :
    (predictedRise wave velocity dc : ℤ) = min ⌈((wave * velocity * dc : Nat) : ℚ) / 1000000⌉ 4095 := by
  rw [← rawRise_eq_ceil, predictedRise]
  exact Nat.cast_min _ _

theorem saturated_iff_ceil (wave velocity dc : Nat) :
    saturated wave velocity dc = true ↔ 4095 < ⌈((wave * velocity * dc : Nat) : ℚ) / 1000000⌉ := by
  rw [← rawRise_eq_ceil, saturated, decide_eq_true_iff]
  omega

theorem predictedRise_eq_zero_iff (wave velocity dc : Nat) :
    predictedRise wave velocity dc = 0 ↔ wave * velocity * dc = 0 := by
  unfold predictedRise rawRise
  omega

theorem predictedRise_one_percent {wave velocity dc : Nat} (hw : wave ≤ 1500) (hv : velocity ≤ 3000) (hdc : dc ≤ 101) :
    predictedRise wave velocity dc ≤ 455 ∧ saturated wave velocity dc = false := by
  have hprod := Nat.mul_le_mul (Nat.mul_le_mul hw hv) hdc
  have hraw : rawRise wave velocity dc ≤ 455 := by unfold rawRise; omega
  exact ⟨(min_le_left _ _).trans hraw, decide_eq_false (by omega)⟩

/-! ## What a calculation reads (R92, R98) -/

theorem fits_iff (i : SurgeInput) (m : Nat) :
    i.fits m = true ↔ saturated i.wave i.velocity (i.dc m) = false ∧ i.rise m ≤ i.budget := by
  simp only [SurgeInput.fits, Bool.and_eq_true, Bool.not_eq_true', decide_eq_true_eq]

theorem surgeInput_inUse {p : Part} {x : Valve} {c : ValveClass} {k : Material} (hc : p.vclass? x.vclass = some c)
    (hk : p.material? x.material = some k) (o f : Nat) :
    p.surgeInput x o f = some
      { opening := o, final := f, cls := c, wave := k.speed, velocity := x.velocity,
        budget := surgeBudget k.rating (p.staticPressure x) (p.zone (p.zoneOfValve x)).margin,
        saturation := (p.zone (p.zoneOfValve x)).saturation } := by
  simp only [Part.surgeInput, hc, hk]

/-- A calculation reads the class of its valve as it stands. -/
theorem vclass?_of_surgeInput {p : Part} {x : Valve} {o f : Nat} {i : SurgeInput} (h : p.surgeInput x o f = some i) :
    p.vclass? x.vclass = some i.cls := by
  unfold Part.surgeInput at h
  split at h
  · rename_i c m hc hm
    rw [hc]
    cases h
    rfl
  · cases h

/-- Settles O44: each exact fraction is a tenth of `tenfold`, whose steps from percent to percent bound all the rest. -/
theorem surgeArithmetic : Obligations.SurgeArithmetic := by
  intro c coef hstated hrises hshut hwide exact'
  have h : c.hasCurve coef := ⟨hstated, hrises, hshut, hwide⟩
  have hexact {x : Nat} (hx : x ≤ 100) : exact' x = (c.tenfold x : ℚ) / 10 := exact_eq_tenfold h hx
  refine ⟨fun x hx => ⟨?_, ?_, fun hmod => ?_⟩, fun x y hxy hy => ⟨?_, up_mono h hxy hy, down_mono h hxy hy⟩,
    fun p x o f i => vclass?_of_surgeInput, ?_, (change_full h).1, (change_full h).2, fun wave velocity dc => ?_,
    fun i span hsat => ?_⟩
  · rw [hexact hx, up_eq_ceil]
  · rw [hexact hx, down_eq_floor]
  · have htenth : x / 10 * 10 = x := by omega
    have hup := up_tenth h (k := x / 10) (by omega)
    have hdown := down_tenth h (k := x / 10) (by omega)
    rw [htenth] at hup hdown
    exact ⟨hup, hdown⟩
  · rw [hexact (hxy.trans hy), hexact hy]
    exact div_le_div_of_nonneg_right (by exact_mod_cast tenfold_mono h hxy hy) (by norm_num)
  · intro o t ho ht _ hi lo
    obtain ⟨hlower, hupper⟩ := change_bounds h ho ht
    rw [hexact (max_le ho ht), hexact ((min_le_left o t).trans ho)]
    refine ⟨?_, hlower, hupper, change_le_thousand h ho ht, change_one_percent h ho ht,
      fun k hk hflat hlo hhi => change_flat h hk hflat hlo hhi⟩
    rw [change_eq, Nat.cast_sub (down_min_le_up_max h ho ht)]
  · intro r
    refine ⟨predictedRise_eq_min_ceil wave velocity dc, saturated_iff_ceil wave velocity dc, fun hw => ?_,
      fun hw hv hdc => Nat.mul_le_mul (Nat.mul_le_mul hw hv) hdc, predictedRise_one_percent⟩
    rw [predictedRise_eq_zero_iff, Nat.mul_eq_zero, Nat.mul_eq_zero]
    omega
  · rw [Bool.eq_false_iff, Ne, fits_iff, hsat]
    simp

end Sys2Proof.Machine
end

