-- ==== Sys2Proof/Proofs/SurgeSteps.lean ====
section
/-! PROOFS. A surge calculation: its inputs, the aimed target, the halving of the span, and its result (O45). -/

namespace Sys2Proof.Machine

/-! ## Pressure and budget (R97, R98) -/

theorem sidePressure_eq (p : Part) (g : Nat) :
    p.sidePressure g =
      match p.segment? g with
      | none => 0
      | some y =>
        match y.ref.bind p.sensor? with
        | none => y.static
        | some s => if s.kind = .pressure ∧ s.status = .fresh then s.lastValue.getD y.static else y.static := by
  unfold Part.sidePressure
  cases p.segment? g with
  | none => rfl
  | some y =>
    dsimp only
    cases y.ref.bind p.sensor? <;> rfl

theorem surgeBudget_eq (rating pressure margin : Nat) :
    surgeBudget rating pressure margin = (min (max ((rating : ℤ) - pressure - margin) 0) 4095).toNat := by
  unfold surgeBudget
  omega

/-! ## The aimed target (R99, R100) -/

/-- The element that stands before every other one of a test is the one found. -/
theorem find?_eq_some_of_pairwise {α : Type} {r : α → α → Prop} [Std.Asymm r] {l : List α} {f : α → Bool} {b : α}
    (hl : l.Pairwise r) (hb : b ∈ l) (hf : f b = true) (first : ∀ k ∈ l, f k = true → k = b ∨ r b k) :
    l.find? f = some b := by
  obtain ⟨before, after, rfl⟩ := List.append_of_mem hb
  refine List.find?_eq_some_iff_append.2 ⟨hf, before, after, rfl, fun k hk => ?_⟩
  have hkb : r k b := (List.pairwise_append.1 hl).2.2 k hk b List.mem_cons_self
  by_contra hfk
  rcases first k (List.mem_append_left _ hk) (by simpa using hfk) with rfl | hbk
  · exact Std.Asymm.asymm _ _ hkb hkb
  · exact Std.Asymm.asymm _ _ hkb hbk

section Aim

variable {i : SurgeInput}

theorem closing_iff (i : SurgeInput) : i.closing = true ↔ i.final < i.opening := decide_eq_true_iff

/-- A closing step aims at the highest breakpoint below the opening. -/
theorem aim_closing (hfall : i.cls.profile.Pairwise (· > ·)) (h : i.final < i.opening) {b : Nat} (hb : b ∈ i.cls.profile)
    (hlt : b < i.opening) (hmax : ∀ k ∈ i.cls.profile, k < i.opening → k ≤ b) : i.aim = max b i.final := by
  have hfind : i.cls.profile.find? (fun b => decide (b < i.opening)) = some b := by
    refine find?_eq_some_of_pairwise hfall hb (decide_eq_true hlt) fun k hk hkf => ?_
    have := hmax k hk (of_decide_eq_true hkf)
    omega
  rw [SurgeInput.aim, if_pos ((closing_iff i).2 h), hfind]

/-- An opening step aims at the lowest breakpoint between the opening and the final target. -/
theorem aim_opening (hfall : i.cls.profile.Pairwise (· > ·)) (h : ¬i.final < i.opening) {b : Nat} (hb : b ∈ i.cls.profile)
    (hlt : i.opening < b) (hbf : b < i.final)
    (hmin : ∀ k ∈ i.cls.profile, i.opening < k → k < i.final → b ≤ k) : i.aim = b := by
  have hfind : i.cls.profile.reverse.find? (fun b => decide (i.opening < b ∧ b < i.final)) = some b := by
    refine find?_eq_some_of_pairwise (List.pairwise_reverse.2 hfall) (List.mem_reverse.2 hb) (decide_eq_true ⟨hlt, hbf⟩)
      fun k hk hkf => ?_
    obtain ⟨hok, hkf⟩ := of_decide_eq_true hkf
    have := hmin k (List.mem_reverse.1 hk) hok hkf
    omega
  rw [SurgeInput.aim, if_neg (mt (closing_iff i).1 h), hfind]

theorem aim_opening_final (h : ¬i.final < i.opening) (hnone : ∀ b ∈ i.cls.profile, i.opening < b → i.final ≤ b) :
    i.aim = i.final := by
  have hfind : i.cls.profile.reverse.find? (fun b => decide (i.opening < b ∧ b < i.final)) = none := by
    refine List.find?_eq_none.2 fun k hk hkf => ?_
    obtain ⟨hok, hkf⟩ := of_decide_eq_true hkf
    exact absurd (hnone k (List.mem_reverse.1 hk) hok) (by omega)
  rw [SurgeInput.aim, if_neg (mt (closing_iff i).1 h), hfind]

/-- The aimed target lies in the direction of travel. -/
theorem aim_lt_opening (h : i.final < i.opening) : i.aim < i.opening := by
  rw [SurgeInput.aim, if_pos ((closing_iff i).2 h)]
  split
  · rename_i b hb
    exact max_lt (by simpa using List.find?_some hb) h
  · exact h

theorem opening_lt_aim (h : i.opening < i.final) : i.opening < i.aim := by
  rw [SurgeInput.aim, if_neg (mt (closing_iff i).1 h.not_gt)]
  split
  · rename_i b hb
    have : i.opening < b ∧ b < i.final := by simpa using List.find?_some hb
    exact this.1
  · exact h

theorem target_eq (i : SurgeInput) (m : Nat) :
    i.target m = if i.final < i.opening then i.opening - m else i.opening + m := by
  simp only [SurgeInput.target, closing_iff]

theorem aimSpan_eq (i : SurgeInput) :
    i.aimSpan = if i.final < i.opening then i.opening - i.aim else i.aim - i.opening := by
  simp only [SurgeInput.aimSpan, closing_iff]

theorem aimSpan_pos (h : i.opening ≠ i.final) : 0 < i.aimSpan := by
  rw [aimSpan_eq]
  split_ifs with hc
  · have := aim_lt_opening hc
    omega
  · have := opening_lt_aim (i := i) (by omega)
    omega

theorem target_aimSpan (h : i.opening ≠ i.final) : i.target i.aimSpan = i.aim := by
  rw [target_eq, aimSpan_eq]
  split_ifs with hc
  · have := aim_lt_opening hc
    omega
  · have := opening_lt_aim (i := i) (by omega)
    omega

end Aim

/-! ## The halving of the span (R101) -/

/-- With fuel enough the halving ends at the first span that fits, or at 1. -/
theorem halve_spec (fits : Nat → Bool) (fuel s : Nat) (hs : 0 < s) (hfuel : s ≤ fuel) :
    ∃ n, halve fits fuel s = s / 2 ^ n ∧ (fits (halve fits fuel s) = true ∨ halve fits fuel s = 1) ∧
      ∀ j, j < n → fits (s / 2 ^ j) = false ∧ 1 < s / 2 ^ j := by
  induction fuel generalizing s with
  | zero => omega
  | succ fuel ih =>
    have stops (hend : halve fits (fuel + 1) s = s) (h : fits s = true ∨ s = 1) :
        ∃ n, halve fits (fuel + 1) s = s / 2 ^ n ∧
          (fits (halve fits (fuel + 1) s) = true ∨ halve fits (fuel + 1) s = 1) ∧
          ∀ j, j < n → fits (s / 2 ^ j) = false ∧ 1 < s / 2 ^ j :=
      ⟨0, by rw [hend, pow_zero, Nat.div_one], by rwa [hend], fun j hj => absurd hj (Nat.not_lt_zero j)⟩
    by_cases hfits : fits s = true
    · exact stops (if_pos hfits) (.inl hfits)
    by_cases hone : s ≤ 1
    · exact stops ((if_neg hfits).trans (if_pos hone)) (.inr (by omega))
    have hnext : halve fits (fuel + 1) s = halve fits fuel (s / 2) := (if_neg hfits).trans (if_neg hone)
    have hhalf (n : Nat) : s / 2 / 2 ^ n = s / 2 ^ (n + 1) := by rw [Nat.div_div_eq_div_mul, pow_succ']
    obtain ⟨n, hspan, hend, hbefore⟩ := ih (s / 2) (by omega) (by omega)
    rw [hnext]
    refine ⟨n + 1, hspan.trans (hhalf n), hend, fun j hj => ?_⟩
    cases j with
    | zero => exact ⟨by simpa using hfits, by simpa using hone⟩
    | succ j => exact hhalf j ▸ hbefore j (by omega)

/-! ## The result (R102, R103) -/

section Result

variable {i : SurgeInput}

theorem calc_final (h : i.opening = i.final) : i.calc = .final := if_pos h

theorem calc_fits (h : i.opening ≠ i.final) (hf : i.fits i.span = true) : i.calc = .step (i.target i.span) i.span :=
  (if_neg h).trans (if_pos hf)

theorem calc_unfit (h : i.opening ≠ i.final) (hf : i.fits i.span = false) :
    i.calc = match i.saturation with
      | .clamp => .clamped (i.target i.span) (i.rise i.span)
      | .refer => .limit (i.rise i.span) :=
  (if_neg h).trans (if_neg (by rw [hf]; exact Bool.false_ne_true))

end Result

/-- Settles O45. -/
theorem surgeStep : Obligations.SurgeStep := by
  refine ⟨fun p x o f c k hc hk => ?_, fun i hfall _ hne => ?_, fun i => calc_final, fun i m => ?_⟩
  · intro side pressure z
    have hside : p.sidePressure = side := funext (sidePressure_eq p)
    have hpressure : p.staticPressure x = pressure := by
      cases hb : x.segB <;> simp only [Part.staticPressure, pressure, hb, hside]
    rw [surgeInput_inUse hc hk, surgeBudget_eq, hpressure]
    rfl
  · intro down target
    have htarget : i.target = target := funext (target_eq i)
    obtain ⟨n, hspan, hend, hbefore⟩ := halve_spec i.fits i.aimSpan i.aimSpan (aimSpan_pos hne) le_rfl
    have hone (hf : i.fits i.span = false) : i.span = 1 := hend.resolve_left (by rw [Bool.not_eq_true]; exact hf)
    refine ⟨fun h b hb hlt hmax => aim_closing hfall h hb hlt hmax,
      fun h b hb hlt hbf hmin => aim_opening hfall h hb hlt hbf hmin, aim_opening_final, ⟨n, hspan, hend, hbefore⟩,
      target_aimSpan hne, fun hf => ?_, fun hf hs => ?_, fun hf hs => ?_⟩
    · rw [calc_fits hne hf, htarget]
    · rw [calc_unfit hne hf, hs, hone hf, htarget]
    · rw [calc_unfit hne hf, hs, hone hf]
  · intro target dc r
    have hdc : i.dc m = dc := congrArg (i.cls.change i.opening) (target_eq i m)
    have hrise : (i.rise m : ℤ) = min r 4095 := by
      rw [SurgeInput.rise, hdc]
      exact predictedRise_eq_min_ceil _ _ _
    refine ⟨hrise, ?_⟩
    rw [fits_iff, hdc, Bool.eq_false_iff, Ne, saturated_iff_ceil, not_lt, ← hrise, Nat.cast_le]

end Sys2Proof.Machine
end

