-- ==== Sys2Proof/Proofs/Transmitters.lean ====
section
/-! PROOFS. Output queues, the transmitters, and the places that they free (O50). -/

namespace Sys2Proof.Machine

/-! ## Lines and queues written twice -/

theorem PerClass.set_set {α : Type} (q : PerClass α) (c : Cls) (a b : α) : (q.set c a).set c b = q.set c b := by
  cases c <;> rfl

theorem PerClass.get_set_self {α : Type} (q : PerClass α) (c : Cls) (a : α) : (q.set c a).get c = a := by
  rw [PerClass.get_set, if_pos rfl]

@[simp] theorem line_setLine_self (p : Part) (l : Line) (x : LineState) : (p.setLine l x).line l = x := by
  rw [Part.setLine_line, if_pos rfl]

theorem setLine_setLine (p : Part) (l : Line) (x y : LineState) : (p.setLine l x).setLine l y = p.setLine l y := by
  simp only [Part.setLine, PerLine.set_set]

/-- A frame joins the queue of a line just written. -/
theorem append_setLine (p : Part) (l : Line) (c : Cls) (x : LineState) (r : List OutFrame) (s : Option OutFrame)
    (f : OutFrame) :
    (p.setLine l { x with queues := x.queues.set c r, sending := s }).append l c f =
      p.setLine l { x with queues := x.queues.set c (r ++ [f]), sending := s } := by
  simp only [Part.append, line_setLine_self, setLine_setLine, PerClass.set_set, PerClass.get_set_self]

theorem hasPlace_iff (p : Part) (l : Line) (c : Cls) :
    p.hasPlace l c = true ↔ ((p.line l).queues.get c).length < 16 := decide_eq_true_iff

/-! ## The frames that wait for a place (R113, R168, R175) -/

theorem waitsFor_iff (p : Part) (c : Cls) (e : PendEntry) :
    p.waitsFor c e = true ↔ ∃ h hs, e.frames = h :: hs ∧ p.classOf h = c := by
  unfold Part.waitsFor
  cases e.frames with
  | nil => simp
  | cons h hs => simp

theorem findNotice_eq_none {w : PendEntry → Bool} {l : List PendEntry} (h : ∀ d ∈ l, ¬w d = true) :
    findNotice w l = none := by
  induction l with
  | nil => rfl
  | cons d l ih =>
    obtain ⟨hd, hl⟩ := List.forall_mem_cons.1 h
    rw [findNotice, if_neg hd, ih hl]
    rfl

theorem findNotice_first {w : PendEntry → Bool} {a b : List PendEntry} {e : PendEntry} (he : w e = true)
    (h : ∀ d ∈ a, ¬w d = true) : findNotice w (a ++ e :: b) = some (a, e, b) := by
  induction a with
  | nil => exact if_pos he
  | cons d a ih =>
    obtain ⟨hd, ha⟩ := List.forall_mem_cons.1 h
    rw [List.cons_append, findNotice, if_neg hd, ih ha]
    rfl

theorem takeOrder_eq_none {classOf : Frame → Cls} {l : Line} {c : Cls} {fs : List SeqFrame}
    (h : ∀ d ∈ fs, ¬(l ∈ d.lines ∧ classOf d.frame = c)) : takeOrder classOf l c fs = none := by
  induction fs with
  | nil => rfl
  | cons d fs ih =>
    obtain ⟨hd, hfs⟩ := List.forall_mem_cons.1 h
    rw [takeOrder, if_neg hd, ih hfs]
    rfl

/-- An order after the line's copy of it has left. -/
def SeqFrame.without (e : SeqFrame) (l : Line) : SeqFrame := { e with lines := e.lines.filter fun k => decide (k ≠ l) }

theorem takeOrder_first {classOf : Frame → Cls} {l : Line} {c : Cls} {a b : List SeqFrame} {e : SeqFrame}
    (he : l ∈ e.lines ∧ classOf e.frame = c) (h : ∀ d ∈ a, ¬(l ∈ d.lines ∧ classOf d.frame = c)) :
    takeOrder classOf l c (a ++ e :: b) =
      some (e.without l, a ++ if (e.without l).lines = [] then b else e.without l :: b) := by
  induction a with
  | nil =>
    rw [List.nil_append, takeOrder, if_pos he]
    simp only [List.isEmpty_iff]
    rfl
  | cons d a ih =>
    obtain ⟨hd, ha⟩ := List.forall_mem_cons.1 h
    rw [List.cons_append, takeOrder, if_neg hd, ih ha]
    rfl

/-! ## A free place offered (R168, R173, R175) -/

section Offer

variable {p : Part} {l : Line} {c : Cls}

theorem offerPlace_control_unclaimed (h : ∀ d ∈ p.mgmt.notices, ¬p.waitsFor c d = true) :
    p.offerPlace .control c = p := by
  rw [Part.offerPlace, if_pos rfl, findNotice_eq_none h]

theorem offerPlace_field_unclaimed (hl : l ≠ .control)
    (h : p.mgmt.mode = .transparent ∨ ∀ d ∈ p.seq.frames, ¬(l ∈ d.lines ∧ p.classOf d.frame = c)) :
    p.offerPlace l c = p := by
  rw [Part.offerPlace, if_neg hl]
  rcases h with h | h
  · exact if_neg (by simp [(isActive_eq_false_iff p).2 h])
  · rw [takeOrder_eq_none h]
    exact ite_self p

/-- Where nothing waits, the place stays free. -/
theorem offerPlace_nothing (hn : p.mgmt.notices = []) (hf : p.seq.frames = []) : p.offerPlace l c = p := by
  by_cases hl : l = .control
  · exact hl ▸ offerPlace_control_unclaimed (by simp [hn])
  · exact offerPlace_field_unclaimed hl (.inr (by simp [hf]))

/-- The oldest entry that waits queues its next parts, and leaves with its last. -/
theorem offerPlace_control {a b : List PendEntry} {e : PendEntry} {h : Frame} {hs : List Frame}
    (hn : p.mgmt.notices = a ++ e :: b) (he : e.frames = h :: hs) (hc : p.classOf h = c)
    (ha : ∀ d ∈ a, ¬p.waitsFor c d = true) :
    p.offerPlace .control c =
      let q := (p.append .control c ⟨h, e.restart⟩).queueParts (a ++ b) e.restart hs
      q.1.setNotices (a ++ (if q.2 = [] then b else { e with frames := q.2 } :: b)) := by
  have hfind : findNotice (p.waitsFor c) p.mgmt.notices = some (a, e, b) :=
    hn ▸ findNotice_first ((waitsFor_iff p c e).2 ⟨h, hs, he, hc⟩) ha
  rw [Part.offerPlace, if_pos rfl, hfind]
  dsimp only
  rw [he]
  simp only [List.isEmpty_iff]

/-- The oldest order that waits for the line takes the place; the one whose last line it was has been queued. -/
theorem offerPlace_field (hl : l ≠ .control) (hm : p.mgmt.mode = .active) {a b : List SeqFrame} {e : SeqFrame}
    (hf : p.seq.frames = a ++ e :: b) (he : l ∈ e.lines ∧ p.classOf e.frame = c)
    (ha : ∀ d ∈ a, ¬(l ∈ d.lines ∧ p.classOf d.frame = c)) :
    p.offerPlace l c =
      if (e.without l).lines = [] then ((p.append l c ⟨e.frame, false⟩).setSeqFrames (a ++ b)).orderQueued e.valve e.kind
      else (p.append l c ⟨e.frame, false⟩).setSeqFrames (a ++ e.without l :: b) := by
  rw [Part.offerPlace, if_neg hl, if_pos ((isActive_iff p).2 hm), hf, takeOrder_first he ha]
  dsimp only
  simp only [List.isEmpty_iff]
  split_ifs <;> rfl

end Offer

/-! ## The transmitter (R166) -/

theorem headOf_empty : headOf ⟨[], [], [], []⟩ = none := rfl

/-- The class served is the highest whose queue holds a frame. -/
theorem headOf_highest {q : PerClass (List OutFrame)} {c : Cls} {f : OutFrame} {r : List OutFrame} (hq : q.get c = f :: r)
    (h : ∀ d, q.get d ≠ [] → d = c ∨ d.ctorIdx < c.ctorIdx) : headOf q = some (c, f, r) := by
  have empty (d : Cls) (hd : ¬(d = c ∨ d.ctorIdx < c.ctorIdx)) : q.get d = [] := not_not.1 (mt (h d) hd)
  cases c with
  | c3 => simp only [headOf, show q.c3 = f :: r from hq]
  | c2 => simp only [headOf, show q.c3 = [] from empty .c3 (by decide), show q.c2 = f :: r from hq]
  | c1 =>
    simp only [headOf, show q.c3 = [] from empty .c3 (by decide), show q.c2 = [] from empty .c2 (by decide),
      show q.c1 = f :: r from hq]
  | c0 =>
    simp only [headOf, show q.c3 = [] from empty .c3 (by decide), show q.c2 = [] from empty .c2 (by decide),
      show q.c1 = [] from empty .c1 (by decide), show q.c0 = f :: r from hq]

section Pump

variable {p : Part} {l : Line} {c : Cls} {f : OutFrame}

theorem pump_busy (h : (p.line l).sending ≠ none) : p.pump l = p := by
  obtain ⟨g, hg⟩ := Option.ne_none_iff_exists'.1 h
  simp only [Part.pump, hg]

theorem pump_empty (hq : (p.line l).queues = ⟨[], [], [], []⟩) : p.pump l = p := by
  unfold Part.pump
  dsimp only
  rw [hq, headOf_empty]
  cases (p.line l).sending <;> rfl

theorem pump_head (hs : (p.line l).sending = none) {r : List OutFrame} (h : headOf (p.line l).queues = some (c, f, r)) :
    p.pump l =
      (p.setLine l { p.line l with queues := (p.line l).queues.set c r, sending := some f }).offerPlace l c := by
  simp only [Part.pump, hs, h]

/-- A frame that meets an idle line with nothing waiting goes into transmission. -/
theorem enqueue_idle (hs : (p.line l).sending = none) (hq : (p.line l).queues = ⟨[], [], [], []⟩) (hn : p.mgmt.notices = [])
    (hf : p.seq.frames = []) : p.enqueue l c f = p.setLine l { p.line l with sending := some f } := by
  have hhead : headOf ((p.append l c f).line l).queues = some (c, f, []) := by
    rw [Part.append, line_setLine_self]
    dsimp only
    rw [hq]
    cases c <;> rfl
  have hs' : ((p.append l c f).line l).sending = none := by rw [Part.append, line_setLine_self]; exact hs
  have hback : ((p.line l).queues.set c ((p.line l).queues.get c ++ [f])).set c [] = (p.line l).queues := by
    rw [PerClass.set_set, hq]
    cases c <;> rfl
  have hfree (y : LineState) : (p.setLine l y).offerPlace l c = p.setLine l y :=
    offerPlace_nothing (p := p.setLine l y) hn hf
  rw [Part.enqueue, pump_head hs' hhead, Part.append, setLine_setLine, line_setLine_self, hfree]
  dsimp only
  rw [hback]

theorem enqueue_busy (hs : (p.line l).sending ≠ none) : p.enqueue l c f = p.append l c f :=
  pump_busy (by rw [Part.append, line_setLine_self]; exact hs)

/-! ## The end of a transmission (R166, R179) -/

theorem transmitEnd_sending {g : OutFrame} (hg : (p.line l).sending = some g) (hr : g.restart = false) :
    p.transmitEnd l = (p.setLine l { p.line l with sending := none }).pump l := by
  simp only [Part.transmitEnd, hg, hr, Bool.false_eq_true, if_false]

theorem transmitEnd_empty {g : OutFrame} (hg : (p.line l).sending = some g) (hr : g.restart = false)
    (hq : (p.line l).queues = ⟨[], [], [], []⟩) : p.transmitEnd l = p.setLine l { p.line l with sending := none } := by
  rw [transmitEnd_sending hg hr]
  exact pump_empty (by rw [line_setLine_self]; exact hq)

theorem transmitEnd_head {g : OutFrame} (hg : (p.line l).sending = some g) (hr : g.restart = false) {r : List OutFrame}
    (h : headOf (p.line l).queues = some (c, f, r)) :
    p.transmitEnd l =
      (p.setLine l { p.line l with queues := (p.line l).queues.set c r, sending := some f }).offerPlace l c := by
  rw [transmitEnd_sending hg hr,
    pump_head (by rw [line_setLine_self]) (by rw [line_setLine_self]; exact h), line_setLine_self, setLine_setLine]

end Pump

/-! ## What an order's being queued starts (R105, R112, R113) -/

section Queued

variable {p : Part} {v : Nat} {x : Valve} {k : ValveClass} {d : StepCtx}

theorem adjustContext_eq_putContext (h : Table.wf p.seq.contexts = true) (hd : p.context? v = some d)
    (f : StepCtx → StepCtx) : p.adjustContext v f = p.putContext v (f d) := by
  simp only [Part.adjustContext, Part.putContext, Table.adjust_eq_put h hd]

/-- The context of a MOVE that has been queued: the travel timer runs, and the poll timer of a class that polls. -/
def StepCtx.departed (d : StepCtx) (k : ValveClass) (now : Nat) : StepCtx :=
  { d with
    phase := .travelling, travelDue := some (now + 10 * travelTimeout k d.span)
    pollDue := if k.poll = 0 then none else some (now + 10 * k.poll), pollStart := now }

theorem orderQueued_poll (p : Part) (v : Nat) : p.orderQueued v .poll = p := by
  unfold Part.orderQueued
  split
  · rfl
  · split <;> rfl

theorem orderQueued_query (hx : p.valve? v = some x) (hk : p.vclass? x.vclass = some k)
    (hwf : Table.wf p.seq.contexts = true) (hd : p.context? v = some d) :
    p.orderQueued v .query =
      p.putContext v { d with phase := .querying, queryDue := some (p.now + 10 * k.allowance) } := by
  simp only [Part.orderQueued, hx, hk, adjustContext_eq_putContext hwf hd]

theorem orderQueued_move (hx : p.valve? v = some x) (hk : p.vclass? x.vclass = some k)
    (hwf : Table.wf p.seq.contexts = true) (hd : p.context? v = some d) :
    p.orderQueued v .move = p.putContext v (d.departed k p.now) := by
  simp only [Part.orderQueued, hx, hk, adjustContext_eq_putContext hwf hd, StepCtx.departed]

end Queued

/-! ## A passing frame, and the later parts of a reply (R167, R173, R175) -/

theorem passFrame_full {p : Part} {l : Line} {f : Frame} (h : 16 ≤ ((p.line l).queues.get (p.classOf f)).length) :
    p.passFrame l f = p.setLine l { p.line l with queueDrops := raise (p.line l).queueDrops } :=
  if_neg (by rw [hasPlace_iff]; omega)

theorem passFrame_room {p : Part} {l : Line} {f : Frame} (h : ((p.line l).queues.get (p.classOf f)).length < 16) :
    p.passFrame l f = p.enqueue l (p.classOf f) ⟨f, false⟩ := if_pos ((hasPlace_iff p l _).2 h)

section Parts

variable {p : Part} {others : List PendEntry} {f : Frame}

theorem anyWaits_iff (p : Part) (others : List PendEntry) (c : Cls) :
    others.any (p.waitsFor c) = true ↔ ∃ d ∈ others, ∃ h hs, d.frames = h :: hs ∧ p.classOf h = c := by
  simp only [List.any_eq_true, waitsFor_iff]

theorem queueParts_joins (hroom : ((p.line .control).queues.get (p.classOf f)).length < 16)
    (hw : ¬∃ d ∈ others, ∃ h hs, d.frames = h :: hs ∧ p.classOf h = p.classOf f) (again : Bool) (fs : List Frame) :
    p.queueParts others again (f :: fs) =
      (p.append .control (p.classOf f) ⟨f, again⟩).queueParts others again fs := by
  rw [← anyWaits_iff, Bool.not_eq_true] at hw
  exact if_pos (by rw [hw, (hasPlace_iff p .control _).2 hroom]; rfl)

theorem queueParts_stays (h : 16 ≤ ((p.line .control).queues.get (p.classOf f)).length ∨
      ∃ d ∈ others, ∃ h hs, d.frames = h :: hs ∧ p.classOf h = p.classOf f) (again : Bool) (fs : List Frame) :
    p.queueParts others again (f :: fs) = (p, f :: fs) := by
  rw [← anyWaits_iff] at h
  refine if_neg fun k => ?_
  rw [Bool.and_eq_true, hasPlace_iff, Bool.not_eq_true'] at k
  obtain ⟨hroom, hw⟩ := k
  exact h.elim (fun hfull => absurd hroom (by omega)) fun hw' => absurd hw' (by simp [hw])

end Parts

/-- Settles O50. -/
theorem queuesAndTransmitters : Obligations.QueuesAndTransmitters := by
  refine ⟨fun p l f => ?_, fun s l g => ?_, fun others again p f fs => ?_⟩
  · intro x c q
    refine ⟨fun hfull hb => ?_, fun hroom hs => ?_, fun hs hq hn hf => ?_⟩
    · obtain ⟨-, -, -, hdrops⟩ := hb.lines l
      rw [passFrame_full hfull, raise_eq_min hdrops]
    · rw [passFrame_room hroom, enqueue_busy hs]
      rfl
    · have hempty : ((p.line l).queues.get (p.classOf f)).length < 16 := by
        rw [hq]
        cases p.classOf f <;> decide
      rw [passFrame_room hempty, enqueue_idle hs hq hn hf]
  · intro i p x taken hg hr
    have ends {e : Part} (he : p.transmitEnd l = e) : taken e := State.run_rest (f := Part.transmitEnd l) rfl he
    refine ⟨fun hq => ends (transmitEnd_empty hg hr hq), fun c f r hq hhigh => ?_⟩
    intro y asks waits
    have next {e : Part} (he : (p.setLine l y).offerPlace l c = e) : taken e :=
      ends ((transmitEnd_head hg hr (headOf_highest hq hhigh)).trans he)
    have hwaits (d : PendEntry) : (p.setLine l y).waitsFor c d = true ↔ waits d := waitsFor_iff (p.setLine l y) c d
    have joins (F : OutFrame) : (p.setLine l y).append l c F =
        p.setLine l { y with queues := x.queues.set c (r ++ [F]) } := append_setLine p l c x r (some f) F
    refine ⟨fun hn hf => next (offerPlace_nothing hn hf), ?_, fun hl h => next (offerPlace_field_unclaimed hl h), ?_, ?_⟩
    · rintro rfl h
      exact next (offerPlace_control_unclaimed fun d hd => by rw [hwaits]; exact h d hd)
    · rintro a b e h hs rfl hn he hc ha
      refine next ((offerPlace_control (p := p.setLine .control y) hn he hc fun d hd => ?_).trans ?_)
      · rw [hwaits]
        exact ha d hd
      · rw [joins]
    · intro a b e hl hm hf he ha z left q
      have offered := offerPlace_field (p := p.setLine l y) hl hm hf he ha
      rw [joins] at offered
      refine ⟨fun hleft => next (offered.trans (if_neg hleft)), fun v k d hleft hv hk hd canon => ?_⟩
      have queued := offered.trans (if_pos hleft)
      refine ⟨fun hkind => next (queued.trans ?_), fun hkind => next (queued.trans ?_), fun hkind => next (queued.trans ?_)⟩
      · rw [hkind]
        exact orderQueued_poll _ _
      · rw [hkind]
        exact orderQueued_query (p := q (a ++ b)) hv hk canon.contexts hd
      · rw [hkind]
        exact orderQueued_move (p := q (a ++ b)) hv hk canon.contexts hd
  · intro c x q waits
    exact ⟨rfl, fun hroom hw => queueParts_joins hroom hw again fs, fun h => queueParts_stays h again fs⟩

end Sys2Proof.Machine
end

