-- ==== Sys2Proof/Proofs/StepOrders.lean ====
section
/-! PROOFS. The orders of a step, for O52: their frames and lines, what forming one does, and a step that fails. -/

namespace Sys2Proof.Machine

/-! ## The frame of an order (R113) -/

theorem foldl_max_eq {l : List Nat} {b u : Nat} (hb : b ≤ u) (hl : ∀ a ∈ l, a ≤ u) (hu : b = u ∨ u ∈ l) :
    l.foldl max b = u := by
  induction l generalizing b with
  | nil => simpa using hu
  | cons a l ih =>
    obtain ⟨ha, hl⟩ := List.forall_mem_cons.1 hl
    refine ih (max_le hb ha) hl ?_
    rcases hu with rfl | hu
    · exact .inl (max_eq_left ha)
    · rcases List.mem_cons.1 hu with rfl | hu
      · exact .inl (max_eq_right hb)
      · exact .inr hu

/-- The URGENCY of a run: the highest among the incidents it serves. -/
def Part.urgent (p : Part) (serves : List Nat) (u : Nat) : Prop :=
  (∃ r ∈ serves, p.urgencyOf r = u) ∧ ∀ r ∈ serves, p.urgencyOf r ≤ u

theorem topUrgency_eq {p : Part} {serves : List Nat} {u : Nat} (h : p.urgent serves u) : p.topUrgency serves = u := by
  obtain ⟨⟨r, hr, hu⟩, hle⟩ := h
  refine foldl_max_eq (Nat.zero_le u) (fun a ha => ?_) (.inr (List.mem_map.2 ⟨r, hr, hu⟩))
  obtain ⟨k, hk, rfl⟩ := List.mem_map.1 ha
  exact hle k hk

theorem serves_ne_nil {p : Part} {serves : List Nat} {u : Nat} (h : p.urgent serves u) : serves ≠ [] := by
  obtain ⟨⟨r, hr, -⟩, -⟩ := h
  exact List.ne_nil_of_mem hr

theorem hi_w16 (n : Nat) : Word.hi (w16 n) = BitVec.ofNat 8 (n / 256) := by
  have hdiv : n % 65536 / 256 % 256 = n / 256 % 256 := by omega
  apply BitVec.eq_of_toNat_eq
  simpa [Word.hi, w16, Nat.shiftRight_eq_div_pow] using hdiv

theorem lo_w16 (n : Nat) : Word.lo (w16 n) = BitVec.ofNat 8 n := by
  apply BitVec.eq_of_toNat_eq
  simp [Word.lo, w16]

theorem orderFrame_eq {p : Part} {c : StepCtx} {u : Nat} (h : p.urgent c.serves u) (x : Valve) (tag code value : Nat) :
    p.orderFrame x c tag code value =
      Frame.sealed
        { dst := BitVec.ofNat 16 x.station, src := BitVec.ofNat 16 p.mgmt.ownAddress,
          ctl := controlByte .order (p.trunk.urgencyMap.getD u 0), tag := BitVec.ofNat 8 tag,
          items := [⟨BitVec.ofNat 8 (x.channel * 8), BitVec.ofNat 8 code, BitVec.ofNat 8 (value / 256),
            BitVec.ofNat 8 value⟩],
          crc := 0#16 } := by
  have hpriority : p.orderPriority c = p.trunk.urgencyMap.getD u 0 := by
    rw [Part.orderPriority, if_neg (by simpa using serves_ne_nil h), topUrgency_eq h, Part.priorityOf]
  rw [Part.orderFrame, hpriority, hi_w16, lo_w16]
  rfl

theorem freshenOrder_serving {p : Part} {c : StepCtx} (h : c.serves ≠ []) : p.freshenOrder c = p :=
  if_neg (by simpa using h)

/-! ## The lines of a station (R153) -/

/-- The Station Table routes an address to no line: its entry is BLOCKED and the part ACTIVE. -/
def Part.shut (p : Part) (address : Nat) : Prop :=
  ∃ n e, p.station? address = some (n, e) ∧ e.blocked = true ∧ p.mgmt.mode = .active

section Lines

variable {p : Part} {address : Nat}

theorem linesTo_shut (ha : address ≠ 65535) (h : p.shut address) : p.linesTo address = [] := by
  obtain ⟨n, e, he, hb, hm⟩ := h
  simp [Part.linesTo, ha, he, hb, (isActive_iff p).2 hm]

theorem linesTo_routed (ha : address ≠ 65535) (hs : ¬p.shut address) {n : Nat} {e : Station}
    (he : p.station? address = some (n, e)) {l : Line} (hl : e.line = some l) : p.linesTo address = [l] := by
  have hopen : (e.blocked && p.isActive) = false := by
    rw [Bool.eq_false_iff, Ne, Bool.and_eq_true, isActive_iff]
    exact fun ⟨hb, hm⟩ => hs ⟨n, e, he, hb, hm⟩
  simp [Part.linesTo, ha, he, hopen, hl]

end Lines

/-! ## An order offered to its lines (R113, R168) -/

section Send

variable {p : Part} {fail : Part → Part} {v : Nat} {x : Valve} {kind : OrderKind} {f : Frame} {l : Line}

theorem sendOrder_shut (h : p.linesTo x.station = []) : p.sendOrder fail v x kind f = fail p := by
  rw [Part.sendOrder, h]

theorem sendOrder_line (h : p.linesTo x.station = [l]) : p.sendOrder fail v x kind f = p.offerOrder v kind f [l] := by
  rw [Part.sendOrder, h]

theorem offerOrder_full (h : 16 ≤ ((p.line l).queues.get (p.classOf f)).length) :
    p.offerOrder v kind f [l] =
      p.setSeqFrames (p.seq.frames ++ [{ valve := v, kind := kind, frame := f, lines := [l] }]) := by
  have hplace : p.hasPlace l (p.classOf f) = false := by
    rw [Bool.eq_false_iff, Ne, hasPlace_iff]
    omega
  simp [Part.offerOrder, hplace]

/-- An order that meets an idle line with nothing waiting goes into transmission, and has been queued. -/
theorem offerOrder_idle (hs : (p.line l).sending = none) (hq : (p.line l).queues = ⟨[], [], [], []⟩)
    (hn : p.mgmt.notices = []) (hf : p.seq.frames = []) :
    p.offerOrder v kind f [l] = (p.setLine l { p.line l with sending := some ⟨f, false⟩ }).orderQueued v kind := by
  have hplace : p.hasPlace l (p.classOf f) = true := by
    rw [hasPlace_iff, hq]
    cases p.classOf f <;> decide
  simp [Part.offerOrder, hplace, enqueue_idle hs hq hn hf]

end Send

/-! ## MOVEs and first QUERYs formed (R112, R113) -/

section Form

variable {grants : Part → Part} {p : Part} {v : Nat} {x : Valve} {c : StepCtx}

/-- The part with a MOVE formed: the tag is taken, and MOVE_TAG, TARGET and PHASE are written. -/
def Part.moveFormed (v : Nat) (x : Valve) (c : StepCtx) (target span : Nat) (p : Part) : Part :=
  (({ p with seq := { p.seq with tag := succTag p.seq.tag } }).putValve v
    { x with moveTag := some p.seq.tag }).putContext v
    { c with phase := .pending, target := some target, span := span, dwellDue := none }

theorem formMove_eq (hs : c.serves ≠ []) (hwf : Table.wf p.net.valves = true) (hx : p.valve? v = some x) (t m : Nat) :
    p.formMove grants v x c t m =
      (p.moveFormed v x c t m).sendOrder (fun q => q.failStep grants v .unreachable) v x .move
        (p.orderFrame x c p.seq.tag 17 t) := by
  have hvalve := adjustValve_eq_putValve (p := { p with seq := { p.seq with tag := succTag p.seq.tag } }) hwf hx fun y =>
    { y with moveTag := some p.seq.tag }
  simp only [Part.formMove, freshenOrder_serving hs, hvalve]
  rfl

theorem formQuery_eq (hs : c.serves ≠ []) :
    p.formQuery grants v x c =
      (p.putContext v { c with phase := .pending }).sendOrder (fun q => q.failStep grants v .unreachable) v x .query
        (p.orderFrame x c 0 19 0) := by
  simp only [Part.formQuery, freshenOrder_serving hs]

end Form

/-! ## A step that fails (R118) -/

/-- The report of a failed step: each served incident in CLOSING returns to PLAN_WAIT, or the touched entry ends as
LEFT_PARTIAL. -/
def Part.tellFailure (v : Nat) (c : StepCtx) (first : Option Nat) (p : Part) : Part :=
  if c.run = .closing then
    c.serves.foldl (fun q r => if q.stateOf r = some .closing then q.planChanged r (.valve v) else q) p
  else (c.serves.foldl (fun q r => q.endTouched r v true) p).record .leftPartial first (some (.valve v)) none

/-- The end of a failed step: its trace entry, and the end of its context. -/
def Part.dropStep (v : Nat) (first : Option Nat) (why : Failure) (p : Part) : Part :=
  (p.record .stepFailed first (some (.valve v)) (some why.num)).endContext v

theorem failStep_eq {grants : Part → Part} {p : Part} {v : Nat} {c : StepCtx} (hc : p.context? v = some c) (why : Failure) :
    p.failStep grants v why =
      (grants (p.dropStep v (p.firstServed c) why)).tellFailure v c (p.firstServed c) := by
  unfold Part.failStep Part.tellFailure
  rw [hc]
  dsimp only
  cases hr : c.run with
  | closing => rw [if_pos rfl]; rfl
  | restoring => rw [if_neg (by decide)]; rfl

end Sys2Proof.Machine
end

