-- ==== Sys2Proof/Proofs/CalculationPoints.lean ====
section
/-! PROOFS. The calculation point of a valve's run (R111, R127), for O52. -/

namespace Sys2Proof.Machine

/-! ## The test of a run (R111, R127) -/

/-- A run may proceed: the part is ACTIVE and an incident it serves stands in the state of the run. -/
def Part.runGoes (p : Part) (c : StepCtx) : Prop :=
  p.mgmt.mode = .active ∧ ∃ r ∈ c.serves, p.stateOf r = some (if c.run = .closing then .closing else .restoring)

/-- A run that may not proceed waits: in TRANSPARENT mode, or for an incident it serves. -/
def Part.runWaits (p : Part) (c : StepCtx) : Prop :=
  p.mgmt.mode = .transparent ∨
    (c.run = .closing ∧ ((∃ r ∈ c.serves, p.stateOf r = some .planWait) ∨ (∃ r ∈ c.serves, p.stateOf r = some .planning) ∨
      ∃ r ∈ c.serves, p.stateOf r = some .confirmWait)) ∨
    (c.run = .restoring ∧ ∃ r ∈ c.serves, p.stateOf r = some .restoring)

/-- A RESTORING run gives its valve up: another incident holds it too. -/
def Part.runReleased (p : Part) (x : Valve) (c : StepCtx) : Prop :=
  c.run = .restoring ∧ (∃ r ∈ c.serves, p.stateOf r = some .restoring) ∧ 1 < x.holdCount

section Test

variable {p : Part} {c : StepCtx}

theorem runGoes_iff (p : Part) (c : StepCtx) : (p.isActive && p.servesIn c c.run.goal) = true ↔ p.runGoes c := by
  have hgoal : c.run.goal = if c.run = .closing then .closing else .restoring := by cases c.run <;> rfl
  rw [Bool.and_eq_true, isActive_iff, servesIn_iff, hgoal, Part.runGoes]

theorem runWaits_iff (p : Part) (c : StepCtx) : (!p.isActive || p.waitsServed c) = true ↔ p.runWaits c := by
  simp only [Bool.or_eq_true, Bool.not_eq_true', isActive_eq_false_iff, waitsServed_iff, servesIn_iff, Part.runWaits]

theorem heldElsewhere_iff (p : Part) (x : Valve) (c : StepCtx) : p.heldElsewhere x c = true ↔ p.runReleased x c := by
  simp only [Part.heldElsewhere, Bool.and_eq_true, decide_eq_true_eq, servesIn_iff, and_assoc, Part.runReleased]

theorem runTest_proceed (h : p.runGoes c) : p.runTest c = .proceed := if_pos ((runGoes_iff p c).2 h)

theorem runTest_halt (h : ¬p.runGoes c) (hw : p.runWaits c) : p.runTest c = .halt :=
  (if_neg (mt (runGoes_iff p c).1 h)).trans (if_pos ((runWaits_iff p c).2 hw))

theorem runTest_finish (h : ¬p.runGoes c) (hw : ¬p.runWaits c) : p.runTest c = .finish :=
  (if_neg (mt (runGoes_iff p c).1 h)).trans (if_neg (mt (runWaits_iff p c).1 hw))

end Test

/-! ## The surge limit (R103, R104) -/

theorem limitRun_eq {grants : Part → Part} {p : Part} {v : Nat} {c : StepCtx} (hc : p.context? v = some c) (rise : Nat) :
    p.limitRun grants v rise =
      let q := grants ((p.record .surgeLimit (p.firstServed c) (some (.valve v)) (some rise)).endContext v)
      if c.run = .closing then
        c.serves.foldl (fun q r => if q.stateOf r = some .closing then q.hold r .surgeLimit (some v) else q) q
      else c.serves.foldl (fun q r => q.endTouched r v true) q := by
  unfold Part.limitRun
  rw [hc]
  dsimp only
  cases hr : c.run with
  | closing => rw [if_pos rfl]
  | restoring => rw [if_neg (by decide)]

/-! ## What a calculation point does (R111) -/

section Point

variable {grants : Part → Part} {p : Part} {v : Nat} {c : StepCtx} {x : Valve}

theorem calcPoint_released (hc : p.context? v = some c) (hx : p.valve? v = some x) (h : p.runReleased x c) :
    p.calcPoint grants v = c.serves.foldl (fun q r => q.endTouched r v false) (grants (p.endContext v)) := by
  unfold Part.calcPoint
  rw [hc, hx]
  exact if_pos ((heldElsewhere_iff p x c).2 h)

/-- A run that is not released goes by its test. -/
theorem calcPoint_unreleased (hc : p.context? v = some c) (hx : p.valve? v = some x) (h : ¬p.runReleased x c) :
    p.calcPoint grants v =
      match p.runTest c with
      | .halt => p.putContext v { c with phase := .halted, dwellDue := none }
      | .finish => grants (p.endContext v)
      | .proceed =>
        match c.reached, x.opening with
        | some o, _ => p.nextStep grants v x c o
        | none, some o => p.nextStep grants v x c o
        | none, none => p.formQuery grants v x c := by
  unfold Part.calcPoint
  rw [hc, hx]
  exact if_neg (mt (heldElsewhere_iff p x c).1 h)

theorem calcPoint_halts (hc : p.context? v = some c) (hx : p.valve? v = some x) (h : ¬p.runReleased x c)
    (hg : ¬p.runGoes c) (hw : p.runWaits c) :
    p.calcPoint grants v = p.putContext v { c with phase := .halted, dwellDue := none } := by
  rw [calcPoint_unreleased hc hx h, runTest_halt hg hw]

theorem calcPoint_finishes (hc : p.context? v = some c) (hx : p.valve? v = some x) (h : ¬p.runReleased x c)
    (hg : ¬p.runGoes c) (hw : ¬p.runWaits c) : p.calcPoint grants v = grants (p.endContext v) := by
  rw [calcPoint_unreleased hc hx h, runTest_finish hg hw]

theorem calcPoint_asks (hc : p.context? v = some c) (hx : p.valve? v = some x) (h : ¬p.runReleased x c)
    (hg : p.runGoes c) (hr : c.reached = none) (ho : x.opening = none) :
    p.calcPoint grants v = p.formQuery grants v x c := by
  rw [calcPoint_unreleased hc hx h, runTest_proceed hg]
  dsimp only
  rw [hr, ho]

/-- The current opening of a run: REACHED where present, else OPENING (R93). -/
def StepCtx.standsAt (c : StepCtx) (x : Valve) (o : Nat) : Prop :=
  c.reached = some o ∨ (c.reached = none ∧ x.opening = some o)

theorem calcPoint_steps (hc : p.context? v = some c) (hx : p.valve? v = some x) (h : ¬p.runReleased x c)
    (hg : p.runGoes c) {o : Nat} (ho : c.standsAt x o) : p.calcPoint grants v = p.nextStep grants v x c o := by
  rw [calcPoint_unreleased hc hx h, runTest_proceed hg]
  dsimp only
  rcases ho with hr | ⟨hr, ho⟩
  · rw [hr]
  · rw [hr, ho]

section Next

variable {o : Nat} {i : SurgeInput} (hi : p.surgeInput x o (p.runTarget v x c) = some i)

include hi

theorem nextStep_final (h : i.calc = .final) : p.nextStep grants v x c o = p.finishRun grants v := by
  simp only [Part.nextStep, hi, h]

theorem nextStep_step {t m : Nat} (h : i.calc = .step t m) : p.nextStep grants v x c o = p.formMove grants v x c t m := by
  simp only [Part.nextStep, hi, h]

theorem nextStep_clamped {t rise : Nat} (h : i.calc = .clamped t rise) :
    p.nextStep grants v x c o =
      (p.record .surgeClamped (p.firstServed c) (some (.valve v)) (some rise)).formMove grants v x c t 1 := by
  simp only [Part.nextStep, hi, h]

theorem nextStep_limit {rise : Nat} (h : i.calc = .limit rise) : p.nextStep grants v x c o = p.limitRun grants v rise := by
  simp only [Part.nextStep, hi, h]

end Next

end Point

end Sys2Proof.Machine
end

