-- ==== Sys2Proof/Proofs/StepTimers.lean ====
section
/-! PROOFS. The timers of a valve's step, its calculation point, and orders with no place (O52). -/

namespace Sys2Proof.Machine

/-! ## The end of a context (R111) -/

theorem Table.remove_eq_filter {α : Type} (t : Table α) (k : Nat) :
    Table.remove t k = t.filter fun e => decide (e.1 ≠ k) := by
  induction t with
  | nil => rfl
  | cons e t ih =>
    obtain ⟨i, a⟩ := e
    by_cases h : i = k <;> simp [Table.remove, h, ih]

theorem Table.remove_put {α : Type} (t : Table α) (k : Nat) (a : α) :
    Table.remove (Table.put t k a) k = Table.remove t k := by
  induction t with
  | nil => simp [Table.put, Table.remove]
  | cons e t ih =>
    obtain ⟨i, b⟩ := e
    simp only [Table.put]
    split_ifs with hlt heq
    · simp [Table.remove]
    · simp [Table.remove, heq]
    · simp [Table.remove, Ne.symm heq, ih]

theorem endContext_putContext (p : Part) (v : Nat) (c : StepCtx) : (p.putContext v c).endContext v = p.endContext v := by
  simp only [Part.endContext, Part.putContext, Table.remove_put]

theorem endContext_eq {p : Part} {v : Nat} {x : Valve} (hx : p.valve? v = some x) (hwf : Table.wf p.net.valves = true) :
    p.endContext v = { p with
      net := { p.net with valves := Table.put p.net.valves v { x with moveTag := none } }
      seq := { p.seq with
        contexts := p.seq.contexts.filter fun e => decide (e.1 ≠ v)
        frames := p.seq.frames.filter fun f => decide (f.valve ≠ v) } } := by
  rw [Part.endContext, Table.remove_eq_filter]
  exact adjustValve_eq_putValve (p := { p with seq := { p.seq with
    contexts := p.seq.contexts.filter fun e => decide (e.1 ≠ v)
    frames := p.seq.frames.filter fun f => decide (f.valve ≠ v) } }) hwf hx _

/-- A step that fails with no grant to make, reported to the incidents it serves. -/
theorem failStep_rest {p : Part} {v : Nat} {c : StepCtx} (hc : p.context? v = some c) {why : Failure}
    (h : (p.dropStep v (p.firstServed c) why).atRest) :
    p.failStep Part.settled v why = (p.dropStep v (p.firstServed c) why).tellFailure v c (p.firstServed c) := by
  rw [failStep_eq hc, Part.settled_rest _ h]

/-! ## The expiries of a step's timers (R112, R114, R116, R117) -/

theorem heard_iff_station? (p : Part) (address : Nat) :
    p.heard address = true ↔ ∃ n e, p.station? address = some (n, e) ∧ e.age ≠ .silent ∧ e.blocked = false := by
  unfold Part.heard
  cases p.station? address with
  | none => simp
  | some r => obtain ⟨n, e⟩ := r; simp

section Expiry

variable {p : Part} {v d : Nat} {c : StepCtx} {x : Valve} {k : ValveClass}

theorem travelExpiry_running (hc : p.context? v = some c) (hd : c.travelDue = some d) :
    p.travelExpiry v = ({ p with now := max p.now d }).travelExpired v := by
  simp only [Part.travelExpiry, hc, Option.bind_some, hd, advanceTo_eq]

theorem queryExpiry_running (hc : p.context? v = some c) (hd : c.queryDue = some d) :
    p.queryExpiry v = ({ p with now := max p.now d }).failStep Part.settled v .unreachable := by
  simp only [Part.queryExpiry, hc, Option.bind_some, hd, advanceTo_eq]

theorem pollExpiry_running (hc : p.context? v = some c) (hd : c.pollDue = some d) :
    p.pollExpiry v = ({ p with now := max p.now d }).pollExpired v := by
  simp only [Part.pollExpiry, hc, Option.bind_some, hd, advanceTo_eq]

theorem dwellExpiry_running (hwf : Table.wf p.seq.contexts = true) (hc : p.context? v = some c) (hd : c.dwellDue = some d) :
    p.dwellExpiry v =
      (({ p with now := max p.now d }).putContext v { c with dwellDue := none }).calcPoint Part.settled v := by
  simp only [Part.dwellExpiry, hc, Option.bind_some, hd, advanceTo_eq]
  exact congrArg (Part.calcPoint Part.settled v)
    (adjustContext_eq_putContext (p := { p with now := max p.now d }) hwf hc _)

/-- A travel timer that expires fails the step SEIZED where the station is heard, and UNREACHABLE otherwise. -/
theorem travelExpired_eq (hx : p.valve? v = some x) :
    p.travelExpired v =
      if p.heard x.station = true then p.failWith v .seized .seized else p.failStep Part.settled v .unreachable := by
  simp only [Part.travelExpired, hx]

theorem failWith_same (hx : p.valve? v = some x) {why : Failure} :
    p.failWith v x.operability why = p.failStep Part.settled v why := by
  rw [failWith_eq hx, if_pos rfl, writeOper_same hx]

theorem failWith_changed (hx : p.valve? v = some x) {o : Operability} (h : x.operability ≠ o) (why : Failure) :
    p.failWith v o why =
      (((p.putValve v { x with operability := o }).record .operability none (some (.valve v)) (some o.num)).failStep
        Part.settled v why).announce (.ofOper v) := by
  rw [failWith_eq hx, if_neg h, writeOper_changed hx h]

/-! ## Poll QUERYs (R114) -/

theorem pollNeeded_iff (p : Part) (v : Nat) (x : Valve) (c : StepCtx) :
    p.pollNeeded v x c = true ↔
      p.mgmt.mode = .active ∧ (∀ t, x.positionTime = some t → t < c.pollStart) ∧
        ∀ f ∈ p.seq.frames, ¬(f.valve = v ∧ f.kind = .poll) := by
  unfold Part.pollNeeded
  rw [Bool.and_eq_true, Bool.and_eq_true, isActive_iff, and_assoc]
  cases x.positionTime <;> simp

/-- The context in its next poll interval. -/
def StepCtx.polled (c : StepCtx) (k : ValveClass) (now : Nat) : StepCtx :=
  { c with pollDue := if k.poll = 0 then none else some (now + 10 * k.poll), pollStart := now }

theorem pollExpired_eq (hwf : Table.wf p.seq.contexts = true) (hc : p.context? v = some c) (hx : p.valve? v = some x)
    (hk : p.vclass? x.vclass = some k) :
    p.pollExpired v =
      if p.pollNeeded v x c = true then (p.putContext v (c.polled k p.now)).formPoll v x c
      else p.putContext v (c.polled k p.now) := by
  simp only [Part.pollExpired, hc, hx, hk, Option.map_some, Option.getD_some, adjustContext_eq_putContext hwf hc,
    StepCtx.polled]

theorem formPoll_eq (hs : c.serves ≠ []) :
    p.formPoll v x c =
      p.sendOrder (fun q => q.failStep Part.settled v .unreachable) v x .poll (p.orderFrame x c 0 19 0) := by
  simp only [Part.formPoll, freshenOrder_serving hs]

end Expiry

/-! ## Orders on an idle line (R113) -/

/-- A valve's station is reached by one line, and that line is idle with nothing waiting for it. -/
def Part.idleFor (p : Part) (x : Valve) (l : Line) : Prop :=
  (p.line l).sending = none ∧ (p.line l).queues = ⟨[], [], [], []⟩ ∧ p.mgmt.notices = [] ∧ p.seq.frames = [] ∧
    x.station ≠ 65535 ∧ ∃ n e, p.station? x.station = some (n, e) ∧ e.blocked = false ∧ e.line = some l

/-- A line takes a frame into transmission. -/
def Part.sends (l : Line) (f : Frame) (p : Part) : Part := p.setLine l { p.line l with sending := some ⟨f, false⟩ }

section Idle

variable {p : Part} {v : Nat} {c : StepCtx} {x : Valve} {k : ValveClass} {l : Line}

theorem sendOrder_idle (h : p.idleFor x l) (fail : Part → Part) (kind : OrderKind) (f : Frame) :
    p.sendOrder fail v x kind f = (p.sends l f).orderQueued v kind := by
  obtain ⟨hs, hq, hn, hf, ha, n, e, he, hb, hl⟩ := h
  have hopen : ¬p.shut x.station := by
    rintro ⟨n', e', he', hb', -⟩
    rw [he] at he'
    cases he'
    exact absurd hb' (by rw [hb]; exact Bool.false_ne_true)
  rw [sendOrder_line (linesTo_routed ha hopen he hl), offerOrder_idle hs hq hn hf]
  rfl

/-- A MOVE formed for an idle line is under way: its travel timer runs, and the poll timer of a class that polls. -/
theorem formMove_idle (hwf : Table.wf p.net.valves = true) (hwc : Table.wf p.seq.contexts = true) (hx : p.valve? v = some x)
    (hk : p.vclass? x.vclass = some k) (hs : c.serves ≠ []) (h : p.idleFor x l) (grants : Part → Part) (t m : Nat) :
    p.formMove grants v x c t m =
      ((p.moveFormed v x c t m).putContext v
        (StepCtx.departed { c with phase := .pending, target := some t, span := m, dwellDue := none } k p.now)).sends l
        (p.orderFrame x c p.seq.tag 17 t) := by
  rw [formMove_eq hs hwf hx, sendOrder_idle (p := p.moveFormed v x c t m) h]
  exact orderQueued_move (p := (p.moveFormed v x c t m).sends l (p.orderFrame x c p.seq.tag 17 t))
    (valve?_putValve_self p v _) hk (Table.wf_put v _ hwc) (context?_putContext_self _ v _)

end Idle

/-- A MOVE formed over a context just written. -/
theorem moveFormed_putContext (p : Part) (v : Nat) (x : Valve) (c d e : StepCtx) (t m : Nat) :
    ((p.putContext v d).moveFormed v x c t m).putContext v e = (p.moveFormed v x c t m).putContext v e := by
  simp only [Part.moveFormed, putContext_putContext]
  simp only [Part.putContext, Part.putValve, Table.put_put]

/-! ## The calculation point of a CLOSING run that may proceed (R111, R113, R103) -/

section Closing

variable {p : Part} {v o : Nat} {c : StepCtx} {x : Valve} {i : SurgeInput} (hc : p.context? v = some c)
  (hx : p.valve? v = some x) (hr : c.run = .closing) (hm : p.mgmt.mode = .active)
  (hclosing : ∃ r ∈ c.serves, p.stateOf r = some .closing) (ho : c.reached = some o) (hi : p.surgeInput x o 0 = some i)

theorem not_runReleased_of_closing (hr : c.run = .closing) : ¬p.runReleased x c :=
  fun ⟨h, _⟩ => absurd (hr.symm.trans h) (by decide)

include hc hx hr hm hclosing ho

theorem calcPoint_closing (grants : Part → Part) : p.calcPoint grants v = p.nextStep grants v x c o :=
  calcPoint_steps hc hx (not_runReleased_of_closing hr) ⟨hm, by rwa [if_pos hr]⟩ (.inl ho)

include hi

/-- A step that fits, on an idle line. -/
theorem calcPoint_closing_step (hwf : Table.wf p.net.valves = true) (hwc : Table.wf p.seq.contexts = true)
    {k : ValveClass} (hk : p.vclass? x.vclass = some k) {t m : Nat} (ht : i.calc = .step t m) {l : Line}
    (hidle : p.idleFor x l) {u : Nat} (hu : p.urgent c.serves u) (grants : Part → Part) :
    p.calcPoint grants v =
      ((p.moveFormed v x c t m).putContext v
        (StepCtx.departed { c with phase := .pending, target := some t, span := m, dwellDue := none } k p.now)).sends l
        (p.orderFrame x c p.seq.tag 17 t) := by
  rw [calcPoint_closing hc hx hr hm hclosing ho, nextStep_step (by rw [runTarget_closing hr]; exact hi) ht,
    formMove_idle hwf hwc hx hk (serves_ne_nil hu) hidle]

/-- The surge limit, with no grant to make. -/
theorem calcPoint_closing_limit {rise : Nat} (hlimit : i.calc = .limit rise)
    (hrest : ((p.record .surgeLimit (p.firstServed c) (some (.valve v)) (some rise)).endContext v).atRest) :
    p.calcPoint Part.settled v =
      c.serves.foldl (fun q r => if q.stateOf r = some .closing then q.hold r .surgeLimit (some v) else q)
        ((p.record .surgeLimit (p.firstServed c) (some (.valve v)) (some rise)).endContext v) := by
  rw [calcPoint_closing hc hx hr hm hclosing ho, nextStep_limit (by rw [runTarget_closing hr]; exact hi) hlimit,
    limitRun_eq hc, Part.settled_rest _ hrest]
  exact if_pos hr

end Closing

/-- Settles O52: each expiry by the operation that it brings about, the calculation point by the test of its run and the
result of the calculation, and an order with no line or no place by what its station's lines take. -/
theorem stepTimers : Obligations.StepTimers := by
  refine ⟨fun s v c x k hc hx hk canon => ?_, fun grants p v c x hc hx => ?_,
    fun grants p v u t m c x hc hx canon hu hle => ?_⟩
  · intro q first failed told taken order urgent idle sends
    have hwf : Table.wf s.part.net.valves = true := canon.valves
    have hwc : Table.wf s.part.seq.contexts = true := canon.contexts
    refine ⟨fun d hd => ?_, fun d hd h => ?_, fun d hd => ?_, fun d hd => ?_, fun d o hd ho hr => ?_, fun p hx hcanon => ?_⟩
    · intro heard a b
      have ends {e : Part} (he : (q d).travelExpired v = e) : taken (.travelTimerExpiry v) e :=
        State.run_rest (f := Part.travelExpiry v) rfl ((travelExpiry_running hc hd).trans he)
      have hheard : (q d).heard x.station = true ↔ heard := heard_iff_station? (q d) x.station
      have expired := travelExpired_eq (p := q d) hx
      refine ⟨fun h ha => ends ((expired.trans (if_neg (by rwa [hheard]))).trans ?_),
        fun h ho hb => ends ((expired.trans (if_pos (hheard.2 h))).trans ?_),
        fun h ho ha => ends ((expired.trans (if_pos (hheard.2 h))).trans ?_)⟩
      · exact failStep_rest (p := q d) (why := .unreachable) hc ha
      · let w := ((q d).putValve v { x with operability := .seized }).record .operability none (some (.valve v)) (some 1)
        refine (failWith_changed (p := q d) hx ho .seized).trans ?_
        exact congrArg (Part.announce (.ofOper v)) (failStep_rest (p := w) (why := .seized) hc hb)
      · rw [← ho, failWith_same (p := q d) hx]
        exact failStep_rest (p := q d) (why := .seized) hc ha
    · exact State.run_rest (f := Part.queryExpiry v) rfl
        ((queryExpiry_running hc hd).trans (failStep_rest (p := q d) (why := .unreachable) hc h))
    · intro n timed due
      have hdue : (q d).pollNeeded v x c = true ↔ due := pollNeeded_iff (q d) v x c
      have expired := pollExpired_eq (p := q d) hwc hc hx hk
      have ends {e : Part} (he : (q d).pollExpired v = e) : taken (.pollExpiry v) e :=
        State.run_rest (f := Part.pollExpiry v) rfl ((pollExpiry_running hc hd).trans he)
      have polls (h : due) (hs : c.serves ≠ []) : (q d).pollExpired v = _ :=
        (expired.trans (if_pos (hdue.2 h))).trans (formPoll_eq hs)
      refine ⟨fun h => ends (expired.trans (if_neg (by rwa [hdue]))), fun l u h hi hu => ?_, fun h hs ha hb hrest => ?_⟩
      · refine ends (((polls h (serves_ne_nil hu)).trans (sendOrder_idle (p := timed) hi _ .poll _)).trans ?_)
        exact (orderQueued_poll _ v).trans (congrArg (Part.sends l · timed) (orderFrame_eq (p := timed) hu x 0 19 0))
      · obtain ⟨j, e, he, hblocked⟩ := hb
        have hshut : timed.linesTo x.station = [] := linesTo_shut (p := timed) ha ⟨j, e, he, hblocked, h.1⟩
        refine ends (((polls h hs).trans (sendOrder_shut (p := timed) hshut)).trans ?_)
        exact failStep_rest (p := timed) (why := .unreachable) (context?_putContext_self (q d) v (c.polled k n)) hrest
    · exact State.run_rest (f := Part.dwellExpiry v) rfl (dwellExpiry_running hwc hc hd)
    · intro n
      let stopped : StepCtx := { c with dwellDue := none }
      let w := (q d).putContext v stopped
      have ends {e : Part} (he : w.calcPoint Part.settled v = e) : taken (.dwellEnd v) e :=
        State.run_rest (f := Part.dwellExpiry v) rfl ((dwellExpiry_running hwc hc hd).trans he)
      have hw : w.context? v = some stopped := context?_putContext_self (q d) v stopped
      refine ⟨fun hm => ends ?_, fun i hm hclosing hi => ⟨fun t m l u ht hidle hu => ?_, fun rise hlimit => ?_⟩⟩
      · have stays : ¬w.runGoes stopped := fun ⟨h, _⟩ => absurd (hm.symm.trans h) (by decide)
        refine (calcPoint_halts hw hx (not_runReleased_of_closing hr) stays (.inl hm)).trans ?_
        exact putContext_putContext (q d) v stopped _
      · intro tag moved
        refine ends ((calcPoint_closing_step hw hx hr hm hclosing ho hi hwf (Table.wf_put v stopped hwc) hk ht hidle hu
          Part.settled).trans ?_)
        rw [orderFrame_eq (p := w) (c := stopped) hu, moveFormed_putContext, Part.moveFormed, putContext_putContext]
        rfl
      · intro a hrest
        have hended : (w.record .surgeLimit first (some (.valve v)) (some rise)).endContext v = a :=
          endContext_putContext ((q d).record .surgeLimit first (some (.valve v)) (some rise)) v stopped
        refine ends ((calcPoint_closing_limit hw hx hr hm hclosing ho hi hlimit (hended ▸ hrest)).trans ?_)
        exact congrArg (c.serves.foldl _) hended
    · exact endContext_eq hx hcanon.valves
  · intro serving first back goal goes waits released ended release comes
    have hgoal : p.runTarget v x c = goal := runTarget_eq p v x c
    refine ⟨calcPoint_released hc hx, calcPoint_halts hc hx, calcPoint_finishes hc hx, calcPoint_asks hc hx,
      fun o i hrel hgo ho hi => ?_⟩
    have step : p.calcPoint grants v = p.nextStep grants v x c o := calcPoint_steps hc hx hrel hgo ho
    have hcalc : p.surgeInput x o (p.runTarget v x c) = some i := hgoal ▸ hi
    refine ⟨fun h hr => ?_, fun h hr => ?_, fun t m h => step.trans (nextStep_step hcalc h),
      fun t rise h => step.trans (nextStep_clamped hcalc h), fun rise h => ?_⟩
    · exact ((step.trans (nextStep_final hcalc h)).trans (finishRun_eq grants hc)).trans (if_pos hr)
    · exact ((step.trans (nextStep_final hcalc h)).trans (finishRun_eq grants hc)).trans (if_neg (by simp [hr]))
    · have limited := (step.trans (nextStep_limit hcalc h)).trans (limitRun_eq hc rise)
      exact ⟨fun hr => limited.trans (if_pos hr), fun hr => limited.trans (if_neg (by simp [hr]))⟩
  · intro tag order first fails waits moved asked shut routed full ha
    have hurgent : p.urgent c.serves u := ⟨hu, hle⟩
    have move := formMove_eq (grants := grants) (serves_ne_nil hurgent) canon.valves hx t m
    have query := formQuery_eq (grants := grants) (p := p) (v := v) (x := x) (serves_ne_nil hurgent)
    rw [orderFrame_eq hurgent] at move query
    refine ⟨fun hshut => ⟨?_, ?_⟩, fun l hl hfull => ?_, fun l hl hfull => ?_⟩
    · refine (move.trans (sendOrder_shut (p := moved) (linesTo_shut ha hshut))).trans ?_
      exact failStep_eq (p := moved) (context?_putContext_self _ v _) .unreachable
    · refine (query.trans (sendOrder_shut (p := asked) (linesTo_shut ha hshut))).trans ?_
      exact failStep_eq (p := asked) (context?_putContext_self _ v _) .unreachable
    · obtain ⟨hopen, n, e, he, hline⟩ := hl
      refine (move.trans (sendOrder_line (p := moved) (linesTo_routed ha hopen he hline))).trans ?_
      exact offerOrder_full (p := moved) hfull
    · obtain ⟨hopen, n, e, he, hline⟩ := hl
      refine (query.trans (sendOrder_line (p := asked) (linesTo_routed ha hopen he hline))).trans ?_
      exact offerOrder_full (p := asked) hfull

end Sys2Proof.Machine
end

