-- ==== Sys2Proof/Proofs/TransparentParts.lean ====
section
/-! PROOFS. What a TRANSPARENT part does not do: it takes no MOVE tag (O13), and nothing in it stands ready (O14). -/

namespace Sys2Proof.Machine

/-- A step with neither POWER_ON nor SET_MODE at the front of the queue leaves a TRANSPARENT part so, its tag counter with
it; the idle part's clock does so too. -/
theorem step_silent {s t : State} (h : step s = .next t) (hpower : ∀ n, s.pending.head? ≠ some (.powerOn n))
    (hmode : ∀ m w, s.pending.head? ≠ some (.setMode m w)) (ha : s.part.isActive = false) :
    t.part.isActive = false ∧ t.part.seq.tag = s.part.seq.tag := by
  obtain ⟨i, rest, hp, hexec⟩ | ⟨-, rfl⟩ := step_cases h
  · have hhead : s.pending.head? = some i := congrArg List.head? hp
    exact exec_silent i { s with pending := rest } t hexec (fun n hi => hpower n (hi ▸ hhead))
      (fun m w hi => hmode m w (hi ▸ hhead)) ha
  · exact (keeps_idle s).silent ha

/-- Settles O13. -/
theorem transparentTakesNoTag : Obligations.TransparentTakesNoTag := by
  intro s t h hpower hmode hm
  obtain ⟨hsilent, htag⟩ := step_silent h hpower hmode ((isActive_eq_false_iff _).2 hm)
  exact ⟨(isActive_eq_false_iff _).1 hsilent, htag⟩

/-- Settles O14: every run halts and no entry is eligible. -/
theorem transparentStandsStill : Obligations.TransparentStandsStill := fun _ => atRest_of_transparent

end Sys2Proof.Machine
end

