-- ==== Sys2Proof/Proofs/HeldOrders.lean ====
section
/-! PROOFS. The held valves that an ORDER addresses, in the order of its items (R160), their first holder (R161), and the
lines that a downstream frame takes (R153, R159). -/

namespace Sys2Proof.Machine

/-! ## Lists without their repetitions -/

theorem eraseDups_filter (f : Nat → Bool) (l : List Nat) : (l.filter f).eraseDups = l.eraseDups.filter f := by
  induction hn : l.length using Nat.strong_induction_on generalizing l with
  | _ n ih =>
    cases l with
    | nil => rfl
    | cons a l =>
      have hshort : (l.filter fun b => !b == a).length < n := by
        have := List.length_filter_le (fun b => !b == a) l
        simp only [List.length_cons] at hn
        omega
      rw [List.eraseDups_cons, List.filter_cons, List.filter_cons, ← ih _ hshort _ rfl, List.filter_filter]
      split_ifs with ha
      · rw [List.eraseDups_cons, List.filter_filter]
        simp only [Bool.and_comm]
      · have hne : ∀ b ∈ l, (f b && !b == a) = f b := fun b _ => by
          by_cases hb : b = a
          · simp [hb, ha]
          · simp [hb]
        rw [List.filter_congr hne]

theorem eraseDups_of_nodup {l : List Nat} (h : l.Nodup) : l.eraseDups = l := by
  induction l with
  | nil => rfl
  | cons a l ih =>
    obtain ⟨ha, hl⟩ := List.nodup_cons.1 h
    have hall : l.filter (fun b => !b == a) = l := List.filter_eq_self.2 fun b hb => by
      simpa using fun e : b = a => ha (e ▸ hb)
    rw [List.eraseDups_cons, hall, ih hl]

/-- The value `v` comes first from the element at `n` of a list whose elements give values. -/
def FirstAt {α : Type} (gives : α → Nat → Prop) (l : List α) (v n : Nat) : Prop :=
  (∃ j, l[n]? = some j ∧ gives j v) ∧ ∀ k, k < n → ∀ j, l[k]? = some j → ¬gives j v

section First

variable {α : Type} {gives : α → Nat → Prop} {a : α} {l : List α} {v n : Nat}

theorem firstAt_head (h : gives a v) : FirstAt gives (a :: l) v 0 :=
  ⟨⟨a, rfl, h⟩, fun _ hk => absurd hk (Nat.not_lt_zero _)⟩

theorem FirstAt.cons (h : FirstAt gives l v n) (ha : ¬gives a v) : FirstAt gives (a :: l) v (n + 1) := by
  obtain ⟨here, before⟩ := h
  refine ⟨here, fun k hk j hj => ?_⟩
  cases k with
  | zero => exact Option.some.inj hj ▸ ha
  | succ k => exact before k (by omega) j hj

theorem exists_firstAt (h : ∃ j ∈ l, gives j v) : ∃ n, FirstAt gives l v n := by
  induction l with
  | nil => simp at h
  | cons a l ih =>
    by_cases ha : gives a v
    · exact ⟨0, firstAt_head ha⟩
    · obtain ⟨n, hn⟩ := ih (by simpa [ha] using h)
      exact ⟨n + 1, hn.cons ha⟩

end First

/-- The values that the elements of a list give, each once: by the element that first gives them, and then rising, where
each element gives its own in rising order. -/
theorem pairwise_eraseDups_flatMap {α : Type} {g : α → List Nat} (hg : ∀ a, (g a).Pairwise (· < ·)) (l : List α) :
    (l.flatMap g).eraseDups.Pairwise fun v w =>
      ∃ n m, FirstAt (fun a v => v ∈ g a) l v n ∧ FirstAt (fun a v => v ∈ g a) l w m ∧ (n < m ∨ (n = m ∧ v < w)) := by
  induction l with
  | nil => exact .nil
  | cons a l ih =>
    rw [List.flatMap_cons, List.eraseDups_append, eraseDups_of_nodup ((hg a).imp ne_of_lt), List.removeAll,
      eraseDups_filter, List.pairwise_append]
    refine ⟨(hg a).imp_of_mem fun {v w} hv hw hlt => ⟨0, 0, firstAt_head hv, firstAt_head hw, .inr ⟨rfl, hlt⟩⟩, ?_,
      fun v hv w hw => ?_⟩
    · refine (ih.filter _).imp_of_mem fun {v w} hv hw hfirst => ?_
      obtain ⟨n, m, hn, hm, hlt⟩ := hfirst
      have hnew {u : Nat} (hu : u ∈ (l.flatMap g).eraseDups.filter fun u => !(g a).elem u) : u ∉ g a := by
        simpa using (List.mem_filter.1 hu).2
      exact ⟨n + 1, m + 1, hn.cons (hnew hv), hm.cons (hnew hw), by omega⟩
    · obtain ⟨hmem, hnew⟩ := List.mem_filter.1 hw
      have hnew : w ∉ g a := by simpa using hnew
      obtain ⟨m, hm⟩ := exists_firstAt (gives := fun a v => v ∈ g a) (List.mem_flatMap.1 (List.mem_eraseDups.1 hmem))
      exact ⟨0, m + 1, firstAt_head hv, hm.cons hnew, .inl (Nat.succ_pos m)⟩

/-! ## The valves an ORDER addresses (R160) -/

/-- The item addresses the valve: its action is MOVE, STOP or QUERY, and its channel is that of the valve, at every
station where the frame goes to all of them. -/
def Part.addresses (p : Part) (f : Frame) (j : Item) (v : Nat) (y : Valve) : Prop :=
  (j.code = 17 ∨ j.code = 18 ∨ j.code = 19) ∧
    ((f.dst = 65535#16 ∧ y.kind = .actuated ∧ y.channel = j.channel) ∨
      (f.dst ≠ 65535#16 ∧ p.channel? f.dst.toNat j.channel = some (.valve v)))

theorem isActionItem_iff (j : Item) : isActionItem j = true ↔ j.code = 17 ∨ j.code = 18 ∨ j.code = 19 := by
  simp [isActionItem, or_assoc]

theorem toNat_eq_broadcast (w : Word) : w.toNat = 65535 ↔ w = 65535#16 := by bv_omega

section Addressed

variable {p : Part} (c : p.canonical) (f : Frame)

include c

theorem mem_addressed (j : Item) (v : Nat) :
    v ∈ p.addressed f.dst.toNat j ↔ ∃ y, p.valve? v = some y ∧ p.addresses f j v y := by
  simp only [Part.addressed, Part.addresses, ← isActionItem_iff, toNat_eq_broadcast]
  cases isActionItem j with
  | false => simp
  | true =>
    by_cases hd : f.dst = 65535#16
    · simp [hd, Table.mem_keys_filter c.valves, Part.valve?]
    · rcases hch : p.channel? f.dst.toNat j.channel with _ | ⟨w | k⟩
      · simp [hd]
      · by_cases hv : w = v
        · subst hv
          simp [hd, Option.isSome_iff_exists]
        · have hv' : v ≠ w := fun e => hv e.symm
          simp [hd, hv, hv']
      · simp [hd]

theorem addressed_pairwise (d : Nat) (j : Item) : (p.addressed d j).Pairwise (· < ·) := by
  unfold Part.addressed
  split_ifs
  · exact .nil
  · exact (Table.wf_iff_keys_pairwise _).1 (Table.wf_filter _ c.valves)
  · split
    · split_ifs
      · exact List.pairwise_singleton _ _
      · exact .nil
    · exact .nil

/-- The first item that addresses a valve, with the valve's record. -/
theorem exists_firstAt_addresses {v n : Nat} (h : FirstAt (fun j v => v ∈ p.addressed f.dst.toNat j) f.items v n) :
    ∃ y, p.valve? v = some y ∧ FirstAt (fun j v => p.addresses f j v y) f.items v n := by
  obtain ⟨⟨j, hj, hmem⟩, before⟩ := h
  obtain ⟨y, hy, ha⟩ := (mem_addressed c f j v).1 hmem
  exact ⟨y, hy, ⟨j, hj, ha⟩, fun k hk i hi hai => before k hk i hi ((mem_addressed c f i v).2 ⟨y, hy, hai⟩)⟩

theorem mem_heldValves (v : Nat) :
    v ∈ p.heldValves f ↔ ∃ y, p.valve? v = some y ∧ 0 < y.holdCount ∧ ∃ j ∈ f.items, p.addresses f j v y := by
  rw [Part.heldValves, List.mem_filter, List.mem_eraseDups, List.mem_flatMap]
  simp only [mem_addressed c, Part.isHeld]
  cases p.valve? v with
  | none => simp
  | some x => simp [and_comm]

/-- The held valves stand by the item that first addresses them, and then by id. -/
theorem heldValves_pairwise :
    (p.heldValves f).Pairwise fun v w =>
      ∃ n m, (∃ y, p.valve? v = some y ∧ FirstAt (fun j v => p.addresses f j v y) f.items v n) ∧
        (∃ y, p.valve? w = some y ∧ FirstAt (fun j v => p.addresses f j v y) f.items w m) ∧
        (n < m ∨ (n = m ∧ v < w)) := by
  refine ((pairwise_eraseDups_flatMap (addressed_pairwise c f.dst.toNat) f.items).imp ?_).filter _
  rintro v w ⟨n, m, hn, hm, hlt⟩
  exact ⟨n, m, exists_firstAt_addresses c f hn, exists_firstAt_addresses c f hm, hlt⟩

/-- The holder that a notice names is the one of the lowest record (R161). -/
theorem firstHolder_lowest {v r : Nat} {j : Incident} (hj : p.incident? r = some j) (hv : j.holds v = true)
    (hlow : ∀ r' j', p.incident? r' = some j' → j'.holds v = true → r ≤ r') : p.firstHolder v = j.number := by
  rw [Part.firstHolder, Table.find?_lowest c.records (f := fun i => i.holds v) hj hv hlow]

end Addressed

/-! ## Downstream routing (R153, R159) -/

section Route

variable {p : Part} {f : Frame}

theorem linesTo_broadcast (p : Part) : p.linesTo 65535 = fieldLines := rfl

/-- A destination of no known line, and not shut, is answered with every field line. -/
theorem linesTo_unrouted {address : Nat} (hs : ¬p.shut address)
    (hl : ∀ l, ¬∃ n e, p.station? address = some (n, e) ∧ e.line = some l) : p.linesTo address = fieldLines := by
  unfold Part.linesTo
  split_ifs
  · rfl
  · rcases he : p.station? address with _ | ⟨n, e⟩
    · rfl
    · have hopen : (e.blocked && p.isActive) = false := by
        rw [Bool.eq_false_iff, Ne, Bool.and_eq_true, isActive_iff]
        exact fun ⟨hb, hm⟩ => hs ⟨n, e, he, hb, hm⟩
      have hline : e.line = none := Option.eq_none_iff_forall_ne_some.2 fun l h => hl l ⟨n, e, he, h⟩
      simp [hopen, hline]

theorem routeDown_shut (h : p.linesTo f.dst.toNat = []) :
    p.routeDown f = { p with counters := p.counters.blockedDrop } := by
  rw [Part.routeDown, h]

theorem routeDown_lines {l : Line} {ls : List Line} (h : p.linesTo f.dst.toNat = l :: ls) :
    p.routeDown f = (l :: ls).foldl (fun q l => q.passFrame l f) p := by
  rw [Part.routeDown, h]

theorem anyPlace_iff (p : Part) (f : Frame) :
    p.anyPlace f = true ↔ ∃ l ∈ p.linesTo f.dst.toNat, ((p.line l).queues.get (p.classOf f)).length < 16 := by
  simp only [Part.anyPlace, List.any_eq_true, hasPlace_iff]

end Route

end Sys2Proof.Machine
end

