-- ==== Sys2Proof/Proofs/ControlFrames.lean ====
section
/-! PROOFS. A frame on the control line, and the override of held valves (O49). -/

namespace Sys2Proof.Machine

/-! ## Counted, dropped and handed over (R155, R156, R163) -/

section Received

variable {p : Part} {l : Line} {bytes : List Byte} {f : Frame} {k : FrameKind}

theorem countFrame_eq (b : p.bounded) (l : Line) :
    p.countFrame l = p.setLine l { p.line l with received := min 65535 ((p.line l).received + 1) } := by
  obtain ⟨-, hreceived, -, -⟩ := b.lines l
  rw [Part.countFrame, raise_eq_min hreceived]

theorem dropFrame_countFrame (b : p.bounded) (l : Line) :
    (p.countFrame l).dropFrame l =
      p.setLine l { p.line l with
        received := min 65535 ((p.line l).received + 1), crcDrops := min 65535 ((p.line l).crcDrops + 1) } := by
  obtain ⟨-, -, hdrops, -⟩ := b.lines l
  simp only [countFrame_eq b, Part.dropFrame, line_setLine_self, setLine_setLine, raise_eq_min hdrops]

theorem blockedDrop_eq (b : p.bounded) :
    ({ p with counters := p.counters.blockedDrop } : Part) =
      { p with counters := { p.counters with blockedDrops := min 65535 (p.counters.blockedDrops + 1) } } := by
  obtain ⟨-, hblocked, -⟩ := b.counters
  rw [Counters.blockedDrop, raise_eq_min hblocked]

theorem receive_unread (h : readFrame bytes = none) : p.receive l bytes = (p.countFrame l).dropFrame l := by
  simp only [Part.receive, h]

theorem receive_control (h : readFrame bytes = some (f, k)) :
    p.receive .control bytes = (p.countFrame .control).controlFrame f k := by
  simp only [Part.receive, h, if_true]

theorem controlFrame_handed (h : f.dst.toNat = p.mgmt.ownAddress) :
    p.controlFrame f .manage = { p with mgmt := { p.mgmt with handed := p.mgmt.handed ++ [f.order] } } := by
  rw [Part.controlFrame, if_pos h, if_pos rfl]

theorem controlFrame_dropped (h : f.dst.toNat = p.mgmt.ownAddress) (hk : k ≠ .manage) :
    p.controlFrame f k = p.dropFrame .control := by
  rw [Part.controlFrame, if_pos h, if_neg hk]

theorem controlFrame_passed (h : f.dst.toNat ≠ p.mgmt.ownAddress) (hk : k ≠ .order) :
    p.controlFrame f k = p.routeDown f := by
  rw [Part.controlFrame, if_neg h, if_neg hk]

theorem controlFrame_order (h : f.dst.toNat ≠ p.mgmt.ownAddress) : p.controlFrame f .order = p.controlOrder f := by
  rw [Part.controlFrame, if_neg h, if_pos rfl]

end Received

/-! ## The hold check (R160 to R162, R169) -/

/-- The frame's override mark is set, and every one of the valves permits the override (R162). -/
def Part.mayOverride (p : Part) (f : Frame) (vs : List Nat) : Prop :=
  f.ctl.getLsbD 1 = true ∧ ∀ w ∈ vs, ∃ y, p.valve? w = some y ∧ y.overridePermitted = true

section Held

variable {p : Part} {f : Frame} {v : Nat} {vs : List Nat}

theorem permits_iff (p : Part) (v : Nat) :
    p.permits v = true ↔ ∃ y, p.valve? v = some y ∧ y.overridePermitted = true := by
  unfold Part.permits
  cases p.valve? v <;> simp

theorem mayOverride_iff (p : Part) (f : Frame) (vs : List Nat) :
    (f.override && vs.all p.permits) = true ↔ p.mayOverride f vs := by
  simp only [Bool.and_eq_true, List.all_eq_true, permits_iff, Part.mayOverride, Frame.override]

theorem controlOrder_unheld (h : p.heldValves f = []) : p.controlOrder f = p.routeDown f := by
  rw [Part.controlOrder, h]

variable (h : p.heldValves f = v :: vs)

include h

theorem controlOrder_overrides (hm : p.mayOverride f (v :: vs)) (hplace : p.anyPlace f = true) :
    p.controlOrder f = (p.routeDown f).overrideAll f.tag.toNat (v :: vs) := by
  simp only [Part.controlOrder, h, (mayOverride_iff p f _).2 hm, hplace, if_true]

theorem controlOrder_withheld (hm : ¬p.mayOverride f (v :: vs)) (ha : p.mgmt.mode = .active) :
    p.controlOrder f = p.orderHeld f v false := by
  rw [← mayOverride_iff] at hm
  simp only [Part.controlOrder, h, if_neg hm, (isActive_iff p).2 ha, if_true]

theorem controlOrder_forwarded (hm : ¬p.mayOverride f (v :: vs)) (ha : p.mgmt.mode = .transparent)
    (hplace : p.anyPlace f = true) : p.controlOrder f = (p.routeDown f).orderHeld f v true := by
  rw [← mayOverride_iff] at hm
  have hactive : ¬p.isActive = true := by simp [(isActive_eq_false_iff p).2 ha]
  simp only [Part.controlOrder, h, if_neg hm, if_neg hactive, hplace, if_true]

/-- An ORDER that no line has a place for is dropped at its lines, and nothing else comes of it. -/
theorem controlOrder_noPlace (hm : p.mayOverride f (v :: vs) ∨ p.mgmt.mode = .transparent)
    (hplace : ¬p.anyPlace f = true) : p.controlOrder f = p.routeDown f := by
  by_cases hmay : p.mayOverride f (v :: vs)
  · simp only [Part.controlOrder, h, (mayOverride_iff p f _).2 hmay, if_neg hplace, if_true]
  · have hactive : ¬p.isActive = true := by simp [(isActive_eq_false_iff p).2 (hm.resolve_left hmay)]
    rw [← mayOverride_iff] at hmay
    simp only [Part.controlOrder, h, if_neg hmay, if_neg hactive, if_neg hplace]

end Held

theorem w16_toNat (w : Word) : w16 w.toNat = w := by simp [w16]

theorem item_tag (a : Word) (tag : Byte) (n : Nat) :
    item a (w8 tag.toNat n) =
      ⟨BitVec.ofNat 8 (a.toNat / 256), BitVec.ofNat 8 a.toNat, tag, BitVec.ofNat 8 n⟩ := by
  have hhi := hi_w16 a.toNat
  have hlo := lo_w16 a.toNat
  rw [w16_toNat] at hhi hlo
  simp [item, Item.ofWords, w8, hhi, hlo]

/-- The notice and trace entry of a held ORDER, byte by byte. -/
theorem orderHeld_eq (f : Frame) (v : Nat) (forwarded : Bool) (p : Part) :
    p.orderHeld f v forwarded =
      (p.notice .orderHeld
          [⟨BitVec.ofNat 8 (f.dst.toNat / 256), BitVec.ofNat 8 f.dst.toNat, f.tag, BitVec.ofNat 8 (flagNum forwarded)⟩,
            item (w16 v) (w16 (p.firstHolder v))]).record .orderHeld
        (some (p.firstHolder v)) (some (.valve v)) (some f.tag.toNat) := by
  rw [Part.orderHeld, item_tag]

/-! ## Override (R125, R162) -/

theorem writeOper_unloaded {p : Part} {v : Nat} (h : p.valve? v = none) (o : Operability) : p.writeOper v o = p := by
  rw [Part.writeOper, h]

/-- A valve given over, after the write of its OPERABILITY: its context, waiting entries and requests end, and the
incidents that hold it are held. -/
theorem overrideValve_of_write {p a : Part} {v : Nat} (h : p.writeOper v .local = a) {tag : Nat} :
    p.overrideValve tag v =
      (Part.holdOverridden v
        { a.endContext v with
          seq :=
            { (a.endContext v).seq with
              waiting := (a.endContext v).seq.waiting.filter fun w => decide (w.valve ≠ v)
              crew := (a.endContext v).seq.crew.filter fun k => decide (k.valve ≠ v) } }).record
        .override none (some (.valve v)) (some tag) := by
  subst h
  rfl

/-- An override's disturbances: one for each valve whose OPERABILITY is no longer what it was, in order. -/
theorem overrideAll_eq (tag : Nat) (vs : List Nat) (p : Part) :
    p.overrideAll tag vs =
      let w := vs.foldl (fun q v => q.overrideValve tag v) p
      (vs.filter fun v => decide (p.operOf v ≠ w.operOf v)).foldl (fun q v => q.announce (.ofOper v)) w := by
  simp only [Part.overrideAll, Part.announceAll, flatMap_operChange, List.foldl_map]

/-- Settles O49: a frame on the control line by its reading, its destination and kind, its lines and the hold check; then
the override valve by valve, and the valves that an incident holds. -/
theorem controlFrames : Obligations.ControlFrames := by
  refine ⟨fun bytes s canon bound => ?_, fun p tag vs => ?_, holds_iff⟩
  · intro i x p drop
    have hp : s.part.countFrame .control = p := countFrame_eq bound .control
    have hdrop : p.dropFrame .control = drop := hp ▸ dropFrame_countFrame bound .control
    have ends {e : Part} (he : s.part.receive .control bytes = e) (h : e.still) :
        exec i s = .next { s with part := e } := State.run_rest (f := Part.receive .control bytes) rfl he h
    refine ⟨fun h => ends ((receive_unread h).trans (hp ▸ hdrop)), fun f k hread => ?_⟩
    have c : p.canonical := hp ▸ (keeps_countFrame s.part .control).canonical canon
    have b : p.bounded := hp ▸ (keeps_countFrame s.part .control).bounded bound
    have comes {e : Part} (he : p.controlFrame f k = e) : s.part.receive .control bytes = e :=
      (receive_control hread).trans ((congrArg (Part.controlFrame f k) hp).trans he)
    intro own lines handed blocked copied shut lined route taken notice room addressed firstBy
    refine ⟨mem_heldValves c f, heldValves_pairwise c f, fun v r j hj hv hlow => firstHolder_lowest c hj hv hlow,
      fun h hk => ends (comes ?_), fun h hk => ends (comes ?_), ?_, fun h hk => ends (comes ?_),
      fun h hk hfree => ends (comes ?_), fun v vs h hk hheld => ?_⟩
    · exact hk ▸ controlFrame_handed h
    · exact (controlFrame_dropped h hk).trans hdrop
    · have hne (hd : f.dst ≠ 65535#16) : f.dst.toNat ≠ 65535 := mt (toNat_eq_broadcast f.dst).1 hd
      refine ⟨fun hd => ?_, fun hd hs => ?_, fun l hd hs hl => ?_, fun hd hs hl => ?_⟩
      · exact routeDown_lines (by rw [(toNat_eq_broadcast f.dst).2 hd]; exact linesTo_broadcast p)
      · exact (routeDown_shut (linesTo_shut (hne hd) hs)).trans (blockedDrop_eq b)
      · obtain ⟨n, e, he, hline⟩ := hl
        exact routeDown_lines (linesTo_routed (hne hd) hs he hline)
      · exact routeDown_lines (linesTo_unrouted hs hl)
    · exact controlFrame_passed h hk
    · exact hk ▸ (controlFrame_order h).trans (controlOrder_unheld hfree)
    · intro permitted fits
      have order {e : Part} (he : p.controlOrder f = e) : taken e := ends (comes (hk ▸ (controlFrame_order h).trans he))
      refine ⟨fun hm ha => order ?_, fun hm ha hfits => order ?_, fun hm hfits => order ?_, fun hm hfits => order ?_⟩
      · exact (controlOrder_withheld hheld hm ha).trans (orderHeld_eq f v false p)
      · exact (controlOrder_forwarded hheld hm ha ((anyPlace_iff p f).2 hfits)).trans (orderHeld_eq f v true _)
      · exact controlOrder_overrides hheld hm ((anyPlace_iff p f).2 hfits)
      · exact controlOrder_noPlace hheld hm fun hplace => hfits ((anyPlace_iff p f).1 hplace)
  · intro give w
    have hgive : (fun q v => Part.overrideValve tag v q) = give := by
      funext q v
      dsimp only [give]
      split
      · next x hx => exact overrideValve_of_write (writeOper_eq hx .local)
      · next hx => exact overrideValve_of_write (writeOper_unloaded hx .local)
    rw [overrideAll_eq, hgive]
    rfl

end Sys2Proof.Machine
end

