-- ==== Sys2Proof/Proofs/VerificationWindows.lean ====
section
/-! PROOFS. The verification of an isolation: its sensors, the end of its window, the early verdict and its start (O53). -/

namespace Sys2Proof.Machine

/-! ## The sensors of a verification (R135) -/

/-- The sensor is an area pressure sensor of the incident. -/
def Incident.sensedBy (i : Incident) (x : Sensor) : Prop := x.kind = .pressure ∧ x.status = .fresh ∧ x.place ∈ i.area

/-- The sensor is an inlet meter of the incident's zone. -/
def Incident.meteredBy (i : Incident) (x : Sensor) : Prop := x.kind = .flow ∧ x.place = i.zone

/-- The sensor's last value stands at or below the DRAINED threshold of the incident's zone. -/
def Part.readsDrained (p : Part) (i : Incident) (x : Sensor) : Prop :=
  ∃ v, x.lastValue = some v ∧ v ≤ (p.zone i.zone).drained

theorem mem_areaSensors {p : Part} {i : Incident} {e : Nat × Sensor} :
    e ∈ p.areaSensors i ↔ e ∈ p.watch.sensors ∧ i.sensedBy e.2 := by
  simp [Part.areaSensors, Incident.sensedBy, and_assoc]

theorem mem_inletMeters {p : Part} {i : Incident} {e : Nat × Sensor} :
    e ∈ p.inletMeters i.zone ↔ e ∈ p.watch.sensors ∧ i.meteredBy e.2 := by
  simp [Part.inletMeters, Incident.meteredBy]

theorem atOrBelow_iff (x : Sensor) (n : Nat) : x.atOrBelow n = true ↔ ∃ v, x.lastValue = some v ∧ v ≤ n := by
  unfold Sensor.atOrBelow
  cases x.lastValue <;> simp

theorem isEmpty_areaSensors {p : Part} {i : Incident} :
    (p.areaSensors i).isEmpty = true ↔ ¬∃ e ∈ p.watch.sensors, i.sensedBy e.2 := by
  simp [List.isEmpty_iff, List.eq_nil_iff_forall_not_mem, mem_areaSensors]

theorem isEmpty_inletMeters {p : Part} {i : Incident} :
    (p.inletMeters i.zone).isEmpty = true ↔ ¬∃ e ∈ p.watch.sensors, i.meteredBy e.2 := by
  simp [List.isEmpty_iff, List.eq_nil_iff_forall_not_mem, mem_inletMeters]

theorem drained_iff {p : Part} {i : Incident} :
    p.drained i = true ↔ ∀ e ∈ p.watch.sensors, i.sensedBy e.2 → p.readsDrained i e.2 := by
  simp only [Part.drained, List.all_eq_true, mem_areaSensors, atOrBelow_iff, and_imp, Part.readsDrained]

theorem not_drained_iff {p : Part} {i : Incident} :
    p.drained i = false ↔ ∃ e ∈ p.watch.sensors, i.sensedBy e.2 ∧ ¬p.readsDrained i e.2 := by
  simp only [← Bool.not_eq_true, drained_iff, not_forall, exists_prop]

/-- Every inlet meter is FRESH and IN_BAND. -/
theorem all_inletMeters_calm {p : Part} {i : Incident} :
    ((p.inletMeters i.zone).all fun e => e.2.status = .fresh && e.2.excursion = .inBand) = true ↔
      ∀ e ∈ p.watch.sensors, i.meteredBy e.2 → e.2.status = .fresh ∧ e.2.excursion = .inBand := by
  simp only [List.all_eq_true, mem_inletMeters, and_imp, Bool.and_eq_true, decide_eq_true_eq]

theorem all_inletMeters_unfresh {p : Part} {i : Incident} :
    ((p.inletMeters i.zone).all fun e => e.2.status ≠ .fresh) = true ↔
      ¬∃ e ∈ p.watch.sensors, i.meteredBy e.2 ∧ e.2.status = .fresh := by
  simp only [List.all_eq_true, mem_inletMeters, and_imp, decide_eq_true_eq, not_exists, not_and, ne_eq]

/-! ## What the end of a window gives (R137) -/

section Verdict

variable {p : Part} {i : Incident}

theorem windowVerdict_sensed (h : ∃ e ∈ p.watch.sensors, i.sensedBy e.2) :
    p.windowVerdict i = if p.drained i then some .tight else none :=
  if_neg (mt isEmpty_areaSensors.1 (not_not_intro h))

theorem windowVerdict_unsensed (h : ¬∃ e ∈ p.watch.sensors, i.sensedBy e.2) :
    p.windowVerdict i =
      if !(p.inletMeters i.zone).isEmpty && (p.inletMeters i.zone).all fun e => e.2.status = .fresh && e.2.excursion = .inBand
      then some .inflowOnly
      else if (p.inletMeters i.zone).all fun e => e.2.status ≠ .fresh then some .unverified
      else none :=
  if_pos (isEmpty_areaSensors.2 h)

theorem windowVerdict_tight (h : ∃ e ∈ p.watch.sensors, i.sensedBy e.2)
    (hd : ∀ e ∈ p.watch.sensors, i.sensedBy e.2 → p.readsDrained i e.2) : p.windowVerdict i = some .tight :=
  (windowVerdict_sensed h).trans (if_pos (drained_iff.2 hd))

theorem windowVerdict_undrained (h : ∃ e ∈ p.watch.sensors, i.sensedBy e.2 ∧ ¬p.readsDrained i e.2) :
    p.windowVerdict i = none := by
  obtain ⟨e, he, hs, hd⟩ := h
  exact (windowVerdict_sensed ⟨e, he, hs⟩).trans (if_neg (by simpa using not_drained_iff.2 ⟨e, he, hs, hd⟩))

theorem windowVerdict_inflowOnly (h : ¬∃ e ∈ p.watch.sensors, i.sensedBy e.2)
    (hm : ∃ e ∈ p.watch.sensors, i.meteredBy e.2)
    (hall : ∀ e ∈ p.watch.sensors, i.meteredBy e.2 → e.2.status = .fresh ∧ e.2.excursion = .inBand) :
    p.windowVerdict i = some .inflowOnly := by
  have hne : (p.inletMeters i.zone).isEmpty = false := by
    rw [← Bool.not_eq_true, isEmpty_inletMeters]; exact not_not_intro hm
  rw [windowVerdict_unsensed h, hne, all_inletMeters_calm.2 hall]; rfl

theorem windowVerdict_unverified (h : ¬∃ e ∈ p.watch.sensors, i.sensedBy e.2)
    (hm : ¬∃ e ∈ p.watch.sensors, i.meteredBy e.2 ∧ e.2.status = .fresh) : p.windowVerdict i = some .unverified := by
  rw [windowVerdict_unsensed h, if_neg, if_pos (all_inletMeters_unfresh.2 hm)]
  rw [Bool.and_eq_true, all_inletMeters_calm, Bool.not_eq_true', ← Bool.not_eq_true, isEmpty_inletMeters, not_not]
  rintro ⟨⟨e, he, hmet⟩, hall⟩
  exact hm ⟨e, he, hmet, (hall e he hmet).1⟩

theorem windowVerdict_unsteady (h : ¬∃ e ∈ p.watch.sensors, i.sensedBy e.2)
    (hf : ∃ e ∈ p.watch.sensors, i.meteredBy e.2 ∧ e.2.status = .fresh)
    (hm : ∃ e ∈ p.watch.sensors, i.meteredBy e.2 ∧ ¬(e.2.status = .fresh ∧ e.2.excursion = .inBand)) :
    p.windowVerdict i = none := by
  rw [windowVerdict_unsensed h, if_neg, if_neg (mt all_inletMeters_unfresh.1 (not_not_intro hf))]
  rw [Bool.and_eq_true, all_inletMeters_calm]
  obtain ⟨e, he, hmet, hno⟩ := hm
  exact fun hall => hno (hall.2 e he hmet)

end Verdict

/-! ## The end of a window (R55, R137) -/

section End

variable {p : Part} {r : Nat} {i : Incident} {c : VerifyCtx}

theorem giveVerdict_eq (hi : p.incident? r = some i) (v : Verdict) (sensor : Option Nat) :
    p.giveVerdict r v sensor =
      (((p.record .verifyEnd (some i.number) (sensor.map Subject.sensor) (some v.num)).removeVerify r).moveIncident r
        .isolated fun x => { x with verdict := some v }).notice .isolated [item (w16 i.number) (w16 v.num)] := by
  simp only [Part.giveVerdict, hi]

theorem giveNotTight_eq (hi : p.incident? r = some i) :
    p.giveNotTight r =
      (((p.record .verifyEnd (some i.number) none (some 4)).removeVerify r).moveIncident r .notTight id).notice .notTight
        [item (w16 i.number) 0#16] := by
  simp only [Part.giveNotTight, hi]

theorem verifyExpiry_stopped (h : Table.look p.ver r = none) : p.verifyExpiry r = p := by
  simp only [Part.verifyExpiry, h]

theorem verifyExpiry_running (hc : Table.look p.ver r = some c) :
    p.verifyExpiry r = ({ p with now := max p.now c.due }).windowExpired r := by
  simp only [Part.verifyExpiry, hc, advanceTo_eq]

theorem windowExpired_verdict (hi : p.incident? r = some i) (hst : i.state = .verifying) {v : Verdict}
    (hv : p.windowVerdict i = some v) : p.windowExpired r = p.giveVerdict r v none := by
  simp only [Part.windowExpired, hi, hst, hv, if_true]

theorem windowExpired_notTight (hi : p.incident? r = some i) (hst : i.state = .verifying)
    (hv : p.windowVerdict i = none) : p.windowExpired r = p.giveNotTight r := by
  simp only [Part.windowExpired, hi, hst, hv, if_true]

end End

/-! ## The early verdict (R136) -/

section Early

variable {p : Part} {r k : Nat} {x : Sensor} {c : VerifyCtx} {i : Incident}

theorem earlyTest_open (hc : Table.look p.ver r = some c) (hi : p.incident? r = some i) (hst : i.state = .verifying) :
    p.earlyTest k x r = if x.place ∈ i.area ∧ p.drained i = true then p.giveVerdict r .tight (some k) else p := by
  simp only [Part.earlyTest, hi, hc, hst, decide_true, Bool.true_and, Bool.and_eq_true, List.contains_iff_mem]

theorem earlyTest_unopened (h : Table.look p.ver r = none ∨ ∀ i, p.incident? r = some i → i.state ≠ .verifying) :
    p.earlyTest k x r = p := by
  unfold Part.earlyTest
  split
  · next i c hi hc =>
    obtain h | h := h
    · cases h.symm.trans hc
    · simp [h i hi]
  · rfl

end Early

/-! ## The start conditions (R132, R133) -/

theorem servedBy_eq_false_iff (p : Part) (v r : Nat) :
    p.servedBy v r = false ↔ ∀ c, p.context? v = some c → r ∉ c.serves := by
  simp only [← Bool.not_eq_true, servedBy_iff, not_exists, not_and]

theorem satisfied_iff (p : Part) (r : Nat) (i : Incident) (b : BoundaryEntry) :
    p.satisfied r i b = true ↔ ∃ x, p.valve? b.valve = some x ∧
      (b.action = .none → x.opening = some 0 ∨ (x.opening = none ∧ x.normal = .closed)) ∧
      (b.action = .close → x.kind = .manual → x.opening = some 0) ∧
      (b.action = .close → x.kind = .actuated → (∃ t ∈ i.touched, t.valve = b.valve) ∧
        (∀ c, p.context? b.valve = some c → r ∉ c.serves) ∧
        (x.opening = some 0 ∨ x.opening = some 1 ∨ x.opening = some 2)) := by
  unfold Part.satisfied
  cases hx : p.valve? b.valve with
  | none => simp
  | some x =>
    cases ha : b.action with
    | none => simp [countsAsClosed_iff]
    | close =>
      cases hk : x.kind with
      | manual => simp [hk]
      | actuated => simp [hk, touches_iff, servedBy_eq_false_iff, or_assoc, and_assoc]

theorem testVerify_eq {p : Part} {r : Nat} {i : Incident} (hi : p.incident? r = some i) :
    p.testVerify r =
      if i.state = .closing ∧ ∀ b ∈ i.boundary, p.satisfied r i b = true then p.enterVerifying r else p := by
  simp only [Part.testVerify, hi, Bool.and_eq_true, decide_eq_true_eq, List.all_eq_true]

/-! ## The start of a window (R134) -/

/-- A record moves to VERIFYING from another state, its lists standing and its HELD_REASON and VERDICT gone. -/
theorem moveIncident_verifying {p : Part} {r : Nat} {i : Incident} (hi : p.incident? r = some i)
    (hst : i.state ≠ .verifying) :
    p.moveIncident r .verifying id =
      ({ p with inc := { p.inc with
          records := Table.put p.inc.records r { i with state := .verifying, heldReason := none, verdict := none } } }).record
        .state (some i.number) none (some 5) := by
  simp only [Part.moveIncident, hi, if_true, if_neg hst, putIncident_counted (j := id (i.enter .verifying)) hi rfl]
  rfl

theorem enterVerifying_eq {p : Part} {r : Nat} {i : Incident} (hi : p.incident? r = some i) :
    p.enterVerifying r =
      let q := p.moveIncident r .verifying id
      let n := (q.zone i.zone).verifyWindow
      (q.putVerify r { number := i.number, start := q.now, length := n, due := q.now + 10 * n }).record .verifyStart
        (some i.number) none (some n) := by
  simp only [Part.enterVerifying, hi]

/-- Settles O53: the expiry by the five results of R137, which `windowVerdict` gives; the early test; the start conditions
and the start. -/
theorem verifyWindow : Obligations.VerifyWindow := by
  unfold Obligations.VerifyWindow
  intro mine low meter any all ended verdict
  refine ⟨fun s r c i hc hi hst => ?_, fun s r h => State.run_rest (f := Part.verifyExpiry r) rfl (verifyExpiry_stopped h),
    fun s r => ⟨_, rfl, rfl⟩, fun p r k x c j hc hj hst => ?_, fun p r k x h => earlyTest_unopened h,
    fun p r j hj => ?_, fun q r j hj hst => ?_⟩
  · intro p loose taken
    have hp : p.incident? r = some i := hi
    have ends {e : Part} (he : p.windowExpired r = e) : taken e :=
      State.run_rest (f := Part.verifyExpiry r) rfl ((verifyExpiry_running hc).trans he)
    have gives (v : Verdict) (hv : p.windowVerdict i = some v) : taken (verdict r i none v v.num p) :=
      ends ((windowExpired_verdict hp hst hv).trans (giveVerdict_eq hp v none))
    have fails (hv : p.windowVerdict i = none) : taken loose :=
      ends ((windowExpired_notTight hp hst hv).trans (giveNotTight_eq hp))
    refine ⟨fun h hd => ?_, fun h => ?_, fun h hm hall => ?_, fun h hm => ?_, fun h hf hm => ?_⟩
    · exact gives .tight (windowVerdict_tight h hd)
    · exact fails (windowVerdict_undrained h)
    · exact gives .inflowOnly (windowVerdict_inflowOnly h hm hall)
    · exact gives .unverified (windowVerdict_unverified h hm)
    · exact fails (windowVerdict_unsteady h hf hm)
  · rw [earlyTest_open hc hj hst]
    refine ⟨fun hplace hd => ?_, fun h => if_neg ?_⟩
    · exact (if_pos ⟨hplace, drained_iff.2 hd⟩).trans (giveVerdict_eq hj .tight (some k))
    · rintro ⟨hplace, hd⟩
      exact h.elim (· hplace) fun hno => Bool.false_ne_true ((not_drained_iff.2 hno).symm.trans hd)
  · intro met
    have hmet : (j.state = .closing ∧ ∀ b ∈ j.boundary, p.satisfied r j b = true) ↔ met := by
      simp only [satisfied_iff, met]
    rw [testVerify_eq hj]
    exact ⟨fun h => if_pos (hmet.2 h), fun h => if_neg (mt hmet.1 h)⟩
  · rw [enterVerifying_eq hj, moveIncident_verifying hj hst]
    rfl

end Sys2Proof.Machine
end

