-- ==== Sys2Proof/Proofs/StationOrders.lean ====
section
/-! PROOFS. The orders on stations (O35, O36), and the aging of the Station Table (O37). -/

namespace Sys2Proof.Machine

/-! ## Addresses, lines and entry numbers (R142, R182) -/

theorem unnamable_iff (p : Part) (a : Nat) :
    p.unnamable a = true ↔ a = 0 ∨ a = 65535 ∨ a = p.mgmt.ownAddress := by
  simp only [Part.unnamable, Bool.or_eq_true, decide_eq_true_eq, or_assoc]

/-- A line number as the field carries it. -/
theorem fieldLineOf_toNat (w : Word) :
    fieldLineOf w.toNat =
      if w = 0#16 then some .f0 else if w = 1#16 then some .f1 else if w = 2#16 then some .f2
      else if w = 3#16 then some .f3 else none := by
  have toNat (k : Nat) (hk : k < 65536) : w.toNat = k ↔ w = BitVec.ofNat 16 k := by
    rw [← BitVec.toNat_inj]; simp [Nat.mod_eq_of_lt hk]
  simp only [fieldLineOf, toNat 0 (by decide), toNat 1 (by decide), toNat 2 (by decide), toNat 3 (by decide)]

theorem fieldLineOf_eq_none_iff (n : Nat) : fieldLineOf n = none ↔ 3 < n := by
  unfold fieldLineOf
  split_ifs <;> simp <;> omega

theorem stationLineOf_eq (w : Word) :
    stationLineOf w = if w ≠ 65535#16 ∧ 3 < w.toNat then none else some (fieldLineOf w.toNat) := by
  unfold stationLineOf optionalId
  by_cases h : w = 65535#16
  · subst h; rfl
  · by_cases h3 : 3 < w.toNat
    · simp [h, h3, (fieldLineOf_eq_none_iff w.toNat).2 h3]
    · obtain ⟨l, hl⟩ := Option.ne_none_iff_exists'.1 (mt (fieldLineOf_eq_none_iff w.toNat).1 h3)
      simp [h, h3, hl]

theorem freeEntry_lowest {p : Part} {n : Nat} (hn : n < 512) (free : Table.look p.stations.entries n = none)
    (low : ∀ k, k < n → Table.look p.stations.entries k ≠ none) : p.freeEntry = some n := by
  rw [Part.freeEntry, Table.firstFree, List.find?_range_eq_some]
  refine ⟨by rw [free]; rfl, List.mem_range.2 hn, fun k hk => ?_⟩
  simpa [Option.isSome_iff_ne_none] using low k hk

theorem freeEntry_eq_none_iff (p : Part) :
    p.freeEntry = none ↔ ∀ n, n < 512 → Table.look p.stations.entries n ≠ none := by
  simp [Part.freeEntry, Table.firstFree]

/-! ## The LEARNED entry heard longest ago (R150) -/

/-- The better candidate for recycling: a LEARNED entry heard before the best one so far. -/
def olderLearned (best : Option (Nat × Station)) (e : Nat × Station) : Option (Nat × Station) :=
  if e.2.kind = .learned then
    match best with
    | none => some e
    | some b => if e.2.heard.getD 0 < b.2.heard.getD 0 then some e else best
  else best

theorem oldestLearned_eq (p : Part) : p.oldestLearned = p.stations.entries.foldl olderLearned none := rfl

theorem olderLearned_configured {e : Nat × Station} (h : e.2.kind ≠ .learned) (best : Option (Nat × Station)) :
    olderLearned best e = best := if_neg h

/-- The candidate of a list is a LEARNED entry of it, or was the candidate before. -/
theorem foldl_olderLearned_mem {l : List (Nat × Station)} {best : Option (Nat × Station)} {d : Nat × Station}
    (h : l.foldl olderLearned best = some d) : (d ∈ l ∧ d.2.kind = .learned) ∨ best = some d := by
  induction l generalizing best with
  | nil => exact .inr h
  | cons e l ih =>
    rcases ih h with ⟨hd, hk⟩ | hd
    · exact .inl ⟨List.mem_cons_of_mem _ hd, hk⟩
    · by_cases he : e.2.kind = .learned
      · have head (hed : e = d) : d ∈ e :: l ∧ d.2.kind = .learned := hed ▸ ⟨List.mem_cons_self, he⟩
        cases best with
        | none => exact .inl (head (by simpa [olderLearned, he] using hd))
        | some b =>
          simp only [olderLearned, he, if_true] at hd
          split_ifs at hd
          · exact .inl (head (Option.some.inj hd))
          · exact .inr hd
      · exact .inr (olderLearned_configured he best ▸ hd)

theorem foldl_olderLearned_stays {l : List (Nat × Station)} {e : Nat × Station}
    (h : ∀ d ∈ l, d.2.kind = .learned → e.2.heard.getD 0 ≤ d.2.heard.getD 0) :
    l.foldl olderLearned (some e) = some e := by
  induction l with
  | nil => rfl
  | cons d l ih =>
    have stays : olderLearned (some e) d = some e := by
      by_cases hd : d.2.kind = .learned
      · simp [olderLearned, hd, h d List.mem_cons_self hd]
      · exact olderLearned_configured hd _
    rw [List.foldl_cons, stays]
    exact ih fun d hd => h d (List.mem_cons_of_mem _ hd)

/-- An entry after those heard later, and before those not heard earlier, is the one recycled. -/
theorem foldl_olderLearned_first {a b : List (Nat × Station)} {e : Nat × Station} (he : e.2.kind = .learned)
    (ha : ∀ d ∈ a, d.2.kind = .learned → e.2.heard.getD 0 < d.2.heard.getD 0)
    (hb : ∀ d ∈ b, d.2.kind = .learned → e.2.heard.getD 0 ≤ d.2.heard.getD 0) :
    (a ++ e :: b).foldl olderLearned none = some e := by
  have meets : olderLearned (a.foldl olderLearned none) e = some e := by
    cases h : a.foldl olderLearned none with
    | none => simp [olderLearned, he]
    | some d =>
      obtain ⟨hd, hk⟩ := (foldl_olderLearned_mem h).resolve_right (by simp)
      simp [olderLearned, he, ha d hd hk]
  rw [List.foldl_append, List.foldl_cons, meets, foldl_olderLearned_stays hb]

theorem oldestLearned_earliest {p : Part} (c : p.canonical) {n : Nat} {o : Station}
    (ho : Table.look p.stations.entries n = some o) (hk : o.kind = .learned)
    (first : ∀ k c, Table.look p.stations.entries k = some c → c.kind = .learned →
      o.heard.getD 0 < c.heard.getD 0 ∨ (o.heard.getD 0 = c.heard.getD 0 ∧ n ≤ k)) :
    p.oldestLearned = some (n, o) := by
  obtain ⟨a, b, hsplit⟩ := List.append_of_mem (Table.mem_of_look ho)
  have rising := (Table.wf_iff_keys_pairwise _).1 c.entries
  have look (d : Nat × Station) (hd : d ∈ a ++ (n, o) :: b) : Table.look p.stations.entries d.1 = some d.2 :=
    Table.look_of_mem c.entries (hsplit ▸ hd)
  rw [hsplit, Table.keys, List.map_append, List.pairwise_append] at rising
  obtain ⟨-, -, before⟩ := rising
  rw [oldestLearned_eq, hsplit]
  refine foldl_olderLearned_first hk (fun d hd hdk => ?_) (fun d hd hdk => ?_)
  · have below : d.1 < n := before d.1 (List.mem_map_of_mem hd) n (by simp)
    have := first d.1 d.2 (look d (by simp [hd])) hdk
    dsimp only
    omega
  · have := first d.1 d.2 (look d (by simp [hd])) hdk
    dsimp only
    omega

theorem oldestLearned_none {p : Part} (h : ∀ k c, Table.look p.stations.entries k = some c → c.kind ≠ .learned)
    (c : p.canonical) : p.oldestLearned = none := by
  rw [oldestLearned_eq, Option.eq_none_iff_forall_ne_some]
  intro d hd
  obtain ⟨hmem, hk⟩ := (foldl_olderLearned_mem hd).resolve_right (by simp)
  exact h d.1 d.2 (Table.look_of_mem c.entries hmem) hk

/-! ## LOAD_STATION (R150) -/

section Reload

variable {p : Part} {n : Nat} {e y : Station}

theorem reloadStation_kept (h : e.blocked = y.blocked) : p.reloadStation n e y = p.putStation n y := if_pos h

theorem reloadStation_changed (h : e.blocked ≠ y.blocked) :
    p.reloadStation n e y =
      ((p.putStation n y).stationNotice p y.address).stationTrace .stationBlocked y.address (some (flagNum y.blocked)) :=
  if_neg h

end Reload

section LoadStation

variable {address line : Word} {secure blocked : Byte} {p : Part}

/-- The tests of R150 on a LOAD of a station, with the flag codes of the order. -/
def Part.stationArgsBad (p : Part) (address : Word) (secure blocked : Byte) (line : Word) : Prop :=
  address.toNat = 0 ∨ address.toNat = 65535 ∨ address.toNat = p.mgmt.ownAddress ∨ 1 < secure.toNat ∨ 1 < blocked.toNat ∨
    (line ≠ 65535#16 ∧ 3 < line.toNat) ∨ (secure = 1#8 ∧ line = 65535#16)

/-- A LOAD that gives no line, of a line field in its set, is one that leaves the line absent. -/
theorem fieldLineOf_eq_none_of_fit (h : ¬(line ≠ 65535#16 ∧ 3 < line.toNat)) :
    fieldLineOf line.toNat = none ↔ line = 65535#16 := by
  rw [fieldLineOf_eq_none_iff]
  refine ⟨fun h3 => by_contra fun hl => h ⟨hl, h3⟩, ?_⟩
  rintro rfl
  decide

theorem loadStation_bad (h : p.stationArgsBad address secure blocked line) :
    p.loadStation address secure blocked line = (p, .bare .badArgument) := by
  unfold Part.loadStation
  simp only [flagOf_eq, stationLineOf_eq]
  by_cases hs : 1 < secure.toNat
  · simp [hs]
  by_cases hb : 1 < blocked.toNat
  · simp [hs, hb]
  by_cases hl : line ≠ 65535#16 ∧ 3 < line.toNat
  · simp [hs, hb, hl]
  · have refused : p.unnamable address.toNat = true ∨ secure = 1#8 ∧ fieldLineOf line.toNat = none := by
      rw [unnamable_iff, fieldLineOf_eq_none_of_fit hl]
      simpa [Part.stationArgsBad, hs, hb, hl, or_assoc] using h
    simp [hs, hb, hl, refused]

variable (fit : ¬p.stationArgsBad address secure blocked line)

include fit

/-- The fields of a LOAD that passes the tests, as the order reads them. -/
theorem loadStation_fields :
    flagOf secure = some (decide (secure = 1#8)) ∧ flagOf blocked = some (decide (blocked = 1#8)) ∧
      stationLineOf line = some (fieldLineOf line.toNat) ∧
      (p.unnamable address.toNat || decide (secure = 1#8) && (fieldLineOf line.toNat).isNone) = false := by
  simp only [Part.stationArgsBad, not_or] at fit
  obtain ⟨h0, hall, hown, hs, hb, hl, hpin⟩ := fit
  have named : p.unnamable address.toNat = false := by simp [← Bool.not_eq_true, unnamable_iff, h0, hall, hown]
  refine ⟨by rw [flagOf_eq, if_neg hs], by rw [flagOf_eq, if_neg hb], by rw [stationLineOf_eq, if_neg hl], ?_⟩
  rwa [named, Bool.false_or, ← Bool.not_eq_true, Bool.and_eq_true, decide_eq_true_eq, Option.isNone_iff_eq_none,
    fieldLineOf_eq_none_of_fit hl]

theorem loadStation_held {n : Nat} {e : Station} (h : p.station? address.toNat = some (n, e)) :
    p.loadStation address secure blocked line =
      (p.reloadStation n e (e.reload (decide (secure = 1#8)) (decide (blocked = 1#8)) (fieldLineOf line.toNat)),
        stationLoaded n) := by
  obtain ⟨hs, hb, hl, named⟩ := loadStation_fields fit
  simp only [Part.loadStation, hs, hb, hl, named, h, Bool.false_eq_true, if_false]

variable (h : p.station? address.toNat = none)

include h

theorem loadStation_free {n : Nat} (hn : p.freeEntry = some n) :
    p.loadStation address secure blocked line =
      (p.createStation n
          (stationOfLoad address.toNat (decide (secure = 1#8)) (decide (blocked = 1#8)) (fieldLineOf line.toNat)),
        stationLoaded n) := by
  obtain ⟨hs, hb, hl, named⟩ := loadStation_fields fit
  simp only [Part.loadStation, hs, hb, hl, named, h, hn, Bool.false_eq_true, if_false]

theorem loadStation_recycled (hfull : p.freeEntry = none) {n : Nat} {o : Station} (ho : p.oldestLearned = some (n, o)) :
    p.loadStation address secure blocked line =
      ((p.freeStation n o.address).createStation n
          (stationOfLoad address.toNat (decide (secure = 1#8)) (decide (blocked = 1#8)) (fieldLineOf line.toNat)),
        stationLoaded n) := by
  obtain ⟨hs, hb, hl, named⟩ := loadStation_fields fit
  simp only [Part.loadStation, hs, hb, hl, named, h, hfull, ho, Bool.false_eq_true, if_false]

theorem loadStation_full (hfull : p.freeEntry = none) (ho : p.oldestLearned = none) :
    p.loadStation address secure blocked line = (p, .bare .tableFull) := by
  obtain ⟨hs, hb, hl, named⟩ := loadStation_fields fit
  simp only [Part.loadStation, hs, hb, hl, named, h, hfull, ho, Bool.false_eq_true, if_false, refuse_eq]

end LoadStation

/-- Settles O35: a LOAD by its arguments, then by the entry it takes. -/
theorem stationLoad : Obligations.StationLoad := by
  intro m address secure blocked line s i p a bad l x number full canon
  have takes {e : Part} {r : Answer} (he : p.loadStation address secure blocked line = (e, r)) (hq : e.quiet) :
      s.takes i m e r := State.takes_rest rfl he hq
  have hl : fieldLineOf line.toNat = l := fieldLineOf_toNat line
  have hx : stationOfLoad a (decide (secure = 1#8)) (decide (blocked = 1#8)) (fieldLineOf line.toNat) = x := by
    simp only [x, ← hl, stationOfLoad, decide_eq_true_eq]
  have isFull (h : full) : p.freeEntry = none := (freeEntry_eq_none_iff p).2 h
  refine ⟨fun h hq => takes (loadStation_bad h) hq, fun n e h he => ?_, fun n h hnew hn hfree hlow => ?_,
    fun n o h hnew hfull ho hk hfirst => ?_, fun h hnew hfull hnone hq => ?_⟩
  · intro y q b
    have hy : e.reload (decide (secure = 1#8)) (decide (blocked = 1#8)) (fieldLineOf line.toNat) = y := by
      simp only [y, x, Station.reload, ← hl, Option.isSome_iff_ne_none, decide_eq_true_eq, ite_not]
    have reloads {r : Part} (hr : p.reloadStation n e y = r) : r.quiet → s.takes i m r (number n) :=
      takes ((loadStation_held h he).trans (by rw [hy, hr]; rfl))
    exact ⟨fun hsame => reloads (reloadStation_kept hsame), fun hnew => reloads (reloadStation_changed hnew)⟩
  · intro e
    refine takes ((loadStation_free h hnew (freeEntry_lowest hn hfree hlow)).trans ?_)
    rw [hx]
    rfl
  · intro f e
    refine takes ((loadStation_recycled h hnew (isFull hfull) (oldestLearned_earliest canon ho hk hfirst)).trans ?_)
    rw [hx]
    rfl
  · exact takes (loadStation_full h hnew (isFull hfull) (oldestLearned_none hnone canon)) hq

/-! ## CLEAR_STATION and SET_STATION_MODE (R151, R152) -/

section ClearStation

variable {address : Word} {p : Part}

theorem clearStation_bad
    (h : address.toNat = 0 ∨ address.toNat = 65535 ∨ address.toNat = p.mgmt.ownAddress) :
    p.clearStation address = (p, .bare .badArgument) := if_pos ((unnamable_iff p _).2 h)

variable (h : ¬(address.toNat = 0 ∨ address.toNat = 65535 ∨ address.toNat = p.mgmt.ownAddress))

include h

theorem clearStation_absent (hs : p.station? address.toNat = none) :
    p.clearStation address = (p, .bare .noSuch) := by
  rw [← unnamable_iff] at h
  simp only [Part.clearStation, if_neg h, hs, refuse_eq]

theorem clearStation_held {n : Nat} {x : Station} (hs : p.station? address.toNat = some (n, x)) :
    p.clearStation address = (p.freeStation n address.toNat, .bare .ok) := by
  rw [← unnamable_iff] at h
  simp only [Part.clearStation, if_neg h, hs]

end ClearStation

theorem stationModeOf_eq (w : Word) :
    stationModeOf w = if 1 < w.toNat then none else some (if w = 0#16 then .learn else .rejectUnknown) := by
  have h : 1 < w.toNat ↔ w ≠ 0#16 ∧ w ≠ 1#16 := by bv_omega
  unfold stationModeOf
  split_ifs <;> simp_all

theorem setStationMode_bad {mode : Word} (h : 1 < mode.toNat) (interval : Word) (p : Part) :
    p.setStationMode mode interval = (p, .bare .badArgument) := by
  simp only [Part.setStationMode, stationModeOf_eq, if_pos h, refuse_eq]

/-- The interval is held to 10..3,600, and the aging timer starts afresh (R152). -/
theorem setStationMode_taken {mode : Word} (h : mode.toNat ≤ 1) (interval : Word) (p : Part) :
    let n := max 10 (min interval.toNat 3600)
    p.setStationMode mode interval =
      ({ p with
          stations :=
            { p.stations with
              mode := if mode = 0#16 then .learn else .rejectUnknown, interval := n, agingDue := p.now + 10 * n } },
        .bare (if n = interval.toNat then .ok else .okClamped)) := by
  intro n
  have result : loaded (decide (n ≠ interval.toNat)) = if n = interval.toNat then .ok else .okClamped :=
    loaded_decide (by simp)
  simp only [Part.setStationMode, stationModeOf_eq, if_neg (Nat.not_lt.2 h), clampTo_eq_max_min interval.toNat
    (show 10 ≤ 3600 by decide), result, n]

/-- Settles O36. -/
theorem stationClearAndMode : Obligations.StationClearAndMode := by
  refine ⟨fun m address s => ?_, fun m mode interval s => ?_⟩
  · intro i p a bad
    have takes {e : Part} {r : Answer} (he : p.clearStation address = (e, r)) (hq : e.quiet) : s.takes i m e r :=
      State.takes_rest rfl he hq
    exact ⟨fun h => takes (clearStation_bad h), fun h hs => takes (clearStation_absent h hs),
      fun n x h hs => takes (clearStation_held h hs)⟩
  · intro i p n e
    have takes {e : Part} {r : Answer} (he : p.setStationMode mode interval = (e, r)) (hq : e.quiet) : s.takes i m e r :=
      State.takes_rest rfl he hq
    refine ⟨fun h => takes (setStationMode_bad h interval p), fun h hn => takes ?_, fun h hn => takes ?_⟩
    · exact (setStationMode_taken h interval p).trans (by rw [if_pos hn])
    · exact (setStationMode_taken h interval p).trans (by rw [if_neg hn])

/-! ## AGING_EXPIRY (R147) -/

theorem ageEntry_free {p : Part} {n : Nat} (h : Table.look p.stations.entries n = none) : p.ageEntry n = p := by
  rw [Part.ageEntry, h]

/-- R147's table: one age on, or freed where a LEARNED entry would fall SILENT. -/
theorem ageEntry_inUse {p : Part} {n : Nat} {e : Station} (h : Table.look p.stations.entries n = some e) :
    p.ageEntry n =
      if e.age = .touched then p.putStation n { e with age := .untouched }
      else if e.age = .silent then p
      else if e.kind = .configured then
        ((p.putStation n { e with age := .silent }).stationNotice p e.address).stationTrace .stationSilent e.address none
      else p.freeStation n e.address := by
  rw [Part.ageEntry, h]
  cases hage : e.age with
  | touched => simp [hage]
  | silent => simp [hage]
  | untouched => cases hkind : e.kind <;> simp [hage, hkind]

/-- Settles O37. -/
theorem agingExpiry : Obligations.AgingExpiry := by
  intro s p age q e hstill
  have hage : Part.ageEntry = age := by
    funext q n
    dsimp only [age]
    split
    · next h => exact ageEntry_free h
    · next h => exact ageEntry_inUse h
  have he : s.part.agingExpiry = e := by
    dsimp only [e, q]
    rw [← hage]
    rfl
  exact State.run_rest rfl he hstill

end Sys2Proof.Machine
end

