-- ==== Sys2Proof/Proofs/FieldFrames.lean ====
section
/-! PROOFS. A frame on a field line: the examination of its source, and what is made of it (O48). -/

namespace Sys2Proof.Machine

/-! ## The station counters (R146, R187) -/

section Counted

variable {p : Part} (b : p.bounded)

include b

theorem unknownReject_eq :
    ({ p with counters := p.counters.unknownReject } : Part) =
      { p with counters := { p.counters with unknownRejects := min 65535 (p.counters.unknownRejects + 1) } } := by
  obtain ⟨-, -, -, hunknown, -⟩ := b.counters
  rw [Counters.unknownReject, raise_eq_min hunknown]

theorem secureDrop_eq :
    ({ p with counters := p.counters.secureDrop } : Part) =
      { p with counters := { p.counters with secureDrops := min 65535 (p.counters.secureDrops + 1) } } := by
  obtain ⟨hsecure, -⟩ := b.counters
  rw [Counters.secureDrop, raise_eq_min hsecure]

theorem learnFailure_eq :
    ({ p with counters := p.counters.learnFailure } : Part) =
      { p with counters := { p.counters with learnFailures := min 65535 (p.counters.learnFailures + 1) } } := by
  obtain ⟨-, -, hlearn, -⟩ := b.counters
  rw [Counters.learnFailure, raise_eq_min hlearn]

end Counted

/-! ## The examination of a source (R142 to R146) -/

/-- The writes of a touch, then what is told of a station heard again, then of a changed line (R144). -/
theorem touchStation_eq {e : Station} {a : Nat} (ha : e.address = a) (n : Nat) (l : Line) (p : Part) :
    p.touchStation n e l =
      let touched := p.putStation n { e with age := .touched, heard := some p.now, line := some l }
      let heard := if e.age = .silent then
          (touched.stationNotice p a).stationTrace .stationHeard a (some (lineNum l))
        else touched
      if e.line ≠ none ∧ e.line ≠ some l then heard.stationTrace .lineChange a (some (lineNum l)) else heard := by
  subst ha
  simp only [Part.touchStation, Option.isSome_iff_ne_none]

section Examined

variable {p : Part} {l : Line} {a : Nat}

theorem stationDrop_active (h : p.mgmt.mode = .active) (f : Counters → Counters) :
    p.stationDrop f = ({ p with counters := f p.counters }, .dropped) := if_pos ((isActive_iff p).2 h)

theorem stationDrop_transparent (h : p.mgmt.mode = .transparent) (f : Counters → Counters) :
    p.stationDrop f = (p, .silent) := if_neg (by simp [(isActive_eq_false_iff p).2 h])

theorem examineSource_unnamable (h : ¬(a ≠ 0 ∧ a ≠ 65535 ∧ a ≠ p.mgmt.ownAddress)) :
    p.examineSource l a = ({ p with counters := p.counters.unknownReject }, .dropped) := by
  refine if_pos ((unnamable_iff p a).2 ?_)
  by_contra k
  simp only [not_or] at k
  exact h k

variable (named : a ≠ 0 ∧ a ≠ 65535 ∧ a ≠ p.mgmt.ownAddress)

include named

theorem not_unnamable : ¬p.unnamable a = true := by
  obtain ⟨h0, hall, hown⟩ := named
  simp [unnamable_iff, h0, hall, hown]

section Held

variable {n : Nat} {e : Station} (h : p.station? a = some (n, e))

include h

theorem examineSource_blocked (hb : e.blocked = true) : p.examineSource l a = p.stationDrop Counters.blockedDrop := by
  simp only [Part.examineSource, if_neg (not_unnamable named), h, hb, if_true]

theorem examineSource_pinned (hb : e.blocked = false) (hp : e.secure = true ∧ e.pinLine ≠ some l) :
    p.examineSource l a = p.stationDrop Counters.secureDrop := by
  simp only [Part.examineSource, if_neg (not_unnamable named), h, hb, Bool.false_eq_true, if_false, if_pos hp]

theorem examineSource_touched (hb : e.blocked = false) (hp : ¬(e.secure = true ∧ e.pinLine ≠ some l)) :
    p.examineSource l a = (p.touchStation n e l, .offered) := by
  simp only [Part.examineSource, if_neg (not_unnamable named), h, hb, Bool.false_eq_true, if_false, if_neg hp]

end Held

section Unheld

variable (h : p.station? a = none)

include h

theorem examineSource_rejected (hm : p.stations.mode = .rejectUnknown) :
    p.examineSource l a = p.stationDrop Counters.unknownReject := by
  simp only [Part.examineSource, if_neg (not_unnamable named), h, hm]

theorem examineSource_learned (hm : p.stations.mode = .learn) {n : Nat} (hn : p.freeEntry = some n) :
    p.examineSource l a = (p.learnStation n a l, .offered) := by
  simp only [Part.examineSource, if_neg (not_unnamable named), h, hm, hn]

theorem examineSource_noRoom (hm : p.stations.mode = .learn) (hn : p.freeEntry = none) :
    p.examineSource l a = ({ p with counters := p.counters.learnFailure }, .offered) := by
  simp only [Part.examineSource, if_neg (not_unnamable named), h, hm, hn]

end Unheld

end Examined

/-! ## What is made of a frame (R156, R157) -/

section Field

variable {p q : Part} {l : Line} {f : Frame} {k : FrameKind}

theorem receive_field {bytes : List Byte} (hl : l ≠ .control) (h : readFrame bytes = some (f, k)) :
    p.receive l bytes = (p.countFrame l).fieldFrame l f k := by
  simp only [Part.receive, h, if_neg hl]

theorem fieldFrame_own (hk : k = .manage) (h : f.dst.toNat = p.mgmt.ownAddress) : p.fieldFrame l f k = p.dropFrame l :=
  if_pos ⟨hk, h⟩

variable (h : ¬(k = .manage ∧ f.dst.toNat = p.mgmt.ownAddress))

include h

theorem fieldFrame_dropped (hx : p.examineSource l f.src.toNat = (q, .dropped)) : p.fieldFrame l f k = q := by
  simp only [Part.fieldFrame, if_neg h, hx]

theorem fieldFrame_silent (hx : p.examineSource l f.src.toNat = (q, .silent)) :
    p.fieldFrame l f k = q.passFrame .control f := by
  simp only [Part.fieldFrame, if_neg h, hx]

theorem fieldFrame_offered (hx : p.examineSource l f.src.toNat = (q, .offered)) :
    p.fieldFrame l f k =
      if k = .report then (q.passFrame .control f).offerItems f.src.toNat f.items else q.passFrame .control f := by
  simp only [Part.fieldFrame, if_neg h, hx]

end Field

/-- Settles O48: a frame on a field line by its checks, then by what the examination of its source decides. -/
theorem fieldFrames : Obligations.FieldFrames := by
  intro l bytes s hline bound i x p drop count unknown
  have hp : s.part.countFrame l = p := countFrame_eq bound l
  have hdrop : p.dropFrame l = drop := hp ▸ dropFrame_countFrame bound l
  have b : p.bounded := hp ▸ (keeps_countFrame s.part l).bounded bound
  have ends {e : Part} (he : s.part.receive l bytes = e) (h : e.still) : exec i s = .next { s with part := e } :=
    State.run_rest (f := Part.receive l bytes) rfl he h
  refine ⟨fun h => ends ((receive_unread h).trans (hp ▸ hdrop)), fun f k hread => ?_⟩
  intro a up offered named taken
  have comes {e : Part} (he : p.fieldFrame l f k = e) : taken e :=
    ends ((receive_field hline hread).trans ((congrArg (Part.fieldFrame l f k) hp).trans he))
  refine ⟨fun hk h => comes ((fieldFrame_own hk h).trans hdrop), fun h => ?_⟩
  have dropped {q e : Part} (hx : p.examineSource l a = (q, .dropped)) (he : q = e) : taken e :=
    comes ((fieldFrame_dropped h hx).trans he)
  have silent (hx : p.examineSource l a = (p, .silent)) : taken (up p) := comes (fieldFrame_silent h hx)
  have offers {q : Part} (hx : p.examineSource l a = (q, .offered)) : taken (offered q) := comes (fieldFrame_offered h hx)
  refine ⟨fun hn => dropped (examineSource_unnamable hn) (unknownReject_eq b), fun n e hn he => ?_, fun hn he => ?_⟩
  · intro pinned touched heard moved
    refine ⟨fun hb hm => ?_, fun hb hpin hm => ?_, fun hshut hm => silent ?_, fun hb hpin => offers ?_⟩
    · exact dropped ((examineSource_blocked hn he hb).trans (stationDrop_active hm _)) (blockedDrop_eq b)
    · exact dropped ((examineSource_pinned hn he hb hpin).trans (stationDrop_active hm _)) (secureDrop_eq b)
    · cases hb : e.blocked with
      | true => exact (examineSource_blocked hn he hb).trans (stationDrop_transparent hm _)
      | false =>
        have hpin : pinned := hshut.resolve_left (by simp [hb])
        exact (examineSource_pinned hn he hb hpin).trans (stationDrop_transparent hm _)
    · refine (examineSource_touched hn he hb hpin).trans ?_
      rw [touchStation_eq (Part.station_some he).2]
  · refine ⟨fun hm ha => ?_, fun hm ht => silent ?_, fun n hm hlt hfree hlow => offers ?_, fun hm hfull => offers ?_⟩
    · exact dropped ((examineSource_rejected hn he hm).trans (stationDrop_active ha _)) (unknownReject_eq b)
    · exact (examineSource_rejected hn he hm).trans (stationDrop_transparent ht _)
    · exact examineSource_learned hn he hm (freeEntry_lowest hlt hfree hlow)
    · refine (examineSource_noRoom hn he hm ((freeEntry_eq_none_iff p).2 hfull)).trans ?_
      rw [learnFailure_eq b]

end Sys2Proof.Machine
end

