-- ==== Sys2Proof/Proofs/FramesAndOrders.lean ====
section
/-! PROOFS. Frames and orders on the line: a frame is read back from its bytes (O6), what a receiver refuses (O7), and the
management frame of every well-formed order (O8). -/

namespace Sys2Proof

/-! ## Items and frames from bytes (R180, R181) -/

/-- The items that a byte string begins with are those whose bytes it begins with. -/
theorem takeItems_eq_some_iff {n : Nat} {bs rest : List Byte} {items : List Item} :
    takeItems n bs = some (items, rest) ↔ items.length = n ∧ items.flatMap Item.bytes ++ rest = bs := by
  fun_induction takeItems n bs generalizing items with
  | case1 bs =>
    cases items with
    | nil => simp [eq_comm]
    | cons i items => simp
  | case2 n b0 b1 b2 b3 bs ih =>
    cases items with
    | nil => simp
    | cons i items =>
      obtain ⟨i0, i1, i2, i3⟩ := i
      simp only [Option.map_eq_some_iff, Prod.exists, Prod.mk.injEq, exists_eq_right_right, ih, List.length_cons,
        List.cons.injEq, Item.mk.injEq, List.flatMap_cons, Item.bytes, List.cons_append, List.nil_append]
      grind
  | case3 n bs h =>
    cases items with
    | nil => simp
    | cons i items => simpa [Item.bytes] using fun _ e => h _ _ _ _ _ e.symm

/-- Laying out is the inverse of `Frame.bytes`, up to sixteen items. -/
theorem layFrame_eq_some_iff {bs : List Byte} {f : Frame} :
    layFrame bs = some f ↔ f.items.length ≤ 16 ∧ f.bytes = bs := by
  constructor
  · fun_cases layFrame bs with
    | case1 d1 d0 s1 s0 ctl tag n rest hn items c1 c0 h =>
      rintro ⟨⟩
      obtain ⟨hlen, rfl⟩ := takeItems_eq_some_iff.1 h
      simp [Frame.bytes, Frame.body, hlen, hn]
    | _ => simp
  · rintro ⟨hlen, rfl⟩
    have hcount : (BitVec.ofNat 8 f.items.length).toNat = f.items.length := by simp; omega
    have htake : takeItems f.items.length (f.items.flatMap Item.bytes ++ [Word.hi f.crc, Word.lo f.crc]) =
        some (f.items, [Word.hi f.crc, Word.lo f.crc]) := takeItems_eq_some_iff.2 ⟨rfl, rfl⟩
    simp [Frame.bytes, Frame.body, layFrame, hcount, hlen, htake, wordOf_hi_lo]

/-- Nine bytes beside the items: seven before them and the CRC (R180). -/
theorem Frame.bytes_length (f : Frame) : f.bytes.length = 9 + 4 * f.items.length := by
  simp [Frame.bytes, Frame.body, Item.bytes]
  omega

/-- The CRC bytes are no part of the body. -/
theorem Frame.sealed_body (f : Frame) : f.sealed.body = f.body := by
  simp only [Frame.body, Frame.sealed]

theorem Frame.sealed_crc (f : Frame) : f.sealed.crc = crc16 f.sealed.body := by
  rw [sealed_body, sealed]

/-! ## The checks of a receiver (R155) -/

/-- The three checks, of which none may fail. -/
theorem readFrame_eq_some_iff {bs : List Byte} {f : Frame} {k : FrameKind} :
    readFrame bs = some (f, k) ↔ layFrame bs = some f ∧ f.crc = crc16 f.body ∧ f.kind = some k := by
  constructor
  · fun_cases readFrame bs with
    | case1 f hlay hcrc k hkind => rintro ⟨⟩; exact ⟨hlay, hcrc, hkind⟩
    | _ => simp
  · rintro ⟨hlay, hcrc, hkind⟩
    simp [readFrame, hlay, hcrc, hkind]

/-- What is read from a frame's bytes is that frame, its CRC that of its body, with its kind. -/
theorem readFrame_bytes_iff {f g : Frame} {k : FrameKind} (h : f.items.length ≤ 16) :
    readFrame f.bytes = some (g, k) ↔ g = f ∧ f.crc = crc16 f.body ∧ f.kind = some k := by
  rw [readFrame_eq_some_iff, layFrame_eq_some_iff.2 ⟨h, rfl⟩, Option.some_inj, eq_comm]
  constructor <;> rintro ⟨rfl, hf⟩ <;> exact ⟨rfl, hf⟩

/-- Settles O6. -/
theorem framesReadBack : Obligations.FramesReadBack :=
  fun f _ hlen hkind => (readFrame_bytes_iff (f := f.sealed) hlen).2 ⟨rfl, f.sealed_crc, hkind⟩

/-- Settles O7. -/
theorem unfitFramesAreRefused : Obligations.UnfitFramesAreRefused := by
  refine ⟨fun f hlen hcrc => Option.eq_none_iff_forall_ne_some.2 fun ⟨g, k⟩ h => ?_,
    fun f hlen hkind => Option.eq_none_iff_forall_ne_some.2 fun ⟨g, k⟩ h => ?_, fun bs f k h => ?_⟩
  · obtain ⟨-, hcrc', -⟩ := (readFrame_bytes_iff hlen).1 h
    exact hcrc hcrc'
  · obtain ⟨-, -, hkind'⟩ := (readFrame_bytes_iff hlen).1 h
    simp [hkind] at hkind'
  · obtain ⟨hlay, hcrc, hkind⟩ := readFrame_eq_some_iff.1 h
    obtain ⟨hlen, rfl⟩ := layFrame_eq_some_iff.1 hlay
    exact ⟨f.bytes_length, hlen, hcrc, hkind, rfl⟩

/-! ## Management frames (R172, R182) -/

/-- The kind that a formed control byte carries, whatever its priority. -/
theorem controlByte_kind (k : FrameKind) (priority : Nat) :
    FrameKind.ofCode (controlByte k priority >>> 5).toNat = some k := by
  have hcode : (controlByte k priority >>> 5).toNat = k.code := by
    have : k.code ≤ 4 := by cases k <;> decide
    simp only [controlByte, BitVec.toNat_ushiftRight, BitVec.toNat_ofNat, Nat.shiftRight_eq_div_pow]
    omega
  rw [hcode]
  cases k <;> rfl

/-- The longest order is LOAD_VALVE_CLASS, of eleven argument items; only WIDEN's count is not fixed. -/
theorem orderOfMany_length {m : Mgmt} {code : Nat} {args : List Item} {i : Instr} (h : orderOfMany m code args = some i) :
    args.length ≤ 11 := by
  revert h
  fun_cases orderOfMany m code args with
  | case17 a ids hids =>
    intro _
    simp only [List.length_cons]
    omega
  | _ => simp

theorem orderOfArgs_length {m : Mgmt} {code : Nat} {args : List Item} {i : Instr} (h : orderOfArgs m code args = some i) :
    args.length ≤ 11 := by
  revert h
  fun_cases orderOfArgs m code args with
  | case1 => simp
  | case2 a => simp
  | case3 => exact orderOfMany_length

/-- A frame of more than twelve items carries no order. -/
theorem orderOf_length {m : Mgmt} {items : List Item} (h : orderOf m items ≠ .badOrder m) : items.length ≤ 12 := by
  revert h
  fun_cases orderOf m items with
  | case1 => simp
  | case2 head args hcount =>
    cases ho : orderOfArgs m head.wordA.toNat args with
    | none => simp
    | some i =>
      have hargs := orderOfArgs_length ho
      simp only [List.length_cons]
      omega
  | case3 => simp

namespace Laws.Coded

/-- `Statement` of every command: the lemma of each order; an event and BAD_ORDER have no frame. -/
theorem statement_all (i : Instr) : Statement i := by
  cases i with
  | powerOn | frameReceived | frameTransmitEnd | agingExpiry | freshnessExpiry | travelTimerExpiry | queryTimerExpiry
  | pollExpiry | dwellEnd | verifyWindowExpiry | timeWrap | areaSearchExamine | supplyWalkReach | planComplete
  | badOrder => trivial
  | loadSegment => apply loadSegment
  | loadValve => apply loadValve
  | loadMaterialClass => apply loadMaterialClass
  | loadValveClass => apply loadValveClass
  | loadSensor => apply loadSensor
  | loadZone => apply loadZone
  | loadStation => apply loadStation
  | clearSegment => apply clearSegment
  | clearValve => apply clearValve
  | clearMaterialClass => apply clearMaterialClass
  | clearValveClass => apply clearValveClass
  | clearSensor => apply clearSensor
  | clearZone => apply clearZone
  | clearStation => apply clearStation
  | readEntry => apply readEntry
  | setMode => apply setMode
  | zoneMode => apply zoneMode
  | suspendAll => apply suspendAll
  | resumeAll => apply resumeAll
  | clearLatch => apply clearLatch
  | setMaps => apply setMaps
  | setNoticeAddress => apply setNoticeAddress
  | setStationMode => apply setStationMode
  | setTracePolicy => apply setTracePolicy
  | declare => apply declare
  | confirm => apply confirm
  | cancel => apply cancel
  | restore => apply restore
  | resume => apply resume
  | widen => apply widen
  | crewReport => apply crewReport
  | valveState => apply valveState
  | readTrace => apply readTrace
  | readStatus => apply readStatus
  | readIncident => apply readIncident
  | clearCounters => apply clearCounters
  | restart => apply restart

end Laws.Coded

theorem orderOf_order {i : Instr} {m : Mgmt} {items : List Item} (hw : i.wellFormed = true)
    (ho : i.order = some (m, items)) : orderOf m items = i := by
  have h := Laws.Coded.statement_all i
  rw [Laws.Coded.Statement, ho] at h
  exact h hw

/-- Settles O8. -/
theorem ordersReadBack : Obligations.OrdersReadBack := by
  intro i m items dst priority hw ho f
  have horder : orderOf m items = i := orderOf_order hw ho
  have hbad : orderOf m items ≠ .badOrder m := by
    intro h
    rw [← horder, h] at ho
    cases ho
  have hlen : items.length ≤ 16 := (orderOf_length hbad).trans (by decide)
  exact ⟨framesReadBack _ .manage hlen (controlByte_kind .manage priority), horder⟩

end Sys2Proof
end

