-- ==== Sys2Proof/Proofs/Settings.lean ====
section
/-! PROOFS. The orders that write a setting, and CLEAR_COUNTERS (O39). -/

namespace Sys2Proof.Machine

/-! ## SET_NOTICE_ADDRESS and SET_TRACE_POLICY (R176, R184) -/

theorem setNoticeAddress_bad {address : Word} {p : Part} (h : address.toNat = 0 ∨ address.toNat = p.mgmt.ownAddress) :
    p.setNoticeAddress address = (p, .bare .badArgument) := if_pos h

theorem setNoticeAddress_fit {address : Word} {p : Part} (h : ¬(address.toNat = 0 ∨ address.toNat = p.mgmt.ownAddress)) :
    p.setNoticeAddress address = ({ p with mgmt := { p.mgmt with noticeAddress := address.toNat } }, .bare .ok) := if_neg h

theorem tracePolicyOf_eq (w : Word) :
    tracePolicyOf w = if 1 < w.toNat then none else some (if w = 0#16 then .stop else .overwrite) := by
  have h : 1 < w.toNat ↔ w ≠ 0#16 ∧ w ≠ 1#16 := by bv_omega
  unfold tracePolicyOf
  split_ifs <;> simp_all

theorem setTracePolicy_bad {policy : Word} (h : 1 < policy.toNat) (p : Part) :
    p.setTracePolicy policy = (p, .bare .badArgument) := by
  simp [Part.setTracePolicy, tracePolicyOf_eq, h, refuse]

theorem setTracePolicy_fit {policy : Word} (h : policy.toNat ≤ 1) (p : Part) :
    p.setTracePolicy policy =
      ({ p with trace := { p.trace with policy := if policy = 0#16 then .stop else .overwrite } }, .bare .ok) := by
  simp [Part.setTracePolicy, tracePolicyOf_eq, Nat.not_lt.2 h]

/-! ## SET_MAPS (R176) -/

/-- The class that a class map byte of 0..3 names. -/
def classOfByte (b : Byte) : Cls := if b = 0#8 then .c0 else if b = 1#8 then .c1 else if b = 2#8 then .c2 else .c3

theorem classOfNum_byte (b : Byte) : classOfNum b.toNat = if 3 < b.toNat then none else some (classOfByte b) := by
  have hnum (n : Nat) (h : n < 256) : b = BitVec.ofNat 8 n ↔ b.toNat = n := by bv_omega
  simp only [classOfNum, classOfByte, hnum _ (show 0 < 256 by decide), hnum _ (show 1 < 256 by decide),
    hnum _ (show 2 < 256 by decide)]
  split_ifs <;> grind

theorem mapM_classOfNum (bs : List Byte) :
    (bs.mapM fun b => classOfNum b.toNat) = if ∃ b ∈ bs, 3 < b.toNat then none else some (bs.map classOfByte) := by
  induction bs with
  | nil => simp
  | cons b bs ih =>
    rw [List.mapM_cons, ih, classOfNum_byte]
    by_cases hb : 3 < b.toNat
    · simp [hb]
    · by_cases hbs : ∃ b ∈ bs, 3 < b.toNat <;> simp [hb, hbs]

/-- What is wrong with the maps and the priority of a SET_MAPS order (R176). -/
def mapsBad (classes priorities : List Byte) (notice : Byte) : Prop :=
  (∃ b ∈ classes, 3 < b.toNat) ∨ (∃ b ∈ priorities, 7 < b.toNat) ∨ 7 < notice.toNat

section SetMaps

variable {classes priorities : List Byte} (hc : classes.length = 8) (hp : priorities.length = 4)

include hc in
theorem classMapOf_eq :
    classMapOf classes = if ∃ b ∈ classes, 3 < b.toNat then none else some (classes.map classOfByte) := by
  rw [classMapOf, if_pos hc, mapM_classOfNum]

include hp in
theorem urgencyMapOf_eq :
    urgencyMapOf priorities = if ∃ b ∈ priorities, 7 < b.toNat then none else some (priorities.map BitVec.toNat) := by
  by_cases h : ∃ b ∈ priorities, 7 < b.toNat
  · rw [if_pos h]
    simpa [urgencyMapOf, hp] using h
  · rw [if_neg h]
    simpa [urgencyMapOf, hp] using h

variable {notice : Byte}

include hc hp

theorem setMaps_bad (h : mapsBad classes priorities notice) (p : Part) :
    p.setMaps classes priorities notice = (p, .bare .badArgument) := by
  rw [Part.setMaps, classMapOf_eq hc, urgencyMapOf_eq hp]
  obtain h | h | h := h
  · simp only [if_pos h, refuse]
  · simp only [if_pos h]
    split_ifs <;> rfl
  · simp only [if_pos h]
    split <;> rfl

theorem setMaps_fit (h : ¬mapsBad classes priorities notice) (p : Part) :
    p.setMaps classes priorities notice =
      ({ p with trunk := { p.trunk with
          classMap := classes.map classOfByte, urgencyMap := priorities.map BitVec.toNat,
          noticePriority := notice.toNat } }, .bare .ok) := by
  obtain ⟨hclass, hpriority, hnotice⟩ : ¬(∃ b ∈ classes, 3 < b.toNat) ∧ ¬(∃ b ∈ priorities, 7 < b.toNat) ∧
    ¬7 < notice.toNat := by simpa only [mapsBad, not_or] using h
  rw [Part.setMaps, classMapOf_eq hc, urgencyMapOf_eq hp]
  simp only [if_neg hclass, if_neg hpriority, if_neg hnotice]

end SetMaps

/-- Settles O39. -/
theorem settings : Obligations.Settings := by
  refine ⟨fun m address s => ?_, fun m classes priorities notice s => ?_, fun m policy s => ?_, fun m s => ?_⟩
  · intro i p bad e
    exact ⟨fun h hq => State.takes_rest rfl (setNoticeAddress_bad h) hq,
      fun h hq => State.takes_rest rfl (setNoticeAddress_fit h) hq⟩
  · intro i p bad cls e hw
    obtain ⟨hc, hp⟩ : classes.length = 8 ∧ priorities.length = 4 := by simpa [i, Instr.wellFormed] using hw
    exact ⟨fun h hq => State.takes_rest rfl (setMaps_bad hc hp h p) hq,
      fun h hq => State.takes_rest rfl (setMaps_fit hc hp h p) hq⟩
  · intro i p e
    exact ⟨fun h hq => State.takes_rest rfl (setTracePolicy_bad h p) hq,
      fun h hq => State.takes_rest rfl (setTracePolicy_fit h p) hq⟩
  · intro i p zero t e hq
    exact State.takes_rest rfl rfl hq

end Sys2Proof.Machine
end

