-- ==== Sys2Proof/Proofs/BadOrdersAndRestarts.lean ====
section
/-! PROOFS. The reply of a BAD_ORDER frame and where it goes (O40), a RESTART order and its start (O41), and what a RESTART
makes of the part (O42). -/

namespace Sys2Proof.Machine

/-! ## A reply of one frame (R173, R175) -/

section Reply

variable {p : Part} {f : Frame} {e d : PendEntry} {r : List PendEntry}

/-- The one frame of a reply that is a result code alone. -/
def Part.codeFrame (p : Part) (m : Mgmt) (a : Result) : Frame := p.noticeFrame m.source m.tag [headerItem 0 a.num 1 1]

theorem reply_bare (p : Part) (m : Mgmt) (a : Result) (again : Bool) :
    p.reply m (.bare a) again = p.postFrames 0 again [p.codeFrame m a] := rfl

theorem postFrames_joins (hroom : ((p.line .control).queues.get (p.classOf f)).length < 16) (hn : p.mgmt.notices = [])
    (code : Nat) (again : Bool) : p.postFrames code again [f] = p.enqueue .control (p.classOf f) ⟨f, again⟩ :=
  if_pos (by rw [(hasPlace_iff p .control _).2 hroom, hn]; rfl)

theorem postFrames_waits (hfull : 16 ≤ ((p.line .control).queues.get (p.classOf f)).length) (code : Nat) (again : Bool)
    (fs : List Frame) :
    p.postFrames code again (f :: fs) = p.joinPending { code := code, frames := f :: fs, restart := again } :=
  if_neg (by rw [Bool.and_eq_true, hasPlace_iff]; omega)

/-- A frame that meets an idle control line with nothing pending goes into transmission, whatever waits with the
sequencer: its orders are for the field lines. -/
theorem enqueue_idle_control (hs : (p.line .control).sending = none) (hq : (p.line .control).queues = ⟨[], [], [], []⟩)
    (hn : p.mgmt.notices = []) (c : Cls) (g : OutFrame) :
    p.enqueue .control c g = p.setLine .control { p.line .control with sending := some g } := by
  have hhead : headOf ((p.append .control c g).line .control).queues = some (c, g, []) := by
    rw [Part.append, line_setLine_self]
    dsimp only
    rw [hq]
    cases c <;> rfl
  have hemptied : ((p.line .control).queues.set c ((p.line .control).queues.get c ++ [g])).set c [] =
      (p.line .control).queues := by
    rw [PerClass.set_set, hq]
    cases c <;> rfl
  have hfree (y : LineState) : (p.setLine .control y).offerPlace .control c = p.setLine .control y :=
    offerPlace_control_unclaimed (p := p.setLine .control y) (by simp [hn])
  rw [Part.enqueue, pump_head (by rwa [Part.append, line_setLine_self]) hhead, Part.append, setLine_setLine,
    line_setLine_self, hfree]
  dsimp only
  rw [hemptied]

/-! ## The pending list (R175) -/

theorem joinPending_room (h : p.mgmt.notices.length < 8) : p.joinPending e = p.setNotices (p.mgmt.notices ++ [e]) := by
  rw [Part.joinPending, if_pos h]

/-- The part after its oldest pending entry `d`, before `r`, is discarded, counted and traced. -/
def Part.pushedOut (p : Part) (d : PendEntry) (r : List PendEntry) : Part :=
  ({ p with
    mgmt := { p.mgmt with notices := r, restartDue := p.mgmt.restartDue || d.restart }
    counters := { p.counters with noticesLost := raise p.counters.noticesLost } }).record .noticeLost none none (some d.code)

/-- A ninth entry pushes out the oldest. -/
theorem joinPending_full (hn : p.mgmt.notices = d :: r) (hr : r.length = 7) :
    p.joinPending e = (p.pushedOut d r).setNotices (r ++ [e]) := by
  have hfull : ¬p.mgmt.notices.length < Config.pendingDepth := by simp [hn, hr, Config.pendingDepth]
  have hdiscard : p.discardOldest = p.pushedOut d r := by simp only [Part.discardOldest, hn, Part.pushedOut]
  rw [Part.joinPending, if_neg hfull, hdiscard]
  rfl

/-- The discard of an entry that is no RESTART's reply makes no RESTART due. -/
theorem pushedOut_plain (hd : d.restart = false) (hlost : p.counters.noticesLost < 65535) :
    p.pushedOut d r =
      ({ p with
        mgmt := { p.mgmt with notices := r }
        counters := { p.counters with noticesLost := p.counters.noticesLost + 1 } }).record .noticeLost none none
          (some d.code) := by
  have hraise : raise p.counters.noticesLost = p.counters.noticesLost + 1 := if_pos hlost
  rw [Part.pushedOut, hd, Bool.or_false, hraise]

/-- The discard of a RESTART's reply makes the RESTART due. -/
theorem pushedOut_restart (hd : d.restart = true) (hlost : p.counters.noticesLost ≤ 65535) :
    p.pushedOut d r =
      ({ p with
        mgmt := { p.mgmt with notices := r, restartDue := true }
        counters := { p.counters with noticesLost := min 65535 (p.counters.noticesLost + 1) } }).record .noticeLost none none
          (some d.code) := by
  rw [Part.pushedOut, hd, Bool.or_true, raise_eq_min hlost]

end Reply

/-! ## BAD_ORDER (R172) -/

theorem concluded_idle {p : Part} (h : p.mgmt.restartDue = false) : p.concluded = p := by
  rw [Part.concluded, h]
  rfl

theorem concluded_due {p : Part} (h : p.mgmt.restartDue = true) : p.concluded = p.restart := if_pos h

/-- A BAD_ORDER frame in a part at rest comes to its reply, and to a RESTART that the reply may have made due. -/
theorem exec_badOrder {m : Mgmt} {s : State} (h : (s.part.dropHanded (.badOrder m)).atRest) :
    exec (.badOrder m) s = .next { s with
      part := ((s.part.dropHanded (.badOrder m)).reply m (.bare .badOrder) false).concluded } := by
  show Host.Outcome.next (s.onPart (Part.takeOrder (.badOrder m) m (refuse .badOrder) false)) = _
  rw [State.onPart, Part.takeOrder, refuse, Part.settled_rest _ h]

/-- Settles O40. -/
theorem badOrderReply : Obligations.BadOrderReply := by
  intro m s i p f l waiting
  have taken {q : Part} (hp : p.still) (hq : p.postFrames 0 false [f] = q) (hdue : q.mgmt.restartDue = false) :
      exec i s = .next { s with part := q } := by
    rw [exec_badOrder hp.1, reply_bare]
    exact congrArg (fun q => Host.Outcome.next { s with part := q })
      ((congrArg Part.concluded hq).trans (concluded_idle hdue))
  refine ⟨fun hq => State.takes_rest rfl rfl hq, fun hp hn hs hq => ?_, fun hp hfull hroom => ?_,
    fun e r hp hfull hn hr he hlost => ?_⟩
  · have hempty : (l.queues.get (p.classOf f)).length < 16 := by
      rw [hq]
      cases p.classOf f <;> decide
    exact taken hp ((postFrames_joins hempty hn 0 false).trans (enqueue_idle_control hs hq hn _ _)) hp.2
  · exact taken hp ((postFrames_waits hfull 0 false []).trans (joinPending_room hroom)) hp.2
  · have pushed := (postFrames_waits hfull 0 false []).trans (joinPending_full hn hr)
    rw [pushedOut_plain he hlost] at pushed
    exact taken hp pushed hp.2

/-! ## RESTART (R179) -/

/-- Settles O41. -/
theorem restartOrder : Obligations.RestartOrder := by
  refine ⟨fun m s => ?_, fun m s e r => ?_⟩
  · intro i p hq
    obtain ⟨hrest, hroom⟩ := hq
    exact ⟨_, rfl, State.replied_rest s i m _ true p _ rfl hrest hroom⟩
  · intro i p f waiting pushed hrest hb hfull hn hr he
    obtain ⟨-, -, -, -, -, -, hlost⟩ := hb.counters
    have hreply : p.reply m (.bare .badOrder) false = pushed := by
      rw [reply_bare]
      refine (postFrames_waits hfull 0 false []).trans ((joinPending_full hn hr).trans ?_)
      rw [pushedOut_restart he hlost]
    rw [exec_badOrder hrest, hreply, concluded_due (show pushed.mgmt.restartDue = true from rfl)]

theorem restart_queues (p : Part) (l : Line) : (p.restart.line l).queues = ⟨[], [], [], []⟩ := by
  cases l <;> rfl

/-- A RESTART leaves nothing ready, and none due: the part is TRANSPARENT. -/
theorem restart_still (p : Part) : p.restart.still := ⟨atRest_of_transparent rfl, rfl⟩

/-- At the end of its reply's transmission the RESTART takes effect, and the emptied queues hold no next frame. -/
theorem transmitEnd_restart {p : Part} {l : Line} {g : OutFrame} (hg : (p.line l).sending = some g)
    (hr : g.restart = true) : p.transmitEnd l = (p.setLine l { p.line l with sending := none }).restart := by
  simp only [Part.transmitEnd, hg, hr, if_true]
  exact pump_empty (restart_queues _ l)

/-- Settles O42. The written-out effect is the model's by unfolding: the RESTARTED entry meets an emptied FIFO, so it joins
it under either policy. -/
theorem restartTakesEffect : Obligations.RestartTakesEffect := by
  unfold Obligations.RestartTakesEffect
  intro effect
  have hrestart (p : Part) : p.restart = effect p := rfl
  refine ⟨hrestart, fun s f => ?_⟩
  intro l hl
  rw [← hrestart]
  exact State.run_rest (f := Part.transmitEnd .control) rfl (transmitEnd_restart hl rfl) (restart_still _)

end Sys2Proof.Machine
end

