-- ==== Sys2Proof/Proofs/RecordSets.lean ====
section
/-! PROOFS. Record sets read back what was written (O15). -/

namespace Sys2Proof.Machine

/-- Settles O15. -/
theorem recordSetsReadBack : Obligations.RecordSetsReadBack := fun _ t k j a =>
  ⟨Table.look_put t k a j, Table.look_remove t k j, fun h => ⟨Table.wf_put k a h, Table.wf_remove k h⟩⟩

end Sys2Proof.Machine
end

