-- ==== Sys2Proof/Proofs/MachineSteps.lean ====
section
/-! PROOFS. The step of the machine: the command at its front (O1, O3), the idle part (O2), and the state after reset
(O5). -/

namespace Sys2Proof.Machine

variable {s : State} {p : Part}

/-! ## The command at the front of the queue -/

theorem step_command {i : Instr} {rest : List Instr} (h : s.pending = i :: rest) :
    step s = exec i { s with pending := rest } := by
  rw [step, h]

/-- Settles O1. -/
theorem stepTakesFrontCommand : Obligations.StepTakesFrontCommand := fun _ _ => step_command rfl

/-- Every command is an effect on the part, the same from every state: none stops, and none reads or writes the queue. -/
theorem exec_eq_onPart (i : Instr) : ∃ f : Part → Part, ∀ s, exec i s = .next (s.onPart f) := by
  cases i <;> exact ⟨_, fun _ => rfl⟩

/-- Settles O3. -/
theorem everyCommandCompletes : Obligations.EveryCommandCompletes := by
  intro i s
  obtain ⟨f, hexec⟩ := exec_eq_onPart i
  exact ⟨s.onPart f, hexec s, rfl⟩

/-- Settles O5. -/
theorem resetIsPowerOn : Obligations.ResetIsPowerOn := ⟨rfl, fun _ => rfl⟩

/-! ## A tenth of a second in which no timer is due (log entry 2) -/

section NoTimer

/-- Every timer that runs is due later than now. -/
structure Part.noTimerDue (p : Part) : Prop where
  wrap : p.now < p.trace.wrapDue
  aging : p.now < p.stations.agingDue
  fresh : ∀ e ∈ p.watch.sensors, ∀ d, e.2.freshDue = some d → p.now < d
  context : ∀ e ∈ p.seq.contexts, ∀ d, (e.2.travelDue = some d ∨ e.2.queryDue = some d ∨ e.2.pollDue = some d ∨
    e.2.dwellDue = some d) → p.now < d
  verify : ∀ e ∈ p.ver, p.now < e.2.due

/-- A timer that does not run, or that is due later, does nothing. -/
theorem whenDue_later {t : Option Nat} (h : ∀ d, t = some d → p.now < d) (f : Part → Part) : p.whenDue t f = p := by
  refine if_neg ?_
  cases t with
  | none => exact Bool.false_ne_true
  | some d => simpa [Part.dueNow] using h d rfl

theorem tickSensor_of_noTimerDue (h : p.noTimerDue) (k : Nat) : p.tickSensor k = p := by
  refine whenDue_later (fun d hd => ?_) _
  obtain ⟨x, hx, hdue⟩ := Option.bind_eq_some_iff.1 hd
  exact h.fresh (k, x) (Table.mem_of_look hx) d hdue

/-- Each of the four timers of a context leaves the part to the next one as it was. -/
theorem tickContext_of_noTimerDue (h : p.noTimerDue) (v : Nat) : p.tickContext v = p := by
  have later (g : StepCtx → Option Nat)
      (hg : ∀ c d, g c = some d → c.travelDue = some d ∨ c.queryDue = some d ∨ c.pollDue = some d ∨ c.dwellDue = some d)
      (f : Part → Part) : p.whenDue ((p.context? v).bind g) f = p := by
    refine whenDue_later (fun d hd => ?_) _
    obtain ⟨c, hc, hdue⟩ := Option.bind_eq_some_iff.1 hd
    exact h.context (v, c) (Table.mem_of_look hc) d (hg c d hdue)
  unfold Part.tickContext
  dsimp only
  rw [later StepCtx.travelDue fun _ _ hd => .inl hd, later StepCtx.queryDue fun _ _ hd => .inr (.inl hd),
    later StepCtx.pollDue fun _ _ hd => .inr (.inr (.inl hd)), later StepCtx.dwellDue fun _ _ hd => .inr (.inr (.inr hd))]

theorem tickVerify_of_noTimerDue (h : p.noTimerDue) (r : Nat) : p.tickVerify r = p := by
  refine whenDue_later (fun d hd => ?_) _
  obtain ⟨w, hw, rfl⟩ := Option.map_eq_some_iff.1 hd
  exact h.verify (r, w) (Table.mem_of_look hw)

/-- A tenth of a second after which no timer is due: the clock alone goes on. -/
theorem tick_of_noTimerDue (h : Part.noTimerDue { p with now := p.now + 1 }) : p.tick = { p with now := p.now + 1 } := by
  unfold Part.tick
  generalize { p with now := p.now + 1 } = q at h ⊢
  dsimp only
  have hwrap : q.whenDue (some q.trace.wrapDue) Part.wrapTime = q :=
    whenDue_later (fun _ hd => Option.some.inj hd ▸ h.wrap) _
  have haging : q.whenDue (some q.stations.agingDue) Part.agingExpiry = q :=
    whenDue_later (fun _ hd => Option.some.inj hd ▸ h.aging) _
  rw [hwrap, haging, List.foldl_fixed' (tickSensor_of_noTimerDue h), List.foldl_fixed' (tickContext_of_noTimerDue h),
    List.foldl_fixed' (tickVerify_of_noTimerDue h)]

end NoTimer

/-! ## The idle part -/

theorem step_idle (h : s.pending = []) : step s = .next s.idle := by
  rw [step, h]

theorem idle_takes {i : Instr} {l : List Instr} (h : s.part.mgmt.handed = i :: l) : s.idle = { s with pending := [i] } := by
  rw [State.idle, h]

theorem idle_ticks (h : s.part.mgmt.handed = []) : s.idle = s.onPart Part.tick := by
  rw [State.idle, h]

/-- Settles O2. -/
theorem idleStep : Obligations.IdleStep := by
  intro s hpending
  rw [step_idle hpending]
  refine ⟨fun i l hhanded => ?_, fun hhanded hwrap haging hfresh hctx hver => ?_⟩
  · rw [idle_takes hhanded]
  · rw [idle_ticks hhanded, State.onPart, tick_of_noTimerDue ⟨hwrap, haging, hfresh, hctx, hver⟩]

end Sys2Proof.Machine
end
